-- ==== Sys2Proof/Word.lean ====
section
/-! DEFINITION. The LDU's words: the 32-bit command and port word, the 64-bit scalar, the text byte, the register
indices and the decimal value record of a `D` register (spec/10_state.md R21, R25, R30; spec/30_encoding.md R90). -/

namespace Sys2Proof

/-- A character of the text buffer (R60). -/
abbrev Byte := BitVec 8

/-- A command word or a port word (R90, R66). -/
abbrev Word := BitVec 32

/-- The contents of a scalar register `X[i]` (R30). -/
abbrev XWord := BitVec 64

/-- The index of a decimal value register, `D0` to `D15` (R21). -/
abbrev DReg := BitVec 4

/-- The index of a scalar register, `X0` to `X15` (R30). -/
abbrev XReg := BitVec 4

/-- The limb radix `BASE = 10^8` (R8). -/
@[reducible] def limbBase : Nat := 100000000

/-- The class tag of a decimal value (R25). Three constructors and no fourth: code 3 is never produced (U11). -/
inductive Cls where
  | fin
  | inf
  | nan
deriving DecidableEq, Repr, Inhabited

/-- The style bit of `FORMAT` (R92, R98): `#SCI` is 0 and `#FIX` is 1. -/
inductive Style where
  | sci
  | fix
deriving DecidableEq, Repr, Inhabited

/-- The contents of a decimal value register (R21): limbs of 32 bits with limb 0 the most significant, the exponent
(an integer; that it fits the EW-bit field is invariant INV6 of R22, log entry 9), the sign flag (true = negative),
the class and the active limb count. -/
structure DValue where
  limbs : List (BitVec 32)
  exp   : Int
  neg   : Bool
  cls   : Cls
  prec  : BitVec 16
deriving DecidableEq, Repr, Inhabited

end Sys2Proof
end

