-- ==== Sys2Proof/Config.lean ====
section
/-! DEFINITION. What an implementation of the LDU fixes (spec/00_scope.md R6) and the free values the spec leaves open
(spec/93_implementation_defined.md U2 to U5). -/

namespace Sys2Proof

/-- Which instance of a configuration function an implementation has: the reference instance of the spec, or some
other function meeting the function's contract, told apart by a number (U3, U4, U5; log entry 2). -/
inductive ConfigFn where
  | reference
  | custom (id : Nat)
deriving DecidableEq, Repr, Inhabited

/-- The implementation parameters of R6. `N`, `MIN_EXP10`, `NREG` and `NX` are derived or fixed. -/
structure Config where
  /-- `DIGITS`, the requested significant decimal digits. -/
  digits : Nat
  /-- `EW`, the width in bits of the exponent field. -/
  ew : Nat
  /-- `MAX_EXP10`, the largest decimal exponent of a finite value. -/
  maxExp : Nat
  /-- `TBYTES`, the size in bytes of the text buffer. -/
  tbytes : Nat
  /-- `SeedRecip` (R174). -/
  seedRecip : ConfigFn
  /-- `SeedSqrt` (R192). -/
  seedSqrt : ConfigFn
  /-- `DecToF64` (R266). -/
  decToF64 : ConfigFn
  /-- `F64ToDec` (R268). -/
  f64ToDec : ConfigFn
deriving DecidableEq, Repr, Inhabited

/-- The limb capacity `N = max(2, ceil(DIGITS/8)) + 3` (R6). -/
def Config.n (c : Config) : Nat := max 2 ((c.digits + 7) / 8) + 3

/-- `MIN_EXP10 = -MAX_EXP10` (R6). -/
def Config.minExp (c : Config) : Int := -(c.maxExp : Int)

/-- The constraints R6 puts on the parameters, and one that R22 implies: `DIGITS - 1 ≤ MAX_EXP10`, without which the
registry's EPS would lie below MINV and `LDC` would break INV6 (log entry 18). -/
abbrev Config.Valid (c : Config) : Prop :=
  (1 ≤ c.digits ∧ c.digits ≤ 14728) ∧
  (c.ew ≤ 64 ∧ c.maxExp < 2 ^ (c.ew - 1)) ∧
  (c.maxExp % 8 = 0 ∧ 320 ≤ c.maxExp) ∧
  (c.tbytes % 4 = 0 ∧ 16 ≤ c.tbytes ∧ 8 * c.n ≤ c.tbytes ∧ c.tbytes ≤ 32768) ∧
  c.digits ≤ c.maxExp + 1

/-- The reference configuration of R6 (log entry 1). -/
def Config.reference : Config where
  digits := 16
  ew := 32
  maxExp := 67108864
  tbytes := 4096
  seedRecip := .reference
  seedSqrt := .reference
  decToF64 := .reference
  f64ToDec := .reference

/-- The byte a read of an unwritten text-buffer byte yields: free (R61, U2; log entry 6). The first argument numbers
the drawing step, the second is the address. -/
opaque Config.freeByte : Nat → Nat → Byte

/-- What the reciprocal seed number `id` of U3 answers; free (log entry 2). -/
opaque Config.customSeedRecip : Nat → Config → DValue → DValue

/-- What the square-root seed number `id` of U3 answers; free (log entry 2). -/
opaque Config.customSeedSqrt : Nat → Config → DValue → DValue × DValue

/-- What the text-to-binary64 conversion number `id` of U4 answers; free (log entry 2). -/
opaque Config.customDecToF64 : Nat → Bool → List Byte → Int → XWord

/-- What the binary64-to-decimal conversion number `id` of U5 answers; free (log entry 2). -/
opaque Config.customF64ToDec : Nat → Config → XWord → DValue

end Sys2Proof
end

