-- ==== Sys2Proof/Syntax.lean ====
section
/-! DEFINITION. The commands of the LDU, one constructor per row of spec/opcode_table.json (spec/30_encoding.md R93).
Operands stand in the order of R93, destination first. -/

namespace Sys2Proof

/-- A command (R93). -/
inductive Instr where
  | nop
  | mov (d s : DReg)
  | neg (d s : DReg)
  | abs (d s : DReg)
  | ldc (d : DReg) (cid : BitVec 9)
  | setprec (d : DReg) (p : BitVec 12)
  | getprec (d : XReg) (s : DReg)
  | fromu64 (d : DReg) (s : XReg)
  | fromi64 (d : DReg) (s : XReg)
  | fromf64 (d : DReg) (s : XReg)
  | tou64 (d : XReg) (s : DReg)
  | toi64 (d : XReg) (s : DReg)
  | tof64 (d : XReg) (s : DReg)
  | add (d s1 s2 : DReg)
  | sub (d s1 s2 : DReg)
  | mul (d s1 s2 : DReg)
  | div (d s1 s2 : DReg)
  | recip (d s : DReg)
  | sqrt (d s : DReg)
  | cmp (d : XReg) (s1 s2 : DReg)
  | iszero (d : XReg) (s : DReg)
  | isone (d : XReg) (s : DReg)
  | isint (d : XReg) (s : DReg)
  | isneg (d : XReg) (s : DReg)
  | isnan (d : XReg) (s : DReg)
  | isinf (d : XReg) (s : DReg)
  | isfin (d : XReg) (s : DReg)
  | classof (d : XReg) (s : DReg)
  | parse (d : DReg)
  | format (s : DReg) (n : XReg) (style : Style)
deriving DecidableEq, Repr

end Sys2Proof
end

