-- ==== Sys2Proof/WellFormed.lean ====
section
/-! DEFINITION. The operand checks of a command (spec/30_encoding.md R95 (c) and (d)): the only commands whose operands
can be wrong are `LDC`, with an unassigned constant id, and `SETPREC`, with a limb count of 0 or above N. -/

namespace Sys2Proof

/-- The constant ids the registry of R50 assigns: 0 to 13 and 256 to 510. -/
def constantAssigned (cid : Nat) : Bool := cid ≤ 13 || (256 ≤ cid && cid ≤ 510)

/-- The limb counts `SETPREC` accepts: 1 to N (R95 (d)). -/
def precisionLegal (n p : Nat) : Bool := 1 ≤ p && p ≤ n

/-- A command whose operands the spec allows when the limb capacity is `n` (R95). -/
def Instr.wellFormed (n : Nat) : Instr → Bool
  | .nop => true
  | .mov _ _ => true
  | .neg _ _ => true
  | .abs _ _ => true
  | .ldc _ cid => constantAssigned cid.toNat
  | .setprec _ p => precisionLegal n p.toNat
  | .getprec _ _ => true
  | .fromu64 _ _ => true
  | .fromi64 _ _ => true
  | .fromf64 _ _ => true
  | .tou64 _ _ => true
  | .toi64 _ _ => true
  | .tof64 _ _ => true
  | .add _ _ _ => true
  | .sub _ _ _ => true
  | .mul _ _ _ => true
  | .div _ _ _ => true
  | .recip _ _ => true
  | .sqrt _ _ => true
  | .cmp _ _ _ => true
  | .iszero _ _ => true
  | .isone _ _ => true
  | .isint _ _ => true
  | .isneg _ _ => true
  | .isnan _ _ => true
  | .isinf _ _ => true
  | .isfin _ _ => true
  | .classof _ _ => true
  | .parse _ => true
  | .format _ _ _ => true

end Sys2Proof
end

