-- ==== Sys2Proof/Decode.lean ====
section
/-! DEFINITION. The decoder of command words, total on all 2^32 words and rejecting by name, and the encoder, both from
the formats and the opcode map of spec/30_encoding.md (R90, R91, R93, R95). -/

namespace Sys2Proof

/-- Why a word is no command (R95): (a) its opcode is unassigned, (b) a field its format does not use is not zero,
(c) `LDC` of an unassigned constant, (d) `SETPREC` of 0 or of more than N limbs. -/
inductive IllegalWord where
  | unknownOpcode
  | unusedField
  | unassignedConstant
  | precisionOutOfRange
deriving DecidableEq, Repr

/-- Bits 31:24 (R90). -/
def opField (w : Word) : BitVec 8 := w.extractLsb' 24 8

/-- Bits 23:20 (R90). -/
def aField (w : Word) : BitVec 4 := w.extractLsb' 20 4

/-- Bits 19:16 (R90). -/
def bField (w : Word) : BitVec 4 := w.extractLsb' 16 4

/-- Bits 15:12 (R90). -/
def cField (w : Word) : BitVec 4 := w.extractLsb' 12 4

/-- Bits 11:0 (R90). -/
def immField (w : Word) : BitVec 12 := w.extractLsb' 0 12

/-- Format Z: no field is used (R91). -/
def formatZ (w : Word) (i : Instr) : Except IllegalWord Instr :=
  if aField w = 0 ∧ bField w = 0 ∧ cField w = 0 ∧ immField w = 0 then .ok i else .error .unusedField

/-- Format D: `a` alone is used (R91). -/
def formatD (w : Word) (mk : BitVec 4 → Instr) : Except IllegalWord Instr :=
  if bField w = 0 ∧ cField w = 0 ∧ immField w = 0 then .ok (mk (aField w)) else .error .unusedField

/-- Formats DD, XD and DX: `a` and `b` are used (R91). -/
def formatAB (w : Word) (mk : BitVec 4 → BitVec 4 → Instr) : Except IllegalWord Instr :=
  if cField w = 0 ∧ immField w = 0 then .ok (mk (aField w) (bField w)) else .error .unusedField

/-- Formats DDD and XDD: `a`, `b` and `c` are used (R91). -/
def formatABC (w : Word) (mk : BitVec 4 → BitVec 4 → BitVec 4 → Instr) : Except IllegalWord Instr :=
  if immField w = 0 then .ok (mk (aField w) (bField w) (cField w)) else .error .unusedField

/-- Format DC: `a` and `imm[8:0]` are used (R91), and the constant must be assigned (R95 (c)). -/
def formatDC (w : Word) (mk : BitVec 4 → BitVec 9 → Instr) : Except IllegalWord Instr :=
  if bField w = 0 ∧ cField w = 0 ∧ (immField w).extractLsb' 9 3 = 0 then
    if constantAssigned ((immField w).extractLsb' 0 9).toNat then .ok (mk (aField w) ((immField w).extractLsb' 0 9))
    else .error .unassignedConstant
  else .error .unusedField

/-- Format DP: `a` and `imm` are used (R91), and the limb count must be legal (R95 (d)). -/
def formatDP (n : Nat) (w : Word) (mk : BitVec 4 → BitVec 12 → Instr) : Except IllegalWord Instr :=
  if bField w = 0 ∧ cField w = 0 then
    if precisionLegal n (immField w).toNat then .ok (mk (aField w) (immField w))
    else .error .precisionOutOfRange
  else .error .unusedField

/-- The style of bit 0 (R92). -/
def styleOfBit (b : BitVec 1) : Style := if b = 0 then .sci else .fix

/-- The bit of a style (R92, R98). -/
def bitOfStyle : Style → BitVec 1
  | .sci => 0
  | .fix => 1

/-- Format F: `b`, `c` and `imm[0]` are used (R91). -/
def formatF (w : Word) (mk : BitVec 4 → BitVec 4 → Style → Instr) : Except IllegalWord Instr :=
  if aField w = 0 ∧ (immField w).extractLsb' 1 11 = 0 then
    .ok (mk (bField w) (cField w) (styleOfBit ((immField w).extractLsb' 0 1)))
  else .error .unusedField

/-- The command a word stands for when the limb capacity is `n`, or why it is illegal (R93, R94, R95). -/
def decode (n : Nat) (w : Word) : Except IllegalWord Instr :=
  match (opField w).toNat with
  | 0x00 => formatZ w .nop
  | 0x01 => formatAB w .mov
  | 0x02 => formatAB w .neg
  | 0x03 => formatAB w .abs
  | 0x04 => formatDC w .ldc
  | 0x05 => formatDP n w .setprec
  | 0x06 => formatAB w .getprec
  | 0x08 => formatAB w .fromu64
  | 0x09 => formatAB w .fromi64
  | 0x0A => formatAB w .fromf64
  | 0x0C => formatAB w .tou64
  | 0x0D => formatAB w .toi64
  | 0x0E => formatAB w .tof64
  | 0x10 => formatABC w .add
  | 0x11 => formatABC w .sub
  | 0x12 => formatABC w .mul
  | 0x13 => formatABC w .div
  | 0x14 => formatAB w .recip
  | 0x15 => formatAB w .sqrt
  | 0x20 => formatABC w .cmp
  | 0x21 => formatAB w .iszero
  | 0x22 => formatAB w .isone
  | 0x23 => formatAB w .isint
  | 0x24 => formatAB w .isneg
  | 0x25 => formatAB w .isnan
  | 0x26 => formatAB w .isinf
  | 0x27 => formatAB w .isfin
  | 0x28 => formatAB w .classof
  | 0x30 => formatD w .parse
  | 0x31 => formatF w .format
  | _ => .error .unknownOpcode

/-- The five fields as one word (R90). -/
def packFields (op : BitVec 8) (a b c : BitVec 4) (imm : BitVec 12) : Word := op ++ a ++ b ++ c ++ imm

/-- The command word of a command (R91, R93). -/
def encode : Instr → Word
  | .nop => packFields 0x00 0 0 0 0
  | .mov d s => packFields 0x01 d s 0 0
  | .neg d s => packFields 0x02 d s 0 0
  | .abs d s => packFields 0x03 d s 0 0
  | .ldc d cid => packFields 0x04 d 0 0 (cid.setWidth 12)
  | .setprec d p => packFields 0x05 d 0 0 p
  | .getprec d s => packFields 0x06 d s 0 0
  | .fromu64 d s => packFields 0x08 d s 0 0
  | .fromi64 d s => packFields 0x09 d s 0 0
  | .fromf64 d s => packFields 0x0A d s 0 0
  | .tou64 d s => packFields 0x0C d s 0 0
  | .toi64 d s => packFields 0x0D d s 0 0
  | .tof64 d s => packFields 0x0E d s 0 0
  | .add d s1 s2 => packFields 0x10 d s1 s2 0
  | .sub d s1 s2 => packFields 0x11 d s1 s2 0
  | .mul d s1 s2 => packFields 0x12 d s1 s2 0
  | .div d s1 s2 => packFields 0x13 d s1 s2 0
  | .recip d s => packFields 0x14 d s 0 0
  | .sqrt d s => packFields 0x15 d s 0 0
  | .cmp d s1 s2 => packFields 0x20 d s1 s2 0
  | .iszero d s => packFields 0x21 d s 0 0
  | .isone d s => packFields 0x22 d s 0 0
  | .isint d s => packFields 0x23 d s 0 0
  | .isneg d s => packFields 0x24 d s 0 0
  | .isnan d s => packFields 0x25 d s 0 0
  | .isinf d s => packFields 0x26 d s 0 0
  | .isfin d s => packFields 0x27 d s 0 0
  | .classof d s => packFields 0x28 d s 0 0
  | .parse d => packFields 0x30 d 0 0 0
  | .format s n style => packFields 0x31 0 s n ((bitOfStyle style).setWidth 12)

/-- The command of a word of the opcode table, its bits above `nbits` zero, in the reference configuration
(log entry 14). A command word is one 32-bit word taken by value, so no byte order enters (R78). -/
def decodeTableWord (nbits w : Nat) : Option Instr :=
  match decode Config.reference.n (BitVec.ofNat 32 (w % 2 ^ nbits)) with
  | .ok i => some i
  | .error _ => none

end Sys2Proof
end

