-- ==== Sys2Proof/Machine/Value.lean ====
section
/-! DEFINITION. The value helpers every command family uses (spec/00_scope.md R13), the invariants of a stored value
(spec/10_state.md R22), `Saturate` (spec/41_add_sub.md R146) and the sign operations (spec/40_limb_store.md R122, R123).
Numbers are mathematical integers (R9); a record's limbs are read as naturals and stored back as 32-bit vectors. -/

namespace Sys2Proof

/-- The code of a class (R25). -/
def Cls.code : Cls → Nat
  | .fin => 0
  | .inf => 1
  | .nan => 2

/-- The limbs as naturals, most significant first (R10). -/
def DValue.nats (v : DValue) : List Nat := v.limbs.map BitVec.toNat

/-- Limb `i` as a natural; beyond the last limb, 0 (R10). -/
def DValue.limb (v : DValue) (i : Nat) : Nat := v.nats.getD i 0

/-- A finite record from its limbs, exponent, sign and precision. -/
def finiteValue (ls : List Nat) (exp : Int) (neg : Bool) (prec : Nat) : DValue :=
  { limbs := ls.map (BitVec.ofNat 32), exp := exp, neg := neg, cls := .fin, prec := BitVec.ofNat 16 prec }

/-- The record with leading limb `l`, every other limb 0. -/
def leadingLimb (n l : Nat) (exp : Int) (neg : Bool) : DValue :=
  finiteValue (l :: List.replicate (n - 1) 0) exp neg n

/-- `Zero` with `N = n` limbs (R13, R27). -/
def DValue.zero (n : Nat) : DValue := finiteValue (List.replicate n 0) 0 false n

/-- `Inf(s)` (R13, R27). -/
def DValue.infinity (n : Nat) (s : Bool) : DValue := { DValue.zero n with neg := s, cls := .inf }

/-- `NaN` (R13, R27). -/
def DValue.notANumber (n : Nat) : DValue := { DValue.zero n with cls := .nan }

/-- `IsZero(v)` (R13, R203). -/
def DValue.isZero (v : DValue) : Bool := v.cls == .fin && v.limb 0 == 0

/-- `WithPrec(v, p)` (R13). -/
def DValue.withPrec (v : DValue) (p : Nat) : DValue := { v with prec := BitVec.ofNat 16 p }

/-- `Neg(v)` (R122): zero and NaN stay as they are. -/
def DValue.negate (v : DValue) : DValue :=
  if v.cls = .nan ∨ v.isZero = true then v else { v with neg := !v.neg }

/-- `Abs(v)` (R123). -/
def DValue.absolute (v : DValue) : DValue := { v with neg := false }

/-- The sum of `limb[i] * 10^(e - 8*i)` over a limb list whose first limb weighs `10^e` (R23). -/
def limbSum : List Nat → Int → ℚ
  | [], _ => 0
  | l :: ls, e => (l : ℚ) * (10 : ℚ) ^ e + limbSum ls (e - 8)

/-- `Val(v)` of a finite value (R13, R23). All limbs enter it, whatever `prec` is. -/
def DValue.val (v : DValue) : ℚ := (if v.neg then -1 else 1) * limbSum v.nats v.exp

/-- Lexicographic comparison of two limb lists, most significant limb first (R13). -/
def limbCompare : List Nat → List Nat → Ordering
  | a :: as, b :: bs => if a < b then .lt else if b < a then .gt else limbCompare as bs
  | _, _ => .eq

/-- `MagCmp(a, b)` (R13): zero is below every non-zero magnitude, then the exponents decide, then the limbs. -/
def magCmp (a b : DValue) : Ordering :=
  if a.isZero then (if b.isZero then .eq else .lt)
  else if b.isZero then .gt
  else if a.exp < b.exp then .lt
  else if b.exp < a.exp then .gt
  else limbCompare a.nats b.nats

/-- MAXV = 10^MAX_EXP10 (R50, cid 7). -/
def maxValue (c : Config) : DValue := leadingLimb c.n 1 c.maxExp false

/-- MINV = 10^MIN_EXP10 (R50, cid 6). -/
def minValue (c : Config) : DValue := leadingLimb c.n 1 c.minExp false

/-- `Saturate(r)` (R146): above MAXV in magnitude is infinity with the sign of `r`, below MINV is the positive zero,
equality with either is kept. -/
def saturate (c : Config) (r : DValue) : DValue :=
  if r.cls ≠ .fin ∨ r.isZero = true then r
  else if magCmp r (maxValue c) = .gt then DValue.infinity c.n r.neg
  else if magCmp r (minValue c) = .lt then DValue.zero c.n
  else r

/-- INV6 (R22): a finite non-zero value lies between MINV and MAXV in magnitude. -/
def DValue.inRange (c : Config) (v : DValue) : Bool :=
  v.cls != .fin || v.isZero || (magCmp v (minValue c) != .lt && magCmp v (maxValue c) != .gt)

/-- The invariants INV1 to INV7 of a stored value (R22), with the canonical forms of R27; INV8 is the type `Cls`. INV2
and INV4 are the third line: a finite value whose leading limb is 0 is the zero record. -/
abbrev DValue.wf (c : Config) (v : DValue) : Prop :=
  (v.limbs.length = c.n ∧ v.exp % 8 = 0) ∧
  (∀ l ∈ v.nats, l < limbBase) ∧
  (v.isZero = true → v.withPrec c.n = DValue.zero c.n) ∧
  (v.cls = .inf → v.withPrec c.n = DValue.infinity c.n v.neg) ∧
  (v.cls = .nan → v.withPrec c.n = DValue.notANumber c.n) ∧
  v.inRange c = true ∧
  (1 ≤ v.prec.toNat ∧ v.prec.toNat ≤ c.n)

/-- Counts decimal digits, at most `fuel` of them. -/
def countDigitsUpTo : Nat → Nat → Nat
  | 0, _ => 0
  | fuel + 1, m => if m = 0 then 0 else countDigitsUpTo fuel (m / 10) + 1

/-- The number of decimal digits of `m`; 0 for 0. -/
def countDigits (m : Nat) : Nat := countDigitsUpTo (Nat.log2 m + 1) m

/-- `floor(m * 10^s)`. -/
def scaleFloor (m : Nat) (s : Int) : Nat := if 0 ≤ s then m * 10 ^ s.toNat else m / 10 ^ (-s).toNat

/-- The `n` limbs of a natural below `BASE^n`, most significant first (R13). -/
def splitLimbs (n m : Nat) : List Nat := (List.range n).map fun i => m / limbBase ^ (n - 1 - i) % limbBase

/-- `TruncN(q)` for the decimal fraction `q = m * 10^k` (R13): every rational the spec applies it to has this form
(log entry 15). -/
def truncN (n m : Nat) (k : Int) : DValue :=
  if m = 0 then DValue.zero n
  else
    let w : Int := k + countDigits m - 1
    let ex : Int := 8 * (w / 8)
    finiteValue (splitLimbs n (scaleFloor m (k - (ex - 8 * ((n : Int) - 1))))) ex false n

end Sys2Proof
end

