-- ==== Sys2Proof/Machine/State.lean ====
section
/-! DEFINITION. The state of one LDU as plain data (spec/10_state.md R20), the host's accesses it answers
(spec/20_memory.md R62, R66), the reasons a step can stop, and the state after reset (R56). -/

namespace Sys2Proof.Machine

/-- `FLAGS` (R44): `DOM`, `PERR` and `ILL`. Bit 2, `FATAL`, and bits 31:4 read 0 and have no storage (U9). -/
structure Flags where
  dom  : Bool
  perr : Bool
  ill  : Bool
deriving DecidableEq, Repr

/-- A flag a command can raise (R281). -/
inductive Flag where
  | dom
  | perr
  | ill
deriving DecidableEq, Repr

/-- The text buffer (R60): the bytes written since reset, addresses strictly rising. An address that is not listed
holds no value (R61, log entry 6). -/
structure TextBuffer where
  cells : List Host.Cell
deriving DecidableEq, Repr

/-- The width of a port access (R66): only 32 bits is accepted. -/
inductive Width where
  | w8
  | w16
  | w32
  | w64
deriving DecidableEq, Repr

/-- What the outside does to the LDU: a port write, a port read (R62) or a reset (R310). A width other than 32 bits is
refused whatever its data, so the event carries 32 bits of data. -/
inductive HostEvent where
  | write (width : Width) (offset : BitVec 16) (data : Word)
  | read (width : Width) (offset : BitVec 16)
  | reset
deriving DecidableEq, Repr

/-- Why an access is refused (R66; which of several applicable reasons is named is the model's own, log entry 5). -/
inductive PortRefusal where
  | misaligned
  | notWord
  | unmapped
  | readOnly
  | writeOnly
  | beyondTextBuffer
deriving DecidableEq, Repr

/-- What the port answered to the last host event: nothing yet, a write performed, a word read, or the error response
of a refused access (R66, R285; log entry 4). -/
inductive PortResponse where
  | quiet
  | written
  | data (w : Word)
  | refused (why : PortRefusal)
deriving DecidableEq, Repr

/-- A step that stops the machine with a fault. -/
inductive Fault where
  /-- A command would access the byte `addr` of the text buffer, which does not exist (`addr ≥ TBYTES`, R11). Raised by
  `PARSE` and `FORMAT`; no state that meets the invariants of R22 and R45 reaches it (log entry 12). Safe. -/
  | noSuchByte (addr : Nat)
deriving DecidableEq, Repr

/-- A step for which the model has no meaning. -/
inductive Refusal where
  /-- The command named has no meaning in this model yet. Raised by no arm of `exec`. Safe. -/
  | notModelled (mnemonic : String)
deriving DecidableEq, Repr

/-- The state of the LDU (R20), and the model's own fields `cfg`, `pending`, `port` and `draws`. -/
structure State where
  /-- `D[0..15]` (R21). -/
  dregs : Vector DValue 16
  /-- `X[0..15]` (R30). -/
  xregs : Vector XWord 16
  /-- `FLAGS` (R44). -/
  flags : Flags
  /-- `TLEN` (R45). -/
  tlen : BitVec 16
  /-- `FEXP` (R46). -/
  fexp : BitVec 64
  /-- `FINFO` (R47). -/
  finfo : BitVec 20
  /-- `DSEL` (R48). -/
  dsel : BitVec 32
  /-- `TBUF` (R60). -/
  tbuf : TextBuffer
  /-- `STATUS.BUSY` (R43; log entry 8). -/
  busy : Bool
  /-- The implementation parameters of R6, which no step changes (the model's own field, log entry 1). -/
  cfg : Config
  /-- The host's events still to come, the next one first (the model's own field, log entry 3). -/
  pending : List HostEvent
  /-- The port's answer to the last event (the model's own field, log entry 4). -/
  port : PortResponse
  /-- How many steps have drawn free bytes (the model's own field, log entry 6). -/
  draws : Nat
deriving DecidableEq, Repr

/-- The reset state of an LDU with the parameters `c` (R56, R310). -/
def State.resetWith (c : Config) : State where
  dregs := Vector.replicate 16 (DValue.zero c.n)
  xregs := Vector.replicate 16 0
  flags := { dom := false, perr := false, ill := false }
  tlen := 0
  fexp := 0
  finfo := 0
  dsel := 0
  tbuf := { cells := [] }
  busy := false
  cfg := c
  pending := []
  port := .quiet
  draws := 0

/-- The machine right after reset, in the reference configuration, no host event pending (R56; log entries 1 and 3). -/
def State.reset : State := State.resetWith Config.reference

end Sys2Proof.Machine
end

