-- ==== Sys2Proof/Machine/Flags.lean ====
section
/-! DEFINITION. The `FLAGS` register: raising a flag, the host's write-one-to-clear and the word the host reads
(spec/10_state.md R44, spec/60_exceptions.md R280, R289). -/

namespace Sys2Proof.Machine

/-- Sets one flag; a flag that is already 1 stays 1 (R289). -/
def Flags.set (f : Flags) : Flag → Flags
  | .dom => { f with dom := true }
  | .perr => { f with perr := true }
  | .ill => { f with ill := true }

/-- A host write of `w`: a bit written as 1 is cleared, a bit written as 0 stays (R44). -/
def Flags.writeOneToClear (f : Flags) (w : Word) : Flags where
  dom := f.dom && !w.getLsbD 0
  perr := f.perr && !w.getLsbD 1
  ill := f.ill && !w.getLsbD 3

/-- The word the host reads: `DOM` bit 0, `PERR` bit 1, `FATAL` bit 2 always 0, `ILL` bit 3 (R44). -/
def Flags.word (f : Flags) : Word :=
  (0 : BitVec 28) ++ BitVec.ofBool f.ill ++ (0 : BitVec 1) ++ BitVec.ofBool f.perr ++ BitVec.ofBool f.dom

end Sys2Proof.Machine
end

