-- ==== Sys2Proof/Machine/Ops.lean ====
section
/-! DEFINITION. The named operations over registers and the text buffer that every meaning goes through
(spec/00_scope.md R10, R11, R12), with the one shared form of an exceptional condition: raising a flag, and ending a
command with nothing but a flag (spec/60_exceptions.md R280, R283). -/

namespace Sys2Proof.Machine

/-- What a command or a step answers. -/
abbrev Result := Host.Outcome State Fault Refusal

/-- `D[r]` (R10). -/
def State.readD (s : State) (r : DReg) : DValue := s.dregs[r.toFin]

/-- `D[r] <- v` (R10). -/
def State.writeD (s : State) (r : DReg) (v : DValue) : State := { s with dregs := s.dregs.set r.toNat v r.isLt }

/-- `X[i]` (R10). -/
def State.readX (s : State) (i : XReg) : XWord := s.xregs[i.toFin]

/-- `X[i] <- v` (R10). -/
def State.writeX (s : State) (i : XReg) (v : XWord) : State := { s with xregs := s.xregs.set i.toNat v i.isLt }

/-- `raise Flag(F)` (R12): the sticky bit is set and the command goes on. -/
def State.raise (s : State) (f : Flag) : State := { s with flags := s.flags.set f }

/-- `abort Flag(F)` (R12, R283): the sticky bit is set and nothing else changes. This is the LDU's one way of taking an
exception (R280): nothing is saved and control goes nowhere. -/
def abort (f : Flag) (s : State) : Result := .next (s.raise f)

/-- The host's clearing of flags (R44, R289), the counterpart of a return from an exception. -/
def State.clearFlags (s : State) (w : Word) : State := { s with flags := s.flags.writeOneToClear w }

/-- The byte a cell list holds at an address, if one was written. -/
def lookupCell (a : Nat) : List Host.Cell → Option Byte
  | [] => none
  | (k, v) :: rest => if a = k then some v else lookupCell a rest

/-- Puts a byte at its place in a list of strictly rising addresses. -/
def insertCell (a : Nat) (b : Byte) : List Host.Cell → List Host.Cell
  | [] => [(a, b)]
  | (k, v) :: rest =>
    if a < k then (a, b) :: (k, v) :: rest
    else if a = k then (a, b) :: rest
    else (k, v) :: insertCell a b rest

/-- The canonical form: addresses strictly rising. An unlisted address holds no value, so no entry can equal it. -/
abbrev TextBuffer.wf (t : TextBuffer) : Prop := t.cells.Pairwise fun p q => p.1 < q.1

/-- `TBUF[a]`, or nothing if no byte was written there since reset (R61). -/
def TextBuffer.read (t : TextBuffer) (a : Nat) : Option Byte := lookupCell a t.cells

/-- `TBUF[a] <- b` (R11). -/
def TextBuffer.write (t : TextBuffer) (a : Nat) (b : Byte) : TextBuffer := { cells := insertCell a b t.cells }

/-- Writes the bytes of a list at ascending addresses from `a`. -/
def TextBuffer.writeBytes (t : TextBuffer) : Nat → List Byte → TextBuffer
  | _, [] => t
  | a, b :: bs => TextBuffer.writeBytes (t.write a b) (a + 1) bs

/-- The byte a read yields: the byte written there, or a free byte (R61, U2; log entry 6). -/
def State.readByte (s : State) (a : Nat) : Byte :=
  match s.tbuf.read a with
  | some b => b
  | none => Config.freeByte s.draws a

/-- The `len` bytes from address `a` (R11). -/
def State.readBytes (s : State) (a len : Nat) : List Byte := (List.range len).map fun i => s.readByte (a + i)

/-- Whether some byte of the `len` bytes from `a` was never written since reset (R61). -/
def State.someUnwritten (s : State) (a len : Nat) : Bool :=
  (List.range len).any fun i => (s.tbuf.read (a + i)).isNone

/-- The state after a read of the `len` bytes from `a`: if a free byte was drawn, later draws are fresh (log entry 6). -/
def State.afterRead (s : State) (a len : Nat) : State :=
  if s.someUnwritten a len then { s with draws := s.draws + 1 } else s

/-- The state after the `len` bytes `bs` are written from address `a`. -/
def State.writeText (s : State) (a : Nat) (bs : List Byte) : State := { s with tbuf := s.tbuf.writeBytes a bs }

end Sys2Proof.Machine
end

