-- ==== Sys2Proof/Machine/Operands.lean ====
section
/-! DEFINITION. The operand forms: the constants of the registry (spec/10_state.md R50), scalars read as unsigned and
signed integers and written back (spec/00_scope.md R10, spec/10_state.md R30), predicate results
(spec/45_compare_classify.md). -/

namespace Sys2Proof.Machine

/-- `Registry[256 + j] = POW2(j - 127) = TruncN(2^(j-127))` (R50): `2^-k` is `5^k * 10^-k`. -/
def powerOfTwo (n j : Nat) : DValue :=
  if 127 ≤ j then truncN n (2 ^ (j - 127)) 0 else truncN n (5 ^ (127 - j)) (-((127 - j : Nat) : Int))

/-- DBLMAX = TruncN((2^53 - 1)*2^971) (R50, cid 12). -/
def doubleMax (n : Nat) : DValue := truncN n ((2 ^ 53 - 1) * 2 ^ 971) 0

/-- DBLMIN = TruncN(2^-1022) (R50, cid 13): `2^-1022` is `5^1022 * 10^-1022`. -/
def doubleMin (n : Nat) : DValue := truncN n (5 ^ 1022) (-1022)

/-- The registry (R50): the record of a constant id, nothing for an unassigned id. -/
def registry (c : Config) (cid : Nat) : Option DValue :=
  match cid with
  | 0 => some (DValue.zero c.n)
  | 1 => some (leadingLimb c.n 1 0 false)
  | 2 => some (leadingLimb c.n 2 0 false)
  | 3 => some (leadingLimb c.n 50000000 (-8) false)
  | 4 => some (DValue.notANumber c.n)
  | 5 => some (DValue.infinity c.n false)
  | 6 => some (minValue c)
  | 7 => some (maxValue c)
  | 8 => some (truncN c.n 1 (1 - (c.digits : Int)))
  | 9 => some (finiteValue ([922, 33720368, 54775807] ++ List.replicate (c.n - 3) 0) 16 false c.n)
  | 10 => some (finiteValue ([922, 33720368, 54775808] ++ List.replicate (c.n - 3) 0) 16 true c.n)
  | 11 => some (finiteValue ([1844, 67440737, 9551615] ++ List.replicate (c.n - 3) 0) 16 false c.n)
  | 12 => some (doubleMax c.n)
  | 13 => some (doubleMin c.n)
  | id => if 256 ≤ id ∧ id ≤ 510 then some (powerOfTwo c.n (id - 256)) else none

/-- ONE (R50, cid 1). -/
def oneValue (c : Config) : DValue := leadingLimb c.n 1 0 false

/-- TWO (R50, cid 2). -/
def twoValue (c : Config) : DValue := leadingLimb c.n 2 0 false

/-- `X[i]` as an unsigned integer (R127, R240). -/
def State.readUnsigned (s : State) (i : XReg) : Nat := (s.readX i).toNat

/-- `X[i]` as a two's-complement signed integer (R260). -/
def State.readSigned (s : State) (i : XReg) : Int := (s.readX i).toInt

/-- `X[i] <- v` for an integer, in two's complement (R10). -/
def State.writeInt (s : State) (i : XReg) (v : Int) : State := s.writeX i (BitVec.ofInt 64 v)

/-- `X[i] <- 1` for true, `0` for false (spec/45_compare_classify.md). -/
def State.writeBool (s : State) (i : XReg) (b : Bool) : State := s.writeX i (if b then 1 else 0)

end Sys2Proof.Machine
end

