-- ==== Sys2Proof/Machine/AddSub.lean ====
section
/-! DEFINITION. The carry-propagate adder and subtractor: `Add` of spec/41_add_sub.md R141 to R146 and the commands
`ADD` (R140) and `SUB` (R148). -/

namespace Sys2Proof.Machine

/-- Moves a limb array `d` places to the right, zeros entering, the limbs past the end dropped (R143, R144). -/
def shiftLimbs (n d : Nat) (ls : List Nat) : List Nat := (List.replicate d 0 ++ ls).take n

/-- Limb-by-limb addition from the least significant limb, with the carry out of the most significant (R143). -/
def addLimbs : List Nat → List Nat → List Nat × Nat
  | a :: as, b :: bs =>
    let (r, carry) := addLimbs as bs
    ((a + b + carry) % limbBase :: r, (a + b + carry) / limbBase)
  | _, _ => ([], 0)

/-- Limb-by-limb subtraction from the least significant limb, with the borrow out of the most significant (R144). -/
def subLimbs : List Nat → List Nat → List Nat × Nat
  | a :: as, b :: bs =>
    let (r, borrow) := subLimbs as bs
    if a < b + borrow then ((a + limbBase - (b + borrow)) :: r, 1) else ((a - (b + borrow)) :: r, 0)
  | _, _ => ([], 0)

/-- A product or sum array with the carry out of its top limb: a non-zero carry moves the whole array one limb to the
right, the last limb dropped (R143, R161). The second part says whether it moved. -/
def absorbCarry (n : Nat) (r : List Nat) (carry : Nat) : List Nat × Bool :=
  if carry = 0 then (r, false) else ((carry :: r).take n, true)

/-- `Add` step 3, operands of the same sign (R143): `hi` has the larger exponent, `d` limb-steps above `lo`. -/
def addSameSign (c : Config) (hi lo : DValue) (d : Nat) : DValue :=
  let (r, carry) := addLimbs hi.nats (shiftLimbs c.n d lo.nats)
  let (ls, moved) := absorbCarry c.n r carry
  finiteValue ls (if moved then hi.exp + 8 else hi.exp) hi.neg c.n

/-- Justification (R144): the leading zero limbs leave, as many zeros enter at the end, and the exponent falls by 8 for
each; an array of zeros is `Zero`. -/
def justify (c : Config) (ls : List Nat) (exp : Int) (neg : Bool) : DValue :=
  let z := (ls.takeWhile (· == 0)).length
  if z = ls.length then DValue.zero c.n
  else finiteValue (ls.drop z ++ List.replicate z 0) (exp - 8 * z) neg c.n

/-- `Add` step 4, operands of different sign (R144): `big` has the larger magnitude, `d` limb-steps above `small`. -/
def addDifferentSign (c : Config) (big small : DValue) (d : Nat) : DValue :=
  justify c (subLimbs big.nats (shiftLimbs c.n d small.nats)).1 big.exp big.neg

/-- `Add` steps 2 to 5, for finite non-zero operands (R142 to R145). -/
def addFinite (c : Config) (a b : DValue) : DValue :=
  let delta := (a.exp - b.exp) / 8
  if (c.n : Int) - 1 < delta then a.withPrec c.n
  else if delta < -((c.n : Int) - 1) then b.withPrec c.n
  else if a.neg = b.neg then
    saturate c (if 0 ≤ delta then addSameSign c a b delta.natAbs else addSameSign c b a delta.natAbs)
  else
    saturate c
      (if magCmp a b ≠ .lt then addDifferentSign c a b ((a.exp - b.exp) / 8).toNat
       else addDifferentSign c b a ((b.exp - a.exp) / 8).toNat)

/-- `Add(a, b)`: step 1, the special operands (R141), then steps 2 to 5. -/
def decAdd (c : Config) (a b : DValue) : DValue :=
  if a.cls = .nan ∨ b.cls = .nan then DValue.notANumber c.n
  else if a.cls = .inf ∧ b.cls = .inf then
    (if a.neg = b.neg then DValue.infinity c.n a.neg else DValue.notANumber c.n)
  else if a.cls = .inf then DValue.infinity c.n a.neg
  else if b.cls = .inf then DValue.infinity c.n b.neg
  else if a.isZero then b.withPrec c.n
  else if b.isZero then a.withPrec c.n
  else addFinite c a b

/-- `Sub(a, b) = Neg(Add(Neg(a), b))` (R148). -/
def decSub (c : Config) (a b : DValue) : DValue := (decAdd c a.negate b).negate

/-- `ADD Dd, Ds1, Ds2` (R140). -/
def execAdd (d s1 s2 : DReg) (s : State) : Result :=
  .next (s.writeD d (decAdd s.cfg (s.readD s1) (s.readD s2)))

/-- `SUB Dd, Ds1, Ds2` (R148). -/
def execSub (d s1 s2 : DReg) (s : State) : Result :=
  .next (s.writeD d (decSub s.cfg (s.readD s1) (s.readD s2)))

end Sys2Proof.Machine
end

