-- ==== Sys2Proof/Machine/Compare.lean ====
section
/-! DEFINITION. Comparison and classification (spec/45_compare_classify.md R200 to R210). Every test runs over all limbs
and none reads `prec`. -/

namespace Sys2Proof.Machine

/-- `Cmp(a, b)` in {+1, 0, -1} (R201); with a NaN operand the value is the spec's decision D29 (U1, log entry 17). -/
def decCmp (a b : DValue) : Int :=
  if a.cls = .nan then 1
  else if b.cls = .nan then -1
  else if a.cls = .inf ∧ b.cls = .inf then (if a.neg = b.neg then 0 else if a.neg then -1 else 1)
  else if a.cls = .inf then (if a.neg then -1 else 1)
  else if b.cls = .inf then (if b.neg then 1 else -1)
  else if a.isZero = true ∧ b.isZero = true then 0
  else if a.isZero then (if b.neg then 1 else -1)
  else if b.isZero then (if a.neg then -1 else 1)
  else if a.neg ≠ b.neg then (if a.neg then -1 else 1)
  else
    match magCmp a b with
    | .gt => if a.neg then -1 else 1
    | .eq => 0
    | .lt => if a.neg then 1 else -1

/-- `IsOne(v)` (R204): exactly one, or the value of all nines just below it; never negative. -/
def isOne (n : Nat) (v : DValue) : Bool :=
  v.cls == .fin && !v.neg &&
    ((v.exp == 0 && v.limb 0 == 1 && (List.range (n - 1)).all fun i => v.limb (i + 1) == 0) ||
     (v.exp == -8 && v.limb 0 == limbBase - 1 && (List.range (n - 1)).all fun i => v.limb (i + 1) == limbBase - 1))

/-- `IsInt(v)` (R205): every limb `i` with `8*i > exp` is zero. -/
def isInt (n : Nat) (v : DValue) : Bool :=
  v.cls == .fin && (List.range n).all fun i => decide (8 * (i : Int) ≤ v.exp) || v.limb i == 0

/-- `CMP Xd, Ds1, Ds2` (R200). -/
def execCmp (d : XReg) (s1 s2 : DReg) (s : State) : Result :=
  .next (s.writeInt d (decCmp (s.readD s1) (s.readD s2)))

/-- `ISZERO Xd, Ds` (R203). -/
def execIszero (d : XReg) (src : DReg) (s : State) : Result := .next (s.writeBool d (s.readD src).isZero)

/-- `ISONE Xd, Ds` (R204). -/
def execIsone (d : XReg) (src : DReg) (s : State) : Result := .next (s.writeBool d (isOne s.cfg.n (s.readD src)))

/-- `ISINT Xd, Ds` (R205). -/
def execIsint (d : XReg) (src : DReg) (s : State) : Result := .next (s.writeBool d (isInt s.cfg.n (s.readD src)))

/-- `ISNEG Xd, Ds` (R206). -/
def execIsneg (d : XReg) (src : DReg) (s : State) : Result := .next (s.writeBool d (s.readD src).neg)

/-- `ISNAN Xd, Ds` (R207). -/
def execIsnan (d : XReg) (src : DReg) (s : State) : Result := .next (s.writeBool d ((s.readD src).cls == .nan))

/-- `ISINF Xd, Ds` (R208). -/
def execIsinf (d : XReg) (src : DReg) (s : State) : Result := .next (s.writeBool d ((s.readD src).cls == .inf))

/-- `ISFIN Xd, Ds` (R209). -/
def execIsfin (d : XReg) (src : DReg) (s : State) : Result := .next (s.writeBool d ((s.readD src).cls == .fin))

/-- `CLASS Xd, Ds` (R210). -/
def execClassof (d : XReg) (src : DReg) (s : State) : Result :=
  .next (s.writeX d (BitVec.ofNat 64 (s.readD src).cls.code))

end Sys2Proof.Machine
end

