-- ==== Sys2Proof/Machine/Parse.lean ====
section
/-! DEFINITION. The decimal string parser and `PARSE` (spec/46_parse.md R220 to R227). -/

namespace Sys2Proof.Machine

/-- The digit value of a character, if it is `'0'` to `'9'` (R222). -/
def digitOf (b : Byte) : Option Nat := if 0x30 ≤ b.toNat ∧ b.toNat ≤ 0x39 then some (b.toNat - 0x30) else none

/-- The optional sign at the head of a text: whether it is `'-'`, and the rest (R223). -/
def takeSign : List Byte → Bool × List Byte
  | [] => (false, [])
  | b :: rest => if b = 0x2D then (true, rest) else if b = 0x2B then (false, rest) else (false, b :: rest)

/-- The digits at the head of a text, and the rest (R223). -/
def takeDigits : List Byte → List Nat × List Byte
  | [] => ([], [])
  | b :: rest =>
    match digitOf b with
    | some d => (d :: (takeDigits rest).1, (takeDigits rest).2)
    | none => ([], b :: rest)

/-- The integer a digit list writes, on top of `acc`. -/
def digitsValueFrom : Nat → List Nat → Nat
  | acc, [] => acc
  | acc, d :: ds => digitsValueFrom (10 * acc + d) ds

/-- The integer a digit list writes, first digit most significant. -/
def digitsValue (ds : List Nat) : Nat := digitsValueFrom 0 ds

/-- The parts of a `number` (R223): its sign, the digits before and after the point, the exponent integer. -/
structure NumberParts where
  sgn  : Bool
  int  : List Nat
  frac : List Nat
  exp  : Int
deriving DecidableEq, Repr

/-- The optional fraction part: a point must be followed by digits (R223). -/
def takeFraction : List Byte → Option (List Nat × List Byte)
  | [] => some ([], [])
  | b :: rest =>
    if b = 0x2E then (if (takeDigits rest).1 = [] then none else some (takeDigits rest)) else some ([], b :: rest)

/-- The optional exponent part, which must end the text (R223). -/
def takeExponent : List Byte → Option Int
  | [] => some 0
  | b :: rest =>
    if b = 0x65 ∨ b = 0x45 then
      let (neg, r) := takeSign rest
      if (takeDigits r).1 = [] ∨ (takeDigits r).2 ≠ [] then none
      else some (if neg then -(digitsValue (takeDigits r).1 : Int) else digitsValue (takeDigits r).1)
    else none

/-- The parts of a text in the language `number` of R223, nothing for any other text. -/
def parseNumber (text : List Byte) : Option NumberParts :=
  let (sgn, r) := takeSign text
  if (takeDigits r).1 = [] then none
  else
    match takeFraction (takeDigits r).2 with
    | none => none
    | some (frac, r') =>
      match takeExponent r' with
      | none => none
      | some e => some { sgn := sgn, int := (takeDigits r).1, frac := frac, exp := e }

/-- A letter compared after setting bit 5 (R222). -/
def lowerCase (b : Byte) : Byte := b ||| 0x20

/-- The texts `"inf"`, `"infinity"` and `"nan"` in lower case (R224). -/
def infText : List Byte := [0x69, 0x6E, 0x66]

@[inherit_doc infText]
def infinityText : List Byte := [0x69, 0x6E, 0x66, 0x69, 0x6E, 0x69, 0x74, 0x79]

@[inherit_doc infText]
def nanText : List Byte := [0x6E, 0x61, 0x6E]

/-- The value of a text in the language `special` of R224, nothing for any other text. -/
def parseSpecial (n : Nat) (text : List Byte) : Option DValue :=
  let (sgn, r) := takeSign text
  if r.map lowerCase = infText ∨ r.map lowerCase = infinityText then some (DValue.infinity n sgn)
  else if r.map lowerCase = nanText then some (DValue.notANumber n)
  else none

/-- The limbs of a digit string whose leading limb takes `r` digits: the string padded with zeros on the right or cut
(R226). -/
def packDigits (n r : Nat) (ds : List Nat) : List Nat :=
  let padded := ds ++ List.replicate (r + 8 * (n - 1)) 0
  digitsValue (padded.take r) ::
    (List.range (n - 1)).map fun i => digitsValue ((padded.drop (r + 8 * i)).take 8)

/-- `ParseText` on a `number` (R226, R227): no power of ten of the exponent is formed. -/
def numberValue (c : Config) (p : NumberParts) : DValue :=
  let s := p.int ++ p.frac
  let lz := (s.takeWhile (· == 0)).length
  if lz = s.length then DValue.zero c.n
  else
    let w : Int := p.exp + p.int.length - 1 - lz
    let ex : Int := 8 * (w / 8)
    saturate c (finiteValue (packDigits c.n (w - ex + 1).toNat (s.drop lz)) ex p.sgn c.n)

/-- `ParseText` (R224, R226): a value, or nothing for an invalid text. -/
def parseText (c : Config) (text : List Byte) : Option DValue :=
  match parseSpecial c.n text with
  | some v => some v
  | none => (parseNumber text).map (numberValue c)

/-- `PARSE Dd` (R220): the text is `TBUF[0..TLEN-1]`; an invalid text raises `PERR` and changes nothing else (R221). A
free byte is drawn for each byte never written (R61, log entry 6); a `TLEN` above TBYTES, which R45 excludes, would
reach a byte that does not exist (log entry 12). -/
def execParse (d : DReg) (s : State) : Result :=
  if s.cfg.tbytes < s.tlen.toNat then .fault (.noSuchByte s.cfg.tbytes)
  else
    match parseText s.cfg (s.readBytes 0 s.tlen.toNat) with
    | some v => .next ((s.afterRead 0 s.tlen.toNat).writeD d v)
    | none => abort .perr (s.afterRead 0 s.tlen.toNat)

end Sys2Proof.Machine
end

