-- ==== Sys2Proof/Machine/Format.lean ====
section
/-! DEFINITION. The decimal formatter with round-half-to-even and `FORMAT` (spec/47_format.md R240 to R246), and the
reference layout a host applies to its record (R247), which is no part of the LDU. -/

namespace Sys2Proof.Machine

/-- The last `k` decimal digits of a natural, most significant first; `pad8` is the case `k = 8` (R242). -/
def padDigits (k l : Nat) : List Nat := (List.range k).map fun i => l / 10 ^ (k - 1 - i) % 10

/-- The digits of the leading limb without leading zeros (R242). -/
def leadingDigits (l : Nat) : List Nat := (padDigits 8 l).dropWhile (· == 0)

/-- The digit string `S` of a finite non-zero value, over all limbs (R242). -/
def digitString (v : DValue) : List Nat :=
  leadingDigits (v.limb 0) ++ ((v.nats.drop 1).map (padDigits 8)).flatten

/-- The decimal exponent `e0` of the first digit (R242). -/
def firstDigitExponent (v : DValue) : Int := v.exp + (leadingDigits (v.limb 0)).length - 1

/-- Whether the `n` kept digits are rounded up (R243): round half to even on the whole digit string. -/
def roundsUp (ds : List Nat) (n : Nat) : Bool :=
  let cut := ds.getD n 0
  decide (6 ≤ cut) ||
    (cut == 5 && (ds.getD (n - 1) 0 % 2 == 1 || (ds.drop (n + 1)).any (· != 0)))

/-- Adds 1 to a digit string, with the carry out of its first digit (R244). -/
def incrementDigits : List Nat → List Nat × Bool
  | [] => ([], true)
  | d :: ds =>
    let (r, carry) := incrementDigits ds
    if carry then (if d = 9 then (0 :: r, true) else ((d + 1) :: r, false)) else (d :: r, false)

/-- The `n` kept digits after rounding, and the exponent of the first (R243, R244); all digits when `n ≥ L`. -/
def roundDigits (ds : List Nat) (e0 : Int) (n : Nat) : List Nat × Int :=
  if ds.length ≤ n then (ds, e0)
  else if roundsUp ds n then
    (if (incrementDigits (ds.take n)).2 then (1 :: List.replicate (n - 1) 0, e0 + 1)
     else ((incrementDigits (ds.take n)).1, e0))
  else (ds.take n, e0)

/-- The hand-off record without the style bit (R240, R245). -/
structure FormatRecord where
  text : List Byte
  exp  : Int
  neg  : Bool
  cls  : Cls
deriving DecidableEq, Repr

/-- The character of a digit (R222, R244). -/
def digitChar (d : Nat) : Byte := BitVec.ofNat 8 (0x30 + d)

/-- `FormatValue(v, n)` (R245). -/
def formatValue (v : DValue) (n : Nat) : FormatRecord :=
  match v.cls with
  | .nan => { text := nanText, exp := 0, neg := false, cls := .nan }
  | .inf => { text := infText, exp := 0, neg := v.neg, cls := .inf }
  | .fin =>
    if v.isZero then { text := [0x30], exp := 0, neg := false, cls := .fin }
    else
      let (ds, e) := roundDigits (digitString v) (firstDigitExponent v) n
      { text := ds.map digitChar, exp := e, neg := v.neg, cls := .fin }

/-- The `FINFO` word of a record (R47): `STYLE` bit 19, `CLS` 18:17, `NEG` 16, `LEN` 15:0. -/
def finfoWord (r : FormatRecord) (style : Style) : BitVec 20 :=
  bitOfStyle style ++ BitVec.ofNat 2 r.cls.code ++ BitVec.ofBool r.neg ++ BitVec.ofNat 16 r.text.length

/-- The state after a record is handed off (R240). -/
def State.handOff (s : State) (r : FormatRecord) (style : Style) : State :=
  { s.writeText 0 r.text with
    tlen := BitVec.ofNat 16 r.text.length
    finfo := finfoWord r style
    fexp := BitVec.ofInt 64 r.exp }

/-- `FORMAT Ds, Xn, #style` (R240): a count of zero is illegal (R241). The text fits the buffer in every valid
configuration (R6, R240); a longer one would reach a byte that does not exist (log entry 12). -/
def execFormat (src : DReg) (n : XReg) (style : Style) (s : State) : Result :=
  if s.readUnsigned n = 0 then abort .ill s
  else if s.cfg.tbytes < (formatValue (s.readD src) (s.readUnsigned n)).text.length then
    .fault (.noSuchByte s.cfg.tbytes)
  else .next (s.handOff (formatValue (s.readD src) (s.readUnsigned n)) style)

/-- The decimal digits of a natural, at most `fuel` of them, most significant first, on top of `acc`. -/
def naturalDigitsFrom : (fuel m : Nat) → (acc : List Nat) → List Nat
  | 0, _, acc => acc
  | fuel + 1, m, acc => if m = 0 then acc else naturalDigitsFrom fuel (m / 10) (m % 10 :: acc)

/-- `decimal(e)` of R247: the digits of an integer, with a leading `'-'` when negative. -/
def decimalText (e : Int) : List Byte :=
  (if e < 0 then [0x2D] else []) ++
    (if e = 0 then [0x30] else (naturalDigitsFrom (Nat.log2 e.natAbs + 1) e.natAbs []).map digitChar)

/-- `LayoutSci(T, e, ng, k)` (R247), the host's layout of a record as a text. -/
def layoutSci (r : FormatRecord) : List Byte :=
  match r.cls with
  | .nan => nanText
  | .inf => (if r.neg then [0x2D] else []) ++ infText
  | .fin =>
    (if r.neg then [0x2D] else []) ++ r.text.take 1 ++
      (if 1 < r.text.length then 0x2E :: r.text.drop 1 else []) ++ [0x65] ++ decimalText r.exp

end Sys2Proof.Machine
end

