-- ==== Sys2Proof/Machine/LimbStore.lean ====
section
/-! DEFINITION. The limb store commands (spec/40_limb_store.md R120 to R127). -/

namespace Sys2Proof.Machine

/-- `NOP` (R120). -/
def execNop (s : State) : Result := .next s

/-- `MOV Dd, Ds` (R121): all five fields, `prec` included. -/
def execMov (d src : DReg) (s : State) : Result := .next (s.writeD d (s.readD src))

/-- `NEG Dd, Ds` (R122). -/
def execNeg (d src : DReg) (s : State) : Result := .next (s.writeD d (s.readD src).negate)

/-- `ABS Dd, Ds` (R123). -/
def execAbs (d src : DReg) (s : State) : Result := .next (s.writeD d (s.readD src).absolute)

/-- `LDC Dd, #cid` (R124); an unassigned id is illegal (R95 (c), R283; log entry 13). -/
def execLdc (d : DReg) (cid : BitVec 9) (s : State) : Result :=
  match registry s.cfg cid.toNat with
  | some v => .next (s.writeD d v)
  | none => abort .ill s

/-- `SETPREC Dd, #p` (R125): no limb changes; a count of 0 or above N is illegal (R95 (d), R283; log entry 13). -/
def execSetprec (d : DReg) (p : BitVec 12) (s : State) : Result :=
  if precisionLegal s.cfg.n p.toNat then .next (s.writeD d ((s.readD d).withPrec p.toNat)) else abort .ill s

/-- `GETPREC Xd, Ds` (R126). -/
def execGetprec (d : XReg) (src : DReg) (s : State) : Result :=
  .next (s.writeX d ((s.readD src).prec.setWidth 64))

/-- The base-10^8 digits of `u`, least significant first, at most `fuel` of them (R127). -/
def limbDigits : Nat → Nat → List Nat
  | 0, _ => []
  | fuel + 1, u => if u = 0 then [] else u % limbBase :: limbDigits fuel (u / limbBase)

/-- `FromU64(u)` for `0 ≤ u < 2^64` (R127): at most 3 limbs are non-zero. -/
def fromU64 (n u : Nat) : DValue :=
  if u = 0 then DValue.zero n
  else
    let t := limbDigits 3 u
    finiteValue (t.reverse ++ List.replicate (n - t.length) 0) (8 * ((t.length : Int) - 1)) false n

/-- `FROMU64 Dd, Xs` (R127). -/
def execFromu64 (d : DReg) (src : XReg) (s : State) : Result :=
  .next (s.writeD d (fromU64 s.cfg.n (s.readUnsigned src)))

end Sys2Proof.Machine
end

