-- ==== Sys2Proof/Machine/Convert.lean ====
section
/-! DEFINITION. Conversions between decimal values and native scalars (spec/48_conversions.md R260 to R268). -/

namespace Sys2Proof.Machine

/-- The value of a signed integer: its magnitude through `FromU64`, then its sign (R260). -/
def fromI64 (n : Nat) (i : Int) : DValue := { fromU64 n i.natAbs with neg := decide (i < 0) }

/-- `FROMI64 Dd, Xs` (R260). -/
def execFromi64 (d : DReg) (src : XReg) (s : State) : Result :=
  .next (s.writeD d (fromI64 s.cfg.n (s.readSigned src)))

/-- `IntPart(v)` of a finite value whose exponent is below 24, and a number above every 64-bit bound when it is 24 or
more, where R261 says that both extractions clamp (log entry 16). -/
def intPart (n : Nat) (v : DValue) : Nat :=
  if v.isZero = true ∨ v.exp < 0 then 0
  else if 24 ≤ v.exp then 10 ^ 24
  else ((List.range (min (v.exp.toNat / 8 + 1) n)).map fun i => v.limb i * 10 ^ (v.exp.toNat - 8 * i)).sum

/-- The scalar of `TOU64` (R262): truncated toward zero and clamped to `[0, 2^64 - 1]`. -/
def toU64 (n : Nat) (v : DValue) : Nat :=
  if v.cls = .nan then 0
  else if v.neg then 0
  else if v.cls = .inf then 2 ^ 64 - 1
  else min (intPart n v) (2 ^ 64 - 1)

/-- `TOU64 Xd, Ds` (R262). -/
def execTou64 (d : XReg) (src : DReg) (s : State) : Result :=
  .next (s.writeX d (BitVec.ofNat 64 (toU64 s.cfg.n (s.readD src))))

/-- The scalar of `TOI64` (R263): truncated toward zero and clamped to `[-2^63, 2^63 - 1]`. -/
def toI64 (n : Nat) (v : DValue) : Int :=
  if v.cls = .nan then 0
  else if v.cls = .inf then (if v.neg then -2 ^ 63 else 2 ^ 63 - 1)
  else if v.neg then max (-(intPart n v : Int)) (-2 ^ 63)
  else min (intPart n v : Int) (2 ^ 63 - 1)

/-- `TOI64 Xd, Ds` (R263). -/
def execToi64 (d : XReg) (src : DReg) (s : State) : Result :=
  .next (s.writeInt d (toI64 s.cfg.n (s.readD src)))

/-- `num / den` rounded to the nearest natural, ties to even (R266). -/
def roundHalfEven (num den : Nat) : Nat :=
  let q := num / den
  let r := num % den
  if 2 * r < den then q else if den < 2 * r then q + 1 else if q % 2 = 0 then q else q + 1

/-- `floor(log2(num / den))` of a positive rational: one of the two integers the bit counts leave (R266). -/
def log2Floor (num den : Nat) : Int :=
  let l : Int := (Nat.log2 num : Int) - Nat.log2 den
  if den * 2 ^ l.toNat ≤ num * 2 ^ (-l).toNat then l else l - 1

/-- The magnitude bits of the binary64 number nearest to `num / den > 0`, ties to even, subnormals kept; a value of
`2^1024 - 2^970` or more gives the infinity (R266, R267). A number `M * 2^x` with `M < 2^53` and `x ≥ -1074` has the bits
`(x + 1074) * 2^52 + M`, where `M < 2^52` only if `x = -1074`. -/
def nearestBinary64 (num den : Nat) : Nat :=
  let x : Int := max (log2Floor num den - 52) (-1074)
  if num = 0 then 0
  else min ((x + 1074).toNat * 2 ^ 52 + roundHalfEven (num * 2 ^ (-x).toNat) (den * 2 ^ x.toNat)) (0x7FF * 2 ^ 52)

/-- The reference instance of `DecToF64(ng, T, e)` (R266): `q` is the integer written by `T` times `10^k`, with
`k = e - len(T) + 1`. -/
def decToF64Reference (ng : Bool) (text : List Byte) (e : Int) : XWord :=
  let k : Int := e - text.length + 1
  let t := digitsValue (takeDigits text).1
  BitVec.ofNat 64 ((if ng then 2 ^ 63 else 0) + nearestBinary64 (t * 10 ^ k.toNat) (10 ^ (-k).toNat))

/-- `DecToF64` of the configuration (R266): the reference instance or another function (U4, log entry 2). -/
def decToF64 (c : Config) (ng : Bool) (text : List Byte) (e : Int) : XWord :=
  match c.decToF64 with
  | .reference => decToF64Reference ng text e
  | .custom id => Config.customDecToF64 id ng text e

/-- The binary64 infinity of a sign (R267). -/
def binary64Infinity (ng : Bool) : XWord := if ng then 0xFFF0000000000000 else 0x7FF0000000000000

/-- The scalar of `TOF64` (R265): special values, then the range test against DBLMIN and DBLMAX, then 18 rounded
digits. -/
def toF64 (c : Config) (v : DValue) : XWord :=
  if v.cls = .nan then 0x7FF8000000000000
  else if v.cls = .inf then binary64Infinity v.neg
  else if v.isZero then 0
  else if magCmp v.absolute (doubleMin c.n) = .lt then 0
  else if magCmp v.absolute (doubleMax c.n) = .gt then binary64Infinity v.neg
  else
    let r := formatValue v 18
    decToF64 c r.neg r.text r.exp

/-- `TOF64 Xd, Ds` (R265): the rendering is internal, `TBUF`, `TLEN`, `FINFO` and `FEXP` stay. -/
def execTof64 (d : XReg) (src : DReg) (s : State) : Result := .next (s.writeX d (toF64 s.cfg (s.readD src)))

/-- The exponent field of a binary64 pattern (R267). -/
def binary64Exponent (b : XWord) : Nat := (b.extractLsb' 52 11).toNat

/-- The fraction field of a binary64 pattern (R267). -/
def binary64Fraction (b : XWord) : Nat := (b.extractLsb' 0 52).toNat

/-- The magnitude of a finite binary64 pattern as `m * 2^k` (R267). -/
def binary64Magnitude (b : XWord) : Nat × Int :=
  if binary64Exponent b = 0 then (binary64Fraction b, -1074)
  else (2 ^ 52 + binary64Fraction b, (binary64Exponent b : Int) - 1075)

/-- `TruncN(m * 2^k)`: for a negative `k`, `2^k` is `5^-k * 10^k` (R268). -/
def truncBinary (n m : Nat) (k : Int) : DValue :=
  if 0 ≤ k then truncN n (m * 2 ^ k.toNat) 0 else truncN n (m * 5 ^ (-k).toNat) k

/-- The reference instance of `F64ToDec` (R268): the exact value, truncated, then the range check. -/
def f64ToDecReference (c : Config) (b : XWord) : DValue :=
  saturate c { truncBinary c.n (binary64Magnitude b).1 (binary64Magnitude b).2 with neg := b.getLsbD 63 }

/-- The magnitude of a finite binary64 pattern as a rational (R267). -/
def binary64Val (b : XWord) : ℚ := ((binary64Magnitude b).1 : ℚ) * (2 : ℚ) ^ (binary64Magnitude b).2

/-- The contract of `F64ToDec` (R268): `Zero` below MINV, else a finite value of the format with the pattern's sign,
within relative 10^-DIGITS of its value. -/
abbrev F64ToDecContract (c : Config) (b : XWord) (v : DValue) : Prop :=
  (v = DValue.zero c.n ∧ binary64Val b < (10 : ℚ) ^ c.minExp) ∨
  ((v.cls = .fin ∧ v.wf c ∧ v.neg = b.getLsbD 63) ∧
    |v.absolute.val / binary64Val b - 1| ≤ 1 / 10 ^ c.digits)

/-- `F64ToDec` of the configuration (R268): the reference instance, or any function that meets the contract (U5, log
entry 2). -/
def f64ToDec (c : Config) (b : XWord) : DValue :=
  match c.f64ToDec with
  | .reference => f64ToDecReference c b
  | .custom id =>
    if F64ToDecContract c b (Config.customF64ToDec id c b) then (Config.customF64ToDec id c b).withPrec c.n
    else f64ToDecReference c b

/-- The value of `FROMF64` (R268). -/
def fromF64 (c : Config) (b : XWord) : DValue :=
  if binary64Exponent b = 0x7FF ∧ binary64Fraction b ≠ 0 then DValue.notANumber c.n
  else if binary64Exponent b = 0x7FF then DValue.infinity c.n (b.getLsbD 63)
  else if binary64Exponent b = 0 ∧ binary64Fraction b = 0 then DValue.zero c.n
  else f64ToDec c b

/-- `FROMF64 Dd, Xs` (R268). -/
def execFromf64 (d : DReg) (src : XReg) (s : State) : Result :=
  .next (s.writeD d (fromF64 s.cfg (s.readX src)))

end Sys2Proof.Machine
end

