-- ==== Sys2Proof/Machine/Multiply.lean ====
section
/-! DEFINITION. The reduced-width decimal multiplier: `MulCore` and `MUL` (spec/42_multiply.md R160 to R162). -/

namespace Sys2Proof.Machine

/-- The sum `a[j]*b[0] + a[j-1]*b[1] + ... + a[0]*b[j]` of `j + 1` products (R161). -/
def limbConvolution (a b : DValue) (j : Nat) : Nat :=
  ((List.range (j + 1)).map fun i => a.limb (j - i) * b.limb i).sum

/-- The limbs `r[0..p-1]` of the product and the carry out of limb 0: limb `p-1` first, down to limb 0 (R161). `r` holds
the limbs already produced. -/
def mulLimbs (a b : DValue) : (p carry : Nat) → (r : List Nat) → List Nat × Nat
  | 0, carry, r => (r, carry)
  | j + 1, carry, r =>
    mulLimbs a b j ((carry + limbConvolution a b j) / limbBase) ((carry + limbConvolution a b j) % limbBase :: r)

/-- `MulCore` on finite non-zero operands (R161): the top `p` limbs, the others zero, the carry absorbed, then the range
check. -/
def mulFinite (c : Config) (a b : DValue) (p : Nat) : DValue :=
  let (r, carry) := mulLimbs a b p 0 []
  let (ls, moved) := absorbCarry c.n (r ++ List.replicate (c.n - p) 0) carry
  saturate c (finiteValue ls (if moved then a.exp + b.exp + 8 else a.exp + b.exp) (a.neg ^^ b.neg) p)

/-- The class, sign, exponent and limbs of `MulCore(a, b, p)` (R161): the first line that matches. -/
def mulRecord (c : Config) (a b : DValue) (p : Nat) : DValue :=
  if a.cls = .nan ∨ b.cls = .nan then DValue.notANumber c.n
  else if (a.cls = .inf ∧ b.isZero = true) ∨ (a.isZero = true ∧ b.cls = .inf) then DValue.notANumber c.n
  else if a.cls = .inf ∨ b.cls = .inf then DValue.infinity c.n (a.neg ^^ b.neg)
  else if a.isZero = true ∨ b.isZero = true then DValue.zero c.n
  else mulFinite c a b p

/-- `MulCore(a, b, p)` (R161): every result has `prec` `p`, a NaN, an infinity and `Zero` too (R28, R161, R171; log
entry 24). -/
def mulCore (c : Config) (a b : DValue) (p : Nat) : DValue := (mulRecord c a b p).withPrec p

/-- `Mul(a, b)` (R161): as many limbs as the smaller precision of the operands. -/
def decMul (c : Config) (a b : DValue) : DValue := mulCore c a b (min a.prec.toNat b.prec.toNat)

/-- `MUL Dd, Ds1, Ds2` (R160). -/
def execMul (d s1 s2 : DReg) (s : State) : Result :=
  .next (s.writeD d (decMul s.cfg (s.readD s1) (s.readD s2)))

end Sys2Proof.Machine
end

