-- ==== Sys2Proof/Machine/Divide.lean ====
section
/-! DEFINITION. The Newton-Raphson reciprocal and the divider built on it (spec/43_divide_reciprocal.md R170 to R178). -/

namespace Sys2Proof.Machine

/-- The integer of the top three limbs (R174, R192). -/
def topThree (v : DValue) : Nat := v.limb 0 * 10 ^ 16 + v.limb 1 * 10 ^ 8 + v.limb 2

/-- The reference instance of `SeedRecip` (R174). -/
def seedRecipReference (n : Nat) (a : DValue) : DValue := truncN n (10 ^ 40 / topThree a) (-24 - a.exp)

/-- The contract of `SeedRecip` (R174): a finite positive value of the format within relative 10^-12 of the
reciprocal. That it lies between MINV and MAXV is part of `DValue.wf`. -/
abbrev SeedRecipContract (c : Config) (a y : DValue) : Prop :=
  (y.cls = .fin ∧ y.limb 0 ≠ 0 ∧ y.neg = false ∧ y.wf c) ∧ |a.val * y.val - 1| ≤ 1 / 10 ^ 12

/-- `SeedRecip(a)` of the configuration (R174): the reference instance, or any function that meets the contract (U3,
log entry 2). -/
def seedRecip (c : Config) (a : DValue) : DValue :=
  match c.seedRecip with
  | .reference => seedRecipReference c.n a
  | .custom id =>
    if SeedRecipContract c a (Config.customSeedRecip id c a) then Config.customSeedRecip id c a
    else seedRecipReference c.n a

/-- The rounds from digit count `d` on, at most `fuel` of them (R175). -/
def scheduleFrom (n : Nat) : (fuel d : Nat) → List Nat
  | 0, _ => []
  | fuel + 1, d => if d ≤ 8 * n then min n ((d + 10 + 3) / 4) :: scheduleFrom n fuel (2 * d) else []

/-- `Schedule()` (R175): the limb counts of the Newton rounds. The fuel `n` is never used up, since `12 * 2^n > 8 * n`. -/
def schedule (n : Nat) : List Nat := scheduleFrom n n 12

/-- `NewtonRound(a, y, p)` (R176). -/
def newtonRound (c : Config) (a y : DValue) (p : Nat) : DValue :=
  mulCore c y (decSub c (twoValue c) (mulCore c a y p)) p

/-- The iterate after all rounds (R173). -/
def recipIterate (c : Config) (a : DValue) : DValue :=
  (schedule c.n).foldl (fun y p => newtonRound c a y p) (seedRecip c a)

/-- Completion (R177): full precision and the sign of `x`; `Zero` and `NaN` stay unsigned, an infinity takes the sign. -/
def completeRecip (c : Config) (x y : DValue) : DValue :=
  match y.cls with
  | .nan => DValue.notANumber c.n
  | .inf => DValue.infinity c.n x.neg
  | .fin => if y.isZero then DValue.zero c.n else { y.withPrec c.n with neg := x.neg }

/-- `Recip(x)` (R173). -/
def decRecip (c : Config) (x : DValue) : DValue :=
  if x.cls = .nan then DValue.notANumber c.n
  else if x.isZero then DValue.infinity c.n false
  else if x.cls = .inf then DValue.zero c.n
  else if isOne c.n (x.absolute.withPrec c.n) then x.withPrec c.n
  else completeRecip c x (recipIterate c (x.absolute.withPrec c.n))

/-- Whether `DIV` takes the fast path (R171): finite non-zero operands of the same exponent and limbs. -/
def sameMagnitude (a b : DValue) : Bool :=
  a.cls == .fin && b.cls == .fin && !a.isZero && !b.isZero && a.exp == b.exp && a.limbs == b.limbs

/-- `Div(a, b)` (R171). -/
def decDiv (c : Config) (a b : DValue) : DValue :=
  if sameMagnitude a b then leadingLimb c.n 1 0 (a.neg ^^ b.neg) else decMul c a (decRecip c b)

/-- `DIV Dd, Ds1, Ds2` (R170). -/
def execDiv (d s1 s2 : DReg) (s : State) : Result :=
  .next (s.writeD d (decDiv s.cfg (s.readD s1) (s.readD s2)))

/-- `RECIP Dd, Ds` (R172). -/
def execRecip (d src : DReg) (s : State) : Result := .next (s.writeD d (decRecip s.cfg (s.readD src)))

end Sys2Proof.Machine
end

