-- ==== Sys2Proof/Machine/SquareRoot.lean ====
section
/-! DEFINITION. The coupled Newton square root (spec/44_square_root.md R190 to R195). -/

namespace Sys2Proof.Machine

/-- The integer square root of `m` built bit by bit from bit `bits - 1` down, on top of `root`. -/
def isqrtFrom (m : Nat) : (bits root : Nat) → Nat
  | 0, root => root
  | k + 1, root => isqrtFrom m k (if (root + 2 ^ k) * (root + 2 ^ k) ≤ m then root + 2 ^ k else root)

/-- `floor(sqrt(m))` (R192). -/
def isqrt (m : Nat) : Nat := isqrtFrom m (Nat.log2 m / 2 + 1) 0

/-- The `s` of R192. -/
def seedRoot (x : DValue) : Nat := isqrt (topThree x * 10 ^ 24)

/-- The reference instance of `SeedSqrt` (R192). -/
def seedSqrtReference (n : Nat) (x : DValue) : DValue × DValue :=
  (truncN n (seedRoot x) ((x.exp - 16) / 2 - 12), truncN n (10 ^ 48 / (2 * seedRoot x)) (-36 - (x.exp - 16) / 2))

/-- The contract of `SeedSqrt` (R192). -/
abbrev SeedSqrtContract (c : Config) (x y v : DValue) : Prop :=
  (y.cls = .fin ∧ y.limb 0 ≠ 0 ∧ y.neg = false ∧ y.wf c) ∧ (v.cls = .fin ∧ v.limb 0 ≠ 0 ∧ v.neg = false ∧ v.wf c) ∧
  |y.val ^ 2 / x.val - 1| ≤ 1 / 10 ^ 12 ∧ |2 * v.val * y.val - 1| ≤ 1 / 10 ^ 12

/-- `SeedSqrt(x)` of the configuration (R192): the reference instance, or any function that meets the contract (U3,
log entry 2). -/
def seedSqrt (c : Config) (x : DValue) : DValue × DValue :=
  match c.seedSqrt with
  | .reference => seedSqrtReference c.n x
  | .custom id =>
    if SeedSqrtContract c x (Config.customSeedSqrt id c x).1 (Config.customSeedSqrt id c x).2 then
      Config.customSeedSqrt id c x
    else seedSqrtReference c.n x

/-- The new `v` of a round, `v + v*(1 - 2*y*v)` in the order of R193. -/
def sqrtRoundV (c : Config) (y v : DValue) (p : Nat) : DValue :=
  let t := mulCore c (mulCore c y v p).negate (twoValue c) p
  decAdd c v (mulCore c (decAdd c t (oneValue c)) v p)

/-- The new `y` of a round, `y + v*(x - y*y)` with the new `v`, in the order of R193. -/
def sqrtRoundY (c : Config) (x y v : DValue) (p : Nat) : DValue :=
  decAdd c y (mulCore c (decAdd c (mulCore c y y p).negate x) v p)

/-- `SqrtRound(x, y, v, p)` (R193): `v` first, and the new `v` in the update of `y`. -/
def sqrtRound (c : Config) (x : DValue) (yv : DValue × DValue) (p : Nat) : DValue × DValue :=
  let v := sqrtRoundV c yv.1 yv.2 p
  (sqrtRoundY c x yv.1 v p, v)

/-- `Sqrt(x)` without its flag (R191). -/
def decSqrt (c : Config) (x : DValue) : DValue :=
  if x.cls = .nan ∨ x.neg = true then DValue.notANumber c.n
  else if x.isZero = true ∨ isOne c.n x = true then x.withPrec c.n
  else if x.cls = .inf then DValue.infinity c.n false
  else ((schedule c.n).foldl (sqrtRound c (x.withPrec c.n)) (seedSqrt c (x.withPrec c.n))).1.withPrec c.n

/-- Whether `SQRT` raises `DOM` (R190, R191): a NaN or negative operand. -/
def sqrtDomainError (x : DValue) : Bool := x.cls == .nan || x.neg

/-- `SQRT Dd, Ds` (R190): with `DOM` raised the command still completes. -/
def execSqrt (d src : DReg) (s : State) : Result :=
  let t := s.writeD d (decSqrt s.cfg (s.readD src))
  .next (if sqrtDomainError (s.readD src) then t.raise .dom else t)

end Sys2Proof.Machine
end

