-- ==== Sys2Proof/Machine/Dispatch.lean ====
section
/-! DEFINITION. The meaning of every command, one arm per constructor of `Instr` (spec/30_encoding.md R93). -/

namespace Sys2Proof.Machine

def exec (i : Instr) (s : State) : Host.Outcome State Fault Refusal :=
  match i with
  | .nop => Sys2Proof.Machine.execNop s
  | .mov d src => Sys2Proof.Machine.execMov d src s
  | .neg d src => Sys2Proof.Machine.execNeg d src s
  | .abs d src => Sys2Proof.Machine.execAbs d src s
  | .ldc d cid => Sys2Proof.Machine.execLdc d cid s
  | .setprec d p => Sys2Proof.Machine.execSetprec d p s
  | .getprec d src => Sys2Proof.Machine.execGetprec d src s
  | .fromu64 d src => Sys2Proof.Machine.execFromu64 d src s
  | .fromi64 d src => Sys2Proof.Machine.execFromi64 d src s
  | .fromf64 d src => Sys2Proof.Machine.execFromf64 d src s
  | .tou64 d src => Sys2Proof.Machine.execTou64 d src s
  | .toi64 d src => Sys2Proof.Machine.execToi64 d src s
  | .tof64 d src => Sys2Proof.Machine.execTof64 d src s
  | .add d s1 s2 => Sys2Proof.Machine.execAdd d s1 s2 s
  | .sub d s1 s2 => Sys2Proof.Machine.execSub d s1 s2 s
  | .mul d s1 s2 => Sys2Proof.Machine.execMul d s1 s2 s
  | .div d s1 s2 => Sys2Proof.Machine.execDiv d s1 s2 s
  | .recip d src => Sys2Proof.Machine.execRecip d src s
  | .sqrt d src => Sys2Proof.Machine.execSqrt d src s
  | .cmp d s1 s2 => Sys2Proof.Machine.execCmp d s1 s2 s
  | .iszero d src => Sys2Proof.Machine.execIszero d src s
  | .isone d src => Sys2Proof.Machine.execIsone d src s
  | .isint d src => Sys2Proof.Machine.execIsint d src s
  | .isneg d src => Sys2Proof.Machine.execIsneg d src s
  | .isnan d src => Sys2Proof.Machine.execIsnan d src s
  | .isinf d src => Sys2Proof.Machine.execIsinf d src s
  | .isfin d src => Sys2Proof.Machine.execIsfin d src s
  | .classof d src => Sys2Proof.Machine.execClassof d src s
  | .parse d => Sys2Proof.Machine.execParse d s
  | .format src n style => Sys2Proof.Machine.execFormat src n style s

end Sys2Proof.Machine
end

