-- ==== Sys2Proof/Machine/Port.lean ====
section
/-! DEFINITION. The host port apart from `CMD`: the map of the port space, the registers as the host reads and writes
them, and the reset input (spec/10_state.md R42 to R49, spec/20_memory.md R62 to R66, R68,
spec/70_reset_and_hazards.md R310). -/

namespace Sys2Proof.Machine

/-- What an offset of the port space names (R62). -/
inductive PortReg where
  | cmd
  | status
  | flags
  | tlen
  | fexpl
  | fexph
  | finfo
  | cfgDigits
  | cfgN
  | cfgTbytes
  | cfgEw
  | cfgMaxel
  | cfgMaxeh
  | dsel
  | dlimb
  | dexpl
  | dexph
  | dmeta
  | xl (i : XReg)
  | xh (i : XReg)
  | tbuf (k : Nat)
deriving DecidableEq, Repr

/-- The map of the port space below the `X` window (R62). -/
def fixedOffset : Nat → Except PortRefusal PortReg
  | 0x0000 => .ok .cmd
  | 0x0004 => .ok .status
  | 0x0008 => .ok .flags
  | 0x000C => .ok .tlen
  | 0x0010 => .ok .fexpl
  | 0x0014 => .ok .fexph
  | 0x0018 => .ok .finfo
  | 0x0020 => .ok .cfgDigits
  | 0x0024 => .ok .cfgN
  | 0x0028 => .ok .cfgTbytes
  | 0x002C => .ok .cfgEw
  | 0x0030 => .ok .cfgMaxel
  | 0x0034 => .ok .cfgMaxeh
  | 0x0040 => .ok .dsel
  | 0x0044 => .ok .dlimb
  | 0x0048 => .ok .dexpl
  | 0x004C => .ok .dexph
  | 0x0050 => .ok .dmeta
  | _ => .error .unmapped

/-- The register or window word at an offset, or why an access there is refused (R62, R66). -/
def portMap (tbytes off : Nat) : Except PortRefusal PortReg :=
  if off % 4 ≠ 0 then .error .misaligned
  else if 0x8000 ≤ off then
    (if off - 0x8000 < tbytes then .ok (.tbuf (off - 0x8000)) else .error .beyondTextBuffer)
  else if 0x100 ≤ off ∧ off < 0x180 then
    (if off % 8 = 0 then .ok (.xl (BitVec.ofNat 4 ((off - 0x100) / 8))) else .ok (.xh (BitVec.ofNat 4 ((off - 0x100) / 8))))
  else fixedOffset off

/-- The register an access of a given width reaches, or why it is refused (R66). -/
def selectPort (s : State) (width : Width) (off : BitVec 16) : Except PortRefusal PortReg :=
  if width = .w32 then portMap s.cfg.tbytes off.toNat else .error .notWord

/-- `DSEL.REG`, bits 3:0 (R48). -/
def State.selectedReg (s : State) : DReg := s.dsel.extractLsb' 0 4

/-- `DSEL.IDX`, bits 31:16 (R48). -/
def State.selectedLimb (s : State) : Nat := (s.dsel.extractLsb' 16 16).toNat

/-- The bits of `DSEL` that have a name (R48). -/
def dselMask : Word := 0xFFFF000F

/-- The low 32 bits of a 64-bit quantity (R65). -/
def lowWord (x : BitVec 64) : Word := x.extractLsb' 0 32

/-- The high 32 bits of a 64-bit quantity (R65). -/
def highWord (x : BitVec 64) : Word := x.extractLsb' 32 32

/-- The word of `DMETA`: `neg` bit 0, `cls` 2:1, `prec` 31:16 (R48). -/
def metaWord (v : DValue) : Word :=
  v.prec ++ (0 : BitVec 13) ++ BitVec.ofNat 2 v.cls.code ++ BitVec.ofBool v.neg

/-- Four bytes as a word, the first in bits 7:0 (R64). -/
def packBytes (b0 b1 b2 b3 : Byte) : Word := b3 ++ b2 ++ b1 ++ b0

/-- The four bytes of a word, bits 7:0 first (R64). -/
def unpackBytes (w : Word) : List Byte :=
  [w.extractLsb' 0 8, w.extractLsb' 8 8, w.extractLsb' 16 8, w.extractLsb' 24 8]

/-- The word the host reads from a register (R43 to R49, R63, R64); `CMD` cannot be read (R42). -/
def portValue (s : State) : PortReg → Except PortRefusal Word
  | .cmd => .error .writeOnly
  | .status => .ok ((BitVec.ofBool s.busy).setWidth 32)
  | .flags => .ok s.flags.word
  | .tlen => .ok (s.tlen.setWidth 32)
  | .fexpl => .ok (lowWord s.fexp)
  | .fexph => .ok (highWord s.fexp)
  | .finfo => .ok (s.finfo.setWidth 32)
  | .cfgDigits => .ok (BitVec.ofNat 32 s.cfg.digits)
  | .cfgN => .ok ((16 : BitVec 8) ++ (16 : BitVec 8) ++ BitVec.ofNat 16 s.cfg.n)
  | .cfgTbytes => .ok (BitVec.ofNat 32 s.cfg.tbytes)
  | .cfgEw => .ok (BitVec.ofNat 32 s.cfg.ew)
  | .cfgMaxel => .ok (lowWord (BitVec.ofNat 64 s.cfg.maxExp))
  | .cfgMaxeh => .ok (highWord (BitVec.ofNat 64 s.cfg.maxExp))
  | .dsel => .ok (s.dsel &&& dselMask)
  | .dlimb => .ok (if s.selectedLimb < s.cfg.n then BitVec.ofNat 32 ((s.readD s.selectedReg).limb s.selectedLimb) else 0)
  | .dexpl => .ok (lowWord (BitVec.ofInt 64 (s.readD s.selectedReg).exp))
  | .dexph => .ok (highWord (BitVec.ofInt 64 (s.readD s.selectedReg).exp))
  | .dmeta => .ok (metaWord (s.readD s.selectedReg))
  | .xl i => .ok (lowWord (s.readX i))
  | .xh i => .ok (highWord (s.readX i))
  | .tbuf k => .ok (packBytes (s.readByte k) (s.readByte (k + 1)) (s.readByte (k + 2)) (s.readByte (k + 3)))

/-- The state after a read: it differs only in the number of the next free draw, after a window word with an unwritten
byte (R61, R68). -/
def State.afterPortRead (s : State) : PortReg → State
  | .tbuf k => s.afterRead k 4
  | _ => s

/-- A host write to a register other than `CMD` (R44, R45, R48, R63, R64); the others are read-only. -/
def portStore (s : State) (w : Word) : PortReg → Except PortRefusal State
  | .flags => .ok (s.clearFlags w)
  | .tlen => .ok { s with tlen := BitVec.ofNat 16 (min w.toNat s.cfg.tbytes) }
  | .dsel => .ok { s with dsel := w &&& dselMask }
  | .xl i => .ok (s.writeX i (highWord (s.readX i) ++ w))
  | .xh i => .ok (s.writeX i (w ++ lowWord (s.readX i)))
  | .tbuf k => .ok (s.writeText k (unpackBytes w))
  | _ => .error .readOnly

/-- The state in which the port has answered. -/
def State.answer (s : State) (r : PortResponse) : State := { s with port := r }

/-- A host read (R66, R68): the word, or a named refusal with no other change (log entry 4). -/
def performRead (width : Width) (off : BitVec 16) (s : State) : Result :=
  match selectPort s width off with
  | .error why => .next (s.answer (.refused why))
  | .ok reg =>
    match portValue s reg with
    | .error why => .next (s.answer (.refused why))
    | .ok w => .next ((s.afterPortRead reg).answer (.data w))

/-- The reset input (R310, R312): every piece of the LDU's state takes its reset value; the parameters, the host's
further events and the numbering of free draws are not the LDU's (log entry 7). -/
def performReset (s : State) : Result :=
  .next { State.resetWith s.cfg with pending := s.pending, draws := s.draws }

end Sys2Proof.Machine
end

