-- ==== Sys2Proof/Machine/Command.lean ====
section
/-! DEFINITION. What a `CMD` write does (spec/10_state.md R42, spec/20_memory.md R75, spec/60_exceptions.md R283, R287),
and the performing of one host event. -/

namespace Sys2Proof.Machine

/-- The whole execution of the command a word stands for; an illegal word raises `ILL` and changes nothing else (R95,
R283, R287). -/
def runWord (w : Word) (s : State) : Result :=
  match decode s.cfg.n w with
  | .ok i => exec i s
  | .error _ => abort .ill s

/-- A `CMD` write has completed: the unit is no longer busy and the port answers (R43, R320). -/
def completeCommand : Result → Result
  | .next s => .next { s with busy := false, port := .written }
  | .fault f => .fault f
  | .refused r => .refused r

/-- A host write (R66, R68): a write of `CMD` executes the command, one indivisible event (R75). -/
def performWrite (width : Width) (off : BitVec 16) (w : Word) (s : State) : Result :=
  match selectPort s width off with
  | .error why => .next (s.answer (.refused why))
  | .ok .cmd => completeCommand (runWord w s)
  | .ok reg =>
    match portStore s w reg with
    | .error why => .next (s.answer (.refused why))
    | .ok s' => .next (s'.answer .written)

/-- One host event. -/
def performEvent : HostEvent → State → Result
  | .write width off w, s => performWrite width off w s
  | .read width off, s => performRead width off s
  | .reset, s => performReset s

end Sys2Proof.Machine
end

