-- ==== Sys2Proof/Machine/Step.lean ====
section
/-! DEFINITION. One step of the LDU: the oldest pending host event is performed; with none pending the LDU is idle
(spec/20_memory.md R75, spec/70_reset_and_hazards.md R311; log entry 3). -/

namespace Sys2Proof.Machine

def step (s : State) : Host.Outcome State Fault Refusal :=
  match s.pending with
  | [] => .next s
  | e :: rest => performEvent e { s with pending := rest }

/-- The state in which the host's next event is the write to `CMD` of the word `w`, its bits from `nbits` on zero. The
LDU has no program memory (R31): this is the place its commands come from (log entry 3). -/
def State.withFetchWord (s : State) (nbits w : Nat) : State :=
  { s with pending := .write .w32 0x0000 (BitVec.ofNat 32 (w % 2 ^ nbits)) :: s.pending }

end Sys2Proof.Machine
end

