-- ==== Sys2Proof/Safety.lean ====
section
/-! DEFINITION. What the spec promises of every state (spec/10_state.md R22, R43, R45, R48, spec/20_memory.md R60), what
a safe step is, and the terms the claims are made in: what a command leaves alone, truncation to the format, the rows of
the command map, runs of commands, the texts `PARSE` accepts, the port offsets. -/

namespace Sys2Proof.Machine

/-- The invariants of a state: the parameters meet R6, every `D` register meets R22, `TLEN` is at most TBYTES (R45),
the text buffer is in canonical form and lists only bytes that exist (R60), the unnamed bits of `DSEL` are 0 (R48), and
no command is in progress (R43). -/
structure State.Inv (s : State) : Prop where
  valid : s.cfg.Valid
  values : ∀ r : DReg, (s.readD r).wf s.cfg
  tlen : s.tlen.toNat ≤ s.cfg.tbytes
  canonical : s.tbuf.wf
  inBuffer : ∀ cell ∈ s.tbuf.cells, cell.1 < s.cfg.tbytes
  dselBits : s.dsel &&& dselMask = s.dsel
  idle : s.busy = false

/-- A step that neither faults nor is refused. -/
def Completes (r : Result) : Prop := ∃ t, r = .next t

/-! ### What a command leaves alone -/

/-- No `D` register differs. -/
def SameD (s t : State) : Prop := ∀ r : DReg, t.readD r = s.readD r

/-- No `X` register differs. -/
def SameX (s t : State) : Prop := ∀ i : XReg, t.readX i = s.readX i

/-- No byte of the text buffer differs. -/
def SameText (s t : State) : Prop := ∀ a : Nat, t.tbuf.read a = s.tbuf.read a

/-- `TLEN`, `FEXP` and `FINFO` do not differ. -/
def SameRecord (s t : State) : Prop := t.tlen = s.tlen ∧ t.fexp = s.fexp ∧ t.finfo = s.finfo

/-- What no command writes does not differ: `DSEL`, the parameters, `STATUS.BUSY`, the host's events and the port. -/
def SamePort (s t : State) : Prop :=
  t.dsel = s.dsel ∧ t.cfg = s.cfg ∧ t.busy = s.busy ∧ t.pending = s.pending ∧ t.port = s.port

/-- Everything but `D[d]` is as it was: the other `D` registers, the `X` registers, `FLAGS`, the record registers, every
byte of the text buffer and the port. (`draws`, the model's own counter of free draws, is in no frame.) -/
def OnlyD (d : DReg) (s t : State) : Prop :=
  (∀ r : DReg, r ≠ d → t.readD r = s.readD r) ∧ SameX s t ∧ t.flags = s.flags ∧ SameRecord s t ∧ SameText s t ∧
    SamePort s t

/-- Everything but `X[i]` is as it was. -/
def OnlyX (i : XReg) (s t : State) : Prop :=
  SameD s t ∧ (∀ j : XReg, j ≠ i → t.readX j = s.readX j) ∧ t.flags = s.flags ∧ SameRecord s t ∧ SameText s t ∧
    SamePort s t

/-- Everything but `FLAGS` is as it was. -/
def OnlyFlags (s t : State) : Prop := SameD s t ∧ SameX s t ∧ SameRecord s t ∧ SameText s t ∧ SamePort s t

/-- Everything but the hand-off record (`TBUF`, `TLEN`, `FINFO`, `FEXP`) is as it was, and the bytes of the text buffer
from address `len` on. -/
def OnlyRecord (len : Nat) (s t : State) : Prop :=
  SameD s t ∧ SameX s t ∧ t.flags = s.flags ∧ (∀ a : Nat, len ≤ a → t.tbuf.read a = s.tbuf.read a) ∧ SamePort s t

/-- The `D` register a command writes, if any (R93). -/
def destD : Instr → Option DReg
  | .nop => none
  | .mov d _ => some d
  | .neg d _ => some d
  | .abs d _ => some d
  | .ldc d _ => some d
  | .setprec d _ => some d
  | .getprec _ _ => none
  | .fromu64 d _ => some d
  | .fromi64 d _ => some d
  | .fromf64 d _ => some d
  | .tou64 _ _ => none
  | .toi64 _ _ => none
  | .tof64 _ _ => none
  | .add d _ _ => some d
  | .sub d _ _ => some d
  | .mul d _ _ => some d
  | .div d _ _ => some d
  | .recip d _ => some d
  | .sqrt d _ => some d
  | .cmp _ _ _ => none
  | .iszero _ _ => none
  | .isone _ _ => none
  | .isint _ _ => none
  | .isneg _ _ => none
  | .isnan _ _ => none
  | .isinf _ _ => none
  | .isfin _ _ => none
  | .classof _ _ => none
  | .parse d => some d
  | .format _ _ _ => none

/-- The `X` register a command writes, if any (R93). -/
def destX : Instr → Option XReg
  | .nop => none
  | .mov _ _ => none
  | .neg _ _ => none
  | .abs _ _ => none
  | .ldc _ _ => none
  | .setprec _ _ => none
  | .getprec d _ => some d
  | .fromu64 _ _ => none
  | .fromi64 _ _ => none
  | .fromf64 _ _ => none
  | .tou64 d _ => some d
  | .toi64 d _ => some d
  | .tof64 d _ => some d
  | .add _ _ _ => none
  | .sub _ _ _ => none
  | .mul _ _ _ => none
  | .div _ _ _ => none
  | .recip _ _ => none
  | .sqrt _ _ => none
  | .cmp d _ _ => some d
  | .iszero d _ => some d
  | .isone d _ => some d
  | .isint d _ => some d
  | .isneg d _ => some d
  | .isnan d _ => some d
  | .isinf d _ => some d
  | .isfin d _ => some d
  | .classof d _ => some d
  | .parse _ => none
  | .format _ _ _ => none

/-! ### Values -/

/-- A finite non-zero value. -/
def FiniteNonzero (v : DValue) : Prop := v.cls = .fin ∧ v.isZero = false

/-- The record with the limbs `ls`, zeros after them, at full precision. -/
def recordOf (c : Config) (ls : List (BitVec 32)) (exp : Int) (neg : Bool) : DValue :=
  { limbs := ls ++ List.replicate (c.n - ls.length) 0, exp := exp, neg := neg, cls := .fin, prec := BitVec.ofNat 16 c.n }

/-- `v` is `Saturate(TruncN(q))` with the sign `neg` and the precision `prec` (R13, R146), said through values: a `q`
whose truncation to the N-limb format is above MAXV gives an infinity, one below MINV gives `Zero`, and any other gives
the largest value of the format that is not above `q`. -/
def TruncatesTo (c : Config) (q : ℚ) (neg : Bool) (prec : Nat) (v : DValue) : Prop :=
  if (10 : ℚ) ^ (c.maxExp : Int) + (10 : ℚ) ^ ((c.maxExp : Int) - 8 * ((c.n : Int) - 1)) ≤ q then
    v = DValue.infinity c.n neg
  else if q < (10 : ℚ) ^ c.minExp then v = DValue.zero c.n
  else
    v.wf c ∧ v.cls = .fin ∧ v.isZero = false ∧ v.neg = neg ∧ v.prec.toNat = prec ∧
      |v.val| ≤ q ∧ q < |v.val| + (10 : ℚ) ^ (v.exp - 8 * ((c.n : Int) - 1))

/-- A finite binary64 pattern (R267). -/
def FiniteBinary64 (b : XWord) : Prop := binary64Exponent b ≠ 0x7FF

/-! ### Command words -/

/-- The rows of R93: the opcode and the mask of the row's format (R91). -/
def commandRows : List (Nat × Nat) :=
  [(0x00, 0xFFFFFFFF), (0x01, 0xFF00FFFF), (0x02, 0xFF00FFFF), (0x03, 0xFF00FFFF), (0x04, 0xFF0FFE00),
   (0x05, 0xFF0FF000), (0x06, 0xFF00FFFF), (0x08, 0xFF00FFFF), (0x09, 0xFF00FFFF), (0x0A, 0xFF00FFFF),
   (0x0C, 0xFF00FFFF), (0x0D, 0xFF00FFFF), (0x0E, 0xFF00FFFF), (0x10, 0xFF000FFF), (0x11, 0xFF000FFF),
   (0x12, 0xFF000FFF), (0x13, 0xFF000FFF), (0x14, 0xFF00FFFF), (0x15, 0xFF00FFFF), (0x20, 0xFF000FFF),
   (0x21, 0xFF00FFFF), (0x22, 0xFF00FFFF), (0x23, 0xFF00FFFF), (0x24, 0xFF00FFFF), (0x25, 0xFF00FFFF),
   (0x26, 0xFF00FFFF), (0x27, 0xFF00FFFF), (0x28, 0xFF00FFFF), (0x30, 0xFF0FFFFF), (0x31, 0xFFF00FFE)]

/-- The command of an opcode of R93 with the operand fields of a word (R90, R91): `a` is bits 23:20, `b` bits 19:16, `c` bits
15:12, the constant id bits 8:0, the limb count bits 11:0, the style bit 0. -/
def rowCommand (op : Nat) (w : Word) : Option Instr :=
  let a : BitVec 4 := BitVec.ofNat 4 (w.toNat / 2 ^ 20)
  let b : BitVec 4 := BitVec.ofNat 4 (w.toNat / 2 ^ 16)
  let c : BitVec 4 := BitVec.ofNat 4 (w.toNat / 2 ^ 12)
  match op with
  | 0x00 => some .nop
  | 0x01 => some (.mov a b)
  | 0x02 => some (.neg a b)
  | 0x03 => some (.abs a b)
  | 0x04 => some (.ldc a (BitVec.ofNat 9 w.toNat))
  | 0x05 => some (.setprec a (BitVec.ofNat 12 w.toNat))
  | 0x06 => some (.getprec a b)
  | 0x08 => some (.fromu64 a b)
  | 0x09 => some (.fromi64 a b)
  | 0x0A => some (.fromf64 a b)
  | 0x0C => some (.tou64 a b)
  | 0x0D => some (.toi64 a b)
  | 0x0E => some (.tof64 a b)
  | 0x10 => some (.add a b c)
  | 0x11 => some (.sub a b c)
  | 0x12 => some (.mul a b c)
  | 0x13 => some (.div a b c)
  | 0x14 => some (.recip a b)
  | 0x15 => some (.sqrt a b)
  | 0x20 => some (.cmp a b c)
  | 0x21 => some (.iszero a b)
  | 0x22 => some (.isone a b)
  | 0x23 => some (.isint a b)
  | 0x24 => some (.isneg a b)
  | 0x25 => some (.isnan a b)
  | 0x26 => some (.isinf a b)
  | 0x27 => some (.isfin a b)
  | 0x28 => some (.classof a b)
  | 0x30 => some (.parse a)
  | 0x31 => some (.format b c (if w.toNat % 2 = 0 then .sci else .fix))
  | _ => none

/-- A word is the command of a row: its bits under the mask are the opcode and zeros, and the row's operand check passes
(R93, R95). -/
def RowMatches (n : Nat) (row : Nat × Nat) (w : Word) : Prop :=
  w.toNat &&& row.2 = row.1 * 2 ^ 24 ∧
    (row.1 = 0x04 → w.toNat % 512 ≤ 13 ∨ (256 ≤ w.toNat % 512 ∧ w.toNat % 512 ≤ 510)) ∧
    (row.1 = 0x05 → 1 ≤ w.toNat % 4096 ∧ w.toNat % 4096 ≤ n)

/-! ### Runs of commands -/

/-- The commands of a list one after another, as far as each gives a next state (R75). -/
def execAll : List Instr → State → Result
  | [], s => .next s
  | i :: rest, s =>
    match exec i s with
    | .next t => execAll rest t
    | .fault f => .fault f
    | .refused r => .refused r

/-- The limb count of Newton round number `k`, counted from 0 (R175): `min(N, ceil((d + 10) / 4))` with `d = 12 * 2^k`. -/
def roundLimbs (n k : Nat) : BitVec 12 := BitVec.ofNat 12 (min n ((12 * 2 ^ k + 13) / 4))

/-- The commands of the Newton round of R176 on `p` limbs: `D[a]` is the operand, `D[y]` the iterate, `D[t]` and `D[w]` are
scratch. `MUL` of two sources of precision `p` is `MulCore` at `p` (R161). -/
def recipRoundCommands (a y t w : DReg) (p : BitVec 12) : List Instr :=
  [.setprec a p, .setprec y p, .mul t a y, .ldc w 2, .sub t w t, .setprec t p, .mul y y t]

/-- The commands of the coupled round of R193 on `p` limbs, in its order: `D[a]` is the operand, `D[y]` and `D[v]` are the
pair, `D[t]` and `D[w]` are scratch. -/
def sqrtRoundCommands (a y v t w : DReg) (p : BitVec 12) : List Instr :=
  [.setprec y p, .setprec v p, .mul t y v, .neg t t, .ldc w 2, .setprec t p, .mul t t w, .ldc w 1, .add t t w,
   .setprec t p, .mul t t v, .add v v t,
   .setprec y p, .mul t y y, .neg t t, .add t t a, .setprec t p, .setprec v p, .mul t t v, .add y y t]

/-! ### Texts -/

/-- The optional sign of a text (R223). -/
def IsSign (bs : List Byte) (neg : Bool) : Prop := (neg = false ∧ (bs = [] ∨ bs = [0x2B])) ∨ (neg = true ∧ bs = [0x2D])

/-- One or more digits and the characters that write them (R222, R223). -/
def IsDigits (bs : List Byte) (ds : List Nat) : Prop := ds ≠ [] ∧ (∀ d ∈ ds, d < 10) ∧ bs = ds.map fun d => BitVec.ofNat 8 (0x30 + d)

/-- The language `number` of R223, with the named parts of a text in it. -/
def IsNumberText (text : List Byte) (p : NumberParts) : Prop :=
  ∃ sign int frac exp : List Byte,
    text = sign ++ int ++ frac ++ exp ∧ IsSign sign p.sgn ∧ IsDigits int p.int ∧
    ((frac = [] ∧ p.frac = []) ∨ ∃ f, frac = 0x2E :: f ∧ IsDigits f p.frac) ∧
    ((exp = [] ∧ p.exp = 0) ∨
      ∃ e esign ebody eneg eds, exp = e :: (esign ++ ebody) ∧ (e = 0x65 ∨ e = 0x45) ∧ IsSign esign eneg ∧
        IsDigits ebody eds ∧ p.exp = if eneg then -(digitsValue eds : Int) else digitsValue eds)

/-- A text that spells a lower-case word in any mixture of cases (R224). -/
def Spells (word bs : List Byte) : Prop := List.Forall₂ (fun b l => b = l ∨ b = l - 0x20) bs word

/-- The language `special` of R224 and the value of a text in it. -/
def IsSpecialText (n : Nat) (text : List Byte) (v : DValue) : Prop :=
  ∃ sign body neg, text = sign ++ body ∧ IsSign sign neg ∧
    ((Spells [0x69, 0x6E, 0x66] body ∧ v = DValue.infinity n neg) ∨
     (Spells [0x69, 0x6E, 0x66, 0x69, 0x6E, 0x69, 0x74, 0x79] body ∧ v = DValue.infinity n neg) ∨
     (Spells [0x6E, 0x61, 0x6E] body ∧ v = DValue.notANumber n))

/-! ### The port -/

/-- The read-only offsets of R62. -/
def ReadOnlyOffset (off : Nat) : Prop :=
  off ∈ [0x04, 0x10, 0x14, 0x18, 0x20, 0x24, 0x28, 0x2C, 0x30, 0x34, 0x44, 0x48, 0x4C, 0x50]

/-- The word-aligned offsets of R62 that can be read and written. -/
def ReadWriteOffset (tbytes off : Nat) : Prop :=
  off % 4 = 0 ∧
    (off ∈ [0x08, 0x0C, 0x40] ∨ (0x100 ≤ off ∧ off < 0x180) ∨ (0x8000 ≤ off ∧ off < 0x8000 + tbytes))

/-- A read the port accepts (R62, R66). -/
def ReadAccepted (tbytes : Nat) (width : Width) (off : Nat) : Prop :=
  width = .w32 ∧ (ReadOnlyOffset off ∨ ReadWriteOffset tbytes off)

/-- A write the port accepts (R62, R66). -/
def WriteAccepted (tbytes : Nat) (width : Width) (off : Nat) : Prop :=
  width = .w32 ∧ (off = 0 ∨ ReadWriteOffset tbytes off)

end Sys2Proof.Machine
end

