-- ==== Sys2Proof/Certificates/Slice0/Obligations.lean ====
section
/-! DEFINITION. The statements for the provers, in the order of OBLIGATIONS.json. `pending`, `port`, `draws` and `cfg` are
the model's own fields (log entries 1, 3, 4 and 6): where a statement names one, that clause is the model's. `s.Inv` and
`Config.Valid` hold the invariants of R22 and the constraints of R6, with the one of log entry 18. -/

open Sys2Proof Sys2Proof.Machine

/-! ### Command words -/

/-- R91, R93, R95: the word of a well-formed command decodes to that command, whatever the limb capacity. -/
def Obligations.EncodeThenDecode : Prop :=
  ∀ (n : Nat) (i : Instr), i.wellFormed n = true → decode n (encode i) = .ok i

/-- R91, R93: a word that decodes is the word of its command, and that command is well-formed. -/
def Obligations.DecodeThenEncode : Prop :=
  ∀ (n : Nat) (w : Word) (i : Instr), decode n w = .ok i → encode i = w ∧ i.wellFormed n = true

/-- R94: a word is a command exactly when it matches a row of R93, it then is that row's command with the operands in the
row's fields, it matches no second row, and no two rows share an opcode. -/
def Obligations.DecodingIsTotalAndExclusive : Prop :=
  (∀ (n : Nat) (w : Word) (i : Instr),
    decode n w = .ok i ↔ ∃ row ∈ commandRows, RowMatches n row w ∧ rowCommand row.1 w = some i) ∧
  (∀ (n : Nat) (w : Word), (∃ i, decode n w = .ok i) ↔ ∃ row ∈ commandRows, RowMatches n row w) ∧
  (∀ (n : Nat) (w : Word), ∀ p ∈ commandRows, ∀ q ∈ commandRows, RowMatches n p w → RowMatches n q w → p = q) ∧
  commandRows.Pairwise (fun p q => p.1 ≠ q.1)

/-- R100: the worked encodings, in every configuration. -/
def Obligations.WorkedEncodings : Prop :=
  ∀ c : Config,
    decode c.n 0x10312000 = .ok (.add 3 1 2) ∧ decode c.n 0x04000001 = .ok (.ldc 0 1) ∧
    decode c.n 0x04700100 = .ok (.ldc 7 256) ∧ decode c.n 0x05200003 = .ok (.setprec 2 3) ∧
    decode c.n 0x20512000 = .ok (.cmp 5 1 2) ∧ decode c.n 0x30400000 = .ok (.parse 4) ∧
    decode c.n 0x31041001 = .ok (.format 4 1 .fix) ∧ decode c.n 0x08100000 = .ok (.fromu64 1 0) ∧
    decode c.n 0x00000000 = .ok .nop ∧ ∀ i, decode c.n 0x10312001 ≠ .ok i

/-! ### Steps -/

/-- R42, R75, R320: when the next host event is a `CMD` write of the word of a command, the step is that command, run on
the state without the event; the port then answers and the unit is not busy. `withFetchWord` makes it the next event. (The
queue of events and the port's answer are the model's, log entries 3 and 4.) -/
def Obligations.StepRunsTheCommand : Prop :=
  (∀ (s : State) (rest : List HostEvent) (w : Word) (i : Instr),
    s.pending = .write .w32 0 w :: rest → decode s.cfg.n w = .ok i →
    step s =
      match exec i { s with pending := rest } with
      | .next t => .next { t with busy := false, port := .written }
      | .fault f => .fault f
      | .refused r => .refused r) ∧
  (∀ (s : State) (w : Word) (i : Instr), decode s.cfg.n w = .ok i →
    step (s.withFetchWord 32 w.toNat) =
      match exec i s with
      | .next t => .next { t with busy := false, port := .written }
      | .fault f => .fault f
      | .refused r => .refused r)

/-- R283: a `CMD` write of an illegal word, or of a `FORMAT` whose count register holds 0, sets `FLAGS.ILL` and changes
nothing else; the port answers as to any write, not with a refusal (the port's answer is the model's, log entry 4). -/
def Obligations.IllegalCommandSetsIll : Prop :=
  (∀ (s : State) (rest : List HostEvent) (w : Word),
    s.pending = .write .w32 0 w :: rest → (¬ ∃ row ∈ commandRows, RowMatches s.cfg.n row w) →
    step s = .next { s with pending := rest, busy := false, port := .written, flags := { s.flags with ill := true } }) ∧
  (∀ (s : State) (rest : List HostEvent) (w : Word) (src : DReg) (x : XReg) (style : Style),
    s.pending = .write .w32 0 w :: rest → decode s.cfg.n w = .ok (.format src x style) → s.readX x = 0 →
    step s = .next { s with pending := rest, busy := false, port := .written, flags := { s.flags with ill := true } })

/-! ### Reset and invariants -/

/-- R56, R310, R312: whatever the state, the reset input gives every piece of the LDU's state its reset value. -/
def Obligations.ResetValues : Prop :=
  ∀ (s : State) (rest : List HostEvent), s.pending = .reset :: rest →
    ∃ t, step s = .next t ∧ (∀ r : DReg, t.readD r = recordOf s.cfg [] 0 false) ∧ (∀ i : XReg, t.readX i = 0) ∧
      (t.flags.dom = false ∧ t.flags.perr = false ∧ t.flags.ill = false) ∧ t.tlen = 0 ∧ t.fexp = 0 ∧ t.finfo = 0 ∧
      t.dsel = 0 ∧ t.busy = false ∧ (∀ a : Nat, t.tbuf.read a = none) ∧ t.cfg = s.cfg ∧ t.pending = rest

/-- R22, R45, R48, R56: the reset state of every configuration R6 allows meets the invariants, and so does the reference
reset state (the reference configuration at reset is the model's choice, log entry 1). -/
def Obligations.ResetMeetsInvariants : Prop :=
  (∀ c : Config, c.Valid → (State.resetWith c).Inv) ∧ State.reset.Inv

/-- R22: every step keeps the invariants: each `D` register stays a stored value (limbs below 10^8, one zero, canonical
infinities and NaN, exponent a multiple of 8 between MINV and MAXV, legal precision), `TLEN` stays in the buffer, the
buffer stays canonical. -/
def Obligations.StepKeepsInvariants : Prop :=
  ∀ s t : State, s.Inv → step s = .next t → t.Inv

/-- R14, R322: from every state that meets the invariants a step completes: no command hangs, none stops the
machine. -/
def Obligations.StepCompletes : Prop :=
  ∀ s : State, s.Inv → Completes (step s)

/-- R6, R75, R311: a step takes exactly the oldest host event and changes no parameter; with no event pending, as after
reset, the LDU executes nothing. (The queue of events is the model's, log entry 3.) -/
def Obligations.StepTakesOneEvent : Prop :=
  (∀ s t : State, step s = .next t → t.pending = s.pending.tail ∧ t.cfg = s.cfg) ∧
  (∀ s : State, s.pending = [] → step s = .next s) ∧ ∀ c : Config, (State.resetWith c).pending = []

/-! ### Flags and frames of all commands -/

/-- R44, R289: no command clears a flag. -/
def Obligations.CommandsOnlySetFlags : Prop :=
  ∀ (i : Instr) (s t : State), exec i s = .next t →
    (s.flags.dom = true → t.flags.dom = true) ∧ (s.flags.perr = true → t.flags.perr = true) ∧
      (s.flags.ill = true → t.flags.ill = true)

/-- R281, R287: a command raises at most one flag: `DOM` only `SQRT` of a NaN or negative value, `PERR` only `PARSE` of a
text outside the grammar, `ILL` only a count of zero of `FORMAT` or an illegal operand of `LDC` or `SETPREC` (that `exec`
takes `ILL` on such an operand, which no word decodes to, is the model's choice, log entry 13). -/
def Obligations.WhichCommandRaisesWhichFlag : Prop :=
  ∀ (i : Instr) (s t : State), exec i s = .next t →
    t.flags = s.flags ∨
    (t.flags = { s.flags with dom := true } ∧
      ∃ d src, i = .sqrt d src ∧ ((s.readD src).cls = .nan ∨ (s.readD src).neg = true)) ∨
    (t.flags = { s.flags with perr := true } ∧
      ∃ d, i = .parse d ∧ (∀ p, ¬ IsNumberText (s.readBytes 0 s.tlen.toNat) p) ∧
        ∀ v, ¬ IsSpecialText s.cfg.n (s.readBytes 0 s.tlen.toNat) v) ∨
    (t.flags = { s.flags with ill := true } ∧
      (i.wellFormed s.cfg.n = false ∨ ∃ src x style, i = .format src x style ∧ s.readX x = 0))

/-- R44, R97, R290: what a command does to the `D` and `X` registers, `TLEN` and the text does not depend on `FLAGS`,
`FEXP`, `FINFO`, `DSEL`, `STATUS` or anything else of the port. -/
def Obligations.CommandsReadOnlyTheirSources : Prop :=
  ∀ (i : Instr) (s s' t : State), SameD s s' → SameX s s' → s'.tlen = s.tlen → s'.tbuf = s.tbuf → s'.cfg = s.cfg →
    s'.draws = s.draws → exec i s = .next t →
    ∃ t', exec i s' = .next t' ∧ SameD t t' ∧ SameX t t' ∧ t'.tlen = t.tlen ∧ SameText t t' ∧ t'.draws = t.draws

/-- R67, R293: no command but `FORMAT` changes a byte of the text buffer, `TLEN`, `FINFO` or `FEXP`; no command changes
`DSEL`, a parameter or the port. -/
def Obligations.OnlyFormatWritesText : Prop :=
  ∀ (i : Instr) (s t : State), exec i s = .next t →
    SamePort s t ∧ ((∀ src x style, i ≠ .format src x style) → SameText s t ∧ SameRecord s t)

/-- R93, R97: a command changes no `D` register but its `D` destination and no `X` register but its `X` destination. -/
def Obligations.CommandsWriteOnlyTheirDestination : Prop :=
  ∀ (i : Instr) (s t : State), exec i s = .next t →
    (∀ r : DReg, destD i ≠ some r → t.readD r = s.readD r) ∧ (∀ x : XReg, destX i ≠ some x → t.readX x = s.readX x)

/-! ### The host port -/

/-- R21: no host read and no host write but one of `CMD` changes a `D` register. -/
def Obligations.HostCannotWriteD : Prop :=
  ∀ (s t : State) (rest : List HostEvent) (width : Width) (off : BitVec 16) (w : Word),
    (s.pending = .read width off :: rest ∨
      (s.pending = .write width off w :: rest ∧ ¬(width = .w32 ∧ off = 0))) →
    step s = .next t → SameD s t

/-- R68: a host read changes nothing of the LDU (only the port's answer, the queue of events and the model's own counter
of free draws differ). -/
def Obligations.PortReadsHaveNoSideEffect : Prop :=
  ∀ (s : State) (rest : List HostEvent) (width : Width) (off : BitVec 16), s.pending = .read width off :: rest →
    ∃ t, step s = .next t ∧ SameD s t ∧ SameX s t ∧ t.flags = s.flags ∧ SameRecord s t ∧ t.tbuf = s.tbuf ∧
      t.dsel = s.dsel ∧ t.busy = s.busy ∧ t.cfg = s.cfg ∧ t.pending = rest

/-- R66, R285: an access that R62 does not map, not 32 bits wide or not at a multiple of 4, is refused: no state changes
and the port answers with an error; every other access is answered with a word, or performed. (The named answer on the port
is the model's form of the bus's error response, log entries 4 and 5.) -/
def Obligations.RefusedAccesses : Prop :=
  (∀ (s : State) (rest : List HostEvent) (width : Width) (off : BitVec 16), s.pending = .read width off :: rest →
    (¬ ReadAccepted s.cfg.tbytes width off.toNat →
      ∃ why, step s = .next { s with pending := rest, port := .refused why }) ∧
    (ReadAccepted s.cfg.tbytes width off.toNat → ∃ t w, step s = .next t ∧ t.port = .data w)) ∧
  (∀ (s : State) (rest : List HostEvent) (width : Width) (off : BitVec 16) (w : Word),
    s.pending = .write width off w :: rest →
    (¬ WriteAccepted s.cfg.tbytes width off.toNat →
      ∃ why, step s = .next { s with pending := rest, port := .refused why }) ∧
    (WriteAccepted s.cfg.tbytes width off.toNat → off ≠ 0 → ∃ t, step s = .next t ∧ t.port = .written))

/-- R44: a host write to `FLAGS` clears the bits written as 1 and changes nothing else; a read gives `DOM` in bit 0,
`PERR` in bit 1, `ILL` in bit 3 and 0 in every other bit. -/
def Obligations.FlagsRegister : Prop :=
  (∀ (s : State) (rest : List HostEvent) (w : Word), s.pending = .write .w32 0x0008 w :: rest →
    step s = .next { s with
      pending := rest, port := .written
      flags := { dom := s.flags.dom && !w.getLsbD 0, perr := s.flags.perr && !w.getLsbD 1,
                 ill := s.flags.ill && !w.getLsbD 3 } }) ∧
  (∀ (s : State) (rest : List HostEvent), s.pending = .read .w32 0x0008 :: rest →
    ∃ t w, step s = .next t ∧ t.port = .data w ∧ w.getLsbD 0 = s.flags.dom ∧ w.getLsbD 1 = s.flags.perr ∧
      w.getLsbD 3 = s.flags.ill ∧ ∀ i, i ≠ 0 → i ≠ 1 → i ≠ 3 → w.getLsbD i = false)

/-- R45: a host write of `w` to `TLEN` stores `min(w, TBYTES)` and changes nothing else; a read gives it in bits 15:0. -/
def Obligations.TlenRegister : Prop :=
  (∀ (s : State) (rest : List HostEvent) (w : Word), s.cfg.Valid → s.pending = .write .w32 0x000C w :: rest →
    ∃ len : BitVec 16, len.toNat = min w.toNat s.cfg.tbytes ∧
      step s = .next { s with pending := rest, port := .written, tlen := len }) ∧
  (∀ (s : State) (rest : List HostEvent), s.pending = .read .w32 0x000C :: rest →
    ∃ t w, step s = .next t ∧ t.port = .data w ∧ w.toNat = s.tlen.toNat)

/-- R63: a write to `XL[i]` replaces bits 31:0 of `X[i]` and leaves bits 63:32, a write to `XH[i]` the other way round;
nothing else changes; reads give the halves, the low word at the lower offset. (The port's answers are the model's, log
entry 4.) -/
def Obligations.XWindow : Prop :=
  (∀ (s : State) (rest : List HostEvent) (i : XReg) (w : Word),
    s.pending = .write .w32 (BitVec.ofNat 16 (0x100 + 8 * i.toNat)) w :: rest →
    ∃ t, step s = .next t ∧ (t.readX i).extractLsb' 0 32 = w ∧
      (t.readX i).extractLsb' 32 32 = (s.readX i).extractLsb' 32 32 ∧
      OnlyX i { s with pending := rest, port := .written } t) ∧
  (∀ (s : State) (rest : List HostEvent) (i : XReg) (w : Word),
    s.pending = .write .w32 (BitVec.ofNat 16 (0x104 + 8 * i.toNat)) w :: rest →
    ∃ t, step s = .next t ∧ (t.readX i).extractLsb' 32 32 = w ∧
      (t.readX i).extractLsb' 0 32 = (s.readX i).extractLsb' 0 32 ∧
      OnlyX i { s with pending := rest, port := .written } t) ∧
  (∀ (s : State) (rest : List HostEvent) (i : XReg),
    (s.pending = .read .w32 (BitVec.ofNat 16 (0x100 + 8 * i.toNat)) :: rest →
      ∃ t, step s = .next t ∧ t.port = .data ((s.readX i).extractLsb' 0 32)) ∧
    (s.pending = .read .w32 (BitVec.ofNat 16 (0x104 + 8 * i.toNat)) :: rest →
      ∃ t, step s = .next t ∧ t.port = .data ((s.readX i).extractLsb' 32 32)))

/-- R64: the word at `0x8000 + 4*j` holds `TBUF[4j]` in bits 7:0 up to `TBUF[4j+3]` in bits 31:24; a write stores all
four bytes and no other, a read of four bytes that were written gives them. (The port's answers are the model's, log
entry 4.) -/
def Obligations.TextWindow : Prop :=
  (∀ (s : State) (rest : List HostEvent) (j : Nat) (w : Word), s.Inv → 4 * j < s.cfg.tbytes →
    s.pending = .write .w32 (BitVec.ofNat 16 (0x8000 + 4 * j)) w :: rest →
    ∃ t, step s = .next t ∧ (∀ k < 4, t.tbuf.read (4 * j + k) = some (w.extractLsb' (8 * k) 8)) ∧
      (∀ a, (a < 4 * j ∨ 4 * j + 4 ≤ a) → t.tbuf.read a = s.tbuf.read a) ∧
      SameD s t ∧ SameX s t ∧ t.flags = s.flags ∧ SameRecord s t ∧
      SamePort { s with pending := rest, port := .written } t) ∧
  (∀ (s : State) (rest : List HostEvent) (j : Nat) (b : Nat → Byte), s.Inv → 4 * j < s.cfg.tbytes →
    (∀ k < 4, s.tbuf.read (4 * j + k) = some (b k)) →
    s.pending = .read .w32 (BitVec.ofNat 16 (0x8000 + 4 * j)) :: rest →
    ∃ t w, step s = .next t ∧ t.port = .data w ∧ ∀ k < 4, w.extractLsb' (8 * k) 8 = b k)

/-- R48: `DSEL` keeps bits 3:0 and 31:16 of a written word and reads 0 elsewhere; `DLIMB`, `DEXPL`, `DEXPH` and `DMETA`
read the selected limb, the sign-extended exponent and `neg`, `cls`, `prec` of the selected register. -/
def Obligations.ObservationWindow : Prop :=
  (∀ (s : State) (rest : List HostEvent) (w : Word), s.pending = .write .w32 0x0040 w :: rest →
    ∃ sel : BitVec 32, step s = .next { s with pending := rest, port := .written, dsel := sel } ∧
      ∀ i, sel.getLsbD i = (w.getLsbD i && (decide (i < 4) || decide (16 ≤ i)))) ∧
  (∀ (s : State) (rest : List HostEvent), s.Inv → s.pending = .read .w32 0x0040 :: rest →
    ∃ t, step s = .next t ∧ t.port = .data s.dsel) ∧
  (∀ (s : State) (rest : List HostEvent), s.Inv → s.pending = .read .w32 0x0044 :: rest →
    ∃ t, step s = .next t ∧
      t.port = .data ((s.readD (s.dsel.extractLsb' 0 4)).limbs.getD (s.dsel.extractLsb' 16 16).toNat 0)) ∧
  (∀ (s : State) (rest : List HostEvent), s.Inv →
    ∃ lo hi : Word, (hi ++ lo : BitVec 64).toInt = (s.readD (s.dsel.extractLsb' 0 4)).exp ∧
      (s.pending = .read .w32 0x0048 :: rest → ∃ t, step s = .next t ∧ t.port = .data lo) ∧
      (s.pending = .read .w32 0x004C :: rest → ∃ t, step s = .next t ∧ t.port = .data hi)) ∧
  (∀ (s : State) (rest : List HostEvent), s.pending = .read .w32 0x0050 :: rest →
    ∃ t w, step s = .next t ∧ t.port = .data w ∧ w.getLsbD 0 = (s.readD (s.dsel.extractLsb' 0 4)).neg ∧
      (w.extractLsb' 1 2).toNat = (s.readD (s.dsel.extractLsb' 0 4)).cls.code ∧ w.extractLsb' 3 13 = 0 ∧
      w.extractLsb' 16 16 = (s.readD (s.dsel.extractLsb' 0 4)).prec)

/-- R43, R46, R47, R49: what the host reads from `STATUS`, `FEXPL`, `FEXPH`, `FINFO` and the configuration registers. -/
def Obligations.ReadOnlyRegisters : Prop :=
  ∀ (s : State) (rest : List HostEvent) (off : BitVec 16), s.Inv → s.pending = .read .w32 off :: rest →
    (off = 0x0004 → ∃ t, step s = .next t ∧ t.port = .data 0) ∧
    (off = 0x0010 → ∃ t, step s = .next t ∧ t.port = .data (s.fexp.extractLsb' 0 32)) ∧
    (off = 0x0014 → ∃ t, step s = .next t ∧ t.port = .data (s.fexp.extractLsb' 32 32)) ∧
    (off = 0x0018 → ∃ t w, step s = .next t ∧ t.port = .data w ∧ w.toNat = s.finfo.toNat) ∧
    (off = 0x0020 → ∃ t w, step s = .next t ∧ t.port = .data w ∧ w.toNat = s.cfg.digits) ∧
    (off = 0x0024 → ∃ t w, step s = .next t ∧ t.port = .data w ∧ w.toNat = 16 * 2 ^ 24 + 16 * 2 ^ 16 + s.cfg.n) ∧
    (off = 0x0028 → ∃ t w, step s = .next t ∧ t.port = .data w ∧ w.toNat = s.cfg.tbytes) ∧
    (off = 0x002C → ∃ t w, step s = .next t ∧ t.port = .data w ∧ w.toNat = s.cfg.ew) ∧
    (off = 0x0030 → ∃ t w, step s = .next t ∧ t.port = .data w ∧ w.toNat = s.cfg.maxExp % 2 ^ 32) ∧
    (off = 0x0034 → ∃ t w, step s = .next t ∧ t.port = .data w ∧ w.toNat = s.cfg.maxExp / 2 ^ 32)

/-! ### Limb store -/

/-- R120 to R123: `NOP` changes nothing, `MOV` copies the record, `NEG` inverts the sign except of zero and NaN, `ABS`
clears it; each changes nothing else. -/
def Obligations.CopyAndSignCommands : Prop :=
  (∀ s : State, exec .nop s = .next s) ∧
  (∀ (s : State) (d src : DReg), ∃ t, exec (.mov d src) s = .next t ∧ t.readD d = s.readD src ∧ OnlyD d s t ∧
    (d = src → t = s)) ∧
  (∀ (s : State) (d src : DReg), ∃ t, exec (.neg d src) s = .next t ∧ OnlyD d s t ∧
    t.readD d =
      if (s.readD src).cls = .nan ∨ ((s.readD src).cls = .fin ∧ (s.readD src).limb 0 = 0) then s.readD src
      else { s.readD src with neg := !(s.readD src).neg }) ∧
  (∀ (s : State) (d src : DReg), ∃ t, exec (.abs d src) s = .next t ∧ OnlyD d s t ∧
    t.readD d = { s.readD src with neg := false })

/-- R50, R124: `LDC` loads the record the registry lists; the constants it lists as truncations are the truncations of
their numbers; an id it does not assign, which no word decodes to, sets `ILL` and nothing else (the model's choice,
log entry 13). -/
def Obligations.LdcLoadsTheRegistry : Prop :=
  (∀ (s : State) (d : DReg),
    ∀ row ∈ ([(0, recordOf s.cfg [] 0 false), (1, recordOf s.cfg [1] 0 false), (2, recordOf s.cfg [2] 0 false),
        (3, recordOf s.cfg [50000000] (-8) false), (4, { recordOf s.cfg [] 0 false with cls := .nan }),
        (5, { recordOf s.cfg [] 0 false with cls := .inf }), (6, recordOf s.cfg [1] s.cfg.minExp false),
        (7, recordOf s.cfg [1] s.cfg.maxExp false), (9, recordOf s.cfg [922, 33720368, 54775807] 16 false),
        (10, recordOf s.cfg [922, 33720368, 54775808] 16 true),
        (11, recordOf s.cfg [1844, 67440737, 9551615] 16 false)] : List (BitVec 9 × DValue)),
      ∃ t, exec (.ldc d row.1) s = .next t ∧ t.readD d = row.2 ∧ OnlyD d s t) ∧
  (∀ (s : State) (d : DReg) (cid : BitVec 9) (q : ℚ), s.cfg.Valid →
    ((cid = 8 ∧ q = (10 : ℚ) ^ (1 - (s.cfg.digits : Int))) ∨ (cid = 12 ∧ q = (2 ^ 53 - 1) * (2 : ℚ) ^ (971 : Int)) ∨
      (cid = 13 ∧ q = (2 : ℚ) ^ (-1022 : Int)) ∨
      (256 ≤ cid.toNat ∧ cid.toNat ≤ 510 ∧ q = (2 : ℚ) ^ ((cid.toNat : Int) - 256 - 127))) →
    ∃ t, exec (.ldc d cid) s = .next t ∧ TruncatesTo s.cfg q false s.cfg.n (t.readD d) ∧ OnlyD d s t) ∧
  (∀ (s : State) (d : DReg) (cid : BitVec 9), (14 ≤ cid.toNat ∧ cid.toNat ≤ 255) ∨ cid.toNat = 511 →
    exec (.ldc d cid) s = .next { s with flags := { s.flags with ill := true } })

/-- R125, R126: `SETPREC` sets `prec` and no other field when the count is 1 to N, and else, where no word decodes
to it, sets `ILL` and nothing else (the model's choice, log entry 13); `GETPREC` reads `prec`, zero-extended. -/
def Obligations.PrecisionCommands : Prop :=
  (∀ (s : State) (d : DReg) (p : BitVec 12), 1 ≤ p.toNat → p.toNat ≤ s.cfg.n →
    ∃ t, exec (.setprec d p) s = .next t ∧ OnlyD d s t ∧ (t.readD d).prec.toNat = p.toNat ∧
      t.readD d = { s.readD d with prec := (t.readD d).prec }) ∧
  (∀ (s : State) (d : DReg) (p : BitVec 12), p = 0 ∨ s.cfg.n < p.toNat →
    exec (.setprec d p) s = .next { s with flags := { s.flags with ill := true } }) ∧
  (∀ (s : State) (d : XReg) (src : DReg), ∃ t, exec (.getprec d src) s = .next t ∧ OnlyX d s t ∧
    (t.readX d).toNat = (s.readD src).prec.toNat)

/-! ### Conversions -/

/-- R127, R260: `FROMU64` and `FROMI64` are exact: the stored value is the scalar, unsigned or in two's complement, at
full precision. -/
def Obligations.FromIntegersExact : Prop :=
  (∀ (s : State) (d : DReg) (x : XReg), s.cfg.Valid →
    ∃ t, exec (.fromu64 d x) s = .next t ∧ OnlyD d s t ∧ (t.readD d).wf s.cfg ∧ (t.readD d).cls = .fin ∧
      (t.readD d).val = (s.readX x).toNat ∧ (t.readD d).prec.toNat = s.cfg.n) ∧
  (∀ (s : State) (d : DReg) (x : XReg), s.cfg.Valid →
    ∃ t, exec (.fromi64 d x) s = .next t ∧ OnlyD d s t ∧ (t.readD d).wf s.cfg ∧ (t.readD d).cls = .fin ∧
      (t.readD d).val = (s.readX x).toInt ∧ (t.readD d).prec.toNat = s.cfg.n)

/-- R267, R268: `FROMF64` of a NaN, an infinity and a zero pattern; of any other pattern the contract of `F64ToDec`
holds in every configuration, and with the reference instance the result is the saturated truncation of the exact
value. -/
def Obligations.FromF64Values : Prop :=
  ∀ (s : State) (d : DReg) (x : XReg), s.cfg.Valid →
    ∃ t, exec (.fromf64 d x) s = .next t ∧ OnlyD d s t ∧
      let b := s.readX x
      let e := (b.extractLsb' 52 11).toNat
      let f := (b.extractLsb' 0 52).toNat
      let q : ℚ := if e = 0 then f * (2 : ℚ) ^ (-1074 : Int) else (2 ^ 52 + f) * (2 : ℚ) ^ ((e : Int) - 1075)
      (e = 0x7FF → f ≠ 0 → t.readD d = DValue.notANumber s.cfg.n) ∧
      (e = 0x7FF → f = 0 → t.readD d = DValue.infinity s.cfg.n (b.getLsbD 63)) ∧
      (e = 0 → f = 0 → t.readD d = DValue.zero s.cfg.n) ∧
      (e ≠ 0x7FF → q ≠ 0 →
        ((t.readD d = DValue.zero s.cfg.n ∧ q < (10 : ℚ) ^ s.cfg.minExp) ∨
          ((t.readD d).wf s.cfg ∧ (t.readD d).cls = .fin ∧ (t.readD d).neg = b.getLsbD 63 ∧
            (t.readD d).prec.toNat = s.cfg.n ∧ |(|(t.readD d).val| / q) - 1| ≤ (10 : ℚ) ^ (-(s.cfg.digits : Int)))) ∧
        (s.cfg.f64ToDec = .reference → TruncatesTo s.cfg q (b.getLsbD 63) s.cfg.n (t.readD d)))

/-- R261 to R263: `TOU64` and `TOI64` truncate toward zero and clamp; a NaN gives 0, an infinity a bound. -/
def Obligations.ToIntegersTruncateAndClamp : Prop :=
  (∀ (s : State) (d : XReg) (src : DReg), s.Inv →
    ∃ t, exec (.tou64 d src) s = .next t ∧ OnlyX d s t ∧
      (t.readX d).toNat =
        match (s.readD src).cls with
        | .nan => 0
        | .inf => if (s.readD src).neg then 0 else 2 ^ 64 - 1
        | .fin => if (s.readD src).neg then 0 else min ⌊(s.readD src).val⌋.toNat (2 ^ 64 - 1)) ∧
  (∀ (s : State) (d : XReg) (src : DReg), s.Inv →
    ∃ t, exec (.toi64 d src) s = .next t ∧ OnlyX d s t ∧
      (t.readX d).toInt =
        match (s.readD src).cls with
        | .nan => 0
        | .inf => if (s.readD src).neg then -2 ^ 63 else 2 ^ 63 - 1
        | .fin => if (s.readD src).neg then max ⌈(s.readD src).val⌉ (-2 ^ 63) else min ⌊(s.readD src).val⌋ (2 ^ 63 - 1))

/-- R264: `FROMU64` then `TOU64`, and `FROMI64` then `TOI64`, return the scalar, for every 64-bit value. -/
def Obligations.IntegerRoundTrip : Prop :=
  (∀ (s : State) (d : DReg) (x y : XReg), s.Inv →
    ∃ t u, exec (.fromu64 d x) s = .next t ∧ exec (.tou64 y d) t = .next u ∧ u.readX y = s.readX x) ∧
  (∀ (s : State) (d : DReg) (x y : XReg), s.Inv →
    ∃ t u, exec (.fromi64 d x) s = .next t ∧ exec (.toi64 y d) t = .next u ∧ u.readX y = s.readX x)

/-- R265: `TOF64` of the special values, of zero, of a magnitude below DBLMIN and of one above DBLMAX; of any other
value it is `DecToF64` of the 18-digit rendering, which is internal. -/
def Obligations.ToF64Ranges : Prop :=
  ∀ (s : State) (d : XReg) (src : DReg), s.Inv →
    ∃ t, exec (.tof64 d src) s = .next t ∧ OnlyX d s t ∧
      let v := s.readD src
      let inf : XWord := if v.neg then 0xFFF0000000000000 else 0x7FF0000000000000
      (v.cls = .nan → t.readX d = 0x7FF8000000000000) ∧
      (v.cls = .inf → t.readX d = inf) ∧
      (v.cls = .fin → |v.val| < (doubleMin s.cfg.n).val → t.readX d = 0) ∧
      (v.cls = .fin → (2 ^ 53 - 1) * (2 : ℚ) ^ (971 : Int) < |v.val| → t.readX d = inf) ∧
      (v.cls = .fin → (doubleMin s.cfg.n).val ≤ |v.val| → |v.val| ≤ (2 ^ 53 - 1) * (2 : ℚ) ^ (971 : Int) →
        t.readX d = decToF64 s.cfg v.neg (formatValue v 18).text (formatValue v 18).exp)

/-- R266: with the reference instance, `DecToF64` of a digit string whose number is below `2^1024 - 2^970` is the nearest
binary64 number with the given sign, ties to the even significand; from there on it is the infinity. -/
def Obligations.DecToF64IsNearest : Prop :=
  ∀ (neg : Bool) (ds : List Nat) (e : Int), (∀ x ∈ ds, x < 10) →
    let q : ℚ := digitsValue ds * (10 : ℚ) ^ (e - ds.length + 1)
    let b := decToF64Reference neg (ds.map digitChar) e
    0 < q →
      b.getLsbD 63 = neg ∧
      ((2 ^ 1024 - 2 ^ 970 : ℚ) ≤ q → binary64Exponent b = 0x7FF ∧ binary64Fraction b = 0) ∧
      (q < (2 ^ 1024 - 2 ^ 970 : ℚ) → FiniteBinary64 b ∧
        ∀ b', FiniteBinary64 b' →
          |binary64Val b - q| ≤ |binary64Val b' - q| ∧
          (|binary64Val b - q| = |binary64Val b' - q| → binary64Val b' ≠ binary64Val b → binary64Fraction b % 2 = 0))

/-! ### Addition and subtraction -/

/-- R141: `ADD` of special operands, the first line that matches. (That two infinities of the same sign give that infinity
is marked by R141 as the spec's own inference.) -/
def Obligations.AddSpecialOperands : Prop :=
  ∀ (s : State) (d s1 s2 : DReg),
    let a := s.readD s1
    let b := s.readD s2
    let n := s.cfg.n
    (a.cls ≠ .fin ∨ b.cls ≠ .fin ∨ a.isZero = true ∨ b.isZero = true) →
    ∃ t, exec (.add d s1 s2) s = .next t ∧ OnlyD d s t ∧
      t.readD d =
        if a.cls = .nan ∨ b.cls = .nan then DValue.notANumber n
        else if a.cls = .inf ∧ b.cls = .inf then
          (if a.neg = b.neg then DValue.infinity n a.neg else DValue.notANumber n)
        else if a.cls = .inf then DValue.infinity n a.neg
        else if b.cls = .inf then DValue.infinity n b.neg
        else if a.isZero then b.withPrec n
        else a.withPrec n

/-- R142: beyond the cut-off of N - 1 limb-steps `ADD` returns the operand of the larger exponent unchanged, at full
precision; the other contributes nothing, whatever its sign. At N - 1 limb-steps the operation goes on: the leading limb
of the smaller operand is added to, or subtracted from, the last limb of the larger. -/
def Obligations.AddCutoff : Prop :=
  ∀ (s : State) (d s1 s2 : DReg), s.Inv → FiniteNonzero (s.readD s1) → FiniteNonzero (s.readD s2) →
    (8 * ((s.cfg.n : Int) - 1) < (s.readD s1).exp - (s.readD s2).exp →
      ∃ t, exec (.add d s1 s2) s = .next t ∧ OnlyD d s t ∧ t.readD d = (s.readD s1).withPrec s.cfg.n) ∧
    (8 * ((s.cfg.n : Int) - 1) < (s.readD s2).exp - (s.readD s1).exp →
      ∃ t, exec (.add d s1 s2) s = .next t ∧ OnlyD d s t ∧ t.readD d = (s.readD s2).withPrec s.cfg.n) ∧
    ((s.readD s1).exp - (s.readD s2).exp = 8 * ((s.cfg.n : Int) - 1) →
      let moved : ℚ := (s.readD s2).limb 0 * (10 : ℚ) ^ ((s.readD s1).exp - 8 * ((s.cfg.n : Int) - 1))
      ∃ t, exec (.add d s1 s2) s = .next t ∧ exec (.add d s2 s1) s = .next t ∧ OnlyD d s t ∧
        TruncatesTo s.cfg (|(s.readD s1).val| + (if (s.readD s1).neg = (s.readD s2).neg then moved else -moved))
          (s.readD s1).neg s.cfg.n (t.readD d))

/-- R142, R143, R145, R146: `ADD` of finite non-zero operands of the same sign is the sum of the magnitudes, cut to the
format and saturated, with that sign. -/
def Obligations.AddSameSignTruncates : Prop :=
  ∀ (s : State) (d s1 s2 : DReg), s.Inv → FiniteNonzero (s.readD s1) → FiniteNonzero (s.readD s2) →
    (s.readD s1).neg = (s.readD s2).neg →
    ∃ t, exec (.add d s1 s2) s = .next t ∧ OnlyD d s t ∧
      TruncatesTo s.cfg (|(s.readD s1).val| + |(s.readD s2).val|) (s.readD s1).neg s.cfg.n (t.readD d)

/-- R142, R144, R145, R146: `ADD` of finite non-zero operands of different signs is the larger magnitude less the smaller
one cut to the last limb of the larger, cut to the format and saturated, with the sign of the larger; the order of the
operands does not matter. -/
def Obligations.AddDifferentSignTruncates : Prop :=
  ∀ (s : State) (d s1 s2 : DReg), s.Inv → FiniteNonzero (s.readD s1) → FiniteNonzero (s.readD s2) →
    (s.readD s1).neg ≠ (s.readD s2).neg → |(s.readD s2).val| ≤ |(s.readD s1).val| →
    let u : ℚ := (10 : ℚ) ^ ((s.readD s1).exp - 8 * ((s.cfg.n : Int) - 1))
    let q : ℚ := |(s.readD s1).val| - (⌊|(s.readD s2).val| / u⌋ : Int) * u
    ∃ t, exec (.add d s1 s2) s = .next t ∧ exec (.add d s2 s1) s = .next t ∧ OnlyD d s t ∧
      TruncatesTo s.cfg q (s.readD s1).neg s.cfg.n (t.readD d)

/-- R28, R140, R147: `ADD` commutes, and neither reads `prec` of its sources nor leaves it: the result has full
precision. -/
def Obligations.AddCommutesAndIgnoresPrec : Prop :=
  ∀ (s : State) (d s1 s2 : DReg) (p : Nat), s.Inv →
    ∃ t, exec (.add d s1 s2) s = .next t ∧ exec (.add d s2 s1) s = .next t ∧ OnlyD d s t ∧
      (t.readD d).prec.toNat = s.cfg.n ∧
      ∃ u, exec (.add d s1 s2) (s.writeD s1 ((s.readD s1).withPrec p)) = .next u ∧ u.readD d = t.readD d

/-- R147: for every finite `x`, `x + 0` is `x` at full precision and `x + (-x)` is `Zero`. -/
def Obligations.AddIdentityAndInverse : Prop :=
  ∀ (s : State) (d s1 s2 : DReg), s.Inv → (s.readD s1).cls = .fin →
    (s.readD s2 = DValue.zero s.cfg.n →
      ∃ t, exec (.add d s1 s2) s = .next t ∧ OnlyD d s t ∧ t.readD d = (s.readD s1).withPrec s.cfg.n) ∧
    (s.readD s2 = (s.readD s1).negate →
      ∃ t, exec (.add d s1 s2) s = .next t ∧ OnlyD d s t ∧ t.readD d = DValue.zero s.cfg.n)

/-- R148: `SUB` is `NEG` of the `ADD` of the negated first operand, which is also the `ADD` of the negated second one. -/
def Obligations.SubIsAddOfTheNegation : Prop :=
  ∀ (s : State) (d s1 s2 r : DReg), s.Inv →
    ∃ t, exec (.sub d s1 s2) s = .next t ∧ OnlyD d s t ∧
      (r ≠ s2 → ∃ u v w, exec (.neg r s1) s = .next u ∧ exec (.add d r s2) u = .next v ∧ exec (.neg d d) v = .next w ∧
        w.readD d = t.readD d) ∧
      (r ≠ s1 → ∃ u v, exec (.neg r s2) s = .next u ∧ exec (.add d s1 r) u = .next v ∧ v.readD d = t.readD d)

/-! ### Multiplication -/

/-- R28, R161: `MUL` of special operands, the first line that matches; the result has the smaller precision of the operands
(that it has it here too is how log entry 24 reads R161). -/
def Obligations.MulSpecialOperands : Prop :=
  ∀ (s : State) (d s1 s2 : DReg),
    let a := s.readD s1
    let b := s.readD s2
    let n := s.cfg.n
    (a.cls ≠ .fin ∨ b.cls ≠ .fin ∨ a.isZero = true ∨ b.isZero = true) →
    ∃ t, exec (.mul d s1 s2) s = .next t ∧ OnlyD d s t ∧
      t.readD d =
        (if a.cls = .nan ∨ b.cls = .nan then DValue.notANumber n
        else if (a.cls = .inf ∧ b.isZero = true) ∨ (a.isZero = true ∧ b.cls = .inf) then DValue.notANumber n
        else if a.cls = .inf ∨ b.cls = .inf then DValue.infinity n (a.neg != b.neg)
        else DValue.zero n).withPrec (min a.prec.toNat b.prec.toNat)

/-- R161: `MUL` of finite non-zero operands is the sum of the limb products `a[x]*b[y]` with `x + y < p`, `p` the smaller
precision, cut to the format and saturated, with the sign `a.neg xor b.neg` and precision `p`, also when it saturates to an
infinity or `Zero` (how log entry 24 reads R161). -/
def Obligations.MulTruncatesTheFormedProducts : Prop :=
  ∀ (s : State) (d s1 s2 : DReg), s.Inv → FiniteNonzero (s.readD s1) → FiniteNonzero (s.readD s2) →
    let a := s.readD s1
    let b := s.readD s2
    let p := min a.prec.toNat b.prec.toNat
    let q : ℚ := ∑ x ∈ Finset.range p, ∑ y ∈ Finset.range (p - x),
      (a.limb x * b.limb y : ℚ) * (10 : ℚ) ^ (a.exp + b.exp - 8 * ((x : Int) + y))
    ∃ t, exec (.mul d s1 s2) s = .next t ∧ OnlyD d s t ∧ (t.readD d).prec.toNat = p ∧
      TruncatesTo s.cfg q (a.neg != b.neg) s.cfg.n ((t.readD d).withPrec s.cfg.n)

/-- R162, R163: `MUL` commutes; a finite result is never above the exact product in magnitude; `x * 1` is `x` for every
finite `x` of full precision. -/
def Obligations.MulLaws : Prop :=
  (∀ (s : State) (d s1 s2 : DReg), s.Inv →
    ∃ t, exec (.mul d s1 s2) s = .next t ∧ exec (.mul d s2 s1) s = .next t ∧ OnlyD d s t ∧
      ((s.readD s1).cls = .fin → (s.readD s2).cls = .fin → (t.readD d).cls = .fin →
        |(t.readD d).val| ≤ |(s.readD s1).val| * |(s.readD s2).val|)) ∧
  (∀ (s : State) (d s1 s2 : DReg), s.Inv → (s.readD s1).cls = .fin → (s.readD s1).prec.toNat = s.cfg.n →
    s.readD s2 = recordOf s.cfg [1] 0 false →
    ∃ t, exec (.mul d s1 s2) s = .next t ∧ OnlyD d s t ∧ t.readD d = s.readD s1)

/-! ### Reciprocal, division, square root -/

/-- R173: `RECIP` of NaN, of zero, of an infinity, and of a value `IsOne` accepts in magnitude, which comes back as it
stands at full precision. -/
def Obligations.RecipSpecialOperands : Prop :=
  ∀ (s : State) (d src : DReg), s.Inv →
    let x := s.readD src
    ∃ t, exec (.recip d src) s = .next t ∧ OnlyD d s t ∧
      (x.cls = .nan → t.readD d = DValue.notANumber s.cfg.n) ∧
      (x.isZero = true → t.readD d = DValue.infinity s.cfg.n false) ∧
      (x.cls = .inf → t.readD d = DValue.zero s.cfg.n) ∧
      (x.cls = .fin → |x.val| = 1 ∨ |x.val| = 1 - (10 : ℚ) ^ (-(8 * s.cfg.n : Int)) → t.readD d = x.withPrec s.cfg.n)

/-- R173 to R178: with the reference seed, `RECIP` of a power of ten `10^(e+k)`, whose leading limb is `10^k`, is the inverse
power, exactly, with the sign of the operand and full precision; MINV and MAXV are each other's reciprocals. -/
def Obligations.RecipOfPowersOfTenIsExact : Prop :=
  ∀ (s : State) (d src : DReg) (e : Int) (k : Nat) (neg : Bool), s.Inv → s.cfg.seedRecip = .reference → k < 8 →
    (s.readD src).withPrec s.cfg.n = recordOf s.cfg [BitVec.ofNat 32 (10 ^ k)] e neg →
    ∃ t, exec (.recip d src) s = .next t ∧ OnlyD d s t ∧
      t.readD d =
        if k = 0 then recordOf s.cfg [1] (-e) neg
        else recordOf s.cfg [BitVec.ofNat 32 (10 ^ (8 - k))] (-e - 8) neg

/-- R172 to R177: `RECIP` completes for every operand with a stored value of full precision; a non-zero result of a
non-zero finite operand has its sign unless it is a NaN. Of a finite non-zero operand that is not taken as one it is what
the Newton rounds of R176, on the limb counts of R175, make of a seed that meets the contract of R174: `SETPREC`, `MUL`,
`LDC` and `SUB` on scratch registers compute it. With the reference seed the seed's value is that of R174. -/
def Obligations.RecipCompletes : Prop :=
  (∀ (s : State) (d src : DReg), s.Inv →
    ∃ t, exec (.recip d src) s = .next t ∧ OnlyD d s t ∧ (t.readD d).wf s.cfg ∧ (t.readD d).prec.toNat = s.cfg.n ∧
      (FiniteNonzero (s.readD src) → (t.readD d).isZero = false → (t.readD d).cls ≠ .nan →
        (t.readD d).neg = (s.readD src).neg)) ∧
  (∀ (s : State) (d src a y t w : DReg) (r : Nat), s.Inv → [a, y, t, w].Nodup → src ≠ y →
    12 * 2 ^ r ≤ 8 * s.cfg.n → 8 * s.cfg.n < 12 * 2 ^ (r + 1) →
    let x := s.readD src
    FiniteNonzero x → |x.val| ≠ 1 → |x.val| ≠ 1 - (10 : ℚ) ^ (-(8 * s.cfg.n : Int)) →
    let m : Nat := x.limb 0 * 10 ^ 16 + x.limb 1 * 10 ^ 8 + x.limb 2
    ∃ (seed : DValue) (after u : State),
      (seed.wf s.cfg ∧ FiniteNonzero seed ∧ seed.neg = false ∧ |(|x.val| * seed.val - 1)| ≤ 1 / 10 ^ 12) ∧
      (s.cfg.seedRecip = .reference → seed.val = ((10 ^ 40 / m : Nat) : ℚ) * (10 : ℚ) ^ (-24 - x.exp)) ∧
      exec (.recip d src) s = .next after ∧ OnlyD d s after ∧
      execAll (.abs a src :: (List.range (r + 1)).flatMap fun k => recipRoundCommands a y t w (roundLimbs s.cfg.n k))
        (s.writeD y seed) = .next u ∧
      after.readD d =
        if (u.readD y).isZero = true ∨ (u.readD y).cls = .nan then (u.readD y).withPrec s.cfg.n
        else { (u.readD y).withPrec s.cfg.n with neg := x.neg })

/-- R171: `DIV` of finite non-zero operands with the same exponent and limbs is 1 with the sign `a.neg xor b.neg`;
otherwise it is the `MUL` of the first operand with the `RECIP` of the second, and has the precision of the first. The
precision of the second has no effect. (That a result that is no finite non-zero value has that precision too is how log
entry 24 reads R161.) -/
def Obligations.DivByReciprocal : Prop :=
  ∀ (s : State) (d s1 s2 r : DReg), r ≠ s1 →
    let a := s.readD s1
    let b := s.readD s2
    ∃ t, exec (.div d s1 s2) s = .next t ∧ OnlyD d s t ∧
      (FiniteNonzero a → FiniteNonzero b → a.exp = b.exp → a.limbs = b.limbs →
        t.readD d = recordOf s.cfg [1] 0 (a.neg != b.neg)) ∧
      (¬(FiniteNonzero a ∧ FiniteNonzero b ∧ a.exp = b.exp ∧ a.limbs = b.limbs) →
        ∃ u v, exec (.recip r s2) s = .next u ∧ exec (.mul d s1 r) u = .next v ∧ v.readD d = t.readD d) ∧
      (s.Inv → ¬(FiniteNonzero a ∧ FiniteNonzero b ∧ a.exp = b.exp ∧ a.limbs = b.limbs) →
        (t.readD d).prec = a.prec) ∧
      (s1 ≠ s2 → ∀ p : Nat, ∃ v, exec (.div d s1 s2) (s.writeD s2 (b.withPrec p)) = .next v ∧ v.readD d = t.readD d)

/-- R178: `DIV` with a divisor that is zero or infinite and with a NaN operand: `0/0` and `Inf/Inf` are NaN, `x/0` is the
infinity with the sign of `x`, `x/Inf` is `Zero`, each with the precision of the dividend (how log entry 24 reads R161); no
flag is raised. -/
def Obligations.DivSpecialDivisors : Prop :=
  ∀ (s : State) (d s1 s2 : DReg), s.Inv →
    let a := s.readD s1
    let b := s.readD s2
    ∃ t, exec (.div d s1 s2) s = .next t ∧ OnlyD d s t ∧
      (a.cls = .nan ∨ b.cls = .nan → t.readD d = (DValue.notANumber s.cfg.n).withPrec a.prec.toNat) ∧
      (b.isZero = true → a.isZero = true → t.readD d = (DValue.notANumber s.cfg.n).withPrec a.prec.toNat) ∧
      (b.isZero = true → FiniteNonzero a ∨ a.cls = .inf →
        t.readD d = (DValue.infinity s.cfg.n a.neg).withPrec a.prec.toNat) ∧
      (b.cls = .inf → a.cls = .inf → t.readD d = (DValue.notANumber s.cfg.n).withPrec a.prec.toNat) ∧
      (b.cls = .inf → a.cls = .fin → t.readD d = (DValue.zero s.cfg.n).withPrec a.prec.toNat)

/-- R190, R191: `SQRT` of a NaN or negative operand writes NaN and raises `DOM`; of zero, of a value `IsOne` accepts and
of the positive infinity it returns the operand at full precision and raises nothing; of any other operand it completes
with a stored value of full precision and raises nothing. That value is what the coupled rounds of R193, in their order
and on the limb counts of R175, make of a pair of seeds that meet the contract of R192: `SETPREC`, `MUL`, `NEG`, `LDC` and
`ADD` on scratch registers compute it. With the reference seed the seeds' values are those of R192. -/
def Obligations.SqrtDomainAndSpecials : Prop :=
  ∀ (s : State) (d src : DReg), s.Inv →
    let x := s.readD src
    ((x.cls = .nan ∨ x.neg = true) →
      ∃ t, exec (.sqrt d src) s = .next t ∧ t.readD d = DValue.notANumber s.cfg.n ∧
        OnlyD d { s with flags := { s.flags with dom := true } } t) ∧
    (¬(x.cls = .nan ∨ x.neg = true) →
      ∃ t, exec (.sqrt d src) s = .next t ∧ OnlyD d s t ∧ (t.readD d).wf s.cfg ∧ (t.readD d).prec.toNat = s.cfg.n ∧
        (x.isZero = true ∨ x.cls = .inf ∨
            (x.cls = .fin ∧ (x.val = 1 ∨ x.val = 1 - (10 : ℚ) ^ (-(8 * s.cfg.n : Int)))) →
          t.readD d = x.withPrec s.cfg.n)) ∧
    (∀ (a y v t w : DReg) (r : Nat), [a, y, v, t, w].Nodup → src ≠ y → src ≠ v →
      12 * 2 ^ r ≤ 8 * s.cfg.n → 8 * s.cfg.n < 12 * 2 ^ (r + 1) →
      FiniteNonzero x → x.neg = false → x.val ≠ 1 → x.val ≠ 1 - (10 : ℚ) ^ (-(8 * s.cfg.n : Int)) →
      let m : Nat := x.limb 0 * 10 ^ 16 + x.limb 1 * 10 ^ 8 + x.limb 2
      let root : Nat := Nat.sqrt (m * 10 ^ 24)
      let h : Int := (x.exp - 16) / 2
      ∃ (y0 v0 : DValue) (after u : State),
        (y0.wf s.cfg ∧ FiniteNonzero y0 ∧ y0.neg = false ∧ |y0.val ^ 2 / x.val - 1| ≤ 1 / 10 ^ 12) ∧
        (v0.wf s.cfg ∧ FiniteNonzero v0 ∧ v0.neg = false ∧ |2 * v0.val * y0.val - 1| ≤ 1 / 10 ^ 12) ∧
        (s.cfg.seedSqrt = .reference → y0.val = (root : ℚ) * (10 : ℚ) ^ (h - 12) ∧
          v0.val = ((10 ^ 48 / (2 * root) : Nat) : ℚ) * (10 : ℚ) ^ (-36 - h)) ∧
        exec (.sqrt d src) s = .next after ∧ OnlyD d s after ∧
        execAll (.mov a src ::
            (List.range (r + 1)).flatMap fun k => sqrtRoundCommands a y v t w (roundLimbs s.cfg.n k))
          ((s.writeD y y0).writeD v v0) = .next u ∧
        after.readD d = (u.readD y).withPrec s.cfg.n)

/-- R191 to R195: with the reference seed, `SQRT` of an even power of ten `10^(e+k)`, whose leading limb is `10^k`, is the
power with half the exponent, exactly, its limb and exponent as the format has them; MAXV and MINV are among them. -/
def Obligations.SqrtOfEvenPowersOfTenIsExact : Prop :=
  ∀ (s : State) (d src : DReg) (e : Int) (k : Nat), s.Inv → s.cfg.seedSqrt = .reference → k < 8 → k % 2 = 0 →
    (s.readD src).withPrec s.cfg.n = recordOf s.cfg [BitVec.ofNat 32 (10 ^ k)] e false →
    let half : Int := (e + k) / 2
    ∃ t, exec (.sqrt d src) s = .next t ∧ OnlyD d s t ∧
      t.readD d = recordOf s.cfg [BitVec.ofNat 32 (10 ^ (half % 8).toNat)] (8 * (half / 8)) false

/-! ### Comparison and classification -/

/-- R200, R202: on finite values `CMP` writes 1, 0 or -1 as `Val` of the first operand is above, equal to or below that
of the second. -/
def Obligations.CmpOrdersFiniteValues : Prop :=
  ∀ (s : State) (d : XReg) (s1 s2 : DReg), s.Inv → (s.readD s1).cls = .fin → (s.readD s2).cls = .fin →
    ∃ t, exec (.cmp d s1 s2) s = .next t ∧ OnlyX d s t ∧
      t.readX d =
        if (s.readD s2).val < (s.readD s1).val then 1
        else if (s.readD s1).val = (s.readD s2).val then 0
        else 0xFFFFFFFFFFFFFFFF

/-- R201, R202: `CMP` with an operand that is not finite: a NaN first gives 1 (also against a NaN), a NaN second gives -1
(the spec's choice D29), infinities are ordered by sign and bound every finite value; no flag is raised. -/
def Obligations.CmpSpecialOperands : Prop :=
  ∀ (s : State) (d : XReg) (s1 s2 : DReg),
    let a := s.readD s1
    let b := s.readD s2
    (a.cls ≠ .fin ∨ b.cls ≠ .fin) →
    ∃ t, exec (.cmp d s1 s2) s = .next t ∧ OnlyX d s t ∧
      (t.readX d).toInt =
        if a.cls = .nan then 1
        else if b.cls = .nan then -1
        else if a.cls = .inf ∧ b.cls = .inf then (if a.neg = b.neg then 0 else if a.neg then -1 else 1)
        else if a.cls = .inf then (if a.neg then -1 else 1)
        else (if b.neg then 1 else -1)

/-- R203, R206 to R210: `ISZERO`, `ISNEG`, `ISNAN`, `ISINF`, `ISFIN` and `CLASS` write what they test; of the three class
tests exactly one writes 1. -/
def Obligations.ClassificationCommands : Prop :=
  (∀ (s : State) (d : XReg) (src : DReg), s.Inv → ∃ t, exec (.iszero d src) s = .next t ∧ OnlyX d s t ∧
    t.readX d = if (s.readD src).cls = .fin ∧ (s.readD src).val = 0 then 1 else 0) ∧
  (∀ (s : State) (d : XReg) (src : DReg), ∃ t, exec (.isneg d src) s = .next t ∧ OnlyX d s t ∧
    t.readX d = if (s.readD src).neg = true then 1 else 0) ∧
  (∀ (s : State) (d : XReg) (src : DReg), ∃ t, exec (.isnan d src) s = .next t ∧ OnlyX d s t ∧
    t.readX d = if (s.readD src).cls = .nan then 1 else 0) ∧
  (∀ (s : State) (d : XReg) (src : DReg), ∃ t, exec (.isinf d src) s = .next t ∧ OnlyX d s t ∧
    t.readX d = if (s.readD src).cls = .inf then 1 else 0) ∧
  (∀ (s : State) (d : XReg) (src : DReg), ∃ t, exec (.isfin d src) s = .next t ∧ OnlyX d s t ∧
    t.readX d = if (s.readD src).cls = .fin then 1 else 0) ∧
  (∀ (s : State) (d : XReg) (src : DReg), ∃ t, exec (.classof d src) s = .next t ∧ OnlyX d s t ∧
    t.readX d = match (s.readD src).cls with | .fin => 0 | .inf => 1 | .nan => 2)

/-- R204, R205: `ISONE` writes 1 for the finite values 1 and `1 - 10^(-8*N)` and 0 for every other; `ISINT` writes 1 for
the finite values that are integers and 0 for every other. -/
def Obligations.IsOneAndIsIntByValue : Prop :=
  (∀ (s : State) (d : XReg) (src : DReg), s.Inv → ∃ t, exec (.isone d src) s = .next t ∧ OnlyX d s t ∧
    (((s.readD src).cls = .fin ∧
        ((s.readD src).val = 1 ∨ (s.readD src).val = 1 - (10 : ℚ) ^ (-(8 * s.cfg.n : Int)))) →
      t.readX d = 1) ∧
    (¬((s.readD src).cls = .fin ∧
        ((s.readD src).val = 1 ∨ (s.readD src).val = 1 - (10 : ℚ) ^ (-(8 * s.cfg.n : Int)))) →
      t.readX d = 0)) ∧
  (∀ (s : State) (d : XReg) (src : DReg), s.Inv → ∃ t, exec (.isint d src) s = .next t ∧ OnlyX d s t ∧
    (((s.readD src).cls = .fin ∧ ∃ k : Int, (s.readD src).val = k) → t.readX d = 1) ∧
    (¬((s.readD src).cls = .fin ∧ ∃ k : Int, (s.readD src).val = k) → t.readX d = 0))

/-! ### Text -/

/-- R220, R223, R226, R227: `PARSE` of a text in the language `number` writes the number it denotes, cut to the format
and saturated, with the sign of the text and full precision, and changes nothing else. -/
def Obligations.ParseNumbers : Prop :=
  ∀ (s : State) (d : DReg) (p : NumberParts), s.Inv → IsNumberText (s.readBytes 0 s.tlen.toNat) p →
    ∃ t, exec (.parse d) s = .next t ∧ OnlyD d s t ∧
      TruncatesTo s.cfg (digitsValue (p.int ++ p.frac) * (10 : ℚ) ^ (p.exp - p.frac.length)) p.sgn s.cfg.n (t.readD d)

/-- R221, R224: `PARSE` of a special literal in any mixture of cases writes the infinity with the text's sign or NaN; of a
text in neither language it sets `PERR` and changes nothing else. -/
def Obligations.ParseSpecialsAndErrors : Prop :=
  (∀ (s : State) (d : DReg) (v : DValue), s.Inv → IsSpecialText s.cfg.n (s.readBytes 0 s.tlen.toNat) v →
    ∃ t, exec (.parse d) s = .next t ∧ t.readD d = v ∧ OnlyD d s t) ∧
  (∀ (s : State) (d : DReg), s.Inv → (∀ p, ¬ IsNumberText (s.readBytes 0 s.tlen.toNat) p) →
    (∀ v, ¬ IsSpecialText s.cfg.n (s.readBytes 0 s.tlen.toNat) v) →
    ∃ t, exec (.parse d) s = .next t ∧ OnlyFlags s t ∧ t.flags = { s.flags with perr := true })

/-- R240, R245, R246: the record `FORMAT` leaves for zero, an infinity and a NaN, whatever the count; the style is copied
to `FINFO` and nowhere else. -/
def Obligations.FormatSpecialRecords : Prop :=
  ∀ (s : State) (src : DReg) (x : XReg) (style : Style), s.Inv → s.readX x ≠ 0 → ¬ FiniteNonzero (s.readD src) →
    let v := s.readD src
    let text : List Byte :=
      match v.cls with
      | .nan => [0x6E, 0x61, 0x6E]
      | .inf => [0x69, 0x6E, 0x66]
      | .fin => [0x30]
    ∃ t, exec (.format src x style) s = .next t ∧ OnlyRecord text.length s t ∧
      (∀ j < text.length, t.tbuf.read j = text[j]?) ∧ t.tlen.toNat = text.length ∧ t.fexp = 0 ∧
      (t.finfo.extractLsb' 0 16).toNat = text.length ∧ t.finfo.getLsbD 16 = v.neg ∧
      (t.finfo.extractLsb' 17 2).toNat = v.cls.code ∧ t.finfo.getLsbD 19 = decide (style = .fix)

/-- R240, R242 to R244, R246: `FORMAT` of a finite non-zero value with the count `n` leaves the digits of the value
rounded half to even to `n` significant digits (all digits if it has no more), the exponent of the first digit in `FEXP`,
the sign, the length and the style in `FINFO`; bytes beyond the text stay. -/
def Obligations.FormatRoundsHalfToEven : Prop :=
  ∀ (s : State) (src : DReg) (x : XReg) (style : Style), s.Inv → s.readX x ≠ 0 → FiniteNonzero (s.readD src) →
    let v := s.readD src
    let n := (s.readX x).toNat
    ∃ (t : State) (ds : List Nat) (e e0 : Int), exec (.format src x style) s = .next t ∧ OnlyRecord ds.length s t ∧
      (∀ g ∈ ds, g < 10) ∧ ds.getD 0 0 ≠ 0 ∧
      (∀ j < ds.length, t.tbuf.read j = some (BitVec.ofNat 8 (0x30 + ds.getD j 0))) ∧
      t.tlen.toNat = ds.length ∧ t.fexp.toInt = e ∧
      (t.finfo.extractLsb' 0 16).toNat = ds.length ∧ t.finfo.getLsbD 16 = v.neg ∧ t.finfo.extractLsb' 17 2 = 0 ∧
      t.finfo.getLsbD 19 = decide (style = .fix) ∧
      (10 : ℚ) ^ e0 ≤ |v.val| ∧ |v.val| < (10 : ℚ) ^ (e0 + 1) ∧
      (ds.length : Int) = min (n : Int) (e0 - v.exp + 1 + 8 * ((s.cfg.n : Int) - 1)) ∧ (e = e0 ∨ e = e0 + 1) ∧
      let rendered : ℚ := digitsValue ds * (10 : ℚ) ^ (e - ds.length + 1)
      let unit : ℚ := (10 : ℚ) ^ (e0 - ds.length + 1)
      (((ds.length : Int) < n ∨ (n : Int) = e0 - v.exp + 1 + 8 * ((s.cfg.n : Int) - 1)) → rendered = |v.val|) ∧
      (∃ k : Int, rendered = k * unit) ∧ |(rendered - |v.val|)| ≤ unit / 2 ∧
      (|(rendered - |v.val|)| = unit / 2 → ∃ k : Int, rendered = 2 * k * unit)

/-- R247, R248: the record of any stored value rendered with a count of at least `8*N`, laid out as text by the reference
layout, parses back to the same value at full precision. -/
def Obligations.FormatThenParseIsExact : Prop :=
  ∀ (c : Config) (v : DValue) (n : Nat), c.Valid → v.wf c → 8 * c.n ≤ n →
    parseText c (layoutSci (formatValue v n)) = some (v.withPrec c.n)
end

