-- ==== Sys2Proof/Laws/Value.lean ====
section
/-! SUPPORT. The value helpers: the limbs of a built record, magnitude comparison, and the records that meet the
invariants of R22. -/

namespace Sys2Proof

theorem Config.n_ge (c : Config) : 5 ≤ c.n := by unfold Config.n; omega

theorem Config.Valid.n_lt {c : Config} (h : c.Valid) : c.n < 65536 := by
  obtain ⟨-, -, -, ⟨-, -, h1, h2⟩, -⟩ := h; omega

theorem Config.Valid.maxExp_ge {c : Config} (h : c.Valid) : 320 ≤ c.maxExp := h.2.2.1.2

theorem Config.Valid.maxExp_mod {c : Config} (h : c.Valid) : c.maxExp % 8 = 0 := h.2.2.1.1

/-- A limb list every limb of which is below the radix (INV1). -/
abbrev LimbsBelow (ls : List Nat) : Prop := ∀ l ∈ ls, l < limbBase

@[simp] theorem finiteValue_exp (ls : List Nat) (e : Int) (s : Bool) (p : Nat) : (finiteValue ls e s p).exp = e := rfl
@[simp] theorem finiteValue_neg (ls : List Nat) (e : Int) (s : Bool) (p : Nat) : (finiteValue ls e s p).neg = s := rfl
@[simp] theorem finiteValue_cls (ls : List Nat) (e : Int) (s : Bool) (p : Nat) : (finiteValue ls e s p).cls = .fin := rfl
@[simp] theorem finiteValue_prec (ls : List Nat) (e : Int) (s : Bool) (p : Nat) :
    (finiteValue ls e s p).prec = BitVec.ofNat 16 p := rfl
@[simp] theorem finiteValue_length (ls : List Nat) (e : Int) (s : Bool) (p : Nat) :
    (finiteValue ls e s p).limbs.length = ls.length := by simp [finiteValue]

@[simp] theorem withPrec_limbs (v : DValue) (p : Nat) : (v.withPrec p).limbs = v.limbs := rfl
@[simp] theorem withPrec_nats (v : DValue) (p : Nat) : (v.withPrec p).nats = v.nats := rfl
@[simp] theorem withPrec_limb (v : DValue) (p i : Nat) : (v.withPrec p).limb i = v.limb i := rfl
@[simp] theorem withPrec_exp (v : DValue) (p : Nat) : (v.withPrec p).exp = v.exp := rfl
@[simp] theorem withPrec_neg (v : DValue) (p : Nat) : (v.withPrec p).neg = v.neg := rfl
@[simp] theorem withPrec_cls (v : DValue) (p : Nat) : (v.withPrec p).cls = v.cls := rfl
@[simp] theorem withPrec_prec (v : DValue) (p : Nat) : (v.withPrec p).prec = BitVec.ofNat 16 p := rfl
@[simp] theorem withPrec_isZero (v : DValue) (p : Nat) : (v.withPrec p).isZero = v.isZero := rfl
@[simp] theorem withPrec_withPrec (v : DValue) (p q : Nat) : (v.withPrec p).withPrec q = v.withPrec q := rfl
@[simp] theorem withPrec_val (v : DValue) (p : Nat) : (v.withPrec p).val = v.val := rfl

@[simp] theorem absolute_limbs (v : DValue) : v.absolute.limbs = v.limbs := rfl
@[simp] theorem absolute_nats (v : DValue) : v.absolute.nats = v.nats := rfl
@[simp] theorem absolute_limb (v : DValue) (i : Nat) : v.absolute.limb i = v.limb i := rfl
@[simp] theorem absolute_exp (v : DValue) : v.absolute.exp = v.exp := rfl
@[simp] theorem absolute_neg (v : DValue) : v.absolute.neg = false := rfl
@[simp] theorem absolute_cls (v : DValue) : v.absolute.cls = v.cls := rfl
@[simp] theorem absolute_prec (v : DValue) : v.absolute.prec = v.prec := rfl
@[simp] theorem absolute_isZero (v : DValue) : v.absolute.isZero = v.isZero := rfl

@[simp] theorem zero_exp (n : Nat) : (DValue.zero n).exp = 0 := rfl
@[simp] theorem zero_neg (n : Nat) : (DValue.zero n).neg = false := rfl
@[simp] theorem zero_cls (n : Nat) : (DValue.zero n).cls = .fin := rfl
@[simp] theorem zero_prec (n : Nat) : (DValue.zero n).prec = BitVec.ofNat 16 n := rfl
@[simp] theorem infinity_exp (n : Nat) (s : Bool) : (DValue.infinity n s).exp = 0 := rfl
@[simp] theorem infinity_neg (n : Nat) (s : Bool) : (DValue.infinity n s).neg = s := rfl
@[simp] theorem infinity_cls (n : Nat) (s : Bool) : (DValue.infinity n s).cls = .inf := rfl
@[simp] theorem notANumber_exp (n : Nat) : (DValue.notANumber n).exp = 0 := rfl
@[simp] theorem notANumber_neg (n : Nat) : (DValue.notANumber n).neg = false := rfl
@[simp] theorem notANumber_cls (n : Nat) : (DValue.notANumber n).cls = .nan := rfl

theorem limb_eq_nats (v : DValue) (i : Nat) : v.limb i = v.nats.getD i 0 := rfl

/-- The limbs of a built record are the limbs it was built from. -/
theorem finiteValue_nats {ls : List Nat} (h : LimbsBelow ls) (e : Int) (s : Bool) (p : Nat) :
    (finiteValue ls e s p).nats = ls := by
  simp only [DValue.nats, finiteValue, List.map_map]
  conv_rhs => rw [← List.map_id ls]
  apply List.map_congr_left
  intro l hl
  have := h l hl
  simp only [Function.comp, BitVec.toNat_ofNat, id]
  exact Nat.mod_eq_of_lt (lt_trans this (by decide))

theorem finiteValue_limb {ls : List Nat} (h : LimbsBelow ls) (e : Int) (s : Bool) (p i : Nat) :
    (finiteValue ls e s p).limb i = ls.getD i 0 := by rw [limb_eq_nats, finiteValue_nats h]

theorem finiteValue_isZero {ls : List Nat} (h : LimbsBelow ls) (e : Int) (s : Bool) (p : Nat) :
    (finiteValue ls e s p).isZero = (ls.getD 0 0 == 0) := by
  simp [DValue.isZero, finiteValue_limb h]

theorem limbsBelow_replicate (k : Nat) : LimbsBelow (List.replicate k 0) := by
  intro l hl; rw [List.eq_of_mem_replicate hl]; decide

theorem limbsBelow_cons {a : Nat} {ls : List Nat} (ha : a < limbBase) (h : LimbsBelow ls) : LimbsBelow (a :: ls) := by
  intro l hl; rcases List.mem_cons.1 hl with rfl | hl
  · exact ha
  · exact h l hl

theorem limbsBelow_append {as bs : List Nat} (ha : LimbsBelow as) (hb : LimbsBelow bs) : LimbsBelow (as ++ bs) := by
  intro l hl; rcases List.mem_append.1 hl with hl | hl
  · exact ha l hl
  · exact hb l hl

theorem limbsBelow_take {ls : List Nat} (h : LimbsBelow ls) (k : Nat) : LimbsBelow (ls.take k) :=
  fun l hl => h l (List.mem_of_mem_take hl)

theorem limbsBelow_drop {ls : List Nat} (h : LimbsBelow ls) (k : Nat) : LimbsBelow (ls.drop k) :=
  fun l hl => h l (List.mem_of_mem_drop hl)

@[simp] theorem zero_nats (n : Nat) : (DValue.zero n).nats = List.replicate n 0 :=
  finiteValue_nats (limbsBelow_replicate n) _ _ _

@[simp] theorem zero_isZero (n : Nat) : (DValue.zero n).isZero = true := by
  rw [DValue.zero, finiteValue_isZero (limbsBelow_replicate n)]; cases n <;> rfl

@[simp] theorem infinity_isZero (n : Nat) (s : Bool) : (DValue.infinity n s).isZero = false := rfl
@[simp] theorem notANumber_isZero (n : Nat) : (DValue.notANumber n).isZero = false := rfl

theorem isZero_cls {v : DValue} (h : v.isZero = true) : v.cls = .fin := by
  simp [DValue.isZero] at h; exact h.1

theorem isZero_limb {v : DValue} (h : v.isZero = true) : v.limb 0 = 0 := by
  simp [DValue.isZero] at h; exact h.2

theorem limb_ne_zero {v : DValue} (h : v.cls = .fin) (hz : v.isZero = false) : v.limb 0 ≠ 0 := by
  simp [DValue.isZero, h] at hz; exact hz

/-! ### Stored values -/

theorem DValue.wf.length {c : Config} {v : DValue} (h : v.wf c) : v.limbs.length = c.n := h.1.1
theorem DValue.wf.expMod {c : Config} {v : DValue} (h : v.wf c) : v.exp % 8 = 0 := h.1.2
theorem DValue.wf.zeroForm {c : Config} {v : DValue} (h : v.wf c) (hz : v.isZero = true) :
    v.withPrec c.n = DValue.zero c.n := h.2.2.1 hz
theorem DValue.wf.infForm {c : Config} {v : DValue} (h : v.wf c) (hz : v.cls = .inf) :
    v.withPrec c.n = DValue.infinity c.n v.neg := h.2.2.2.1 hz
theorem DValue.wf.nanForm {c : Config} {v : DValue} (h : v.wf c) (hz : v.cls = .nan) :
    v.withPrec c.n = DValue.notANumber c.n := h.2.2.2.2.1 hz
theorem DValue.wf.range {c : Config} {v : DValue} (h : v.wf c) : v.inRange c = true := h.2.2.2.2.2.1
theorem DValue.wf.precBounds {c : Config} {v : DValue} (h : v.wf c) : 1 ≤ v.prec.toNat ∧ v.prec.toNat ≤ c.n :=
  h.2.2.2.2.2.2

theorem DValue.wf.natsLength {c : Config} {v : DValue} (h : v.wf c) : v.nats.length = c.n := by
  simp [DValue.nats, h.length]

theorem DValue.wf.natsBelow {c : Config} {v : DValue} (h : v.wf c) : LimbsBelow v.nats := by
  exact fun l hl => h.2.1 l hl

theorem DValue.wf.limbBelow {c : Config} {v : DValue} (h : v.wf c) (i : Nat) : v.limb i < limbBase := by
  rw [limb_eq_nats, List.getD_eq_getElem?_getD]
  by_cases hi : i < v.nats.length
  · rw [List.getElem?_eq_getElem hi]; exact h.natsBelow _ (List.getElem_mem hi)
  · rw [List.getElem?_eq_none (by omega)]; decide

theorem DValue.wf.zeroExp {c : Config} {v : DValue} (h : v.wf c) (hz : v.isZero = true) : v.exp = 0 := by
  simpa using congrArg DValue.exp (h.zeroForm hz)

theorem DValue.wf.zeroNeg {c : Config} {v : DValue} (h : v.wf c) (hz : v.isZero = true) : v.neg = false := by
  simpa using congrArg DValue.neg (h.zeroForm hz)

theorem DValue.wf.nanNeg {c : Config} {v : DValue} (h : v.wf c) (hz : v.cls = .nan) : v.neg = false := by
  simpa using congrArg DValue.neg (h.nanForm hz)

/-- A precision written to a register is read back (R28). -/
theorem prec_toNat {p : Nat} (h : p < 65536) : (BitVec.ofNat 16 p).toNat = p := by
  rw [BitVec.toNat_ofNat]; exact Nat.mod_eq_of_lt h

theorem zero_wf {c : Config} (h : c.Valid) : (DValue.zero c.n).wf c := by
  have h5 := c.n_ge; have hn := h.n_lt
  refine ⟨⟨by simp [DValue.zero], rfl⟩, ?_, fun _ => rfl, nofun, nofun, by simp [DValue.inRange], ?_⟩
  · intro l hl
    simp only [DValue.nats, DValue.zero, finiteValue, List.map_replicate] at hl
    rw [List.eq_of_mem_replicate hl]; decide
  · rw [zero_prec, prec_toNat hn]; omega

theorem infinity_wf {c : Config} (h : c.Valid) (s : Bool) : (DValue.infinity c.n s).wf c := by
  have hz := zero_wf h
  refine ⟨hz.1, hz.2.1, ?_, fun _ => rfl, ?_, rfl, hz.precBounds⟩ <;> intro h <;> simp [DValue.infinity, DValue.isZero] at h

theorem notANumber_wf {c : Config} (h : c.Valid) : (DValue.notANumber c.n).wf c := by
  have hz := zero_wf h
  refine ⟨hz.1, hz.2.1, ?_, ?_, fun _ => rfl, rfl, hz.precBounds⟩ <;> intro h <;> simp [DValue.notANumber, DValue.isZero] at h

/-! ### Magnitude comparison -/

theorem limbCompare_self (ls : List Nat) : limbCompare ls ls = .eq := by
  induction ls with
  | nil => rfl
  | cons a as ih => simp [limbCompare, ih]

theorem limbCompare_swap (as bs : List Nat) : limbCompare bs as = (limbCompare as bs).swap := by
  induction as generalizing bs with
  | nil => cases bs <;> rfl
  | cons a as ih =>
    cases bs with
    | nil => rfl
    | cons b bs =>
      simp only [limbCompare]
      by_cases h1 : a < b
      · simp [h1, Nat.lt_asymm h1]
      · by_cases h2 : b < a
        · simp [h1, h2]
        · simp [h1, h2, ih]

theorem limbCompare_eq {as bs : List Nat} (hl : as.length = bs.length) (h : limbCompare as bs = .eq) : as = bs := by
  induction as generalizing bs with
  | nil => cases bs with
    | nil => rfl
    | cons b bs => simp at hl
  | cons a as ih =>
    cases bs with
    | nil => simp at hl
    | cons b bs =>
      simp only [limbCompare] at h
      split at h
      · cases h
      · split at h
        · cases h
        · simp only [List.length_cons, Nat.add_right_cancel_iff] at hl
          rw [ih hl h, show a = b by omega]

/-- Swapping the operands of a magnitude comparison swaps its result (R13). -/
theorem magCmp_swap (a b : DValue) : magCmp b a = (magCmp a b).swap := by
  unfold magCmp
  cases ha : a.isZero <;> cases hb : b.isZero <;> simp
  by_cases h1 : a.exp < b.exp
  · simp [h1, not_lt.2 h1.le]
  · by_cases h2 : b.exp < a.exp
    · simp [h1, h2]
    · simp only [h1, h2, if_false]; exact limbCompare_swap _ _

theorem magCmp_self (a : DValue) : magCmp a a = .eq := by
  unfold magCmp; cases a.isZero <;> simp [limbCompare_self]

/-- A magnitude comparison does not look at the sign or the precision (R13). -/
theorem magCmp_congr {a a' b b' : DValue} (ha : a.limbs = a'.limbs) (hae : a.exp = a'.exp) (hac : a.cls = a'.cls)
    (hb : b.limbs = b'.limbs) (hbe : b.exp = b'.exp) (hbc : b.cls = b'.cls) : magCmp a b = magCmp a' b' := by
  have h1 : a.nats = a'.nats := by simp only [DValue.nats, ha]
  have h2 : b.nats = b'.nats := by simp only [DValue.nats, hb]
  have h3 : a.isZero = a'.isZero := by simp only [DValue.isZero, DValue.limb, h1, hac]
  have h4 : b.isZero = b'.isZero := by simp only [DValue.isZero, DValue.limb, h2, hbc]
  unfold magCmp; rw [h1, h2, h3, h4, hae, hbe]

/-- Equal magnitude of two non-zero finite values: the same exponent and limbs (R13). -/
theorem magCmp_eq {a b : DValue} (hl : a.nats.length = b.nats.length) (ha : a.isZero = false) (hb : b.isZero = false)
    (h : magCmp a b = .eq) : a.exp = b.exp ∧ a.nats = b.nats := by
  simp only [magCmp, ha, hb] at h
  by_cases h1 : a.exp < b.exp
  · simp [h1] at h
  · by_cases h2 : b.exp < a.exp
    · simp [h1, h2] at h
    · simp [h1, h2] at h; exact ⟨by omega, limbCompare_eq hl h⟩

theorem leadingLimb_nats {l : Nat} (n : Nat) (h : l < limbBase) (e : Int) (s : Bool) :
    (leadingLimb n l e s).nats = l :: List.replicate (n - 1) 0 :=
  finiteValue_nats (limbsBelow_cons h (limbsBelow_replicate _)) _ _ _

theorem leadingLimb_isZero {l : Nat} (n : Nat) (h : l < limbBase) (h0 : l ≠ 0) (e : Int) (s : Bool) :
    (leadingLimb n l e s).isZero = false := by
  rw [leadingLimb, finiteValue_isZero (limbsBelow_cons h (limbsBelow_replicate _))]; simpa using h0

@[simp] theorem leadingLimb_exp (n l : Nat) (e : Int) (s : Bool) : (leadingLimb n l e s).exp = e := rfl
@[simp] theorem leadingLimb_neg (n l : Nat) (e : Int) (s : Bool) : (leadingLimb n l e s).neg = s := rfl
@[simp] theorem leadingLimb_cls (n l : Nat) (e : Int) (s : Bool) : (leadingLimb n l e s).cls = .fin := rfl
@[simp] theorem maxValue_exp (c : Config) : (maxValue c).exp = c.maxExp := rfl
@[simp] theorem minValue_exp (c : Config) : (minValue c).exp = c.minExp := rfl
@[simp] theorem maxValue_isZero (c : Config) : (maxValue c).isZero = false :=
  leadingLimb_isZero _ (by decide) (by decide) _ _
@[simp] theorem minValue_isZero (c : Config) : (minValue c).isZero = false :=
  leadingLimb_isZero _ (by decide) (by decide) _ _
theorem maxValue_nats (c : Config) : (maxValue c).nats = 1 :: List.replicate (c.n - 1) 0 :=
  leadingLimb_nats _ (by decide) _ _
theorem minValue_nats (c : Config) : (minValue c).nats = 1 :: List.replicate (c.n - 1) 0 :=
  leadingLimb_nats _ (by decide) _ _

theorem limbCompare_replicate_zero_left (as : List Nat) (k : Nat) : limbCompare as (List.replicate k 0) ≠ .lt := by
  induction as generalizing k with
  | nil => cases k <;> simp [limbCompare]
  | cons a as ih =>
    cases k with
    | zero => simp [limbCompare]
    | succ k =>
      simp only [List.replicate_succ, limbCompare, Nat.not_lt_zero, if_false]
      split
      · simp
      · exact ih k

/-- A non-zero value is not below the record [1, 0, ..., 0] of the same exponent. -/
theorem limbCompare_one {as : List Nat} (k : Nat) (h : as.getD 0 0 ≠ 0) :
    limbCompare as (1 :: List.replicate k 0) ≠ .lt := by
  cases as with
  | nil => simp at h
  | cons a as =>
    simp only [List.getD_cons_zero] at h
    simp only [limbCompare]
    rw [if_neg (by omega)]
    split
    · simp
    · exact limbCompare_replicate_zero_left as k

/-- A finite non-zero value is not below MINV exactly when its exponent is not below MIN_EXP10 (R146). -/
theorem magCmp_minValue {c : Config} {v : DValue} (hz : v.isZero = false) (hf : v.cls = .fin) :
    magCmp v (minValue c) ≠ .lt ↔ c.minExp ≤ v.exp := by
  simp only [magCmp, hz, minValue_isZero, minValue_exp, Bool.false_eq_true, if_false]
  by_cases h1 : v.exp < c.minExp
  · simp [h1]
  · by_cases h2 : c.minExp < v.exp
    · simp [h1, h2, h2.le]
    · have h0 : v.nats.getD 0 0 ≠ 0 := limb_ne_zero hf hz
      simp only [h1, h2, if_false, minValue_nats]
      exact ⟨fun _ => by omega, fun _ => limbCompare_one _ h0⟩

/-- A value whose exponent is below MAX_EXP10 is not above MAXV (R146). -/
theorem magCmp_maxValue_of_lt {c : Config} {v : DValue} (h : v.exp < c.maxExp) : magCmp v (maxValue c) ≠ .gt := by
  simp only [magCmp, maxValue_isZero, maxValue_exp]
  cases v.isZero <;> simp [h]

/-- A value above MAXV in exponent is above it (R146). -/
theorem magCmp_maxValue_of_gt {c : Config} {v : DValue} (hz : v.isZero = false) (h : (c.maxExp : Int) < v.exp) :
    magCmp v (maxValue c) = .gt := by
  simp [magCmp, maxValue_isZero, maxValue_exp, hz, h, not_lt.2 h.le]

theorem inRange_iff {c : Config} {v : DValue} (hf : v.cls = .fin) (hz : v.isZero = false) :
    v.inRange c = true ↔ magCmp v (minValue c) ≠ .lt ∧ magCmp v (maxValue c) ≠ .gt := by
  simp [DValue.inRange, hf, hz]

/-- The exponent of a stored finite non-zero value lies between MIN_EXP10 and MAX_EXP10 (INV6). -/
theorem DValue.wf.expBounds {c : Config} {v : DValue} (h : v.wf c) (hf : v.cls = .fin) (hz : v.isZero = false) :
    c.minExp ≤ v.exp ∧ v.exp ≤ c.maxExp := by
  obtain ⟨h1, h2⟩ := (inRange_iff hf hz).1 h.range
  refine ⟨(magCmp_minValue hz hf).1 h1, ?_⟩
  by_contra h3
  exact h2 (magCmp_maxValue_of_gt hz (by omega))

/-- The exponent of every stored value lies between MIN_EXP10 and MAX_EXP10, so it fits EW bits (R6, R21). -/
theorem DValue.wf.exp_fits {c : Config} {v : DValue} (h : v.wf c) : c.minExp ≤ v.exp ∧ v.exp ≤ c.maxExp := by
  have h0 : c.minExp ≤ 0 := by simp [Config.minExp]
  rcases hc : v.cls with _ | _ | _
  · cases hz : v.isZero
    · exact h.expBounds hc hz
    · rw [h.zeroExp hz]; exact ⟨h0, by omega⟩
  · have e : v.exp = 0 := by simpa using congrArg DValue.exp (h.infForm hc)
    rw [e]; exact ⟨h0, by omega⟩
  · have e : v.exp = 0 := by simpa using congrArg DValue.exp (h.nanForm hc)
    rw [e]; exact ⟨h0, by omega⟩

/-- At MAX_EXP10 the one stored magnitude is MAXV itself (INV6, R163). -/
theorem DValue.wf.atMaxExp {c : Config} {v : DValue} (h : v.wf c) (hf : v.cls = .fin) (hz : v.isZero = false)
    (he : v.exp = c.maxExp) : v.nats = 1 :: List.replicate (c.n - 1) 0 := by
  have h2 := ((inRange_iff hf hz).1 h.range).2
  have h5 := c.n_ge
  have hl : v.nats.length = (1 :: List.replicate (c.n - 1) 0).length := by simp [h.natsLength]; omega
  have h1 := limbCompare_one (c.n - 1) (as := v.nats) (limb_ne_zero hf hz)
  simp only [magCmp, hz, maxValue_isZero, maxValue_exp, he, lt_irrefl, maxValue_nats, Bool.false_eq_true, if_false] at h2
  apply limbCompare_eq hl
  cases h3 : limbCompare v.nats (1 :: List.replicate (c.n - 1) 0) <;> simp_all

/-! ### Building stored values -/

/-- A record of `n` limbs with a non-zero leading limb that lies between MINV and MAXV meets R22. -/
theorem finiteValue_wf {c : Config} {ls : List Nat} {e : Int} {s : Bool} {p : Nat}
    (hl : ls.length = c.n) (hb : LimbsBelow ls) (h0 : ls.getD 0 0 ≠ 0) (he : e % 8 = 0)
    (hp : 1 ≤ p ∧ p ≤ c.n) (hn : c.n < 65536) (hr : (finiteValue ls e s p).inRange c = true) :
    (finiteValue ls e s p).wf c := by
  have hz : (finiteValue ls e s p).isZero = false := by rw [finiteValue_isZero hb]; simpa using h0
  refine ⟨⟨by simp [hl], he⟩, ?_, ?_, nofun, nofun, hr, ?_⟩
  · intro b hb'
    simp only [DValue.nats, finiteValue, List.map_map] at hb'
    obtain ⟨l, hl', rfl⟩ := List.mem_map.1 hb'
    rw [Function.comp_apply, BitVec.toNat_ofNat]
    exact lt_of_le_of_lt (Nat.mod_le _ _) (hb l hl')
  · intro h; rw [hz] at h; cases h
  · rw [finiteValue_prec, prec_toNat (by omega)]; exact hp

/-- `Saturate` makes any record of `n` limbs with a non-zero leading limb a stored value (R146, R22). -/
theorem saturate_wf {c : Config} (hc : c.Valid) {ls : List Nat} {e : Int} {s : Bool} {p : Nat}
    (hl : ls.length = c.n) (hb : LimbsBelow ls) (h0 : ls.getD 0 0 ≠ 0) (he : e % 8 = 0) (hp : 1 ≤ p ∧ p ≤ c.n) :
    (saturate c (finiteValue ls e s p)).wf c := by
  have hz : (finiteValue ls e s p).isZero = false := by rw [finiteValue_isZero hb]; simpa using h0
  unfold saturate
  rw [if_neg (by simp [hz])]
  split
  · exact infinity_wf hc _
  · rename_i h1
    split
    · exact zero_wf hc
    · rename_i h2
      exact finiteValue_wf hl hb h0 he hp hc.n_lt ((inRange_iff rfl hz).2 ⟨h2, h1⟩)

theorem saturate_zero (c : Config) : saturate c (DValue.zero c.n) = DValue.zero c.n := by
  simp [saturate]

/-- `Saturate` keeps a stored value (R146, R22 INV6). -/
theorem saturate_of_wf {c : Config} {v : DValue} (h : v.wf c) : saturate c v = v := by
  unfold saturate
  split
  · rfl
  · rename_i h1
    simp only [not_or, not_not, Bool.not_eq_true] at h1
    obtain ⟨h2, h3⟩ := (inRange_iff h1.1 h1.2).1 h.range
    rw [if_neg h3, if_neg h2]

theorem withPrec_wf {c : Config} {v : DValue} (h : v.wf c) {p : Nat} (hp : 1 ≤ p ∧ p ≤ c.n) (hn : c.n < 65536) :
    (v.withPrec p).wf c := by
  refine ⟨h.1, h.2.1, h.zeroForm, h.infForm, h.nanForm, h.range, ?_⟩
  rw [withPrec_prec, prec_toNat (by omega)]; exact hp

theorem withPrec_full_wf {c : Config} (hc : c.Valid) {v : DValue} (h : v.wf c) : (v.withPrec c.n).wf c :=
  withPrec_wf h ⟨by have := c.n_ge; omega, le_refl _⟩ hc.n_lt

/-- Giving a stored value that is neither zero nor NaN another sign keeps R22. -/
theorem setNeg_wf {c : Config} {v : DValue} (h : v.wf c) (hz : v.isZero = false) (hn : v.cls ≠ .nan) (s : Bool) :
    DValue.wf c { v with neg := s } := by
  refine ⟨h.1, h.2.1, ?_, ?_, ?_, ?_, h.precBounds⟩
  · intro h'; exact absurd h' (by simpa [DValue.isZero, DValue.limb, DValue.nats] using hz)
  · intro h'
    have := h.infForm h'
    simp only [DValue.withPrec, DValue.infinity, DValue.mk.injEq] at this ⊢
    tauto
  · intro h'; exact absurd h' hn
  · have := h.range
    simpa [DValue.inRange, DValue.isZero, DValue.limb, DValue.nats, magCmp] using this

theorem negate_wf {c : Config} {v : DValue} (h : v.wf c) : v.negate.wf c := by
  unfold DValue.negate
  split
  · exact h
  · rename_i h1
    simp only [not_or, Bool.not_eq_true] at h1
    exact setNeg_wf h h1.2 h1.1 _

theorem absolute_wf {c : Config} {v : DValue} (h : v.wf c) : v.absolute.wf c := by
  by_cases hz : v.isZero = true
  · have : v.absolute = v := by simp [DValue.absolute, ← h.zeroNeg hz]
    rw [this]; exact h
  · by_cases hn : v.cls = .nan
    · have : v.absolute = v := by simp [DValue.absolute, ← h.nanNeg hn]
      rw [this]; exact h
    · exact setNeg_wf h (by simpa using hz) hn _

end Sys2Proof
end

