-- ==== Sys2Proof/Laws/Limbs.lean ====
section
/-! SUPPORT. A limb list as one natural number in radix 10^8, and what the limb operations do to that number. -/

namespace Sys2Proof

/-- The natural number a limb list writes, most significant limb first. -/
def limbsNat : List Nat → Nat
  | [] => 0
  | l :: ls => l * limbBase ^ ls.length + limbsNat ls

@[simp] theorem limbsNat_nil : limbsNat [] = 0 := rfl

theorem limbsNat_cons (l : Nat) (ls : List Nat) : limbsNat (l :: ls) = l * limbBase ^ ls.length + limbsNat ls := rfl

theorem limbBase_pos : 0 < limbBase := by decide

theorem limbBase_pow_pos (k : Nat) : 0 < limbBase ^ k := Nat.pow_pos limbBase_pos

theorem limbBase_eq : (limbBase : Nat) = 10 ^ 8 := by decide

theorem limbsNat_append (as bs : List Nat) : limbsNat (as ++ bs) = limbsNat as * limbBase ^ bs.length + limbsNat bs := by
  induction as with
  | nil => simp
  | cons a as ih =>
    rw [List.cons_append, limbsNat_cons, ih, limbsNat_cons, List.length_append, pow_add]; ring

@[simp] theorem limbsNat_replicate_zero (k : Nat) : limbsNat (List.replicate k 0) = 0 := by
  induction k with
  | zero => rfl
  | succ k ih => rw [List.replicate_succ, limbsNat_cons, ih]; simp

theorem limbsNat_lt {ls : List Nat} (h : LimbsBelow ls) : limbsNat ls < limbBase ^ ls.length := by
  induction ls with
  | nil => simp
  | cons l ls ih =>
    have hl : l < limbBase := h l (by simp)
    have := ih fun x hx => h x (by simp [hx])
    rw [limbsNat_cons, List.length_cons, pow_succ]
    calc l * limbBase ^ ls.length + limbsNat ls < l * limbBase ^ ls.length + limbBase ^ ls.length := by omega
      _ = (l + 1) * limbBase ^ ls.length := by ring
      _ ≤ limbBase * limbBase ^ ls.length := Nat.mul_le_mul_right _ hl
      _ = limbBase ^ ls.length * limbBase := by ring

/-- A list with a non-zero head writes at least `BASE^(length-1)`. -/
theorem limbsNat_ge {ls : List Nat} (h : ls.getD 0 0 ≠ 0) : limbBase ^ (ls.length - 1) ≤ limbsNat ls := by
  cases ls with
  | nil => simp at h
  | cons l ls =>
    simp only [List.getD_cons_zero] at h
    rw [limbsNat_cons, List.length_cons, Nat.add_sub_cancel]
    exact Nat.le_add_right_of_le (Nat.le_mul_of_pos_left _ (Nat.pos_of_ne_zero h))

/-- Lists of limbs below the radix compare as the numbers they write (R13, R202). -/
theorem limbCompare_eq_compare {as bs : List Nat} (hl : as.length = bs.length) (ha : LimbsBelow as)
    (hb : LimbsBelow bs) : limbCompare as bs = compare (limbsNat as) (limbsNat bs) := by
  induction as generalizing bs with
  | nil =>
    cases bs with
    | nil => simp [limbCompare]
    | cons b bs => simp at hl
  | cons a as ih =>
    cases bs with
    | nil => simp at hl
    | cons b bs =>
      have hl' : as.length = bs.length := by simpa using hl
      have ha' : LimbsBelow as := fun x hx => ha x (by simp [hx])
      have hb' : LimbsBelow bs := fun x hx => hb x (by simp [hx])
      have h1 := limbsNat_lt ha'
      have h2 := limbsNat_lt hb'
      rw [limbsNat_cons, limbsNat_cons, hl']
      rw [hl'] at h1
      simp only [limbCompare]
      rcases Nat.lt_trichotomy a b with h | h | h
      · rw [if_pos h, eq_comm, Nat.compare_eq_lt]
        have : (a + 1) * limbBase ^ bs.length ≤ b * limbBase ^ bs.length := Nat.mul_le_mul_right _ h
        rw [add_mul, one_mul] at this; omega
      · subst h
        rw [if_neg (lt_irrefl a), if_neg (lt_irrefl a), ih hl' ha' hb']
        rcases Nat.lt_trichotomy (limbsNat as) (limbsNat bs) with h | h | h
        · rw [Nat.compare_eq_lt.2 h, eq_comm, Nat.compare_eq_lt]; omega
        · rw [h]; simp
        · rw [Nat.compare_eq_gt.2 h, eq_comm, Nat.compare_eq_gt]; omega
      · rw [if_neg (Nat.lt_asymm h), if_pos h, eq_comm, Nat.compare_eq_gt]
        have : (b + 1) * limbBase ^ bs.length ≤ a * limbBase ^ bs.length := Nat.mul_le_mul_right _ h
        rw [add_mul, one_mul] at this; omega

/-- Two lists of `n` limbs below the radix that write the same number are the same list. -/
theorem limbsNat_inj {as bs : List Nat} (hl : as.length = bs.length) (ha : LimbsBelow as) (hb : LimbsBelow bs)
    (h : limbsNat as = limbsNat bs) : as = bs := by
  apply limbCompare_eq hl
  rw [limbCompare_eq_compare hl ha hb, h]; simp

/-! ### The value of a record -/

theorem limbSum_eq (ls : List Nat) (e : Int) :
    limbSum ls e = (limbsNat ls : ℚ) * (10 : ℚ) ^ (e - 8 * (ls.length : Int) + 8) := by
  induction ls generalizing e with
  | nil => simp [limbSum]
  | cons l ls ih =>
    have h10 : (10 : ℚ) ≠ 0 := by norm_num
    have hb : ((limbBase : Nat) : ℚ) = (10 : ℚ) ^ (8 : ℤ) := by rw [limbBase_eq]; norm_num
    rw [limbSum, ih, limbsNat_cons]
    rw [Nat.cast_add, Nat.cast_mul, Nat.cast_pow, hb, ← zpow_natCast, ← zpow_mul, add_mul, mul_assoc, ← zpow_add₀ h10,
      List.length_cons, Nat.cast_add]
    congr 2
    · congr 1; push_cast; ring
    · congr 1; push_cast; ring

/-- One unit of the last of `n` limbs of a record with exponent `e`. -/
def lastUnit (n : Nat) (e : Int) : ℚ := (10 : ℚ) ^ (e - 8 * ((n : Int) - 1))

theorem lastUnit_pos (n : Nat) (e : Int) : 0 < lastUnit n e := zpow_pos (by norm_num) _

/-- The magnitude of a record is its limb number in units of its last limb. -/
theorem limbSum_nats {v : DValue} {n : Nat} (h : v.nats.length = n) :
    limbSum v.nats v.exp = (limbsNat v.nats : ℚ) * lastUnit n v.exp := by
  rw [limbSum_eq, h, lastUnit]; congr 2; ring

theorem val_eq {v : DValue} {n : Nat} (h : v.nats.length = n) :
    v.val = (if v.neg then -1 else 1) * ((limbsNat v.nats : ℚ) * lastUnit n v.exp) := by
  rw [DValue.val, limbSum_nats h]

theorem abs_val_eq {v : DValue} {n : Nat} (h : v.nats.length = n) :
    |v.val| = (limbsNat v.nats : ℚ) * lastUnit n v.exp := by
  have : 0 ≤ (limbsNat v.nats : ℚ) * lastUnit n v.exp := mul_nonneg (Nat.cast_nonneg _) (lastUnit_pos _ _).le
  rw [val_eq h]
  cases v.neg <;> simp [abs_of_nonneg this]

theorem lastUnit_mul_pow (n : Nat) (e : Int) (k : Nat) : lastUnit n e * (limbBase : ℚ) ^ k = lastUnit n (e + 8 * k) := by
  have hb : ((limbBase : Nat) : ℚ) = (10 : ℚ) ^ (8 : ℤ) := by rw [limbBase_eq]; norm_num
  rw [lastUnit, hb, ← zpow_natCast, ← zpow_mul, ← zpow_add₀ (by norm_num), lastUnit]
  congr 1; ring

theorem lastUnit_full {n : Nat} (hn : 1 ≤ n) (e : Int) : lastUnit n e * (limbBase : ℚ) ^ (n - 1) = (10 : ℚ) ^ e := by
  rw [lastUnit_mul_pow, lastUnit]; congr 1; omega

theorem lastUnit_lt {n : Nat} {d e : Int} (h : d < e) : lastUnit n d < lastUnit n e :=
  zpow_lt_zpow_right₀ (by norm_num) (by omega)

theorem lastUnit_le {n : Nat} {d e : Int} (h : d ≤ e) : lastUnit n d ≤ lastUnit n e :=
  zpow_le_zpow_right₀ (by norm_num) (by omega)

end Sys2Proof
end

