-- ==== Sys2Proof/Laws/Truncate.lean ====
section
/-! SUPPORT. What `Saturate` and `TruncN` do to a magnitude (R13, R146). -/

namespace Sys2Proof

open Machine

/-- At MAX_EXP10 a record is above MAXV exactly when its limb number is above `BASE^(N-1)` (R146). -/
theorem magCmp_maxValue_at {c : Config} {v : DValue} (hl : v.nats.length = c.n) (hb : LimbsBelow v.nats)
    (hz : v.isZero = false) (he : v.exp = c.maxExp) :
    magCmp v (maxValue c) = .gt ↔ limbBase ^ (c.n - 1) < limbsNat v.nats := by
  have h5 := c.n_ge
  have h1 : (maxValue c).nats.length = c.n := by rw [maxValue_nats]; simp; omega
  have h2 : LimbsBelow (maxValue c).nats := by
    rw [maxValue_nats]; exact limbsBelow_cons (by decide) (limbsBelow_replicate _)
  have h3 : limbsNat (maxValue c).nats = limbBase ^ (c.n - 1) := by
    rw [maxValue_nats, limbsNat_cons]; simp
  simp only [magCmp, hz, maxValue_isZero, maxValue_exp, he, lt_irrefl, if_false, Bool.false_eq_true]
  rw [limbCompare_eq_compare (by rw [hl, h1]) hb h2, h3, Nat.compare_eq_gt]

theorem ten_zpow_le {a b : Int} (h : a ≤ b) : (10 : ℚ) ^ a ≤ (10 : ℚ) ^ b := zpow_le_zpow_right₀ (by norm_num) h

theorem ten_zpow_pos (a : Int) : (0 : ℚ) < (10 : ℚ) ^ a := zpow_pos (by norm_num) a

/-- `Saturate` of a record whose magnitude is the truncation of `q` is the saturated truncation of `q` (R146). -/
theorem truncates_saturate {c : Config} (hc : c.Valid) {ls : List Nat} {e : Int} {s : Bool} {p : Nat} {q : ℚ}
    (hl : ls.length = c.n) (hb : LimbsBelow ls) (h0 : ls.getD 0 0 ≠ 0) (he : e % 8 = 0) (hp : 1 ≤ p ∧ p ≤ c.n)
    (h1 : (limbsNat ls : ℚ) * lastUnit c.n e ≤ q) (h2 : q < ((limbsNat ls : ℚ) + 1) * lastUnit c.n e) :
    TruncatesTo c q s p (saturate c (finiteValue ls e s p)) := by
  have h5 := c.n_ge
  have hM := hc.maxExp_mod
  have hnats := finiteValue_nats hb e s p
  have hz : (finiteValue ls e s p).isZero = false := by rw [finiteValue_isZero hb]; simpa using h0
  have hU := lastUnit_pos c.n e
  -- the record lies between 10^e and 10^(e+8)
  have hge : (10 : ℚ) ^ e ≤ q := by
    rw [← lastUnit_full (n := c.n) (by omega) e]
    refine le_trans ?_ h1
    rw [mul_comm]
    refine mul_le_mul_of_nonneg_right ?_ hU.le
    have := limbsNat_ge h0; rw [hl] at this; exact_mod_cast this
  have hlt : q < (10 : ℚ) ^ (e + 8) := by
    have h3 : (10 : ℚ) ^ (e + 8) = (limbBase : ℚ) ^ c.n * lastUnit c.n e := by
      rw [mul_comm, lastUnit_mul_pow, lastUnit]; congr 1; ring
    rw [h3]
    refine lt_of_lt_of_le h2 (mul_le_mul_of_nonneg_right ?_ hU.le)
    have := limbsNat_lt hb; rw [hl] at this; exact_mod_cast this
  have hmax : magCmp (finiteValue ls e s p) (maxValue c) = .gt ↔
      (10 : ℚ) ^ (c.maxExp : Int) + (10 : ℚ) ^ ((c.maxExp : Int) - 8 * ((c.n : Int) - 1)) ≤ q := by
    have hpos := ten_zpow_pos ((c.maxExp : Int) - 8 * ((c.n : Int) - 1))
    rcases lt_trichotomy e (c.maxExp : Int) with h | h | h
    · refine ⟨fun hg => absurd hg (magCmp_maxValue_of_lt (by simpa using h)), fun hq => ?_⟩
      have : (10 : ℚ) ^ (e + 8) ≤ (10 : ℚ) ^ (c.maxExp : Int) := ten_zpow_le (by omega)
      linarith
    · rw [magCmp_maxValue_at (by rw [hnats, hl]) (by rw [hnats]; exact hb) hz h, hnats]
      have h6 : (10 : ℚ) ^ (c.maxExp : Int) + (10 : ℚ) ^ ((c.maxExp : Int) - 8 * ((c.n : Int) - 1)) =
          ((limbBase ^ (c.n - 1) + 1 : Nat) : ℚ) * lastUnit c.n e := by
        rw [← lastUnit_full (n := c.n) (by omega) (c.maxExp : Int), ← h, Nat.cast_add, Nat.cast_pow, Nat.cast_one, add_mul,
          one_mul, mul_comm, lastUnit]
      rw [h6]
      constructor
      · intro hg
        refine le_trans (mul_le_mul_of_nonneg_right ?_ hU.le) h1
        exact_mod_cast hg
      · intro hq
        have := lt_of_le_of_lt hq h2
        have := lt_of_mul_lt_mul_right this hU.le
        have : limbBase ^ (c.n - 1) + 1 < limbsNat ls + 1 := by exact_mod_cast this
        omega
    · refine ⟨fun _ => ?_, fun _ => magCmp_maxValue_of_gt hz (by simpa using h)⟩
      have h7 : (10 : ℚ) ^ ((c.maxExp : Int) + 1) ≤ (10 : ℚ) ^ e := ten_zpow_le (by omega)
      have h8 : (10 : ℚ) ^ ((c.maxExp : Int) - 8 * ((c.n : Int) - 1)) ≤ (10 : ℚ) ^ (c.maxExp : Int) := ten_zpow_le (by omega)
      rw [zpow_add_one₀ (by norm_num)] at h7
      have := ten_zpow_pos (c.maxExp : Int)
      linarith
  have hmin : magCmp (finiteValue ls e s p) (minValue c) = .lt ↔ q < (10 : ℚ) ^ c.minExp := by
    have h3 := magCmp_minValue (c := c) hz (finiteValue_cls ls e s p)
    rw [finiteValue_exp] at h3
    constructor
    · intro hg
      have : ¬ c.minExp ≤ e := fun h => h3.2 h hg
      have : (10 : ℚ) ^ (e + 8) ≤ (10 : ℚ) ^ c.minExp := ten_zpow_le (by unfold Config.minExp at *; omega)
      linarith
    · intro hq
      by_contra hg
      have : (10 : ℚ) ^ c.minExp ≤ (10 : ℚ) ^ e := ten_zpow_le (h3.1 hg)
      linarith
  have hsat : saturate c (finiteValue ls e s p) =
      if magCmp (finiteValue ls e s p) (maxValue c) = .gt then DValue.infinity c.n s
      else if magCmp (finiteValue ls e s p) (minValue c) = .lt then DValue.zero c.n
      else finiteValue ls e s p := by
    unfold saturate; rw [if_neg (by simp [hz])]; rfl
  rw [hsat]
  unfold TruncatesTo
  by_cases g1 : magCmp (finiteValue ls e s p) (maxValue c) = .gt
  · rw [if_pos g1, if_pos (hmax.1 g1)]
  · rw [if_neg g1, if_neg fun h => g1 (hmax.2 h)]
    by_cases g2 : magCmp (finiteValue ls e s p) (minValue c) = .lt
    · rw [if_pos g2, if_pos (hmin.1 g2)]
    · rw [if_neg g2, if_neg fun h => g2 (hmin.2 h)]
      have hlen : (finiteValue ls e s p).nats.length = c.n := by rw [hnats, hl]
      refine ⟨finiteValue_wf hl hb h0 he hp hc.n_lt ((inRange_iff rfl hz).2 ⟨g2, g1⟩), rfl, hz, rfl, ?_, ?_, ?_⟩
      · rw [finiteValue_prec, prec_toNat]; have := hc.n_lt; omega
      · rw [abs_val_eq hlen, hnats]; exact h1
      · rw [abs_val_eq hlen, hnats, ← lastUnit]
        calc q < ((limbsNat ls : ℚ) + 1) * lastUnit c.n e := h2
          _ = _ := by rw [finiteValue_exp]; ring

/-- The saturated truncation of a magnitude is a stored value (R22). -/
theorem Machine.TruncatesTo.wf {c : Config} (hc : c.Valid) {q : ℚ} {s : Bool} {p : Nat} {v : DValue}
    (h : TruncatesTo c q s p v) : v.wf c := by
  unfold TruncatesTo at h
  split at h
  · rw [h]; exact infinity_wf hc s
  · split at h
    · rw [h]; exact zero_wf hc
    · exact h.1

end Sys2Proof
end

