-- ==== Sys2Proof/Laws/TruncN.lean ====
section
/-! SUPPORT. `TruncN` (R13): its limbs, exponent and value. -/

namespace Sys2Proof

open Machine

theorem countDigitsUpTo_spec (fuel m : Nat) (hm : m ≠ 0) (h : m < 10 ^ fuel) :
    1 ≤ countDigitsUpTo fuel m ∧ 10 ^ (countDigitsUpTo fuel m - 1) ≤ m ∧ m < 10 ^ countDigitsUpTo fuel m := by
  induction fuel generalizing m with
  | zero => simp at h; omega
  | succ k ih =>
    rw [countDigitsUpTo, if_neg hm]
    by_cases hz : m / 10 = 0
    · have : countDigitsUpTo k (m / 10) = 0 := by rw [hz]; cases k <;> simp [countDigitsUpTo]
      rw [this]
      refine ⟨by omega, by simp; omega, by simp; omega⟩
    · obtain ⟨h1, h2, h3⟩ := ih (m / 10) hz (by rw [pow_succ] at h; omega)
      generalize countDigitsUpTo k (m / 10) = d at *
      refine ⟨by omega, ?_, ?_⟩
      · obtain ⟨j, rfl⟩ : ∃ j, d = j + 1 := ⟨d - 1, by omega⟩
        simp only [Nat.add_sub_cancel] at h2 ⊢
        rw [pow_succ]; omega
      · rw [pow_succ]; omega

/-- The digit count of a positive natural (R13). -/
theorem countDigits_spec {m : Nat} (hm : m ≠ 0) :
    1 ≤ countDigits m ∧ 10 ^ (countDigits m - 1) ≤ m ∧ m < 10 ^ countDigits m := by
  apply countDigitsUpTo_spec _ _ hm
  calc m < 2 ^ (Nat.log2 m + 1) := Nat.lt_log2_self
    _ ≤ 10 ^ (Nat.log2 m + 1) := Nat.pow_le_pow_left (by norm_num) _

/-- The digit count of a number between `10^j` and `10^(j+1)`. -/
theorem countDigits_eq {m j : Nat} (h1 : 10 ^ j ≤ m) (h2 : m < 10 ^ (j + 1)) : countDigits m = j + 1 := by
  have hm : m ≠ 0 := by have : 0 < 10 ^ j := by positivity
                        omega
  obtain ⟨h3, h4, h5⟩ := countDigits_spec hm
  have a := (Nat.pow_lt_pow_iff_right (by norm_num : 1 < 10)).1 (lt_of_le_of_lt h1 h5)
  have b := (Nat.pow_lt_pow_iff_right (by norm_num : 1 < 10)).1 (lt_of_le_of_lt h4 h2)
  omega

theorem splitLimbs_length (n m : Nat) : (splitLimbs n m).length = n := by simp [splitLimbs]

theorem splitLimbs_below (n m : Nat) : LimbsBelow (splitLimbs n m) := by
  intro l hl
  obtain ⟨i, _, rfl⟩ := List.mem_map.1 hl
  exact Nat.mod_lt _ limbBase_pos

theorem splitLimbs_succ (n m : Nat) : splitLimbs (n + 1) m = (m / limbBase ^ n % limbBase) :: splitLimbs n m := by
  simp only [splitLimbs, List.range_succ_eq_map, List.map_cons, List.map_map]
  congr 1
  · apply List.map_congr_left
    intro i hi
    have := List.mem_range.1 hi
    simp only [Function.comp]
    congr 3; omega

/-- The split limbs write the number back, up to the limbs that do not fit (R13). -/
theorem limbsNat_splitLimbs (n m : Nat) : limbsNat (splitLimbs n m) = m % limbBase ^ n := by
  induction n with
  | zero => simp [splitLimbs, Nat.mod_one]
  | succ n ih =>
    rw [splitLimbs_succ, limbsNat_cons, splitLimbs_length, ih, pow_succ, Nat.mod_mul, mul_comm, add_comm]

theorem splitLimbs_head {n m : Nat} (hn : 1 ≤ n) (h1 : limbBase ^ (n - 1) ≤ m) (h2 : m < limbBase ^ n) :
    (splitLimbs n m).getD 0 0 ≠ 0 := by
  obtain ⟨k, rfl⟩ : ∃ k, n = k + 1 := ⟨n - 1, by omega⟩
  rw [splitLimbs_succ, List.getD_cons_zero]
  simp only [Nat.add_sub_cancel] at h1
  rw [pow_succ] at h2
  have h3 : m / limbBase ^ k < limbBase := Nat.div_lt_of_lt_mul h2
  have h4 : 1 ≤ m / limbBase ^ k := (Nat.one_le_div_iff (limbBase_pow_pos k)).2 h1
  rw [Nat.mod_eq_of_lt h3]; omega

/-- `scaleFloor` is the floor (R13). -/
theorem scaleFloor_spec (m : Nat) (s : Int) :
    (scaleFloor m s : ℚ) ≤ (m : ℚ) * (10 : ℚ) ^ s ∧ (m : ℚ) * (10 : ℚ) ^ s < (scaleFloor m s : ℚ) + 1 := by
  unfold scaleFloor
  split
  · rename_i h
    obtain ⟨j, rfl⟩ := Int.eq_ofNat_of_zero_le h
    simp
  · rename_i h
    obtain ⟨j, hj⟩ := Int.eq_ofNat_of_zero_le (show 0 ≤ -s by omega)
    have hs : s = -(j : Int) := by omega
    subst hs
    have h10 : (0 : ℚ) < (10 : ℚ) ^ j := by positivity
    have e : (m : ℚ) * (10 : ℚ) ^ (-(j : Int)) = (m : ℚ) / (10 : ℚ) ^ j := by rw [zpow_neg, zpow_natCast, div_eq_mul_inv]
    rw [e, neg_neg, Int.toNat_natCast]
    constructor
    · rw [le_div_iff₀ h10]
      have := Nat.div_mul_le_self m (10 ^ j)
      exact_mod_cast this
    · rw [div_lt_iff₀ h10]
      have := Nat.lt_mul_div_succ m (show 0 < 10 ^ j by positivity)
      have h2 : m < (m / 10 ^ j + 1) * 10 ^ j := by rw [mul_comm]; exact this
      exact_mod_cast h2

/-- The parts of `TruncN(m * 10^k)`: its exponent and its limb number, which is the floor of `m * 10^k` in units of the
last limb and fills the leading limb (R13). -/
theorem truncN_spec {n m : Nat} (hn : 1 ≤ n) (hm : m ≠ 0) (k : Int) :
    ∃ M : Nat, truncN n m k = finiteValue (splitLimbs n M) (8 * ((k + countDigits m - 1) / 8)) false n ∧
      limbBase ^ (n - 1) ≤ M ∧ M < limbBase ^ n ∧
      (M : ℚ) * lastUnit n (8 * ((k + countDigits m - 1) / 8)) ≤ (m : ℚ) * (10 : ℚ) ^ k ∧
      (m : ℚ) * (10 : ℚ) ^ k < ((M : ℚ) + 1) * lastUnit n (8 * ((k + countDigits m - 1) / 8)) := by
  obtain ⟨h1, h2, h3⟩ := countDigits_spec hm
  generalize hd : countDigits m = d at *
  generalize hex : 8 * ((k + d - 1) / 8) = ex
  have hw : ex ≤ k + d - 1 ∧ k + d - 1 < ex + 8 := by omega
  obtain ⟨g1, g2⟩ := scaleFloor_spec m (k - (ex - 8 * ((n : Int) - 1)))
  refine ⟨scaleFloor m (k - (ex - 8 * ((n : Int) - 1))), by simp [truncN, hm, hd, hex], ?_⟩
  generalize scaleFloor m (k - (ex - 8 * ((n : Int) - 1))) = M at *
  have hU := lastUnit_pos n ex
  have hsplit : (m : ℚ) * (10 : ℚ) ^ (k - (ex - 8 * ((n : Int) - 1))) * lastUnit n ex = (m : ℚ) * (10 : ℚ) ^ k := by
    rw [lastUnit, mul_assoc, ← zpow_add₀ (by norm_num)]; congr 2; ring
  have b1 : (M : ℚ) * lastUnit n ex ≤ (m : ℚ) * (10 : ℚ) ^ k := by
    rw [← hsplit]; exact mul_le_mul_of_nonneg_right g1 hU.le
  have b2 : (m : ℚ) * (10 : ℚ) ^ k < ((M : ℚ) + 1) * lastUnit n ex := by
    rw [← hsplit]; exact mul_lt_mul_of_pos_right g2 hU
  have q1 : (10 : ℚ) ^ ex ≤ (m : ℚ) * (10 : ℚ) ^ k := by
    have c1 : ((10 : ℚ) ^ (d - 1)) ≤ m := by exact_mod_cast h2
    calc (10 : ℚ) ^ ex ≤ (10 : ℚ) ^ (((d - 1 : Nat) : Int) + k) := ten_zpow_le (by omega)
      _ = (10 : ℚ) ^ (d - 1) * (10 : ℚ) ^ k := by rw [zpow_add₀ (by norm_num), zpow_natCast]
      _ ≤ _ := mul_le_mul_of_nonneg_right c1 (ten_zpow_pos k).le
  have q2 : (m : ℚ) * (10 : ℚ) ^ k < (10 : ℚ) ^ (ex + 8) := by
    have c1 : (m : ℚ) < (10 : ℚ) ^ d := by exact_mod_cast h3
    calc (m : ℚ) * (10 : ℚ) ^ k < (10 : ℚ) ^ d * (10 : ℚ) ^ k := mul_lt_mul_of_pos_right c1 (ten_zpow_pos k)
      _ = (10 : ℚ) ^ ((d : Int) + k) := by rw [zpow_add₀ (by norm_num), zpow_natCast]
      _ ≤ _ := ten_zpow_le (by omega)
  refine ⟨?_, ?_, b1, b2⟩
  · have : ((limbBase : ℚ) ^ (n - 1)) * lastUnit n ex < ((M : ℚ) + 1) * lastUnit n ex := by
      rw [mul_comm, lastUnit_full hn]; linarith
    have := lt_of_mul_lt_mul_right this hU.le
    have : limbBase ^ (n - 1) < M + 1 := by exact_mod_cast this
    omega
  · have e1 : (10 : ℚ) ^ (ex + 8) = (limbBase : ℚ) ^ n * lastUnit n ex := by
      rw [mul_comm, lastUnit_mul_pow, lastUnit]; congr 1; ring
    have : (M : ℚ) * lastUnit n ex < (limbBase : ℚ) ^ n * lastUnit n ex := by rw [← e1]; linarith
    have := lt_of_mul_lt_mul_right this hU.le
    exact_mod_cast this

/-- `TruncN(m * 10^k)`, with a sign given to it and saturated, is the saturated truncation of `m * 10^k`. -/
theorem truncates_truncN {c : Config} (hc : c.Valid) {m : Nat} (hm : m ≠ 0) (k : Int) (s : Bool) :
    TruncatesTo c ((m : ℚ) * (10 : ℚ) ^ k) s c.n (saturate c { truncN c.n m k with neg := s }) := by
  have h5 := c.n_ge
  obtain ⟨M, h, h1, h2, h3, h4⟩ := truncN_spec (n := c.n) (by omega) hm k
  rw [h]
  have hM : limbsNat (splitLimbs c.n M) = M := by rw [limbsNat_splitLimbs, Nat.mod_eq_of_lt h2]
  change TruncatesTo c _ s c.n (saturate c (finiteValue (splitLimbs c.n M) (8 * ((k + countDigits m - 1) / 8)) s c.n))
  exact truncates_saturate hc (splitLimbs_length _ _) (splitLimbs_below _ _) (splitLimbs_head (by omega) h1 h2) (by omega)
    ⟨by omega, le_refl _⟩ (by rw [hM]; exact h3) (by rw [hM]; exact h4)

/-- `Saturate` answers its operand, an infinity or `Zero` (R146). -/
theorem saturate_cases (c : Config) (v : DValue) :
    saturate c v = v ∨ saturate c v = DValue.infinity c.n v.neg ∨ saturate c v = DValue.zero c.n := by
  unfold saturate; split_ifs <;> simp

/-- The saturated truncation of a magnitude between MINV and MAXV is finite and not zero. -/
theorem Machine.TruncatesTo.inRange {c : Config} {q : ℚ} {s : Bool} {p : Nat} {v : DValue} (h : TruncatesTo c q s p v)
    (h1 : (10 : ℚ) ^ c.minExp ≤ q) (h2 : q ≤ (10 : ℚ) ^ (c.maxExp : Int)) :
    v.wf c ∧ v.cls = .fin ∧ v.isZero = false ∧ v.neg = s ∧ v.prec.toNat = p ∧
      |v.val| ≤ q ∧ q < |v.val| + lastUnit c.n v.exp := by
  unfold TruncatesTo at h
  rw [if_neg (by have := ten_zpow_pos ((c.maxExp : Int) - 8 * ((c.n : Int) - 1)); linarith), if_neg (by linarith)] at h
  exact h

/-- A truncation of a magnitude between MINV and MAXV is not changed by `Saturate`. -/
theorem saturate_eq_self {c : Config} {q : ℚ} {s : Bool} {p : Nat} {v : DValue} (h : TruncatesTo c q s p (saturate c v))
    (h1 : (10 : ℚ) ^ c.minExp ≤ q) (h2 : q ≤ (10 : ℚ) ^ (c.maxExp : Int)) : saturate c v = v := by
  obtain ⟨-, h3, h4, -⟩ := h.inRange h1 h2
  rcases saturate_cases c v with e | e | e
  · exact e
  · rw [e] at h3; simp at h3
  · rw [e] at h4; simp at h4

/-- `TruncN` of a magnitude between MINV and MAXV, with a sign given to it, is that truncation and a stored value (R22). -/
theorem truncN_inRange {c : Config} (hc : c.Valid) {m : Nat} (hm : m ≠ 0) {k : Int} (s : Bool)
    (h1 : (10 : ℚ) ^ c.minExp ≤ (m : ℚ) * (10 : ℚ) ^ k) (h2 : (m : ℚ) * (10 : ℚ) ^ k ≤ (10 : ℚ) ^ (c.maxExp : Int)) :
    TruncatesTo c ((m : ℚ) * (10 : ℚ) ^ k) s c.n { truncN c.n m k with neg := s } := by
  have h := truncates_truncN hc hm k s
  rwa [saturate_eq_self h h1 h2] at h

end Sys2Proof
end

