-- ==== Sys2Proof/Laws/AddSub.lean ====
section
/-! SUPPORT. What the adder and subtractor answer (R140 to R148): the saturated truncation of a sum of magnitudes. -/

namespace Sys2Proof

open Machine

/-- A finite stored value at full precision is the record built from its limbs. -/
theorem withPrec_eq_finiteValue {v : DValue} (h : v.cls = .fin) (p : Nat) :
    v.withPrec p = finiteValue v.nats v.exp v.neg p := by
  obtain ⟨limbs, e, s, cls, prec⟩ := v
  simp only at h
  subst h
  simp only [DValue.withPrec, finiteValue, DValue.nats, List.map_map, DValue.mk.injEq, and_self, and_true]
  conv_lhs => rw [← List.map_id limbs]
  exact List.map_congr_left fun x _ => by simp

theorem wf_head {v : DValue} (hf : v.cls = .fin) (hz : v.isZero = false) : v.nats.getD 0 0 ≠ 0 :=
  limb_ne_zero hf hz

/-- The first limbs of a list write its number without the last limbs. -/
theorem limbsNat_take {ls : List Nat} (hb : LimbsBelow ls) (k : Nat) :
    limbsNat (ls.take k) = limbsNat ls / limbBase ^ (ls.length - k) := by
  have h := limbsNat_append (ls.take k) (ls.drop k)
  rw [List.take_append_drop, List.length_drop] at h
  have hd := limbsNat_lt (limbsBelow_drop hb k)
  rw [List.length_drop] at hd
  rw [h, mul_comm, Nat.mul_add_div (limbBase_pow_pos _), Nat.div_eq_of_lt hd, add_zero]

theorem shiftLimbs_eq {n d : Nat} {ls : List Nat} (hd : d ≤ n) :
    shiftLimbs n d ls = List.replicate d 0 ++ ls.take (n - d) := by
  rw [shiftLimbs, List.take_append, List.take_of_length_le (by simp [hd]), List.length_replicate]

theorem shiftLimbs_length {n d : Nat} {ls : List Nat} (hl : ls.length = n) : (shiftLimbs n d ls).length = n := by
  simp [shiftLimbs, hl]

theorem shiftLimbs_below {n d : Nat} {ls : List Nat} (hb : LimbsBelow ls) : LimbsBelow (shiftLimbs n d ls) :=
  limbsBelow_take (limbsBelow_append (limbsBelow_replicate d) hb) n

/-- Shifting `d` limbs to the right divides by `BASE^d` (R143). -/
theorem limbsNat_shiftLimbs {n d : Nat} {ls : List Nat} (hl : ls.length = n) (hb : LimbsBelow ls) (hd : d ≤ n) :
    limbsNat (shiftLimbs n d ls) = limbsNat ls / limbBase ^ d := by
  rw [shiftLimbs_eq hd, limbsNat_append, limbsNat_replicate_zero, zero_mul, zero_add, limbsNat_take hb, hl]
  congr 2; omega

/-- The limb adder adds (R143). -/
theorem addLimbs_spec {as bs : List Nat} (hl : as.length = bs.length) (ha : LimbsBelow as) (hb : LimbsBelow bs) :
    (addLimbs as bs).1.length = as.length ∧ LimbsBelow (addLimbs as bs).1 ∧ (addLimbs as bs).2 ≤ 1 ∧
      limbsNat (addLimbs as bs).1 + (addLimbs as bs).2 * limbBase ^ as.length = limbsNat as + limbsNat bs := by
  induction as generalizing bs with
  | nil =>
    cases bs with
    | nil => simp [addLimbs, LimbsBelow]
    | cons b bs => simp at hl
  | cons a as ih =>
    cases bs with
    | nil => simp at hl
    | cons b bs =>
      have hl' : as.length = bs.length := by simpa using hl
      obtain ⟨h1, h2, h3, h4⟩ := ih hl' (fun x hx => ha x (by simp [hx])) (fun x hx => hb x (by simp [hx]))
      have ha0 : a < limbBase := ha a (by simp)
      have hb0 : b < limbBase := hb b (by simp)
      simp only [addLimbs]
      generalize (addLimbs as bs).1 = r at *
      generalize (addLimbs as bs).2 = carry at *
      have hB := Nat.div_add_mod (a + b + carry) limbBase
      refine ⟨by simp [h1], limbsBelow_cons (Nat.mod_lt _ limbBase_pos) h2, ?_, ?_⟩
      · rw [Nat.div_le_iff_le_mul_add_pred limbBase_pos]; omega
      · rw [limbsNat_cons, limbsNat_cons, limbsNat_cons, h1, ← hl', List.length_cons, pow_succ]
        generalize (a + b + carry) % limbBase = x at *
        generalize (a + b + carry) / limbBase = y at *
        generalize limbBase ^ as.length = P at *
        have : (limbBase * y + x) * P = (a + b + carry) * P := by rw [hB]
        nlinarith

/-- The limb subtractor subtracts (R144). -/
theorem subLimbs_spec {as bs : List Nat} (hl : as.length = bs.length) (ha : LimbsBelow as) (hb : LimbsBelow bs) :
    (subLimbs as bs).1.length = as.length ∧ LimbsBelow (subLimbs as bs).1 ∧ (subLimbs as bs).2 ≤ 1 ∧
      limbsNat (subLimbs as bs).1 + limbsNat bs = limbsNat as + (subLimbs as bs).2 * limbBase ^ as.length := by
  induction as generalizing bs with
  | nil =>
    cases bs with
    | nil => simp [subLimbs, LimbsBelow]
    | cons b bs => simp at hl
  | cons a as ih =>
    cases bs with
    | nil => simp at hl
    | cons b bs =>
      have hl' : as.length = bs.length := by simpa using hl
      obtain ⟨h1, h2, h3, h4⟩ := ih hl' (fun x hx => ha x (by simp [hx])) (fun x hx => hb x (by simp [hx]))
      have ha0 : a < limbBase := ha a (by simp)
      have hb0 : b < limbBase := hb b (by simp)
      simp only [subLimbs]
      generalize (subLimbs as bs).1 = r at *
      generalize (subLimbs as bs).2 = borrow at *
      split
      · rename_i h
        refine ⟨by simp [h1], limbsBelow_cons (by omega) h2, le_refl _, ?_⟩
        rw [limbsNat_cons, limbsNat_cons, limbsNat_cons, h1, ← hl', List.length_cons, pow_succ]
        generalize limbBase ^ as.length = P at *
        obtain ⟨x, hx⟩ : ∃ x, a + limbBase - (b + borrow) = x := ⟨_, rfl⟩
        have hx' : x + b + borrow = a + limbBase := by omega
        rw [hx]
        have : (x + b + borrow) * P = (a + limbBase) * P := by rw [hx']
        nlinarith
      · rename_i h
        refine ⟨by simp [h1], limbsBelow_cons (by omega) h2, by omega, ?_⟩
        rw [limbsNat_cons, limbsNat_cons, limbsNat_cons, h1, ← hl', List.length_cons, pow_succ]
        generalize limbBase ^ as.length = P at *
        obtain ⟨x, hx⟩ : ∃ x, a - (b + borrow) = x := ⟨_, rfl⟩
        have hx' : x + b + borrow = a := by omega
        rw [hx]
        have : (x + b + borrow) * P = a * P := by rw [hx']
        nlinarith

/-- The limbs with an absorbed carry: the number divided by the radix, if there was a carry (R143, R161). -/
theorem absorbCarry_spec {n : Nat} {r : List Nat} {carry : Nat} (hn : 1 ≤ n) (hl : r.length = n) (hb : LimbsBelow r)
    (hc : carry < limbBase) :
    (absorbCarry n r carry).1.length = n ∧ LimbsBelow (absorbCarry n r carry).1 ∧
      ((carry = 0 ∧ absorbCarry n r carry = (r, false)) ∨
       (carry ≠ 0 ∧ (absorbCarry n r carry).2 = true ∧ (absorbCarry n r carry).1.getD 0 0 = carry ∧
         limbsNat (absorbCarry n r carry).1 = (carry * limbBase ^ n + limbsNat r) / limbBase)) := by
  unfold absorbCarry
  by_cases h : carry = 0
  · simp [h, hl]; exact hb
  · have hb' : LimbsBelow (carry :: r) := limbsBelow_cons hc hb
    rw [if_neg h]
    refine ⟨by simp [hl], limbsBelow_take hb' n, .inr ⟨h, rfl, ?_, ?_⟩⟩
    · obtain ⟨k, rfl⟩ : ∃ k, n = k + 1 := ⟨n - 1, by omega⟩
      simp
    · rw [limbsNat_take hb', limbsNat_cons, hl]
      simp [hl]

/-- A magnitude in units of the last limb of a record with a larger exponent. -/
theorem limb_units {n : Nat} {e : Int} (L d : Nat) :
    (L : ℚ) * lastUnit n e = (L : ℚ) / (limbBase : ℚ) ^ d * lastUnit n (e + 8 * d) := by
  have : ((limbBase : Nat) : ℚ) ^ d ≠ 0 := by
    have : (0 : ℚ) < (limbBase : Nat) := by exact_mod_cast limbBase_pos
    positivity
  rw [← lastUnit_mul_pow]; field_simp

theorem nat_div_bounds (L : Nat) {P : Nat} (hP : 0 < P) :
    ((L / P : Nat) : ℚ) ≤ (L : ℚ) / (P : ℚ) ∧ (L : ℚ) / (P : ℚ) < ((L / P : Nat) : ℚ) + 1 := by
  have hP' : (0 : ℚ) < P := by exact_mod_cast hP
  constructor
  · rw [le_div_iff₀ hP']; exact_mod_cast Nat.div_mul_le_self L P
  · rw [div_lt_iff₀ hP']
    have h := Nat.lt_mul_div_succ L hP
    have : L < (L / P + 1) * P := by rw [mul_comm]; exact h
    exact_mod_cast this

/-- `Add` step 3 gives the truncation of the sum of the magnitudes (R143). -/
theorem addSameSign_truncates {c : Config} (hc : c.Valid) {hi lo : DValue} {d : Nat} (hhi : hi.wf c) (hlo : lo.wf c)
    (hf : hi.cls = .fin) (hz : hi.isZero = false) (hd : d ≤ c.n) (he : hi.exp = lo.exp + 8 * d) :
    TruncatesTo c (|hi.val| + |lo.val|) hi.neg c.n (saturate c (addSameSign c hi lo d)) := by
  have h5 := c.n_ge
  have hH := hhi.natsBelow; have hHl := hhi.natsLength
  have hL := hlo.natsBelow; have hLl := hlo.natsLength
  obtain ⟨s1, s2, s3, s4⟩ := addLimbs_spec (as := hi.nats) (bs := shiftLimbs c.n d lo.nats)
    (by rw [shiftLimbs_length hLl, hHl]) hH (shiftLimbs_below hL)
  rw [limbsNat_shiftLimbs hLl hL hd, hHl] at s4
  rw [hHl] at s1
  have q0 : |hi.val| + |lo.val| =
      ((limbsNat hi.nats : ℚ) + (limbsNat lo.nats : ℚ) / (limbBase : ℚ) ^ d) * lastUnit c.n hi.exp := by
    rw [abs_val_eq hHl, abs_val_eq hLl, limb_units (limbsNat lo.nats) d, ← he]; ring
  obtain ⟨f1, f2⟩ := nat_div_bounds (limbsNat lo.nats) (limbBase_pow_pos d)
  rw [Nat.cast_pow] at f1 f2
  rw [q0]
  have hhead := limbsNat_ge (wf_head hf hz)
  rw [hHl] at hhead
  unfold addSameSign
  generalize addLimbs hi.nats (shiftLimbs c.n d lo.nats) = rc at *
  obtain ⟨r, carry⟩ := rc
  simp only at s1 s2 s3 s4 ⊢
  generalize limbsNat lo.nats / limbBase ^ d = Lf at *
  generalize (limbsNat lo.nats : ℚ) / (limbBase : ℚ) ^ d = Lq at *
  generalize limbsNat hi.nats = H at *
  have hU := lastUnit_pos c.n hi.exp
  obtain ⟨t1, t2, t3⟩ := absorbCarry_spec (n := c.n) (by omega) s1 s2 (carry := carry) (by
    have : (1 : Nat) < limbBase := by decide
    omega)
  rcases t3 with ⟨t4, t5⟩ | ⟨t4, t5, t6, t7⟩
  · subst t4
    rw [t5]
    simp only [Bool.false_eq_true, if_false]
    have hN : limbsNat r = H + Lf := by omega
    have hr0 : r.getD 0 0 ≠ 0 := by
      intro h0
      have h1 : limbsNat r < limbBase ^ (c.n - 1) := by
        cases r with
        | nil => simp at s1; omega
        | cons x xs =>
          simp only [List.getD_cons_zero] at h0
          subst h0
          rw [limbsNat_cons, zero_mul, zero_add]
          have := limbsNat_lt (ls := xs) fun y hy => s2 y (by simp [hy])
          simp only [List.length_cons] at s1
          rwa [show xs.length = c.n - 1 by omega] at this
      omega
    refine truncates_saturate hc s1 s2 hr0 hhi.expMod ⟨by omega, le_refl _⟩ ?_ ?_ <;> rw [hN, Nat.cast_add]
    · exact mul_le_mul_of_nonneg_right (by linarith) hU.le
    · exact mul_lt_mul_of_pos_right (by linarith) hU
  · have hcar : carry = 1 := by omega
    subst hcar
    rw [t5]
    simp only [if_true]
    rw [one_mul] at t7
    have hN : limbsNat r + limbBase ^ c.n = H + Lf := by omega
    have hU' : lastUnit c.n (hi.exp + 8) = lastUnit c.n hi.exp * (limbBase : ℚ) := by
      have := lastUnit_mul_pow c.n hi.exp 1
      rw [pow_one] at this
      rw [this]; congr 1
    obtain ⟨g1, g2⟩ := nat_div_bounds (limbBase ^ c.n + limbsNat r) limbBase_pos
    have hB : (0 : ℚ) < (limbBase : Nat) := by exact_mod_cast limbBase_pos
    rw [le_div_iff₀ hB] at g1
    have g3 : limbBase ^ c.n + limbsNat r + 1 ≤ ((limbBase ^ c.n + limbsNat r) / limbBase + 1) * limbBase := by
      have := Nat.lt_mul_div_succ (limbBase ^ c.n + limbsNat r) limbBase_pos
      rw [mul_comm] at this; exact this
    rw [← t7] at g1 g3
    have hS : limbBase ^ c.n + limbsNat r = H + Lf := by omega
    rw [hS] at g1 g3
    have g3' : ((H + Lf + 1 : Nat) : ℚ) ≤ (((limbsNat (absorbCarry c.n r 1).1 + 1) * limbBase : Nat) : ℚ) := by
      exact_mod_cast g3
    refine truncates_saturate hc t1 t2 (by rw [t6]; decide) (by have := hhi.expMod; omega) ⟨by omega, le_refl _⟩ ?_ ?_ <;>
      rw [hU']
    · calc _ = (limbsNat (absorbCarry c.n r 1).1 : ℚ) * (limbBase : Nat) * lastUnit c.n hi.exp := by ring
        _ ≤ _ := mul_le_mul_of_nonneg_right (by push_cast at g1 ⊢; linarith) hU.le
    · calc _ < ((H + Lf + 1 : Nat) : ℚ) * lastUnit c.n hi.exp := mul_lt_mul_of_pos_right (by push_cast; linarith) hU
        _ ≤ _ := mul_le_mul_of_nonneg_right g3' hU.le
        _ = _ := by rw [Nat.cast_mul, Nat.cast_add, Nat.cast_one]; ring

theorem takeWhile_zero (ls : List Nat) :
    ls = List.replicate (ls.takeWhile (· == 0)).length 0 ++ ls.drop (ls.takeWhile (· == 0)).length := by
  induction ls with
  | nil => rfl
  | cons a as ih =>
    by_cases h : a = 0
    · subst h
      simp only [List.takeWhile_cons, beq_self_eq_true, if_true, List.length_cons, List.replicate_succ, List.drop_succ_cons,
        List.cons_append]
      rw [← ih]
    · have : (a == 0) = false := by simpa using h
      simp [this]

theorem drop_takeWhile_zero {ls : List Nat} (h : (ls.takeWhile (· == 0)).length ≠ ls.length) :
    (ls.drop (ls.takeWhile (· == 0)).length).getD 0 0 ≠ 0 := by
  induction ls with
  | nil => simp at h
  | cons a as ih =>
    by_cases ha : a = 0
    · subst ha
      simp only [List.takeWhile_cons, beq_self_eq_true, if_true, List.length_cons, List.drop_succ_cons] at h ⊢
      exact ih (by omega)
    · have : (a == 0) = false := by simpa using ha
      simpa [this] using ha

/-- Justification keeps the magnitude (R144): the result is the saturated truncation of the limb number in units of the
last limb, and `Zero` for an array of zeros. -/
theorem justify_truncates {c : Config} (hc : c.Valid) {ls : List Nat} {e : Int} (s : Bool) (hl : ls.length = c.n)
    (hb : LimbsBelow ls) (he : e % 8 = 0) :
    TruncatesTo c ((limbsNat ls : ℚ) * lastUnit c.n e) s c.n (saturate c (justify c ls e s)) := by
  have h5 := c.n_ge
  have hsplit := takeWhile_zero ls
  have hhead := @drop_takeWhile_zero ls
  unfold justify
  simp only
  generalize hzd : (ls.takeWhile (· == 0)).length = z at *
  by_cases h : z = ls.length
  · rw [if_pos h, saturate_zero]
    have h0 : limbsNat ls = 0 := by rw [hsplit, h]; simp
    rw [h0, Nat.cast_zero, zero_mul]
    unfold TruncatesTo
    have h1 := ten_zpow_pos (c.maxExp : Int)
    have h2 := ten_zpow_pos ((c.maxExp : Int) - 8 * ((c.n : Int) - 1))
    rw [if_neg (by linarith), if_pos (ten_zpow_pos _)]
  · rw [if_neg h]
    have hz : z ≤ ls.length := by rw [← hzd]; exact (List.takeWhile_sublist _).length_le
    have hN : limbsNat ls = limbsNat (ls.drop z) := by
      conv_lhs => rw [hsplit]
      rw [limbsNat_append]; simp
    have hlen : (ls.drop z).length = c.n - z := by simp [hl]
    have hne : ls.drop z ≠ [] := by
      intro h0; have := congrArg List.length h0; rw [hlen] at this; simp at this; omega
    have hU := lastUnit_mul_pow c.n (e - 8 * z) z
    rw [show e - 8 * (z : Int) + 8 * z = e by ring] at hU
    have hU0 := lastUnit_pos c.n (e - 8 * z)
    refine truncates_saturate hc (by simp [hl]; omega) (limbsBelow_append (limbsBelow_drop hb z) (limbsBelow_replicate z))
      ?_ (by omega) ⟨by omega, le_refl _⟩ ?_ ?_
    · obtain ⟨x, xs, hx⟩ := List.exists_cons_of_ne_nil hne
      have := hhead h
      rw [hx] at this ⊢
      simpa using this
    all_goals
      rw [limbsNat_append, limbsNat_replicate_zero, List.length_replicate, ← hN, add_zero, Nat.cast_mul, Nat.cast_pow, ← hU]
    · exact le_of_eq (by ring)
    · calc _ = (limbsNat ls : ℚ) * ((limbBase : Nat) : ℚ) ^ z * lastUnit c.n (e - 8 * z) := by ring
        _ < _ := mul_lt_mul_of_pos_right (by linarith) hU0

/-- A finite non-zero stored value lies between two powers of ten 8 apart (R22, R23). -/
theorem abs_val_bounds {c : Config} {v : DValue} (hv : v.wf c) (hf : v.cls = .fin) (hz : v.isZero = false) :
    (10 : ℚ) ^ v.exp ≤ |v.val| ∧ |v.val| < (10 : ℚ) ^ (v.exp + 8) := by
  have h5 := c.n_ge
  rw [abs_val_eq hv.natsLength]
  have h1 := limbsNat_ge (wf_head hf hz)
  have h2 := limbsNat_lt hv.natsBelow
  rw [hv.natsLength] at h1 h2
  have hU := lastUnit_pos c.n v.exp
  constructor
  · rw [← lastUnit_full (n := c.n) (by omega), mul_comm]
    exact mul_le_mul_of_nonneg_right (by exact_mod_cast h1) hU.le
  · have h3 : (10 : ℚ) ^ (v.exp + 8) = (limbBase : ℚ) ^ c.n * lastUnit c.n v.exp := by
      rw [mul_comm, lastUnit_mul_pow, lastUnit]; congr 1; ring
    rw [h3]
    exact mul_lt_mul_of_pos_right (by exact_mod_cast h2) hU

/-- `MagCmp` orders stored magnitudes by value (R13, R202). -/
theorem magCmp_eq_compare {c : Config} {a b : DValue} (ha : a.wf c) (hb : b.wf c) (hfa : a.cls = .fin) (hfb : b.cls = .fin) :
    magCmp a b = compare |a.val| |b.val| := by
  have h5 := c.n_ge
  have hal := ha.natsLength; have hbl := hb.natsLength
  have zero_iff : ∀ {v : DValue}, v.wf c → v.isZero = true → |v.val| = 0 := by
    intro v hv hz
    rw [abs_val_eq hv.natsLength]
    have : v.nats = List.replicate c.n 0 := by
      have := congrArg DValue.nats (hv.zeroForm hz); simpa using this
    rw [this]; simp
  unfold magCmp
  cases hza : a.isZero <;> cases hzb : b.isZero
  · simp only [Bool.false_eq_true, if_false]
    obtain ⟨a1, a2⟩ := abs_val_bounds ha hfa hza
    obtain ⟨b1, b2⟩ := abs_val_bounds hb hfb hzb
    have am := ha.expMod; have bm := hb.expMod
    split
    · have : (10 : ℚ) ^ (a.exp + 8) ≤ (10 : ℚ) ^ b.exp := ten_zpow_le (by omega)
      rw [eq_comm, compare_lt_iff_lt]; linarith
    · split
      · have : (10 : ℚ) ^ (b.exp + 8) ≤ (10 : ℚ) ^ a.exp := ten_zpow_le (by omega)
        rw [eq_comm, compare_gt_iff_gt]; show |b.val| < |a.val|; linarith
      · have he : a.exp = b.exp := by omega
        rw [limbCompare_eq_compare (by rw [hal, hbl]) ha.natsBelow hb.natsBelow, abs_val_eq hal, abs_val_eq hbl, he]
        have hU := lastUnit_pos c.n b.exp
        rcases Nat.lt_trichotomy (limbsNat a.nats) (limbsNat b.nats) with h | h | h
        · rw [Nat.compare_eq_lt.2 h, eq_comm, compare_lt_iff_lt]
          exact mul_lt_mul_of_pos_right (by exact_mod_cast h) hU
        · rw [h]; simp
        · rw [Nat.compare_eq_gt.2 h, eq_comm, compare_gt_iff_gt]
          exact mul_lt_mul_of_pos_right (by exact_mod_cast h) hU
  · simp only [Bool.false_eq_true, if_false, if_true]
    rw [zero_iff hb hzb, eq_comm, compare_gt_iff_gt]
    exact lt_of_lt_of_le (ten_zpow_pos _) (abs_val_bounds ha hfa hza).1
  · simp only [Bool.false_eq_true, if_false, if_true]
    rw [zero_iff ha hza, eq_comm, compare_lt_iff_lt]
    exact lt_of_lt_of_le (ten_zpow_pos _) (abs_val_bounds hb hfb hzb).1
  · simp [zero_iff ha hza, zero_iff hb hzb]

/-- A stored value given full precision is the truncation of its own magnitude plus less than one unit. -/
theorem withPrec_truncates {c : Config} (hc : c.Valid) {v : DValue} (hv : v.wf c) (hf : v.cls = .fin)
    (hz : v.isZero = false) {q : ℚ} (h1 : |v.val| ≤ q) (h2 : q < |v.val| + lastUnit c.n v.exp) :
    TruncatesTo c q v.neg c.n (v.withPrec c.n) := by
  have h5 := c.n_ge
  rw [abs_val_eq hv.natsLength] at h1 h2
  have := truncates_saturate hc hv.natsLength hv.natsBelow (wf_head hf hz) hv.expMod (s := v.neg) (p := c.n)
    ⟨by omega, le_refl _⟩ h1 (by linarith)
  rwa [← withPrec_eq_finiteValue hf, saturate_of_wf (withPrec_full_wf hc hv)] at this

/-- `Add` step 4 gives the truncation of the larger magnitude less the aligned smaller one (R144). -/
theorem addDifferentSign_truncates {c : Config} (hc : c.Valid) {big small : DValue} {d : Nat} (hb : big.wf c)
    (hs : small.wf c) (hle : |small.val| ≤ |big.val|) (hd : d ≤ c.n) (he : big.exp = small.exp + 8 * d) :
    TruncatesTo c (|big.val| - ((⌊|small.val| / lastUnit c.n big.exp⌋ : Int) : ℚ) * lastUnit c.n big.exp) big.neg c.n
      (saturate c (addDifferentSign c big small d)) := by
  have hB := hb.natsBelow; have hBl := hb.natsLength
  have hS := hs.natsBelow; have hSl := hs.natsLength
  obtain ⟨s1, s2, s3, s4⟩ := subLimbs_spec (as := big.nats) (bs := shiftLimbs c.n d small.nats)
    (by rw [shiftLimbs_length hSl, hBl]) hB (shiftLimbs_below hS)
  rw [limbsNat_shiftLimbs hSl hS hd, hBl] at s4
  rw [hBl] at s1
  have hU := lastUnit_pos c.n big.exp
  obtain ⟨f1, f2⟩ := nat_div_bounds (limbsNat small.nats) (limbBase_pow_pos d)
  rw [Nat.cast_pow] at f1 f2
  have hfloor : ⌊|small.val| / lastUnit c.n big.exp⌋ = ((limbsNat small.nats / limbBase ^ d : Nat) : Int) := by
    rw [Int.floor_eq_iff, abs_val_eq hSl, limb_units (limbsNat small.nats) d, ← he, mul_div_assoc, div_self hU.ne', mul_one]
    exact ⟨by exact_mod_cast f1, by exact_mod_cast f2⟩
  rw [hfloor, abs_val_eq hBl]
  rw [abs_val_eq hSl, abs_val_eq hBl, limb_units (limbsNat small.nats) d, ← he] at hle
  have hle' : (limbsNat small.nats : ℚ) / ((limbBase : Nat) : ℚ) ^ d ≤ limbsNat big.nats := le_of_mul_le_mul_right hle hU
  unfold addDifferentSign
  generalize subLimbs big.nats (shiftLimbs c.n d small.nats) = rb at *
  obtain ⟨r, borrow⟩ := rb
  simp only at s1 s2 s3 s4 ⊢
  generalize limbsNat small.nats / limbBase ^ d = Sf at *
  generalize (limbsNat small.nats : ℚ) / (limbBase : ℚ) ^ d = Sq at *
  generalize limbsNat big.nats = H at *
  have h1 : Sf ≤ H := by have : (Sf : ℚ) ≤ H := by linarith
                         exact_mod_cast this
  have h2 : limbsNat r < limbBase ^ c.n := by have := limbsNat_lt s2; rwa [s1] at this
  have h3 : borrow = 0 := by
    rcases Nat.le_one_iff_eq_zero_or_eq_one.1 s3 with h | h
    · exact h
    · subst h; omega
  have h4 : (H : ℚ) * lastUnit c.n big.exp - ((Sf : Int) : ℚ) * lastUnit c.n big.exp =
      (limbsNat r : ℚ) * lastUnit c.n big.exp := by
    have : limbsNat r + Sf = H := by subst h3; omega
    rw [← this]; push_cast; ring
  rw [h4]
  exact justify_truncates hc big.neg s1 s2 hb.expMod

end Sys2Proof
end

