-- ==== Sys2Proof/Laws/Add.lean ====
section
/-! SUPPORT. `Add` and `Sub` as a whole (R140 to R148): special operands, sums, differences, the invariants of the
result, the order of the operands. -/

namespace Sys2Proof

open Machine

theorem limbs_eq_of_nats {a b : DValue} (h : a.nats = b.nats) : a.limbs = b.limbs := by
  have : Function.Injective (BitVec.toNat : BitVec 32 → Nat) := fun x y hxy => BitVec.eq_of_toNat_eq hxy
  exact this.list_map h

/-- A magnitude, a sign and a precision have at most one saturated truncation. -/
theorem Machine.TruncatesTo.unique {c : Config} {q : ℚ} {s : Bool} {p : Nat} {v w : DValue} (hv : TruncatesTo c q s p v)
    (hw : TruncatesTo c q s p w) : v = w := by
  unfold TruncatesTo at hv hw
  split at hv
  · rename_i h; rw [if_pos h] at hw; rw [hv, hw]
  · rename_i h
    rw [if_neg h] at hw
    split at hv
    · rename_i h'; rw [if_pos h'] at hw; rw [hv, hw]
    · rename_i h'
      rw [if_neg h'] at hw
      obtain ⟨v1, v2, v3, v4, v5, v6, v7⟩ := hv
      obtain ⟨w1, w2, w3, w4, w5, w6, w7⟩ := hw
      have bound : ∀ {u : DValue}, u.wf c → u.cls = .fin → u.isZero = false →
          q < |u.val| + (10 : ℚ) ^ (u.exp - 8 * ((c.n : Int) - 1)) → q < (10 : ℚ) ^ (u.exp + 8) := by
        intro u hu hf hz hq
        rw [← lastUnit, abs_val_eq hu.natsLength] at hq
        have h2 := limbsNat_lt hu.natsBelow
        rw [hu.natsLength] at h2
        have h3 : (10 : ℚ) ^ (u.exp + 8) = (limbBase : ℚ) ^ c.n * lastUnit c.n u.exp := by
          rw [mul_comm, lastUnit_mul_pow, lastUnit]; congr 1; ring
        have hU := lastUnit_pos c.n u.exp
        have h4 : ((limbsNat u.nats : ℚ) + 1) ≤ (limbBase : ℚ) ^ c.n := by exact_mod_cast h2
        have h5 := mul_le_mul_of_nonneg_right h4 hU.le
        rw [h3]; linarith
      have bv := bound v1 v2 v3 v7
      have bw := bound w1 w2 w3 w7
      have av := (abs_val_bounds v1 v2 v3).1
      have aw := (abs_val_bounds w1 w2 w3).1
      have mv := v1.expMod; have mw := w1.expMod
      have he : v.exp = w.exp := by
        rcases lt_trichotomy v.exp w.exp with h | h | h
        · have : (10 : ℚ) ^ (v.exp + 8) ≤ (10 : ℚ) ^ w.exp := ten_zpow_le (by omega)
          linarith
        · exact h
        · have : (10 : ℚ) ^ (w.exp + 8) ≤ (10 : ℚ) ^ v.exp := ten_zpow_le (by omega)
          linarith
      have hU := lastUnit_pos c.n w.exp
      rw [← lastUnit, abs_val_eq v1.natsLength, he] at v7
      rw [← lastUnit, abs_val_eq w1.natsLength] at w7
      rw [abs_val_eq v1.natsLength, he] at v6
      rw [abs_val_eq w1.natsLength] at w6
      have k1 : (limbsNat v.nats : ℚ) * lastUnit c.n w.exp < ((limbsNat w.nats : ℚ) + 1) * lastUnit c.n w.exp := by linarith
      have k2 : (limbsNat w.nats : ℚ) * lastUnit c.n w.exp < ((limbsNat v.nats : ℚ) + 1) * lastUnit c.n w.exp := by linarith
      have k1' : limbsNat v.nats < limbsNat w.nats + 1 := by exact_mod_cast lt_of_mul_lt_mul_right k1 hU.le
      have k2' : limbsNat w.nats < limbsNat v.nats + 1 := by exact_mod_cast lt_of_mul_lt_mul_right k2 hU.le
      have hn := limbsNat_inj (by rw [v1.natsLength, w1.natsLength]) v1.natsBelow w1.natsBelow (by omega)
      have hlimbs := limbs_eq_of_nats hn
      have hp : v.prec = w.prec := BitVec.eq_of_toNat_eq (by rw [v5, w5])
      obtain ⟨vl, ve, vn, vc, vp⟩ := v
      obtain ⟨wl, we, wn, wc, wp⟩ := w
      simp only at hlimbs he hp v2 w2 v4 w4
      rw [hlimbs, he, hp, v2, w2, v4, w4]

/-- A magnitude more than N limbs below another is less than one unit of its last limb (R142). -/
theorem val_lt_lastUnit {c : Config} {a b : DValue} (hb : b.wf c) (hf : b.cls = .fin) (hz : b.isZero = false)
    (h : b.exp + 8 ≤ a.exp - 8 * ((c.n : Int) - 1)) : |b.val| < lastUnit c.n a.exp :=
  lt_of_lt_of_le (abs_val_bounds hb hf hz).2 (ten_zpow_le h)

theorem ne_inf_of_fin {v : DValue} (h : v.cls = .fin) : v.cls ≠ .inf ∧ v.cls ≠ .nan := by rw [h]; simp

theorem decAdd_finite {c : Config} {a b : DValue} (ha : a.cls = .fin) (hb : b.cls = .fin) (hza : a.isZero = false)
    (hzb : b.isZero = false) : decAdd c a b = addFinite c a b := by simp [decAdd, ha, hb, hza, hzb]

/-- `Add` of finite non-zero operands of the same sign is the saturated truncation of the sum of the magnitudes, the
cut-off included (R142, R143, R145, R146). -/
theorem decAdd_sameSign {c : Config} (hc : c.Valid) {a b : DValue} (ha : a.wf c) (hb : b.wf c) (hfa : a.cls = .fin)
    (hfb : b.cls = .fin) (hza : a.isZero = false) (hzb : b.isZero = false) (hs : a.neg = b.neg) :
    TruncatesTo c (|a.val| + |b.val|) a.neg c.n (decAdd c a b) := by
  have h5 := c.n_ge
  have ma := ha.expMod; have mb := hb.expMod
  rw [decAdd_finite hfa hfb hza hzb, addFinite]
  by_cases h1 : (c.n : Int) - 1 < (a.exp - b.exp) / 8
  · rw [if_pos h1]
    refine withPrec_truncates hc ha hfa hza (by linarith [abs_nonneg b.val]) ?_
    have := val_lt_lastUnit hb hfb hzb (a := a) (by omega)
    linarith
  · rw [if_neg h1]
    by_cases h2 : (a.exp - b.exp) / 8 < -((c.n : Int) - 1)
    · rw [if_pos h2, hs]
      refine withPrec_truncates hc hb hfb hzb (by linarith [abs_nonneg a.val]) ?_
      have := val_lt_lastUnit ha hfa hza (a := b) (by omega)
      linarith
    · rw [if_neg h2, if_pos hs]
      by_cases h3 : 0 ≤ (a.exp - b.exp) / 8
      · rw [if_pos h3]
        exact addSameSign_truncates hc ha hb hfa hza (by omega) (by omega)
      · rw [if_neg h3, hs, add_comm]
        exact addSameSign_truncates hc hb ha hfb hzb (by omega) (by omega)

theorem floor_zero_of_lt {x u : ℚ} (h0 : 0 ≤ x) (h : x < u) : ⌊x / u⌋ = 0 := by
  have hu : 0 < u := lt_of_le_of_lt h0 h
  rw [Int.floor_eq_iff]
  exact ⟨by simpa using div_nonneg h0 hu.le, by simpa using (div_lt_one hu).2 h⟩

/-- The cases of `addFinite` for operands of different signs, the exponent of `a` not below that of `b`. -/
theorem addFinite_differentSign {c : Config} {a b : DValue} (ma : a.exp % 8 = 0) (mb : b.exp % 8 = 0)
    (hs : a.neg ≠ b.neg) (he : b.exp ≤ a.exp) :
    (addFinite c a b =
      if (c.n : Int) - 1 < (a.exp - b.exp) / 8 then a.withPrec c.n
      else saturate c
        (if magCmp a b ≠ .lt then addDifferentSign c a b ((a.exp - b.exp) / 8).toNat
         else addDifferentSign c b a ((b.exp - a.exp) / 8).toNat)) ∧
    (addFinite c b a =
      if (c.n : Int) - 1 < (a.exp - b.exp) / 8 then a.withPrec c.n
      else saturate c
        (if magCmp b a ≠ .lt then addDifferentSign c b a ((b.exp - a.exp) / 8).toNat
         else addDifferentSign c a b ((a.exp - b.exp) / 8).toNat)) := by
  have h5 := c.n_ge
  constructor
  · rw [addFinite]
    split_ifs with h1 h2 h3 <;> first | rfl | omega
  · rw [addFinite]
    have e : (b.exp - a.exp) / 8 = -((a.exp - b.exp) / 8) := by omega
    rw [if_neg (show ¬ (c.n : Int) - 1 < (b.exp - a.exp) / 8 by omega), if_neg (Ne.symm hs)]
    by_cases h : (c.n : Int) - 1 < (a.exp - b.exp) / 8
    · rw [if_pos h, if_pos (by omega)]
    · rw [if_neg h, if_neg (by omega)]

/-- `Add` of finite non-zero operands of different signs, the larger magnitude first, in either order: the saturated
truncation of the larger magnitude less the smaller one cut to the larger's last limb, with the larger's sign (R142,
R144 to R146). -/
theorem decAdd_differentSign {c : Config} (hc : c.Valid) {a b : DValue} (ha : a.wf c) (hb : b.wf c) (hfa : a.cls = .fin)
    (hfb : b.cls = .fin) (hza : a.isZero = false) (hzb : b.isZero = false) (hs : a.neg ≠ b.neg) (hle : |b.val| ≤ |a.val|) :
    TruncatesTo c (|a.val| - ((⌊|b.val| / lastUnit c.n a.exp⌋ : Int) : ℚ) * lastUnit c.n a.exp) a.neg c.n (decAdd c a b) ∧
      TruncatesTo c (|a.val| - ((⌊|b.val| / lastUnit c.n a.exp⌋ : Int) : ℚ) * lastUnit c.n a.exp)
        (if |b.val| = |a.val| then b.neg else a.neg) c.n (decAdd c b a) := by
  have h5 := c.n_ge
  have ma := ha.expMod; have mb := hb.expMod
  have hexp : b.exp ≤ a.exp := by
    by_contra h
    have h1 := (abs_val_bounds hb hfb hzb).1
    have h2 := (abs_val_bounds ha hfa hza).2
    have : (10 : ℚ) ^ (a.exp + 8) ≤ (10 : ℚ) ^ b.exp := ten_zpow_le (by omega)
    linarith
  have hcmp : magCmp a b ≠ .lt := by
    rw [magCmp_eq_compare ha hb hfa hfb, ne_eq, compare_lt_iff_lt]; linarith
  obtain ⟨e1, e2⟩ := addFinite_differentSign (c := c) ma mb hs hexp
  rw [decAdd_finite hfa hfb hza hzb, decAdd_finite hfb hfa hzb hza, e1, e2]
  have hU := lastUnit_pos c.n a.exp
  by_cases h1 : (c.n : Int) - 1 < (a.exp - b.exp) / 8
  · have hlt := val_lt_lastUnit hb hfb hzb (a := a) (by omega)
    rw [if_pos h1, if_pos h1, floor_zero_of_lt (abs_nonneg _) hlt]
    have hne : |b.val| ≠ |a.val| := by
      have h1 := (abs_val_bounds hb hfb hzb).2
      have h2 := (abs_val_bounds ha hfa hza).1
      have : (10 : ℚ) ^ (b.exp + 8) ≤ (10 : ℚ) ^ a.exp := ten_zpow_le (by omega)
      intro h; linarith
    rw [if_neg hne]
    have := withPrec_truncates hc ha hfa hza (q := |a.val| - ((0 : Int) : ℚ) * lastUnit c.n a.exp) (by simp) (by simp [hU])
    exact ⟨this, this⟩
  · rw [if_neg h1, if_neg h1, if_pos hcmp]
    have key := addDifferentSign_truncates hc ha hb hle (d := ((a.exp - b.exp) / 8).toNat) (by omega) (by omega)
    refine ⟨key, ?_⟩
    by_cases he : |b.val| = |a.val|
    · have hcmp' : magCmp b a ≠ .lt := by
        rw [magCmp_eq_compare hb ha hfb hfa, ne_eq, compare_lt_iff_lt]; linarith
      have hexp' : a.exp = b.exp := by
        have h1 := magCmp_eq_compare ha hb hfa hfb
        rw [he, compare_eq_iff_eq.2 rfl] at h1
        exact (magCmp_eq (by rw [ha.natsLength, hb.natsLength]) hza hzb h1).1
      have key' := addDifferentSign_truncates hc hb ha he.ge (d := ((b.exp - a.exp) / 8).toNat) (by omega) (by omega)
      rw [if_pos hcmp', if_pos he]
      rw [← hexp'] at key' ⊢
      rw [he] at key' ⊢
      exact key'
    · have hcmp' : ¬ magCmp b a ≠ .lt := by
        rw [magCmp_eq_compare hb ha hfb hfa, not_not, compare_lt_iff_lt]; exact lt_of_le_of_ne hle he
      rw [if_neg hcmp', if_neg he]
      exact key

/-- The result of `Add` on stored values is a stored value (R22). -/
theorem decAdd_wf {c : Config} (hc : c.Valid) {a b : DValue} (ha : a.wf c) (hb : b.wf c) : (decAdd c a b).wf c := by
  unfold decAdd
  split
  · exact notANumber_wf hc
  · rename_i h1
    rw [not_or] at h1
    split
    · split
      · exact infinity_wf hc _
      · exact notANumber_wf hc
    · split
      · exact infinity_wf hc _
      · rename_i h3
        split
        · exact infinity_wf hc _
        · rename_i h4
          have hfa : a.cls = .fin := by rcases h : a.cls with _ | _ | _ <;> simp_all
          have hfb : b.cls = .fin := by rcases h : b.cls with _ | _ | _ <;> simp_all
          split
          · exact withPrec_full_wf hc hb
          · rename_i h5
            split
            · exact withPrec_full_wf hc ha
            · rename_i h6
              simp only [Bool.not_eq_true] at h5 h6
              rw [← decAdd_finite hfa hfb h5 h6]
              by_cases hs : a.neg = b.neg
              · exact (decAdd_sameSign hc ha hb hfa hfb h5 h6 hs).wf hc
              · rcases le_total |b.val| |a.val| with hle | hle
                · exact (decAdd_differentSign hc ha hb hfa hfb h5 h6 hs hle).1.wf hc
                · exact (decAdd_differentSign hc hb ha hfb hfa h6 h5 (Ne.symm hs) hle).2.wf hc

theorem decSub_wf {c : Config} (hc : c.Valid) {a b : DValue} (ha : a.wf c) (hb : b.wf c) : (decSub c a b).wf c :=
  negate_wf (decAdd_wf hc (negate_wf ha) hb)

end Sys2Proof
end

