-- ==== Sys2Proof/Laws/Multiply.lean ====
section
/-! SUPPORT. What the multiplier answers (R160 to R163): the saturated truncation of the products it forms. -/

namespace Sys2Proof

open Machine

/-- A value with non-zero leading limb and limbs below the radix: what `MulCore` needs of an operand. -/
theorem convolution_bound {a b : DValue} (ha : ∀ i, a.limb i < limbBase) (hb : ∀ i, b.limb i < limbBase) (j : Nat) :
    limbConvolution a b j ≤ (j + 1) * ((limbBase - 1) * (limbBase - 1)) := by
  unfold limbConvolution
  have key : ∀ k, ((List.range k).map fun i => a.limb (j - i) * b.limb i).sum ≤ k * ((limbBase - 1) * (limbBase - 1)) := by
    intro k
    induction k with
    | zero => simp
    | succ k ih =>
      rw [List.range_succ, List.map_append, List.sum_append, List.map_singleton, List.sum_singleton, add_mul, one_mul]
      exact Nat.add_le_add ih (Nat.mul_le_mul (Nat.le_sub_one_of_lt (ha _)) (Nat.le_sub_one_of_lt (hb _)))
  exact key (j + 1)

/-- The sum of the products with `x + y < p`, in units of limb `p - 1` (R161, R162). -/
def triangularProduct (a b : DValue) : Nat → Nat
  | 0 => 0
  | p + 1 => triangularProduct a b p * limbBase + limbConvolution a b p

/-- The limbs the multiplier produces: `p` limbs below the radix that write, with the carry, the sum of the products with
`x + y < p`, and a carry that is a limb (R161, R162). -/
theorem mulLimbs_spec {a b : DValue} (ha : ∀ i, a.limb i < limbBase) (hb : ∀ i, b.limb i < limbBase) (p carry : Nat)
    (r : List Nat) (hr : LimbsBelow r) (hc : carry ≤ (p + 1) * (limbBase - 1)) :
    (mulLimbs a b p carry r).1.length = p + r.length ∧ LimbsBelow (mulLimbs a b p carry r).1 ∧
      (mulLimbs a b p carry r).2 ≤ limbBase - 1 ∧
      (mulLimbs a b p carry r).2 * limbBase ^ (p + r.length) + limbsNat (mulLimbs a b p carry r).1 =
        (triangularProduct a b p + carry) * limbBase ^ r.length + limbsNat r := by
  induction p generalizing carry r with
  | zero => simp only [mulLimbs, triangularProduct, zero_add, one_mul] at hc ⊢; exact ⟨trivial, hr, hc, trivial⟩
  | succ p ih =>
    have hB := limbBase_pos
    have hconv := convolution_bound ha hb p
    rw [mulLimbs, triangularProduct]
    generalize limbConvolution a b p = v at *
    have hcar : (carry + v) / limbBase ≤ (p + 1) * (limbBase - 1) := by
      have h1 : carry + v ≤ (p + 1 + 1) * (limbBase - 1) + (p + 1) * ((limbBase - 1) * (limbBase - 1)) := by omega
      obtain ⟨B, hB'⟩ : ∃ B, limbBase = B + 1 := ⟨limbBase - 1, by omega⟩
      rw [hB'] at h1 ⊢
      simp only [Nat.add_sub_cancel] at h1 ⊢
      have h2 : carry + v < ((p + 1) * B + 1) * (B + 1) := by
        refine lt_of_le_of_lt h1 ?_
        nlinarith
      have := (Nat.div_lt_iff_lt_mul (by omega)).2 h2
      omega
    obtain ⟨h1, h2, h3, h4⟩ := ih ((carry + v) / limbBase) ((carry + v) % limbBase :: r)
      (limbsBelow_cons (Nat.mod_lt _ hB) hr) hcar
    rw [List.length_cons] at h1 h4
    rw [show p + (r.length + 1) = p + 1 + r.length by ring] at h1 h4
    refine ⟨h1, h2, h3, ?_⟩
    rw [h4, limbsNat_cons, pow_succ]
    have hdm := Nat.div_add_mod (carry + v) limbBase
    generalize (carry + v) % limbBase = x at *
    generalize (carry + v) / limbBase = y at *
    generalize limbBase ^ r.length = P at *
    have : (limbBase * y + x) * P = (carry + v) * P := by rw [hdm]
    nlinarith

theorem triangularProduct_head {a b : DValue} {p : Nat} (hp : 1 ≤ p) :
    a.limb 0 * b.limb 0 * limbBase ^ (p - 1) ≤ triangularProduct a b p := by
  induction p with
  | zero => omega
  | succ p ih =>
    rw [triangularProduct, Nat.add_sub_cancel]
    rcases Nat.eq_zero_or_pos p with h | h
    · subst h; simp [triangularProduct, limbConvolution]
    · have := ih h
      obtain ⟨k, rfl⟩ : ∃ k, p = k + 1 := ⟨p - 1, by omega⟩
      rw [Nat.add_sub_cancel] at this
      rw [pow_succ, ← mul_assoc]
      exact Nat.le_add_right_of_le (Nat.mul_le_mul_right _ this)

/-- `MulCore` of finite non-zero operands is the saturated truncation of the products with `x + y < p`, with the sign
`a.neg xor b.neg` and precision `p` (R161). -/
theorem mulFinite_truncates {c : Config} (hc : c.Valid) {a b : DValue} (ha : a.wf c) (hb : b.wf c) (hfa : a.cls = .fin)
    (hfb : b.cls = .fin) (hza : a.isZero = false) (hzb : b.isZero = false) {p : Nat} (hp : 1 ≤ p ∧ p ≤ c.n) :
    TruncatesTo c ((triangularProduct a b p : ℚ) * lastUnit p (a.exp + b.exp)) (a.neg ^^ b.neg) p (mulFinite c a b p) := by
  have h5 := c.n_ge
  obtain ⟨s1, s2, s3, s4⟩ := mulLimbs_spec (fun i => ha.limbBelow i) (fun i => hb.limbBelow i) p 0 [] (by simp [LimbsBelow])
    (by omega)
  have hhead := triangularProduct_head (a := a) (b := b) hp.1
  have h00 : 1 ≤ a.limb 0 * b.limb 0 := Nat.one_le_iff_ne_zero.2
    (Nat.mul_ne_zero (limb_ne_zero hfa hza) (limb_ne_zero hfb hzb))
  have hT : limbBase ^ (p - 1) ≤ triangularProduct a b p := le_trans (Nat.le_mul_of_pos_left _ h00) hhead
  unfold mulFinite
  generalize mulLimbs a b p 0 [] = rc at *
  obtain ⟨r, carry⟩ := rc
  simp only [List.length_nil, add_zero, pow_zero, mul_one, limbsNat_nil] at s1 s2 s3 s4 ⊢
  have hcar : carry < limbBase := by have := limbBase_pos; omega
  have hlen : (r ++ List.replicate (c.n - p) 0).length = c.n := by simp [s1]; omega
  have hbel : LimbsBelow (r ++ List.replicate (c.n - p) 0) := limbsBelow_append s2 (limbsBelow_replicate _)
  have hnum : limbsNat (r ++ List.replicate (c.n - p) 0) = limbsNat r * limbBase ^ (c.n - p) := by
    rw [limbsNat_append]; simp
  have hem : (a.exp + b.exp) % 8 = 0 := by have := ha.expMod; have := hb.expMod; omega
  generalize a.exp + b.exp = e at *
  have hU := lastUnit_pos c.n e
  -- the product in units of the last of N limbs
  have hq : (triangularProduct a b p : ℚ) * lastUnit p e =
      ((triangularProduct a b p * limbBase ^ (c.n - p) : Nat) : ℚ) * lastUnit c.n e := by
    have : lastUnit c.n e * ((limbBase : Nat) : ℚ) ^ (c.n - p) = lastUnit p e := by
      rw [lastUnit_mul_pow, lastUnit, lastUnit]; congr 1; omega
    rw [← this]; push_cast; ring
  obtain ⟨t1, t2, t3⟩ := absorbCarry_spec (n := c.n) (by omega) hlen hbel hcar
  rw [hq]
  rcases t3 with ⟨t4, t5⟩ | ⟨t4, t5, t6, t7⟩
  · subst t4
    rw [t5]
    simp only [Bool.false_eq_true, if_false]
    have hN : limbsNat r = triangularProduct a b p := by omega
    have hr0 : (r ++ List.replicate (c.n - p) 0).getD 0 0 ≠ 0 := by
      intro h0
      cases r with
      | nil => simp at s1; omega
      | cons x xs =>
        rw [List.cons_append, List.getD_cons_zero] at h0
        subst h0
        have h1 := limbsNat_lt (ls := xs) fun y hy => s2 y (by simp [hy])
        rw [limbsNat_cons, zero_mul, zero_add] at hN
        simp only [List.length_cons] at s1
        rw [show xs.length = p - 1 by omega] at h1
        omega
    refine truncates_saturate hc hlen hbel hr0 hem hp ?_ ?_ <;> rw [hnum, hN]
    exact mul_lt_mul_of_pos_right (by linarith) hU
  · rw [t5]
    simp only [if_true]
    have hU' : lastUnit c.n (e + 8) = lastUnit c.n e * ((limbBase : Nat) : ℚ) := by
      have := lastUnit_mul_pow c.n e 1
      rw [pow_one] at this
      rw [this]; congr 1
    have hS : carry * limbBase ^ c.n + limbsNat (r ++ List.replicate (c.n - p) 0) =
        triangularProduct a b p * limbBase ^ (c.n - p) := by
      rw [hnum, ← s4, add_mul, mul_assoc, ← pow_add]; congr 3; omega
    rw [hS] at t7
    obtain ⟨g1, g2⟩ := nat_div_bounds (triangularProduct a b p * limbBase ^ (c.n - p)) limbBase_pos
    have hB : (0 : ℚ) < (limbBase : Nat) := by exact_mod_cast limbBase_pos
    rw [le_div_iff₀ hB, ← t7] at g1
    rw [div_lt_iff₀ hB, ← t7] at g2
    refine truncates_saturate hc t1 t2 (by rw [t6]; exact t4) (by omega) hp ?_ ?_ <;> rw [hU']
    · calc _ = (limbsNat (absorbCarry c.n (r ++ List.replicate (c.n - p) 0) carry).1 : ℚ) * (limbBase : Nat) * lastUnit c.n e := by ring
        _ ≤ _ := mul_le_mul_of_nonneg_right g1 hU.le
    · calc _ < _ := mul_lt_mul_of_pos_right g2 hU
        _ = _ := by ring

theorem mulRecord_wf {c : Config} (hc : c.Valid) {a b : DValue} (ha : a.wf c) (hb : b.wf c) {p : Nat}
    (hp : 1 ≤ p ∧ p ≤ c.n) : (mulRecord c a b p).wf c := by
  unfold mulRecord
  split
  · exact notANumber_wf hc
  · rename_i h1
    split
    · exact notANumber_wf hc
    · split
      · exact infinity_wf hc _
      · rename_i h3
        split
        · exact zero_wf hc
        · rename_i h4
          have hfa : a.cls = .fin := by rcases h : a.cls with _ | _ | _ <;> simp_all
          have hfb : b.cls = .fin := by rcases h : b.cls with _ | _ | _ <;> simp_all
          simp only [not_or, Bool.not_eq_true] at h4
          exact (mulFinite_truncates hc ha hb hfa hfb h4.1 h4.2 hp).wf hc

/-- The result of `MulCore` on stored values is a stored value (R22). -/
theorem mulCore_wf {c : Config} (hc : c.Valid) {a b : DValue} (ha : a.wf c) (hb : b.wf c) {p : Nat} (hp : 1 ≤ p ∧ p ≤ c.n) :
    (mulCore c a b p).wf c :=
  withPrec_wf (mulRecord_wf hc ha hb hp) hp hc.n_lt

/-- Every result of `MulCore` has the precision `p` (R28, R161). -/
theorem mulCore_prec (c : Config) (a b : DValue) (p : Nat) : (mulCore c a b p).prec = BitVec.ofNat 16 p := rfl

/-- `MulCore` of finite non-zero operands, given full precision, is the truncated, saturated sum of the limb products
formed (R161). -/
theorem mulCore_truncates {c : Config} (hc : c.Valid) {a b : DValue} (ha : a.wf c) (hb : b.wf c) (hfa : a.cls = .fin)
    (hfb : b.cls = .fin) (hza : a.isZero = false) (hzb : b.isZero = false) {p : Nat} (hp : 1 ≤ p ∧ p ≤ c.n) :
    TruncatesTo c ((triangularProduct a b p : ℚ) * lastUnit p (a.exp + b.exp)) (a.neg ^^ b.neg) c.n
      ((mulCore c a b p).withPrec c.n) := by
  have h := mulFinite_truncates hc ha hb hfa hfb hza hzb hp
  have e : mulCore c a b p = (mulFinite c a b p).withPrec p := by simp [mulCore, mulRecord, hfa, hfb, hza, hzb]
  rw [e, withPrec_withPrec]
  have hz : (DValue.zero c.n).withPrec c.n = DValue.zero c.n := rfl
  have hi : (DValue.infinity c.n (a.neg ^^ b.neg)).withPrec c.n = DValue.infinity c.n (a.neg ^^ b.neg) := rfl
  unfold TruncatesTo at h ⊢
  split at h
  · rw [if_pos (by assumption), h, hi]
  · rw [if_neg (by assumption)]
    split at h
    · rw [if_pos (by assumption), h, hz]
    · rw [if_neg (by assumption)]
      obtain ⟨h1, h2, h3, h4, -, h6, h7⟩ := h
      exact ⟨withPrec_full_wf hc h1, h2, h3, h4, prec_toNat hc.n_lt, h6, h7⟩

theorem decMul_wf {c : Config} (hc : c.Valid) {a b : DValue} (ha : a.wf c) (hb : b.wf c) : (decMul c a b).wf c := by
  have h1 := ha.precBounds; have h2 := hb.precBounds
  exact mulCore_wf hc ha hb ⟨by omega, by omega⟩

end Sys2Proof
end

