-- ==== Sys2Proof/Laws/Divide.lean ====
section
/-! SUPPORT. The seeds, the reciprocal, the quotient and the square root answer stored values (R22, R170 to R195). -/

namespace Sys2Proof

open Machine

theorem topThree_bounds {c : Config} {v : DValue} (hv : v.wf c) (hf : v.cls = .fin) (hz : v.isZero = false) :
    10 ^ 16 ≤ topThree v ∧ topThree v < 10 ^ 24 := by
  have h0 := limb_ne_zero hf hz
  have b0 := hv.limbBelow 0; have b1 := hv.limbBelow 1; have b2 := hv.limbBelow 2
  unfold topThree
  simp only [limbBase] at b0 b1 b2
  omega

theorem leadingLimb_wf {c : Config} (hc : c.Valid) {l : Nat} {e : Int} {s : Bool} (h1 : 1 ≤ l) (h2 : l < limbBase)
    (he : e % 8 = 0) (hlo : c.minExp ≤ e) (hhi : e < c.maxExp ∨ (e = c.maxExp ∧ l = 1)) : (leadingLimb c.n l e s).wf c := by
  have h5 := c.n_ge
  have hb : LimbsBelow (l :: List.replicate (c.n - 1) 0) := limbsBelow_cons h2 (limbsBelow_replicate _)
  have hz : (leadingLimb c.n l e s).isZero = false := leadingLimb_isZero _ h2 (by omega) _ _
  refine finiteValue_wf (by simp; omega) hb (by simp; omega) he ⟨by omega, le_refl _⟩ hc.n_lt
    ((inRange_iff rfl hz).2 ⟨(magCmp_minValue hz rfl).2 hlo, ?_⟩)
  rcases hhi with h | ⟨h, h'⟩
  · exact magCmp_maxValue_of_lt h
  · subst h'; rw [h]
    have : magCmp (leadingLimb c.n 1 (c.maxExp : Int) s) (maxValue c) = magCmp (maxValue c) (maxValue c) :=
      magCmp_congr rfl rfl rfl rfl rfl rfl
    rw [this, magCmp_self]
    simp

theorem minExp_eq (c : Config) : c.minExp = -(c.maxExp : Int) := rfl

theorem oneValue_wf {c : Config} (hc : c.Valid) : (oneValue c).wf c := by
  have := hc.maxExp_ge
  exact leadingLimb_wf hc (by decide) (by decide) (by decide) (by rw [minExp_eq]; omega) (.inl (by omega))

theorem twoValue_wf {c : Config} (hc : c.Valid) : (twoValue c).wf c := by
  have := hc.maxExp_ge
  exact leadingLimb_wf hc (by decide) (by decide) (by decide) (by rw [minExp_eq]; omega) (.inl (by omega))

/-- A product of a natural and a power of ten lies between powers of ten. -/
theorem scaled_bounds {m : Nat} {k lo hi : Int} {i j : Nat} (h1 : 10 ^ i ≤ m) (h2 : m ≤ 10 ^ j) (hlo : lo ≤ i + k)
    (hhi : j + k ≤ hi) : (10 : ℚ) ^ lo ≤ (m : ℚ) * (10 : ℚ) ^ k ∧ (m : ℚ) * (10 : ℚ) ^ k ≤ (10 : ℚ) ^ hi := by
  have c1 : ((10 : ℚ) ^ i) ≤ m := by exact_mod_cast h1
  have c2 : (m : ℚ) ≤ ((10 : ℚ) ^ j) := by exact_mod_cast h2
  constructor
  · calc (10 : ℚ) ^ lo ≤ (10 : ℚ) ^ ((i : Int) + k) := ten_zpow_le hlo
      _ = (10 : ℚ) ^ i * (10 : ℚ) ^ k := by rw [zpow_add₀ (by norm_num), zpow_natCast]
      _ ≤ _ := mul_le_mul_of_nonneg_right c1 (ten_zpow_pos k).le
  · calc (m : ℚ) * (10 : ℚ) ^ k ≤ (10 : ℚ) ^ j * (10 : ℚ) ^ k := mul_le_mul_of_nonneg_right c2 (ten_zpow_pos k).le
      _ = (10 : ℚ) ^ ((j : Int) + k) := by rw [zpow_add₀ (by norm_num), zpow_natCast]
      _ ≤ _ := ten_zpow_le hhi

theorem truncN_nonneg (n m : Nat) (k : Int) : (truncN n m k).neg = false := by
  unfold truncN; split <;> rfl

theorem truncN_eta (n m : Nat) (k : Int) : { truncN n m k with neg := false } = truncN n m k := by
  have := truncN_nonneg n m k
  cases h : truncN n m k
  rw [h] at this; simp only at this; subst this; rfl

/-- The reference seed of the reciprocal is the truncation of its number (R174). -/
theorem seedRecipReference_truncates {c : Config} (hc : c.Valid) {a : DValue} (ha : a.wf c) (hf : a.cls = .fin)
    (hz : a.isZero = false) :
    TruncatesTo c (((10 ^ 40 / topThree a : Nat) : ℚ) * (10 : ℚ) ^ (-24 - a.exp)) false c.n (seedRecipReference c.n a) := by
  obtain ⟨t1, t2⟩ := topThree_bounds ha hf hz
  obtain ⟨e1, e2⟩ := ha.expBounds hf hz
  have hm := hc.maxExp_mod
  have em := ha.expMod
  rw [minExp_eq] at e1
  have q1 : 10 ^ 16 ≤ 10 ^ 40 / topThree a := by rw [Nat.le_div_iff_mul_le (by omega)]; omega
  have q2 : 10 ^ 40 / topThree a ≤ 10 ^ 24 := by
    rw [Nat.div_le_iff_le_mul_add_pred (by omega)]; omega
  rw [seedRecipReference, ← truncN_eta]
  by_cases he : a.exp = c.maxExp
  · have hn := ha.atMaxExp hf hz he
    have h5 := c.n_ge
    have hT : topThree a = 10 ^ 16 := by
      obtain ⟨k, hk⟩ : ∃ k, c.n - 1 = k + 2 := ⟨c.n - 3, by omega⟩
      simp only [topThree, limb_eq_nats, hn, hk, List.replicate_succ, List.getD_cons_zero, List.getD_cons_succ]
      norm_num
    rw [hT]
    obtain ⟨b1, b2⟩ := scaled_bounds (m := 10 ^ 40 / 10 ^ 16) (k := -24 - a.exp) (lo := c.minExp) (hi := c.maxExp) (i := 24)
      (j := 24) (by norm_num) (by norm_num) (by rw [minExp_eq]; omega) (by omega)
    exact truncN_inRange hc (by norm_num) false b1 b2
  · obtain ⟨b1, b2⟩ := scaled_bounds (k := -24 - a.exp) (lo := c.minExp) (hi := c.maxExp) q1 q2 (by rw [minExp_eq]; omega)
      (by omega)
    exact truncN_inRange hc (by omega) false b1 b2

theorem seedRecip_wf {c : Config} (hc : c.Valid) {a : DValue} (ha : a.wf c) (hf : a.cls = .fin) (hz : a.isZero = false) :
    (seedRecip c a).wf c := by
  unfold seedRecip
  split
  · exact (seedRecipReference_truncates hc ha hf hz).wf hc
  · split
    · rename_i h; exact h.1.2.2.2
    · exact (seedRecipReference_truncates hc ha hf hz).wf hc

theorem scheduleFrom_legal {n : Nat} (hn : 1 ≤ n) (fuel d p : Nat) (h : p ∈ scheduleFrom n fuel d) : 1 ≤ p ∧ p ≤ n := by
  induction fuel generalizing d with
  | zero => simp [scheduleFrom] at h
  | succ k ih =>
    unfold scheduleFrom at h
    split at h
    · rcases List.mem_cons.1 h with h | h
      · subst h
        have : 1 ≤ (d + 10 + 3) / 4 := by omega
        omega
      · exact ih _ h
    · simp at h

/-- Every limb count of the schedule is between 1 and N (R175). -/
theorem schedule_legal {c : Config} {p : Nat} (h : p ∈ schedule c.n) : 1 ≤ p ∧ p ≤ c.n :=
  scheduleFrom_legal (by have := c.n_ge; omega) _ _ _ h

theorem newtonRound_wf {c : Config} (hc : c.Valid) {a y : DValue} (ha : a.wf c) (hy : y.wf c) {p : Nat}
    (hp : 1 ≤ p ∧ p ≤ c.n) : (newtonRound c a y p).wf c :=
  mulCore_wf hc hy (decSub_wf hc (twoValue_wf hc) (mulCore_wf hc ha hy hp)) hp

theorem foldl_wf {α : Type} {P : α → Prop} {f : α → Nat → α} (ls : List Nat) (h : ∀ a, ∀ p ∈ ls, P a → P (f a p)) (a : α)
    (ha : P a) : P (ls.foldl f a) := by
  induction ls generalizing a with
  | nil => exact ha
  | cons p ps ih => exact ih (fun a q hq => h a q (by simp [hq])) _ (h a p (by simp) ha)

theorem recipIterate_wf {c : Config} (hc : c.Valid) {a : DValue} (ha : a.wf c) (hf : a.cls = .fin) (hz : a.isZero = false) :
    (recipIterate c a).wf c :=
  foldl_wf (P := fun y : DValue => y.wf c) _ (fun _ _ hp hy => newtonRound_wf hc ha hy (schedule_legal hp)) _ (seedRecip_wf hc ha hf hz)

theorem completeRecip_wf {c : Config} (hc : c.Valid) (x : DValue) {y : DValue} (hy : y.wf c) : (completeRecip c x y).wf c := by
  unfold completeRecip
  split
  · exact notANumber_wf hc
  · exact infinity_wf hc _
  · rename_i h
    split
    · exact zero_wf hc
    · rename_i hz
      exact setNeg_wf (withPrec_full_wf hc hy) (by simpa using hz) (by simp [h]) _

/-- The result of `RECIP` on a stored value is a stored value (R22). -/
theorem decRecip_wf {c : Config} (hc : c.Valid) {x : DValue} (hx : x.wf c) : (decRecip c x).wf c := by
  unfold decRecip
  split
  · exact notANumber_wf hc
  · rename_i h1
    split
    · exact infinity_wf hc _
    · rename_i h2
      split
      · exact zero_wf hc
      · rename_i h3
        have hf : x.cls = .fin := by rcases h : x.cls with _ | _ | _ <;> simp_all
        split
        · exact withPrec_full_wf hc hx
        · exact completeRecip_wf hc x (recipIterate_wf hc (withPrec_full_wf hc (absolute_wf hx)) (by simpa using hf)
            (by simpa using h2))

/-- The result of `DIV` on stored values is a stored value (R22). -/
theorem decDiv_wf {c : Config} (hc : c.Valid) {a b : DValue} (ha : a.wf c) (hb : b.wf c) : (decDiv c a b).wf c := by
  have := hc.maxExp_ge
  unfold decDiv
  split
  · exact leadingLimb_wf hc (by decide) (by decide) (by decide) (by rw [minExp_eq]; omega) (.inl (by omega))
  · exact decMul_wf hc ha (decRecip_wf hc hb)

/-! ### Square root -/

theorem isqrtFrom_spec (m bits root : Nat) (h1 : root * root ≤ m) (h2 : m < (root + 2 ^ bits) * (root + 2 ^ bits)) :
    isqrtFrom m bits root * isqrtFrom m bits root ≤ m ∧ m < (isqrtFrom m bits root + 1) * (isqrtFrom m bits root + 1) := by
  induction bits generalizing root with
  | zero => exact ⟨h1, by simpa [isqrtFrom] using h2⟩
  | succ k ih =>
    rw [isqrtFrom]
    split
    · rename_i h
      exact ih _ h (by rw [pow_succ] at h2; rwa [show root + 2 ^ k + 2 ^ k = root + 2 ^ k * 2 by ring])
    · exact ih _ h1 (by omega)

/-- `isqrt` is the integer square root (R192). -/
theorem isqrt_spec (m : Nat) : isqrt m * isqrt m ≤ m ∧ m < (isqrt m + 1) * (isqrt m + 1) := by
  apply isqrtFrom_spec
  · simp
  · rw [zero_add, ← pow_add]
    calc m < 2 ^ (Nat.log2 m + 1) := Nat.lt_log2_self
      _ ≤ _ := Nat.pow_le_pow_right (by norm_num) (by omega)

theorem seedRoot_bounds {c : Config} {v : DValue} (hv : v.wf c) (hf : v.cls = .fin) (hz : v.isZero = false) :
    10 ^ 20 ≤ seedRoot v ∧ seedRoot v < 10 ^ 24 := by
  obtain ⟨t1, t2⟩ := topThree_bounds hv hf hz
  obtain ⟨h1, h2⟩ := isqrt_spec (topThree v * 10 ^ 24)
  unfold seedRoot
  generalize isqrt (topThree v * 10 ^ 24) = s at *
  constructor
  · by_contra h
    have : (s + 1) * (s + 1) ≤ 10 ^ 20 * 10 ^ 20 := Nat.mul_le_mul (by omega) (by omega)
    omega
  · by_contra h
    have : 10 ^ 24 * 10 ^ 24 ≤ s * s := Nat.mul_le_mul (by omega) (by omega)
    omega

theorem seedSqrtReference_wf {c : Config} (hc : c.Valid) {x : DValue} (hx : x.wf c) (hf : x.cls = .fin)
    (hz : x.isZero = false) : (seedSqrtReference c.n x).1.wf c ∧ (seedSqrtReference c.n x).2.wf c := by
  obtain ⟨s1, s2⟩ := seedRoot_bounds hx hf hz
  obtain ⟨e1, e2⟩ := hx.expBounds hf hz
  have hm := hc.maxExp_mod; have hM := hc.maxExp_ge
  have em := hx.expMod
  rw [minExp_eq] at e1
  have q1 : 10 ^ 23 ≤ 10 ^ 48 / (2 * seedRoot x) := by rw [Nat.le_div_iff_mul_le (by omega)]; omega
  have q2 : 10 ^ 48 / (2 * seedRoot x) ≤ 10 ^ 28 := by
    rw [Nat.div_le_iff_le_mul_add_pred (by omega)]; omega
  unfold seedSqrtReference
  constructor
  · obtain ⟨b1, b2⟩ := scaled_bounds (k := (x.exp - 16) / 2 - 12) (lo := c.minExp) (hi := c.maxExp) s1 s2.le
      (by rw [minExp_eq]; omega) (by omega)
    have := (truncN_inRange hc (by omega) false b1 b2).wf hc
    rwa [truncN_eta] at this
  · obtain ⟨b1, b2⟩ := scaled_bounds (k := -36 - (x.exp - 16) / 2) (lo := c.minExp) (hi := c.maxExp) q1 q2
      (by rw [minExp_eq]; omega) (by omega)
    have := (truncN_inRange hc (by omega) false b1 b2).wf hc
    rwa [truncN_eta] at this

theorem seedSqrt_wf {c : Config} (hc : c.Valid) {x : DValue} (hx : x.wf c) (hf : x.cls = .fin) (hz : x.isZero = false) :
    (seedSqrt c x).1.wf c ∧ (seedSqrt c x).2.wf c := by
  unfold seedSqrt
  split
  · exact seedSqrtReference_wf hc hx hf hz
  · split
    · rename_i h; exact ⟨h.1.2.2.2, h.2.1.2.2.2⟩
    · exact seedSqrtReference_wf hc hx hf hz

theorem sqrtRound_wf {c : Config} (hc : c.Valid) {x : DValue} (hx : x.wf c) {yv : DValue × DValue} {p : Nat}
    (hp : 1 ≤ p ∧ p ≤ c.n) (h : yv.1.wf c ∧ yv.2.wf c) :
    (sqrtRound c x yv p).1.wf c ∧ (sqrtRound c x yv p).2.wf c := by
  have hv : (sqrtRoundV c yv.1 yv.2 p).wf c :=
    decAdd_wf hc h.2 (mulCore_wf hc (decAdd_wf hc (mulCore_wf hc (negate_wf (mulCore_wf hc h.1 h.2 hp)) (twoValue_wf hc) hp)
      (oneValue_wf hc)) h.2 hp)
  exact ⟨decAdd_wf hc h.1 (mulCore_wf hc (decAdd_wf hc (negate_wf (mulCore_wf hc h.1 h.1 hp)) hx) hv hp), hv⟩

/-- The result of `SQRT` on a stored value is a stored value (R22). -/
theorem decSqrt_wf {c : Config} (hc : c.Valid) {x : DValue} (hx : x.wf c) : (decSqrt c x).wf c := by
  unfold decSqrt
  split
  · exact notANumber_wf hc
  · rename_i h1
    split
    · exact withPrec_full_wf hc hx
    · rename_i h2
      split
      · exact infinity_wf hc _
      · rename_i h3
        have hf : x.cls = .fin := by rcases h : x.cls with _ | _ | _ <;> simp_all
        simp only [not_or, Bool.not_eq_true] at h2
        have hx' := withPrec_full_wf hc hx
        refine withPrec_full_wf hc (foldl_wf (P := fun yv : DValue × DValue => yv.1.wf c ∧ yv.2.wf c) _
          (fun _ _ hp h => sqrtRound_wf hc hx' (schedule_legal hp) h) _ (seedSqrt_wf hc hx' (by simpa using hf)
            (by simpa using h2.1))).1

end Sys2Proof
end

