-- ==== Sys2Proof/Laws/Registry.lean ====
section
/-! SUPPORT. The registry's constants are stored values, each the truncation of the number it is named for (R50). -/

namespace Sys2Proof

open Machine

/-- A record at an exponent between MIN_EXP10 and MAX_EXP10 is a stored value (R22). -/
theorem record_wf {c : Config} (hc : c.Valid) {ls : List Nat} {e : Int} {s : Bool} (hl : ls.length = c.n)
    (hb : LimbsBelow ls) (h0 : ls.getD 0 0 ≠ 0) (he : e % 8 = 0) (hlo : c.minExp ≤ e) (hhi : e < c.maxExp) :
    (finiteValue ls e s c.n).wf c := by
  have h5 := c.n_ge
  have hz : (finiteValue ls e s c.n).isZero = false := by rw [finiteValue_isZero hb]; simpa using h0
  exact finiteValue_wf hl hb h0 he ⟨by omega, le_refl _⟩ hc.n_lt
    ((inRange_iff rfl hz).2 ⟨(magCmp_minValue hz rfl).2 hlo, magCmp_maxValue_of_lt hhi⟩)

theorem maxValue_wf {c : Config} (hc : c.Valid) : (maxValue c).wf c :=
  leadingLimb_wf hc (by decide) (by decide) (by have := hc.maxExp_mod; omega) (by rw [minExp_eq]; omega) (.inr ⟨rfl, rfl⟩)

theorem minValue_wf {c : Config} (hc : c.Valid) : (minValue c).wf c := by
  have := hc.maxExp_ge
  have := hc.maxExp_mod
  exact leadingLimb_wf hc (by decide) (by decide) (by rw [minExp_eq]; omega) (le_refl _) (.inl (by rw [minExp_eq]; omega))

/-- Each power of two of the registry is the truncation of that power (R50). -/
theorem powerOfTwo_truncates {c : Config} (hc : c.Valid) {j : Nat} (hj : j ≤ 254) :
    TruncatesTo c ((2 : ℚ) ^ ((j : Int) - 127)) false c.n (powerOfTwo c.n j) := by
  have hM := hc.maxExp_ge
  unfold powerOfTwo
  split
  · rename_i h
    have e : (2 : ℚ) ^ ((j : Int) - 127) = ((2 ^ (j - 127) : Nat) : ℚ) * (10 : ℚ) ^ (0 : Int) := by
      rw [zpow_zero, mul_one, Nat.cast_pow, ← zpow_natCast]; congr 1; omega
    have b1 : 10 ^ 0 ≤ 2 ^ (j - 127) := Nat.one_le_two_pow
    have b2 : 2 ^ (j - 127) ≤ 10 ^ 127 :=
      le_trans (Nat.pow_le_pow_left (by norm_num) _) (Nat.pow_le_pow_right (by norm_num) (by omega))
    obtain ⟨c1, c2⟩ := scaled_bounds (k := 0) (lo := c.minExp) (hi := c.maxExp) b1 b2 (by rw [minExp_eq]; omega) (by omega)
    rw [e, ← truncN_eta]
    exact truncN_inRange hc (by positivity) false c1 c2
  · rename_i h
    have e : (2 : ℚ) ^ ((j : Int) - 127) = ((5 ^ (127 - j) : Nat) : ℚ) * (10 : ℚ) ^ (-((127 - j : Nat) : Int)) := by
      have h1 : (j : Int) - 127 = -((127 - j : Nat) : Int) := by omega
      rw [h1, zpow_neg, zpow_neg, zpow_natCast, zpow_natCast, Nat.cast_pow, show (10 : ℚ) = 2 * 5 by norm_num, mul_pow]
      have : (2 : ℚ) ^ (127 - j) ≠ 0 := by positivity
      have : (5 : ℚ) ^ (127 - j) ≠ 0 := by positivity
      push_cast; field_simp
    have b1 : 10 ^ 0 ≤ 5 ^ (127 - j) := Nat.one_le_pow _ _ (by norm_num)
    have b2 : 5 ^ (127 - j) ≤ 10 ^ (127 - j) := Nat.pow_le_pow_left (by norm_num) _
    obtain ⟨c1, c2⟩ := scaled_bounds (k := -((127 - j : Nat) : Int)) (lo := c.minExp) (hi := c.maxExp) b1 b2
      (by rw [minExp_eq]; omega) (by omega)
    rw [e, ← truncN_eta]
    exact truncN_inRange hc (by positivity) false c1 c2

theorem two_pow_971 : 2 ^ 971 ≤ 10 ^ 300 := by
  calc 2 ^ 971 ≤ 2 ^ (13 * 75) := Nat.pow_le_pow_right (by norm_num) (by norm_num)
    _ = (2 ^ 13) ^ 75 := pow_mul _ _ _
    _ ≤ (10 ^ 4) ^ 75 := Nat.pow_le_pow_left (by norm_num) _
    _ = 10 ^ 300 := (pow_mul 10 4 75).symm

theorem doubleMax_truncates {c : Config} (hc : c.Valid) :
    TruncatesTo c ((2 ^ 53 - 1 : ℚ) * (2 : ℚ) ^ (971 : Int)) false c.n (doubleMax c.n) := by
  have hM := hc.maxExp_ge
  have h2 := two_pow_971
  have hpos : 1 ≤ 2 ^ 971 := Nat.one_le_two_pow
  unfold doubleMax
  have e : (2 ^ 53 - 1 : ℚ) * (2 : ℚ) ^ (971 : Int) = (((2 ^ 53 - 1) * 2 ^ 971 : Nat) : ℚ) * (10 : ℚ) ^ (0 : Int) := by
    rw [zpow_zero, mul_one, Nat.cast_mul, Nat.cast_pow]
    congr 1
    norm_num
  rw [e, ← truncN_eta]
  generalize 2 ^ 971 = P at *
  have b1 : 10 ^ 0 ≤ (2 ^ 53 - 1) * P := by omega
  have b2 : (2 ^ 53 - 1) * P ≤ 10 ^ 316 := by
    calc (2 ^ 53 - 1) * P ≤ 10 ^ 16 * 10 ^ 300 := Nat.mul_le_mul (by norm_num) h2
      _ = 10 ^ 316 := (pow_add 10 16 300).symm
  obtain ⟨c1, c2⟩ := scaled_bounds (k := 0) (lo := c.minExp) (hi := c.maxExp) b1 b2 (by rw [minExp_eq]; omega) (by omega)
  exact truncN_inRange hc (by omega) false c1 c2

theorem five_pow_1022 : 10 ^ 702 ≤ 5 ^ 1022 := by
  calc 10 ^ 702 = (10 ^ 9) ^ 78 := pow_mul 10 9 78
    _ ≤ (5 ^ 13) ^ 78 := Nat.pow_le_pow_left (by norm_num) _
    _ = 5 ^ (13 * 78) := (pow_mul _ _ _).symm
    _ ≤ 5 ^ 1022 := Nat.pow_le_pow_right (by norm_num) (by norm_num)

theorem doubleMin_truncates {c : Config} (hc : c.Valid) :
    TruncatesTo c ((2 : ℚ) ^ (-1022 : Int)) false c.n (doubleMin c.n) := by
  have hM := hc.maxExp_ge
  unfold doubleMin
  have e : (2 : ℚ) ^ (-1022 : Int) = ((5 ^ 1022 : Nat) : ℚ) * (10 : ℚ) ^ (-1022 : Int) := by
    rw [zpow_neg, zpow_neg, show (10 : ℚ) = 2 * 5 by norm_num, mul_zpow, Nat.cast_pow, ← zpow_natCast]
    have : (2 : ℚ) ^ (1022 : Int) ≠ 0 := by positivity
    have : (5 : ℚ) ^ (1022 : Int) ≠ 0 := by positivity
    push_cast
    rw [mul_inv, mul_comm, mul_assoc, inv_mul_cancel₀ this, mul_one]
  obtain ⟨c1, c2⟩ := scaled_bounds (k := -1022) (lo := c.minExp) (hi := c.maxExp) five_pow_1022
    (Nat.pow_le_pow_left (by norm_num : 5 ≤ 10) 1022) (by rw [minExp_eq]; omega) (by omega)
  rw [e, ← truncN_eta]
  exact truncN_inRange hc (by positivity) false c1 c2

/-- EPS is the truncation of `10^(1-DIGITS)` (R50). -/
theorem epsilon_truncates {c : Config} (hc : c.Valid) :
    TruncatesTo c ((10 : ℚ) ^ (1 - (c.digits : Int))) false c.n (truncN c.n 1 (1 - (c.digits : Int))) := by
  have hd := hc.1
  have hE := hc.2.2.2.2
  obtain ⟨c1, c2⟩ := scaled_bounds (m := 1) (k := 1 - (c.digits : Int)) (lo := c.minExp) (hi := c.maxExp) (i := 0) (j := 0)
    (by norm_num) (by norm_num) (by rw [minExp_eq]; omega) (by omega)
  have := truncN_inRange hc (by norm_num) false c1 c2
  rwa [truncN_eta, Nat.cast_one, one_mul] at this

/-- Every constant of the registry is a stored value (R22, R50). -/
theorem registry_wf {c : Config} (hc : c.Valid) {cid : Nat} {v : DValue} (h : registry c cid = some v) : v.wf c := by
  have h5 := c.n_ge
  have hM := hc.maxExp_ge
  have hlimbs : ∀ l0 l1 l2 : Nat, l0 ≠ 0 → l0 < limbBase → l1 < limbBase → l2 < limbBase → ∀ s,
      (finiteValue ([l0, l1, l2] ++ List.replicate (c.n - 3) 0) 16 s c.n).wf c := by
    intro l0 l1 l2 h0 b0 b1 b2 s
    refine record_wf hc (by simp; omega) ?_ (by simpa using h0) (by decide) (by rw [minExp_eq]; omega) (by omega)
    exact limbsBelow_append (limbsBelow_cons b0 (limbsBelow_cons b1 (limbsBelow_cons b2 (by simp [LimbsBelow]))))
      (limbsBelow_replicate _)
  unfold registry at h
  split at h
  all_goals try (simp only [Option.some.injEq] at h; subst h)
  · exact zero_wf hc
  · exact oneValue_wf hc
  · exact twoValue_wf hc
  · exact leadingLimb_wf hc (by decide) (by decide) (by decide) (by rw [minExp_eq]; omega) (.inl (by omega))
  · exact notANumber_wf hc
  · exact infinity_wf hc _
  · exact minValue_wf hc
  · exact maxValue_wf hc
  · exact (epsilon_truncates hc).wf hc
  · exact hlimbs _ _ _ (by decide) (by decide) (by decide) (by decide) _
  · exact hlimbs _ _ _ (by decide) (by decide) (by decide) (by decide) _
  · exact hlimbs _ _ _ (by decide) (by decide) (by decide) (by decide) _
  · exact (doubleMax_truncates hc).wf hc
  · exact (doubleMin_truncates hc).wf hc
  · split at h
    · rename_i hid
      simp only [Option.some.injEq] at h; subst h
      exact (powerOfTwo_truncates hc (by omega)).wf hc
    · simp at h

/-- The registry holds a record for exactly the assigned constant ids (R50, R95 (c)). -/
theorem registry_isSome {c : Config} {cid : Nat} : (registry c cid).isSome = constantAssigned cid := by
  unfold registry constantAssigned
  split <;> try rfl
  split
  · rename_i h; simp [h]
  · rename_i h
    simp only [Option.isSome_none, eq_comm (a := false), Bool.or_eq_false_iff, decide_eq_false_iff_not, Bool.and_eq_false_iff]
    constructor
    · intro hle
      have : cid ≤ 13 := hle
      interval_cases cid <;> simp_all
    · rw [not_and_or] at h; tauto

end Sys2Proof
end

