-- ==== Sys2Proof/Laws/Convert.lean ====
section
/-! SUPPORT. Conversions (R127, R260 to R268): integers are exact, extractions truncate toward zero, binary64 patterns
are truncated. -/

namespace Sys2Proof

open Machine

theorem limbDigits_spec (fuel u : Nat) (h : u < limbBase ^ fuel) :
    limbsNat (limbDigits fuel u).reverse = u ∧ LimbsBelow (limbDigits fuel u).reverse ∧
      (limbDigits fuel u).length ≤ fuel ∧ (u ≠ 0 → (limbDigits fuel u).reverse.getD 0 0 ≠ 0) := by
  induction fuel generalizing u with
  | zero => simp at h; subst h; simp [limbDigits, LimbsBelow]
  | succ k ih =>
    rw [limbDigits]
    by_cases hu : u = 0
    · subst hu; simp [LimbsBelow]
    · rw [if_neg hu]
      obtain ⟨h1, h2, h3, h4⟩ := ih (u / limbBase) (by rw [pow_succ] at h; exact Nat.div_lt_of_lt_mul (by rwa [mul_comm]))
      refine ⟨?_, ?_, by simpa using h3, fun _ => ?_⟩
      · rw [List.reverse_cons, limbsNat_append, h1]
        simp only [List.length_singleton, pow_one, limbsNat_cons, List.length_nil, pow_zero, mul_one, limbsNat_nil, add_zero]
        exact Nat.div_add_mod' u limbBase
      · rw [List.reverse_cons]
        exact limbsBelow_append h2 (limbsBelow_cons (Nat.mod_lt _ limbBase_pos) (by simp [LimbsBelow]))
      · rw [List.reverse_cons]
        by_cases hd : u / limbBase = 0
        · have : limbDigits k (u / limbBase) = [] := by rw [hd]; cases k <;> simp [limbDigits]
          rw [this]
          have hlt : u < limbBase := by
            rcases Nat.div_eq_zero_iff.1 hd with h | h
            · have := limbBase_pos; omega
            · exact h
          simp [Nat.mod_eq_of_lt hlt, hu]
        · have := h4 hd
          cases hr : (limbDigits k (u / limbBase)).reverse with
          | nil => rw [hr] at this; simp at this
          | cons x xs => rw [hr] at this; simpa using this

/-- `FromU64` is exact, and its result is a stored value (R127). -/
theorem fromU64_spec {c : Config} (hc : c.Valid) {u : Nat} (hu : u < 2 ^ 64) :
    (fromU64 c.n u).wf c ∧ (fromU64 c.n u).cls = .fin ∧ (fromU64 c.n u).neg = false ∧ (fromU64 c.n u).val = u ∧
      ((fromU64 c.n u).isZero = true ↔ u = 0) ∧ (fromU64 c.n u).prec = BitVec.ofNat 16 c.n ∧
      0 ≤ (fromU64 c.n u).exp ∧ (fromU64 c.n u).exp < 24 := by
  have h5 := c.n_ge
  have hM := hc.maxExp_ge
  unfold fromU64
  by_cases h : u = 0
  · subst h
    rw [if_pos rfl]
    refine ⟨zero_wf hc, rfl, rfl, ?_, by simp, rfl, le_refl _, by simp⟩
    rw [val_eq (n := c.n) (by simp)]; simp
  · rw [if_neg h]
    obtain ⟨h1, h2, h3, h4⟩ := limbDigits_spec 3 u (lt_trans hu (by norm_num))
    have h4 := h4 h
    generalize limbDigits 3 u = t at *
    have ht : 1 ≤ t.length := by
      rcases t with _ | ⟨x, xs⟩
      · simp at h4
      · simp
    have hb : LimbsBelow (t.reverse ++ List.replicate (c.n - t.length) 0) := limbsBelow_append h2 (limbsBelow_replicate _)
    have hl : (t.reverse ++ List.replicate (c.n - t.length) 0).length = c.n := by simp; omega
    have h0 : (t.reverse ++ List.replicate (c.n - t.length) 0).getD 0 0 ≠ 0 := by
      cases hr : t.reverse with
      | nil => rw [hr] at h4; simp at h4
      | cons x xs => rw [hr] at h4; simpa using h4
    have hz := finiteValue_isZero hb (8 * ((t.length : Int) - 1)) false c.n
    refine ⟨record_wf hc hl hb h0 (by omega) (by rw [minExp_eq]; omega) (by omega), rfl, rfl, ?_, ?_, rfl, ?_, ?_⟩
    · rw [val_eq (n := c.n) (by rw [finiteValue_nats hb, hl]), finiteValue_nats hb, limbsNat_append, h1,
        limbsNat_replicate_zero, List.length_replicate, finiteValue_exp, finiteValue_neg, Nat.add_zero, Nat.cast_mul,
        Nat.cast_pow, mul_assoc, mul_comm (((limbBase : Nat) : ℚ) ^ _), lastUnit_mul_pow, lastUnit]
      rw [show 8 * ((t.length : Int) - 1) + 8 * ((c.n - t.length : Nat) : Int) - 8 * ((c.n : Int) - 1) = 0 by omega]
      simp
    · simp only [hz, beq_iff_eq]; exact ⟨fun e => absurd e h0, fun e => absurd e h⟩
    · simp only [finiteValue_exp]; omega
    · simp only [finiteValue_exp]; omega

/-- `FROMI64` is exact, and its result is a stored value (R260). -/
theorem fromI64_spec {c : Config} (hc : c.Valid) {i : Int} (h1 : -2 ^ 63 ≤ i) (h2 : i < 2 ^ 63) :
    (fromI64 c.n i).wf c ∧ (fromI64 c.n i).cls = .fin ∧ (fromI64 c.n i).val = i ∧
      (fromI64 c.n i).prec = BitVec.ofNat 16 c.n ∧ (fromI64 c.n i).neg = decide (i < 0) := by
  obtain ⟨w1, w2, w3, w4, w5, w6, w7, w8⟩ := fromU64_spec hc (u := i.natAbs) (by omega)
  have hval : (fromI64 c.n i).val = i := by
    rw [val_eq w1.natsLength, w3] at w4
    simp only [Bool.false_eq_true, if_false, one_mul] at w4
    rw [val_eq (n := c.n) (v := fromI64 c.n i) w1.natsLength]
    change (if decide (i < 0) = true then (-1 : ℚ) else 1) * ((limbsNat (fromU64 c.n i.natAbs).nats : ℚ) * lastUnit c.n (fromU64 c.n i.natAbs).exp) = i
    rw [w4]
    by_cases h : i < 0
    · simp only [h, decide_true, if_true]
      rw [Nat.cast_natAbs, abs_of_neg h]; push_cast; ring
    · simp only [h, decide_false, Bool.false_eq_true, if_false]
      rw [Nat.cast_natAbs, abs_of_nonneg (not_lt.1 h), one_mul]
  refine ⟨?_, w2, hval, w6, rfl⟩
  by_cases h : i = 0
  · subst h; exact w1
  · refine setNeg_wf w1 ?_ (by rw [w2]; simp) _
    rcases hz : (fromU64 c.n i.natAbs).isZero with _ | _
    · rfl
    · exact absurd (w5.1 hz) (by omega)

/-- The integer part of a magnitude of exponent `8*k` is the number its first `k + 1` limbs write (R261). -/
theorem floor_abs_val {c : Config} {v : DValue} (hv : v.wf c) {k : Nat} (hk : v.exp = 8 * k) (hkn : k < c.n) :
    ⌊|v.val|⌋ = ((limbsNat (v.nats.take (k + 1)) : Nat) : Int) := by
  have hl := hv.natsLength
  rw [limbsNat_take hv.natsBelow, hl, abs_val_eq hl]
  obtain ⟨f1, f2⟩ := nat_div_bounds (limbsNat v.nats) (limbBase_pow_pos (c.n - (k + 1)))
  have e : (limbsNat v.nats : ℚ) * lastUnit c.n v.exp =
      (limbsNat v.nats : ℚ) / ((limbBase ^ (c.n - (k + 1)) : Nat) : ℚ) := by
    have hp : (0 : ℚ) < ((limbBase ^ (c.n - (k + 1)) : Nat) : ℚ) := by exact_mod_cast limbBase_pow_pos _
    rw [eq_div_iff hp.ne', mul_assoc, Nat.cast_pow, lastUnit_mul_pow, lastUnit]
    rw [show v.exp + 8 * ((c.n - (k + 1) : Nat) : Int) - 8 * ((c.n : Int) - 1) = 0 by omega]
    simp
  rw [e, Int.floor_eq_iff]
  exact ⟨by exact_mod_cast f1, by exact_mod_cast f2⟩

/-- The first three limbs of a stored value. -/
theorem nats_cons {c : Config} {v : DValue} (hv : v.wf c) :
    ∃ rest, v.nats = v.limb 0 :: v.limb 1 :: v.limb 2 :: rest := by
  have h5 := c.n_ge
  have hl := hv.natsLength
  simp only [limb_eq_nats]
  match v.nats, hl with
  | x0 :: x1 :: x2 :: rest, _ => exact ⟨rest, by simp⟩
  | [], h => simp at h; omega
  | [_], h => simp at h; omega
  | [_, _], h => simp at h; omega

theorem limbsNat_two (x0 x1 : Nat) : limbsNat [x0, x1] = x0 * 10 ^ 8 + x1 := by
  simp only [limbsNat_cons, limbsNat_nil, List.length_cons, List.length_nil, limbBase_eq, ← pow_mul]
  omega

theorem limbsNat_three (x0 x1 x2 : Nat) : limbsNat [x0, x1, x2] = x0 * 10 ^ 16 + (x1 * 10 ^ 8 + x2) := by
  simp only [limbsNat_cons, limbsNat_nil, List.length_cons, List.length_nil, limbBase_eq, ← pow_mul]
  omega

theorem sum_range_two (g : Nat → Nat) : ((List.range (1 + 1)).map g).sum = g 0 + g 1 := by simp [List.range_succ]

theorem sum_range_three (g : Nat → Nat) : ((List.range (2 + 1)).map g).sum = g 0 + (g 1 + g 2) := by
  simp [List.range_succ]

/-- The integer limbs of a value of exponent `8*k`, `k ≤ 2` (R261). -/
theorem intPart_small {c : Config} {v : DValue} (hv : v.wf c) (hz : v.isZero = false) {k : Nat} (hk : v.exp = 8 * k)
    (hk2 : k ≤ 2) : intPart c.n v = limbsNat (v.nats.take (k + 1)) := by
  have h5 := c.n_ge
  obtain ⟨rest, hx⟩ := nats_cons hv
  have h1 : ¬(v.isZero = true ∨ v.exp < 0) := by rw [hz, hk]; simp
  have h2 : ¬(24 ≤ v.exp) := by omega
  have h3 : v.exp.toNat = 8 * k := by omega
  have h4 : min (8 * k / 8 + 1) c.n = k + 1 := by omega
  rw [intPart, if_neg h1, if_neg h2, h3, h4, hx]
  generalize v.limb = f
  rcases (by omega : k = 0 ∨ k = 1 ∨ k = 2) with h | h | h <;> subst h
  · rw [List.take_succ_cons, List.take_zero]
    simp [limbsNat_cons]
  · rw [List.take_succ_cons, List.take_succ_cons, List.take_zero, limbsNat_two, sum_range_two]
    rw [show 8 * 1 - 8 * 0 = 8 from rfl, show 8 * 1 - 8 * 1 = 0 from rfl, pow_zero, mul_one]
  · rw [List.take_succ_cons, List.take_succ_cons, List.take_succ_cons, List.take_zero, limbsNat_three, sum_range_three]
    rw [show 8 * 2 - 8 * 0 = 16 from rfl, show 8 * 2 - 8 * 1 = 8 from rfl, show 8 * 2 - 8 * 2 = 0 from rfl, pow_zero, mul_one]

/-- `IntPart` is the integer part of the magnitude when the exponent is below 24 (R261). -/
theorem intPart_floor {c : Config} {v : DValue} (hv : v.wf c) (hf : v.cls = .fin) (he : v.exp < 24) :
    (intPart c.n v : Int) = ⌊|v.val|⌋ := by
  have h5 := c.n_ge
  have hm := hv.expMod
  by_cases hz : v.isZero = true
  · have hn : v.nats = List.replicate c.n 0 := by simpa using congrArg DValue.nats (hv.zeroForm hz)
    rw [intPart, if_pos (Or.inl hz), abs_val_eq hv.natsLength, hn]
    simp
  · have hz' : v.isZero = false := by simpa using hz
    by_cases he0 : v.exp < 0
    · obtain ⟨b1, b2⟩ := abs_val_bounds hv hf hz'
      rw [intPart, if_pos (Or.inr he0)]
      have : (10 : ℚ) ^ (v.exp + 8) ≤ (10 : ℚ) ^ (0 : Int) := ten_zpow_le (by omega)
      rw [zpow_zero] at this
      symm
      rw [Int.floor_eq_iff]
      exact ⟨by simp, by push_cast; linarith⟩
    · obtain ⟨k, hk⟩ : ∃ k : Nat, v.exp = 8 * k := ⟨(v.exp / 8).toNat, by omega⟩
      rw [intPart_small hv hz' hk (by omega), floor_abs_val hv hk (by omega)]

/-- From exponent 24 on `IntPart` is above every 64-bit bound, as the magnitude is (R261, log entry 16). -/
theorem intPart_large {c : Config} {v : DValue} (hv : v.wf c) (hf : v.cls = .fin) (he : 24 ≤ v.exp) :
    intPart c.n v = 10 ^ 24 ∧ (10 : ℚ) ^ (24 : Int) ≤ |v.val| := by
  have hz' : v.isZero = false := by
    rcases h : v.isZero with _ | _
    · rfl
    · have := hv.zeroExp h; omega
  refine ⟨?_, le_trans (ten_zpow_le he) (abs_val_bounds hv hf hz').1⟩
  have h1 : ¬(v.isZero = true ∨ v.exp < 0) := by rw [hz']; simp; omega
  rw [intPart, if_neg h1, if_pos he]

theorem binary64_fields (b : XWord) : binary64Fraction b < 2 ^ 52 ∧ binary64Exponent b < 2 ^ 11 := by
  constructor
  · exact (b.extractLsb' 0 52).isLt
  · exact (b.extractLsb' 52 11).isLt

/-- The exact value of a binary64 pattern, truncated and saturated (R268). -/
theorem f64ToDecReference_truncates {c : Config} (hc : c.Valid) {b : XWord} (hb : (binary64Magnitude b).1 ≠ 0) :
    TruncatesTo c (binary64Val b) (b.getLsbD 63) c.n (f64ToDecReference c b) := by
  unfold binary64Val f64ToDecReference truncBinary
  generalize (binary64Magnitude b).1 = m at *
  generalize (binary64Magnitude b).2 = k at *
  split
  · rename_i h
    have e : (m : ℚ) * (2 : ℚ) ^ k = ((m * 2 ^ k.toNat : Nat) : ℚ) * (10 : ℚ) ^ (0 : Int) := by
      rw [zpow_zero, mul_one, Nat.cast_mul, Nat.cast_pow, ← zpow_natCast, Int.toNat_of_nonneg h]; norm_num
    rw [e]
    exact truncates_truncN hc (Nat.mul_ne_zero hb (by positivity)) 0 _
  · rename_i h
    obtain ⟨j, hj⟩ := Int.eq_ofNat_of_zero_le (show 0 ≤ -k by omega)
    have hk : k = -(j : Int) := by omega
    subst hk
    have e : (m : ℚ) * (2 : ℚ) ^ (-(j : Int)) = ((m * 5 ^ j : Nat) : ℚ) * (10 : ℚ) ^ (-(j : Int)) := by
      rw [zpow_neg, zpow_neg, zpow_natCast, zpow_natCast, show (10 : ℚ) = 2 * 5 by norm_num, mul_pow]
      have : (2 : ℚ) ^ j ≠ 0 := by positivity
      have : (5 : ℚ) ^ j ≠ 0 := by positivity
      push_cast; field_simp
    rw [e, neg_neg, Int.toNat_natCast]
    exact truncates_truncN hc (Nat.mul_ne_zero hb (by positivity)) _ _

theorem binary64Magnitude_ne_zero {b : XWord} (h : ¬(binary64Exponent b = 0 ∧ binary64Fraction b = 0)) :
    (binary64Magnitude b).1 ≠ 0 := by
  unfold binary64Magnitude
  split
  · rename_i h'; intro hf; exact h ⟨h', hf⟩
  · simp

/-- The result of `FROMF64` is a stored value (R22, R268). -/
theorem fromF64_wf {c : Config} (hc : c.Valid) (b : XWord) : (fromF64 c b).wf c := by
  unfold fromF64
  split
  · exact notANumber_wf hc
  · split
    · exact infinity_wf hc _
    · split
      · exact zero_wf hc
      · rename_i h
        have href := (f64ToDecReference_truncates hc (binary64Magnitude_ne_zero h)).wf hc
        unfold f64ToDec
        split
        · exact href
        · split
          · rename_i hcon
            rcases hcon with ⟨h, -⟩ | ⟨h, -⟩
            · rw [h]; exact withPrec_full_wf hc (zero_wf hc)
            · exact withPrec_full_wf hc h.2.1
          · exact href

end Sys2Proof
end

