-- ==== Sys2Proof/Laws/Decode.lean ====
section
/-! SUPPORT. The fields of a packed word, and a word as the pack of its fields. -/

namespace Sys2Proof

theorem packFields_toNat (op : BitVec 8) (a b c : BitVec 4) (imm : BitVec 12) :
    (packFields op a b c imm).toNat =
      op.toNat * 2 ^ 24 + a.toNat * 2 ^ 20 + b.toNat * 2 ^ 16 + c.toNat * 2 ^ 12 + imm.toNat := by
  have h1 := a.isLt; have h2 := b.isLt; have h3 := c.isLt; have h4 := imm.isLt
  simp only [packFields, BitVec.toNat_append]
  rw [← Nat.shiftLeft_add_eq_or_of_lt h1, ← Nat.shiftLeft_add_eq_or_of_lt h2, ← Nat.shiftLeft_add_eq_or_of_lt h3,
    ← Nat.shiftLeft_add_eq_or_of_lt h4]
  simp only [Nat.shiftLeft_eq]
  omega

@[simp] theorem opField_packFields (op : BitVec 8) (a b c : BitVec 4) (imm : BitVec 12) :
    opField (packFields op a b c imm) = op := by
  have h0 := op.isLt; have h1 := a.isLt; have h2 := b.isLt; have h3 := c.isLt; have h4 := imm.isLt
  apply BitVec.eq_of_toNat_eq
  simp only [opField, BitVec.extractLsb'_toNat, packFields_toNat, Nat.shiftRight_eq_div_pow]
  omega

@[simp] theorem aField_packFields (op : BitVec 8) (a b c : BitVec 4) (imm : BitVec 12) :
    aField (packFields op a b c imm) = a := by
  have h0 := op.isLt; have h1 := a.isLt; have h2 := b.isLt; have h3 := c.isLt; have h4 := imm.isLt
  apply BitVec.eq_of_toNat_eq
  simp only [aField, BitVec.extractLsb'_toNat, packFields_toNat, Nat.shiftRight_eq_div_pow]
  omega

@[simp] theorem bField_packFields (op : BitVec 8) (a b c : BitVec 4) (imm : BitVec 12) :
    bField (packFields op a b c imm) = b := by
  have h0 := op.isLt; have h1 := a.isLt; have h2 := b.isLt; have h3 := c.isLt; have h4 := imm.isLt
  apply BitVec.eq_of_toNat_eq
  simp only [bField, BitVec.extractLsb'_toNat, packFields_toNat, Nat.shiftRight_eq_div_pow]
  omega

@[simp] theorem cField_packFields (op : BitVec 8) (a b c : BitVec 4) (imm : BitVec 12) :
    cField (packFields op a b c imm) = c := by
  have h0 := op.isLt; have h1 := a.isLt; have h2 := b.isLt; have h3 := c.isLt; have h4 := imm.isLt
  apply BitVec.eq_of_toNat_eq
  simp only [cField, BitVec.extractLsb'_toNat, packFields_toNat, Nat.shiftRight_eq_div_pow]
  omega

@[simp] theorem immField_packFields (op : BitVec 8) (a b c : BitVec 4) (imm : BitVec 12) :
    immField (packFields op a b c imm) = imm := by
  have h4 := imm.isLt
  apply BitVec.eq_of_toNat_eq
  simp only [immField, BitVec.extractLsb'_toNat, packFields_toNat, Nat.shiftRight_eq_div_pow]
  omega

/-- A word is the pack of its five fields (R90). -/
theorem packFields_fields (w : Word) :
    packFields (opField w) (aField w) (bField w) (cField w) (immField w) = w := by
  have h := w.isLt
  apply BitVec.eq_of_toNat_eq
  simp only [packFields_toNat, opField, aField, bField, cField, immField, BitVec.extractLsb'_toNat,
    Nat.shiftRight_eq_div_pow]
  omega

theorem cid_low (cid : BitVec 9) : (cid.setWidth 12).extractLsb' 0 9 = cid := by
  have h := cid.isLt
  apply BitVec.eq_of_toNat_eq
  simp only [BitVec.extractLsb'_toNat, BitVec.toNat_setWidth, Nat.shiftRight_eq_div_pow]
  omega

theorem cid_high (cid : BitVec 9) : (cid.setWidth 12).extractLsb' 9 3 = 0 := by
  have h := cid.isLt
  apply BitVec.eq_of_toNat_eq
  simp only [BitVec.extractLsb'_toNat, BitVec.toNat_setWidth, Nat.shiftRight_eq_div_pow]
  simp; omega

theorem style_bits (style : Style) :
    styleOfBit (((bitOfStyle style).setWidth 12 : BitVec 12).extractLsb' 0 1) = style ∧
      ((bitOfStyle style).setWidth 12 : BitVec 12).extractLsb' 1 11 = 0 := by
  cases style <;> decide

end Sys2Proof
end

