-- ==== Sys2Proof/Laws/State.lean ====
section
/-! SUPPORT. One lemma per field and update of a state, and reading a register after writing one. -/

namespace Sys2Proof.Machine

@[simp] theorem writeD_dregs (s : State) (r : DReg) (v : DValue) : (s.writeD r v).dregs = s.dregs.set r.toNat v r.isLt := rfl
@[simp] theorem writeD_xregs (s : State) (r : DReg) (v : DValue) : (s.writeD r v).xregs = s.xregs := rfl
@[simp] theorem writeD_flags (s : State) (r : DReg) (v : DValue) : (s.writeD r v).flags = s.flags := rfl
@[simp] theorem writeD_tlen (s : State) (r : DReg) (v : DValue) : (s.writeD r v).tlen = s.tlen := rfl
@[simp] theorem writeD_fexp (s : State) (r : DReg) (v : DValue) : (s.writeD r v).fexp = s.fexp := rfl
@[simp] theorem writeD_finfo (s : State) (r : DReg) (v : DValue) : (s.writeD r v).finfo = s.finfo := rfl
@[simp] theorem writeD_dsel (s : State) (r : DReg) (v : DValue) : (s.writeD r v).dsel = s.dsel := rfl
@[simp] theorem writeD_tbuf (s : State) (r : DReg) (v : DValue) : (s.writeD r v).tbuf = s.tbuf := rfl
@[simp] theorem writeD_busy (s : State) (r : DReg) (v : DValue) : (s.writeD r v).busy = s.busy := rfl
@[simp] theorem writeD_cfg (s : State) (r : DReg) (v : DValue) : (s.writeD r v).cfg = s.cfg := rfl
@[simp] theorem writeD_pending (s : State) (r : DReg) (v : DValue) : (s.writeD r v).pending = s.pending := rfl
@[simp] theorem writeD_port (s : State) (r : DReg) (v : DValue) : (s.writeD r v).port = s.port := rfl
@[simp] theorem writeD_draws (s : State) (r : DReg) (v : DValue) : (s.writeD r v).draws = s.draws := rfl

@[simp] theorem writeX_dregs (s : State) (i : XReg) (v : XWord) : (s.writeX i v).dregs = s.dregs := rfl
@[simp] theorem writeX_xregs (s : State) (i : XReg) (v : XWord) : (s.writeX i v).xregs = s.xregs.set i.toNat v i.isLt := rfl
@[simp] theorem writeX_flags (s : State) (i : XReg) (v : XWord) : (s.writeX i v).flags = s.flags := rfl
@[simp] theorem writeX_tlen (s : State) (i : XReg) (v : XWord) : (s.writeX i v).tlen = s.tlen := rfl
@[simp] theorem writeX_fexp (s : State) (i : XReg) (v : XWord) : (s.writeX i v).fexp = s.fexp := rfl
@[simp] theorem writeX_finfo (s : State) (i : XReg) (v : XWord) : (s.writeX i v).finfo = s.finfo := rfl
@[simp] theorem writeX_dsel (s : State) (i : XReg) (v : XWord) : (s.writeX i v).dsel = s.dsel := rfl
@[simp] theorem writeX_tbuf (s : State) (i : XReg) (v : XWord) : (s.writeX i v).tbuf = s.tbuf := rfl
@[simp] theorem writeX_busy (s : State) (i : XReg) (v : XWord) : (s.writeX i v).busy = s.busy := rfl
@[simp] theorem writeX_cfg (s : State) (i : XReg) (v : XWord) : (s.writeX i v).cfg = s.cfg := rfl
@[simp] theorem writeX_pending (s : State) (i : XReg) (v : XWord) : (s.writeX i v).pending = s.pending := rfl
@[simp] theorem writeX_port (s : State) (i : XReg) (v : XWord) : (s.writeX i v).port = s.port := rfl
@[simp] theorem writeX_draws (s : State) (i : XReg) (v : XWord) : (s.writeX i v).draws = s.draws := rfl

@[simp] theorem raise_dregs (s : State) (f : Flag) : (s.raise f).dregs = s.dregs := rfl
@[simp] theorem raise_xregs (s : State) (f : Flag) : (s.raise f).xregs = s.xregs := rfl
@[simp] theorem raise_flags (s : State) (f : Flag) : (s.raise f).flags = s.flags.set f := rfl
@[simp] theorem raise_tlen (s : State) (f : Flag) : (s.raise f).tlen = s.tlen := rfl
@[simp] theorem raise_fexp (s : State) (f : Flag) : (s.raise f).fexp = s.fexp := rfl
@[simp] theorem raise_finfo (s : State) (f : Flag) : (s.raise f).finfo = s.finfo := rfl
@[simp] theorem raise_dsel (s : State) (f : Flag) : (s.raise f).dsel = s.dsel := rfl
@[simp] theorem raise_tbuf (s : State) (f : Flag) : (s.raise f).tbuf = s.tbuf := rfl
@[simp] theorem raise_busy (s : State) (f : Flag) : (s.raise f).busy = s.busy := rfl
@[simp] theorem raise_cfg (s : State) (f : Flag) : (s.raise f).cfg = s.cfg := rfl
@[simp] theorem raise_pending (s : State) (f : Flag) : (s.raise f).pending = s.pending := rfl
@[simp] theorem raise_port (s : State) (f : Flag) : (s.raise f).port = s.port := rfl
@[simp] theorem raise_draws (s : State) (f : Flag) : (s.raise f).draws = s.draws := rfl

@[simp] theorem clearFlags_dregs (s : State) (w : Word) : (s.clearFlags w).dregs = s.dregs := rfl
@[simp] theorem clearFlags_xregs (s : State) (w : Word) : (s.clearFlags w).xregs = s.xregs := rfl
@[simp] theorem clearFlags_flags (s : State) (w : Word) : (s.clearFlags w).flags = s.flags.writeOneToClear w := rfl
@[simp] theorem clearFlags_tlen (s : State) (w : Word) : (s.clearFlags w).tlen = s.tlen := rfl
@[simp] theorem clearFlags_fexp (s : State) (w : Word) : (s.clearFlags w).fexp = s.fexp := rfl
@[simp] theorem clearFlags_finfo (s : State) (w : Word) : (s.clearFlags w).finfo = s.finfo := rfl
@[simp] theorem clearFlags_dsel (s : State) (w : Word) : (s.clearFlags w).dsel = s.dsel := rfl
@[simp] theorem clearFlags_tbuf (s : State) (w : Word) : (s.clearFlags w).tbuf = s.tbuf := rfl
@[simp] theorem clearFlags_busy (s : State) (w : Word) : (s.clearFlags w).busy = s.busy := rfl
@[simp] theorem clearFlags_cfg (s : State) (w : Word) : (s.clearFlags w).cfg = s.cfg := rfl
@[simp] theorem clearFlags_pending (s : State) (w : Word) : (s.clearFlags w).pending = s.pending := rfl
@[simp] theorem clearFlags_port (s : State) (w : Word) : (s.clearFlags w).port = s.port := rfl
@[simp] theorem clearFlags_draws (s : State) (w : Word) : (s.clearFlags w).draws = s.draws := rfl

@[simp] theorem writeText_dregs (s : State) (a : Nat) (bs : List Byte) : (s.writeText a bs).dregs = s.dregs := rfl
@[simp] theorem writeText_xregs (s : State) (a : Nat) (bs : List Byte) : (s.writeText a bs).xregs = s.xregs := rfl
@[simp] theorem writeText_flags (s : State) (a : Nat) (bs : List Byte) : (s.writeText a bs).flags = s.flags := rfl
@[simp] theorem writeText_tlen (s : State) (a : Nat) (bs : List Byte) : (s.writeText a bs).tlen = s.tlen := rfl
@[simp] theorem writeText_fexp (s : State) (a : Nat) (bs : List Byte) : (s.writeText a bs).fexp = s.fexp := rfl
@[simp] theorem writeText_finfo (s : State) (a : Nat) (bs : List Byte) : (s.writeText a bs).finfo = s.finfo := rfl
@[simp] theorem writeText_dsel (s : State) (a : Nat) (bs : List Byte) : (s.writeText a bs).dsel = s.dsel := rfl
@[simp] theorem writeText_tbuf (s : State) (a : Nat) (bs : List Byte) : (s.writeText a bs).tbuf = s.tbuf.writeBytes a bs := rfl
@[simp] theorem writeText_busy (s : State) (a : Nat) (bs : List Byte) : (s.writeText a bs).busy = s.busy := rfl
@[simp] theorem writeText_cfg (s : State) (a : Nat) (bs : List Byte) : (s.writeText a bs).cfg = s.cfg := rfl
@[simp] theorem writeText_pending (s : State) (a : Nat) (bs : List Byte) : (s.writeText a bs).pending = s.pending := rfl
@[simp] theorem writeText_port (s : State) (a : Nat) (bs : List Byte) : (s.writeText a bs).port = s.port := rfl
@[simp] theorem writeText_draws (s : State) (a : Nat) (bs : List Byte) : (s.writeText a bs).draws = s.draws := rfl

@[simp] theorem answer_dregs (s : State) (r : PortResponse) : (s.answer r).dregs = s.dregs := rfl
@[simp] theorem answer_xregs (s : State) (r : PortResponse) : (s.answer r).xregs = s.xregs := rfl
@[simp] theorem answer_flags (s : State) (r : PortResponse) : (s.answer r).flags = s.flags := rfl
@[simp] theorem answer_tlen (s : State) (r : PortResponse) : (s.answer r).tlen = s.tlen := rfl
@[simp] theorem answer_fexp (s : State) (r : PortResponse) : (s.answer r).fexp = s.fexp := rfl
@[simp] theorem answer_finfo (s : State) (r : PortResponse) : (s.answer r).finfo = s.finfo := rfl
@[simp] theorem answer_dsel (s : State) (r : PortResponse) : (s.answer r).dsel = s.dsel := rfl
@[simp] theorem answer_tbuf (s : State) (r : PortResponse) : (s.answer r).tbuf = s.tbuf := rfl
@[simp] theorem answer_busy (s : State) (r : PortResponse) : (s.answer r).busy = s.busy := rfl
@[simp] theorem answer_cfg (s : State) (r : PortResponse) : (s.answer r).cfg = s.cfg := rfl
@[simp] theorem answer_pending (s : State) (r : PortResponse) : (s.answer r).pending = s.pending := rfl
@[simp] theorem answer_port (s : State) (r : PortResponse) : (s.answer r).port = r := rfl
@[simp] theorem answer_draws (s : State) (r : PortResponse) : (s.answer r).draws = s.draws := rfl

@[simp] theorem handOff_dregs (s : State) (r : FormatRecord) (style : Style) : (s.handOff r style).dregs = s.dregs := rfl
@[simp] theorem handOff_xregs (s : State) (r : FormatRecord) (style : Style) : (s.handOff r style).xregs = s.xregs := rfl
@[simp] theorem handOff_flags (s : State) (r : FormatRecord) (style : Style) : (s.handOff r style).flags = s.flags := rfl
@[simp] theorem handOff_tlen (s : State) (r : FormatRecord) (style : Style) : (s.handOff r style).tlen = BitVec.ofNat 16 r.text.length := rfl
@[simp] theorem handOff_fexp (s : State) (r : FormatRecord) (style : Style) : (s.handOff r style).fexp = BitVec.ofInt 64 r.exp := rfl
@[simp] theorem handOff_finfo (s : State) (r : FormatRecord) (style : Style) : (s.handOff r style).finfo = finfoWord r style := rfl
@[simp] theorem handOff_dsel (s : State) (r : FormatRecord) (style : Style) : (s.handOff r style).dsel = s.dsel := rfl
@[simp] theorem handOff_tbuf (s : State) (r : FormatRecord) (style : Style) : (s.handOff r style).tbuf = s.tbuf.writeBytes 0 r.text := rfl
@[simp] theorem handOff_busy (s : State) (r : FormatRecord) (style : Style) : (s.handOff r style).busy = s.busy := rfl
@[simp] theorem handOff_cfg (s : State) (r : FormatRecord) (style : Style) : (s.handOff r style).cfg = s.cfg := rfl
@[simp] theorem handOff_pending (s : State) (r : FormatRecord) (style : Style) : (s.handOff r style).pending = s.pending := rfl
@[simp] theorem handOff_port (s : State) (r : FormatRecord) (style : Style) : (s.handOff r style).port = s.port := rfl
@[simp] theorem handOff_draws (s : State) (r : FormatRecord) (style : Style) : (s.handOff r style).draws = s.draws := rfl

@[simp] theorem afterRead_dregs (s : State) (a len : Nat) : (s.afterRead a len).dregs = s.dregs := by
  unfold State.afterRead; split <;> rfl
@[simp] theorem afterRead_xregs (s : State) (a len : Nat) : (s.afterRead a len).xregs = s.xregs := by
  unfold State.afterRead; split <;> rfl
@[simp] theorem afterRead_flags (s : State) (a len : Nat) : (s.afterRead a len).flags = s.flags := by
  unfold State.afterRead; split <;> rfl
@[simp] theorem afterRead_tlen (s : State) (a len : Nat) : (s.afterRead a len).tlen = s.tlen := by
  unfold State.afterRead; split <;> rfl
@[simp] theorem afterRead_fexp (s : State) (a len : Nat) : (s.afterRead a len).fexp = s.fexp := by
  unfold State.afterRead; split <;> rfl
@[simp] theorem afterRead_finfo (s : State) (a len : Nat) : (s.afterRead a len).finfo = s.finfo := by
  unfold State.afterRead; split <;> rfl
@[simp] theorem afterRead_dsel (s : State) (a len : Nat) : (s.afterRead a len).dsel = s.dsel := by
  unfold State.afterRead; split <;> rfl
@[simp] theorem afterRead_tbuf (s : State) (a len : Nat) : (s.afterRead a len).tbuf = s.tbuf := by
  unfold State.afterRead; split <;> rfl
@[simp] theorem afterRead_busy (s : State) (a len : Nat) : (s.afterRead a len).busy = s.busy := by
  unfold State.afterRead; split <;> rfl
@[simp] theorem afterRead_cfg (s : State) (a len : Nat) : (s.afterRead a len).cfg = s.cfg := by
  unfold State.afterRead; split <;> rfl
@[simp] theorem afterRead_pending (s : State) (a len : Nat) : (s.afterRead a len).pending = s.pending := by
  unfold State.afterRead; split <;> rfl
@[simp] theorem afterRead_port (s : State) (a len : Nat) : (s.afterRead a len).port = s.port := by
  unfold State.afterRead; split <;> rfl

theorem afterRead_draws (s : State) (a len : Nat) :
    (s.afterRead a len).draws = if s.someUnwritten a len then s.draws + 1 else s.draws := by
  unfold State.afterRead; split <;> rfl

/-- Reading a `D` register after writing one: the written value, or what stood there (R10). -/
theorem readD_writeD (s : State) (d r : DReg) (v : DValue) :
    (s.writeD d v).readD r = if d = r then v else s.readD r := by
  simp only [State.writeD, State.readD, Fin.getElem_fin, BitVec.val_toFin, Vector.getElem_set, BitVec.toNat_inj]

@[simp] theorem readD_writeD_same (s : State) (d : DReg) (v : DValue) : (s.writeD d v).readD d = v := by
  simp [readD_writeD]

theorem readD_writeD_other (s : State) {d r : DReg} (v : DValue) (h : r ≠ d) : (s.writeD d v).readD r = s.readD r := by
  rw [readD_writeD, if_neg (Ne.symm h)]

/-- Reading an `X` register after writing one (R10). -/
theorem readX_writeX (s : State) (d r : XReg) (v : XWord) :
    (s.writeX d v).readX r = if d = r then v else s.readX r := by
  simp only [State.writeX, State.readX, Fin.getElem_fin, BitVec.val_toFin, Vector.getElem_set, BitVec.toNat_inj]

@[simp] theorem readX_writeX_same (s : State) (d : XReg) (v : XWord) : (s.writeX d v).readX d = v := by
  simp [readX_writeX]

theorem readX_writeX_other (s : State) {d r : XReg} (v : XWord) (h : r ≠ d) : (s.writeX d v).readX r = s.readX r := by
  rw [readX_writeX, if_neg (Ne.symm h)]

@[simp] theorem readD_writeX (s : State) (i : XReg) (v : XWord) (r : DReg) : (s.writeX i v).readD r = s.readD r := rfl
@[simp] theorem readD_raise (s : State) (f : Flag) (r : DReg) : (s.raise f).readD r = s.readD r := rfl
@[simp] theorem readD_clearFlags (s : State) (w : Word) (r : DReg) : (s.clearFlags w).readD r = s.readD r := rfl
@[simp] theorem readD_writeText (s : State) (a : Nat) (bs : List Byte) (r : DReg) : (s.writeText a bs).readD r = s.readD r := rfl
@[simp] theorem readD_answer (s : State) (p : PortResponse) (r : DReg) : (s.answer p).readD r = s.readD r := rfl
@[simp] theorem readD_handOff (s : State) (q : FormatRecord) (style : Style) (r : DReg) : (s.handOff q style).readD r = s.readD r := rfl
@[simp] theorem readX_writeD (s : State) (d : DReg) (v : DValue) (i : XReg) : (s.writeD d v).readX i = s.readX i := rfl
@[simp] theorem readX_raise (s : State) (f : Flag) (i : XReg) : (s.raise f).readX i = s.readX i := rfl
@[simp] theorem readX_clearFlags (s : State) (w : Word) (i : XReg) : (s.clearFlags w).readX i = s.readX i := rfl
@[simp] theorem readX_writeText (s : State) (a : Nat) (bs : List Byte) (i : XReg) : (s.writeText a bs).readX i = s.readX i := rfl
@[simp] theorem readX_answer (s : State) (p : PortResponse) (i : XReg) : (s.answer p).readX i = s.readX i := rfl
@[simp] theorem readX_handOff (s : State) (q : FormatRecord) (style : Style) (i : XReg) : (s.handOff q style).readX i = s.readX i := rfl
@[simp] theorem readD_afterRead (s : State) (a len : Nat) (r : DReg) : (s.afterRead a len).readD r = s.readD r := by
  simp [State.readD]
@[simp] theorem readX_afterRead (s : State) (a len : Nat) (i : XReg) : (s.afterRead a len).readX i = s.readX i := by
  simp [State.readX]

/-- Writing a register with what it holds changes nothing (R121, `d = s`). -/
theorem writeD_readD (s : State) (d : DReg) : s.writeD d (s.readD d) = s := by
  have h : (s.writeD d (s.readD d)).dregs = s.dregs := by
    apply Vector.ext
    intro k hk
    by_cases e : d.toNat = k
    · subst e; simp [State.readD]
    · simp [e]
  cases s
  simp only [State.writeD] at h ⊢
  simp [h]

end Sys2Proof.Machine
end

