-- ==== Sys2Proof/Laws/Memory.lean ====
section
/-! SUPPORT. The text buffer: read after write, the canonical form, the bytes a list write stores. -/

namespace Sys2Proof.Machine

theorem lookupCell_insertCell (a b : Nat) (v : Byte) (l : List Host.Cell) (h : l.Pairwise fun p q => p.1 < q.1) :
    lookupCell b (insertCell a v l) = if b = a then some v else lookupCell b l := by
  induction l with
  | nil => simp [insertCell, lookupCell]
  | cons c rest ih =>
    obtain ⟨k, w⟩ := c
    rw [List.pairwise_cons] at h
    unfold insertCell
    split
    · by_cases e : b = a <;> simp [lookupCell, e]
    · split
      · rename_i e; subst e; by_cases e : b = a <;> simp [lookupCell, e]
      · rw [lookupCell, ih h.2, lookupCell]
        by_cases e : b = k
        · subst e; simp_all [eq_comm]
        · simp [e]

theorem mem_insertCell {a : Nat} {v : Byte} {l : List Host.Cell} {c : Host.Cell} (h : c ∈ insertCell a v l) :
    c = (a, v) ∨ c ∈ l := by
  induction l with
  | nil => simpa [insertCell] using h
  | cons d rest ih =>
    obtain ⟨k, w⟩ := d
    unfold insertCell at h
    split at h
    · simpa using h
    · split at h <;> simp only [List.mem_cons] at h ⊢
      · tauto
      · rcases h with h | h
        · tauto
        · rcases ih h with h | h <;> tauto

/-- A write keeps the canonical form. -/
theorem TextBuffer.write_wf {t : TextBuffer} (h : t.wf) (a : Nat) (v : Byte) : (t.write a v).wf := by
  obtain ⟨l⟩ := t
  simp only [TextBuffer.wf, TextBuffer.write] at *
  induction l with
  | nil => simp [insertCell]
  | cons c rest ih =>
    obtain ⟨k, w⟩ := c
    have h' := List.pairwise_cons.1 h
    unfold insertCell
    split
    · rename_i e
      refine List.pairwise_cons.2 ⟨?_, h⟩
      intro p hp
      rcases List.mem_cons.1 hp with rfl | hp
      · exact e
      · exact lt_trans e (h'.1 p hp)
    · split
      · rename_i e; subst e; exact List.pairwise_cons.2 h'
      · rename_i e1 e2
        refine List.pairwise_cons.2 ⟨?_, ih h'.2⟩
        intro p hp
        rcases mem_insertCell hp with rfl | hp
        · simp only; omega
        · exact h'.1 p hp

/-- Reading a byte after writing one (R11). -/
theorem TextBuffer.read_write {t : TextBuffer} (h : t.wf) (a b : Nat) (v : Byte) :
    (t.write a v).read b = if b = a then some v else t.read b :=
  lookupCell_insertCell a b v t.cells h

theorem TextBuffer.writeBytes_wf {t : TextBuffer} (h : t.wf) (a : Nat) (bs : List Byte) : (t.writeBytes a bs).wf := by
  induction bs generalizing t a with
  | nil => exact h
  | cons b bs ih => exact ih (TextBuffer.write_wf h a b) (a + 1)

/-- Reading a byte after writing the bytes `bs` from address `a`. -/
theorem TextBuffer.read_writeBytes {t : TextBuffer} (h : t.wf) (a b : Nat) (bs : List Byte) :
    (t.writeBytes a bs).read b = if a ≤ b ∧ b < a + bs.length then bs[b - a]? else t.read b := by
  induction bs generalizing t a with
  | nil => simp [TextBuffer.writeBytes]
  | cons v bs ih =>
    rw [TextBuffer.writeBytes, ih (TextBuffer.write_wf h a v), TextBuffer.read_write h, List.length_cons]
    by_cases e : b = a
    · subst e; simp
    · by_cases g : a ≤ b ∧ b < a + (bs.length + 1)
      · have e' : b - a = (b - (a + 1)) + 1 := by omega
        rw [if_pos (by omega), if_pos g, e', List.getElem?_cons_succ]
      · rw [if_neg (by omega), if_neg e, if_neg g]

theorem TextBuffer.mem_writeBytes {t : TextBuffer} {a : Nat} {bs : List Byte} {c : Host.Cell}
    (h : c ∈ (t.writeBytes a bs).cells) : (a ≤ c.1 ∧ c.1 < a + bs.length) ∨ c ∈ t.cells := by
  induction bs generalizing t a with
  | nil => exact .inr h
  | cons v bs ih =>
    rcases ih h with h | h
    · left; simp only [List.length_cons]; omega
    · rcases mem_insertCell h with rfl | h
      · left; simp only [List.length_cons]; omega
      · exact .inr h

/-- An address the buffer does not list holds no value. -/
theorem lookupCell_none {a : Nat} {l : List Host.Cell} (h : ∀ c ∈ l, c.1 ≠ a) : lookupCell a l = none := by
  induction l with
  | nil => rfl
  | cons c rest ih =>
    obtain ⟨k, w⟩ := c
    have hk : k ≠ a := h (k, w) (by simp)
    rw [lookupCell, if_neg (Ne.symm hk), ih fun c hc => h c (by simp [hc])]

end Sys2Proof.Machine
end

