-- ==== Sys2Proof/Laws/PerInstr.lean ====
section
/-! SUPPORT. Per command: its word decodes to it when its operands are legal (R91, R93, R95). -/

namespace Sys2Proof.Laws.EncodeDecode

/-- The word of a well-formed command decodes to that command, whatever the limb capacity. -/
def Statement (i : Instr) : Prop := ∀ n : Nat, i.wellFormed n = true → decode n (encode i) = .ok i

theorem nop : Statement (.nop) := by
  intro n _
  simp [decode, encode, formatZ]

theorem mov (d s : BitVec 4) : Statement (.mov d s) := by
  intro n _
  simp [decode, encode, formatAB]

theorem neg (d s : BitVec 4) : Statement (.neg d s) := by
  intro n _
  simp [decode, encode, formatAB]

theorem abs (d s : BitVec 4) : Statement (.abs d s) := by
  intro n _
  simp [decode, encode, formatAB]

theorem ldc (d : DReg) (cid : BitVec 9) : Statement (.ldc d cid) := by
  intro n h
  simp only [Instr.wellFormed] at h
  simp [decode, encode, formatDC, cid_low, cid_high, h]

theorem setprec (d : DReg) (p : BitVec 12) : Statement (.setprec d p) := by
  intro n h
  simp only [Instr.wellFormed] at h
  simp [decode, encode, formatDP, h]

theorem getprec (d s : BitVec 4) : Statement (.getprec d s) := by
  intro n _
  simp [decode, encode, formatAB]

theorem fromu64 (d s : BitVec 4) : Statement (.fromu64 d s) := by
  intro n _
  simp [decode, encode, formatAB]

theorem fromi64 (d s : BitVec 4) : Statement (.fromi64 d s) := by
  intro n _
  simp [decode, encode, formatAB]

theorem fromf64 (d s : BitVec 4) : Statement (.fromf64 d s) := by
  intro n _
  simp [decode, encode, formatAB]

theorem tou64 (d s : BitVec 4) : Statement (.tou64 d s) := by
  intro n _
  simp [decode, encode, formatAB]

theorem toi64 (d s : BitVec 4) : Statement (.toi64 d s) := by
  intro n _
  simp [decode, encode, formatAB]

theorem tof64 (d s : BitVec 4) : Statement (.tof64 d s) := by
  intro n _
  simp [decode, encode, formatAB]

theorem add (d s1 s2 : BitVec 4) : Statement (.add d s1 s2) := by
  intro n _
  simp [decode, encode, formatABC]

theorem sub (d s1 s2 : BitVec 4) : Statement (.sub d s1 s2) := by
  intro n _
  simp [decode, encode, formatABC]

theorem mul (d s1 s2 : BitVec 4) : Statement (.mul d s1 s2) := by
  intro n _
  simp [decode, encode, formatABC]

theorem div (d s1 s2 : BitVec 4) : Statement (.div d s1 s2) := by
  intro n _
  simp [decode, encode, formatABC]

theorem recip (d s : BitVec 4) : Statement (.recip d s) := by
  intro n _
  simp [decode, encode, formatAB]

theorem sqrt (d s : BitVec 4) : Statement (.sqrt d s) := by
  intro n _
  simp [decode, encode, formatAB]

theorem cmp (d s1 s2 : BitVec 4) : Statement (.cmp d s1 s2) := by
  intro n _
  simp [decode, encode, formatABC]

theorem iszero (d s : BitVec 4) : Statement (.iszero d s) := by
  intro n _
  simp [decode, encode, formatAB]

theorem isone (d s : BitVec 4) : Statement (.isone d s) := by
  intro n _
  simp [decode, encode, formatAB]

theorem isint (d s : BitVec 4) : Statement (.isint d s) := by
  intro n _
  simp [decode, encode, formatAB]

theorem isneg (d s : BitVec 4) : Statement (.isneg d s) := by
  intro n _
  simp [decode, encode, formatAB]

theorem isnan (d s : BitVec 4) : Statement (.isnan d s) := by
  intro n _
  simp [decode, encode, formatAB]

theorem isinf (d s : BitVec 4) : Statement (.isinf d s) := by
  intro n _
  simp [decode, encode, formatAB]

theorem isfin (d s : BitVec 4) : Statement (.isfin d s) := by
  intro n _
  simp [decode, encode, formatAB]

theorem classof (d s : BitVec 4) : Statement (.classof d s) := by
  intro n _
  simp [decode, encode, formatAB]

theorem parse (d : DReg) : Statement (.parse d) := by
  intro n _
  simp [decode, encode, formatD]

theorem format (s : DReg) (n : XReg) (style : Style) : Statement (.format s n style) := by
  intro n _
  simp [decode, encode, formatF, style_bits]

end Sys2Proof.Laws.EncodeDecode
end

