-- ==== Sys2Proof/Laws/Step.lean ====
section
/-! SUPPORT. What the shared operations of a command, of a port access and of a step can do, each said once. -/

namespace Sys2Proof.Machine

/-- Writing a `D` register leaves everything else. -/
theorem onlyD_writeD (s : State) (d : DReg) (v : DValue) : OnlyD d s (s.writeD d v) :=
  ⟨fun _ h => readD_writeD_other s v h, fun _ => rfl, rfl, ⟨rfl, rfl, rfl⟩, fun _ => rfl, rfl, rfl, rfl, rfl, rfl⟩

/-- Writing an `X` register leaves everything else. -/
theorem onlyX_writeX (s : State) (i : XReg) (v : XWord) : OnlyX i s (s.writeX i v) :=
  ⟨fun _ => rfl, fun _ h => readX_writeX_other s v h, rfl, ⟨rfl, rfl, rfl⟩, fun _ => rfl, rfl, rfl, rfl, rfl, rfl⟩

/-- Raising a flag leaves everything but `FLAGS`. -/
theorem onlyFlags_raise (s : State) (f : Flag) : OnlyFlags s (s.raise f) :=
  ⟨fun _ => rfl, fun _ => rfl, ⟨rfl, rfl, rfl⟩, fun _ => rfl, rfl, rfl, rfl, rfl, rfl⟩

/-- Drawing free bytes leaves everything but the counter of draws. -/
theorem afterRead_same (s : State) (a len : Nat) :
    SameD s (s.afterRead a len) ∧ SameX s (s.afterRead a len) ∧ (s.afterRead a len).flags = s.flags ∧
      SameRecord s (s.afterRead a len) ∧ SameText s (s.afterRead a len) ∧ SamePort s (s.afterRead a len) := by
  refine ⟨fun r => by simp, fun i => by simp, by simp, ⟨by simp, by simp, by simp⟩, fun a => by simp, ?_⟩
  exact ⟨by simp, by simp, by simp, by simp, by simp⟩

/-- `LDC` loads a constant or raises `ILL` (R124). -/
theorem execLdc_cases {d : DReg} {cid : BitVec 9} {s t : State} (h : execLdc d cid s = .next t) :
    (∃ v, registry s.cfg cid.toNat = some v ∧ t = s.writeD d v) ∨
      (registry s.cfg cid.toNat = none ∧ t = s.raise .ill) := by
  unfold execLdc at h
  cases hr : registry s.cfg cid.toNat with
  | some v => rw [hr] at h; cases h; exact .inl ⟨v, rfl, rfl⟩
  | none => rw [hr] at h; cases h; exact .inr ⟨rfl, rfl⟩

/-- `SETPREC` writes a legal count or raises `ILL` (R125). -/
theorem execSetprec_cases {d : DReg} {p : BitVec 12} {s t : State} (h : execSetprec d p s = .next t) :
    (precisionLegal s.cfg.n p.toNat = true ∧ t = s.writeD d ((s.readD d).withPrec p.toNat)) ∨
      (precisionLegal s.cfg.n p.toNat = false ∧ t = s.raise .ill) := by
  unfold execSetprec at h
  cases hp : precisionLegal s.cfg.n p.toNat with
  | true => rw [hp] at h; cases h; exact .inl ⟨rfl, rfl⟩
  | false => rw [hp] at h; cases h; exact .inr ⟨rfl, rfl⟩

/-- `SQRT` writes its result, with `DOM` exactly for a NaN or negative operand (R190). -/
theorem execSqrt_cases {d src : DReg} {s t : State} (h : execSqrt d src s = .next t) :
    (sqrtDomainError (s.readD src) = true ∧ t = (s.writeD d (decSqrt s.cfg (s.readD src))).raise .dom) ∨
      (sqrtDomainError (s.readD src) = false ∧ t = s.writeD d (decSqrt s.cfg (s.readD src))) := by
  unfold execSqrt at h
  cases hp : sqrtDomainError (s.readD src) with
  | true => rw [hp] at h; cases h; exact .inl ⟨rfl, rfl⟩
  | false => rw [hp] at h; cases h; exact .inr ⟨rfl, rfl⟩

/-- `PARSE` writes the value of the text or raises `PERR` (R220, R221). -/
theorem execParse_cases {d : DReg} {s t : State} (h : execParse d s = .next t) :
    s.tlen.toNat ≤ s.cfg.tbytes ∧
      ((∃ v, parseText s.cfg (s.readBytes 0 s.tlen.toNat) = some v ∧ t = (s.afterRead 0 s.tlen.toNat).writeD d v) ∨
        (parseText s.cfg (s.readBytes 0 s.tlen.toNat) = none ∧ t = (s.afterRead 0 s.tlen.toNat).raise .perr)) := by
  unfold execParse at h
  split at h
  · cases h
  · refine ⟨by omega, ?_⟩
    cases hp : parseText s.cfg (s.readBytes 0 s.tlen.toNat) with
    | some v => rw [hp] at h; cases h; exact .inl ⟨v, rfl, rfl⟩
    | none => rw [hp] at h; cases h; exact .inr ⟨rfl, rfl⟩

/-- `FORMAT` hands a record off or raises `ILL` (R240, R241). -/
theorem execFormat_cases {src : DReg} {n : XReg} {style : Style} {s t : State} (h : execFormat src n style s = .next t) :
    (s.readX n = 0 ∧ t = s.raise .ill) ∨
      (s.readX n ≠ 0 ∧ (formatValue (s.readD src) (s.readUnsigned n)).text.length ≤ s.cfg.tbytes ∧
        t = s.handOff (formatValue (s.readD src) (s.readUnsigned n)) style) := by
  have hx : s.readUnsigned n = 0 ↔ s.readX n = 0 := by
    unfold State.readUnsigned
    rw [← BitVec.toNat_inj]; rfl
  unfold execFormat at h
  split at h
  · next hn => cases h; exact .inl ⟨hx.1 hn, rfl⟩
  · next hn =>
    split at h
    · cases h
    · cases h; exact .inr ⟨fun h' => hn (hx.2 h'), by omega, rfl⟩

/-- A read answers with a word or a named refusal, always (R66, R68). -/
theorem performRead_cases (width : Width) (off : BitVec 16) (s : State) :
    (∃ why, performRead width off s = .next (s.answer (.refused why))) ∨
      (∃ reg w, selectPort s width off = .ok reg ∧ portValue s reg = .ok w ∧
        performRead width off s = .next ((s.afterPortRead reg).answer (.data w))) := by
  unfold performRead
  cases hs : selectPort s width off with
  | error why => exact .inl ⟨why, rfl⟩
  | ok reg =>
    cases hv : portValue s reg with
    | error why => exact .inl ⟨why, by simp [hv]⟩
    | ok w => exact .inr ⟨reg, w, rfl, hv, by simp [hv]⟩

/-- The state after a read differs from the state before in the counter of draws alone. -/
theorem afterPortRead_eq (s : State) (reg : PortReg) :
    s.afterPortRead reg = s ∨ s.afterPortRead reg = { s with draws := s.draws + 1 } := by
  unfold State.afterPortRead
  split
  · unfold State.afterRead; split
    · exact .inr rfl
    · exact .inl rfl
  · exact .inl rfl

/-- A write runs a command, stores, or is refused by name (R66, R68). -/
theorem performWrite_cases (width : Width) (off : BitVec 16) (w : Word) (s : State) :
    (∃ why, performWrite width off w s = .next (s.answer (.refused why))) ∨
      (selectPort s width off = .ok .cmd ∧ performWrite width off w s = completeCommand (runWord w s)) ∨
      (∃ reg s', selectPort s width off = .ok reg ∧ reg ≠ .cmd ∧ portStore s w reg = .ok s' ∧
        performWrite width off w s = .next (s'.answer .written)) := by
  unfold performWrite
  cases hs : selectPort s width off with
  | error why => exact .inl ⟨why, rfl⟩
  | ok reg =>
    by_cases hc : reg = .cmd
    · subst hc; exact .inr (.inl ⟨rfl, rfl⟩)
    · cases hv : portStore s w reg with
      | error why => exact .inl ⟨why, by cases reg <;> simp_all⟩
      | ok s' => exact .inr (.inr ⟨reg, s', rfl, hc, hv, by cases reg <;> simp_all⟩)

/-- A command word runs the command it stands for or raises `ILL` (R94, R283). -/
theorem runWord_cases (w : Word) (s : State) :
    (∃ i, decode s.cfg.n w = .ok i ∧ runWord w s = exec i s) ∨
      (∃ e, decode s.cfg.n w = .error e ∧ runWord w s = .next (s.raise .ill)) := by
  unfold runWord
  cases hd : decode s.cfg.n w with
  | ok i => exact .inl ⟨i, rfl, rfl⟩
  | error e => exact .inr ⟨e, rfl, rfl⟩

/-- A step is idle or performs the oldest host event (R75, R311). -/
theorem step_cases (s : State) :
    (s.pending = [] ∧ step s = .next s) ∨
      (∃ e rest, s.pending = e :: rest ∧ step s = performEvent e { s with pending := rest }) := by
  unfold step
  cases hp : s.pending with
  | nil => exact .inl ⟨rfl, rfl⟩
  | cons e rest => exact .inr ⟨e, rest, rfl, rfl⟩

end Sys2Proof.Machine
end

