-- ==== Sys2Proof/Laws/Rounds.lean ====
section
/-! SUPPORT. The precision schedule in closed form, the results that do not depend on `prec`, runs of commands, and what
the commands of one Newton round and of one coupled round leave in their registers. -/

namespace Sys2Proof.Machine

/-- The rounds from number `k` on, `r` being the number of the last. -/
theorem scheduleFrom_eq {n r : Nat} (h2 : 12 * 2 ^ r ≤ 8 * n) (h3 : 8 * n < 12 * 2 ^ (r + 1)) (m k fuel : Nat)
    (hm : k + m = r + 1) (hf : m ≤ fuel) :
    scheduleFrom n fuel (12 * 2 ^ k) = (List.range m).map fun j => min n ((12 * 2 ^ (k + j) + 13) / 4) := by
  induction m generalizing k fuel with
  | zero =>
    obtain rfl : k = r + 1 := by omega
    cases fuel with
    | zero => rfl
    | succ f => rw [scheduleFrom, if_neg (by omega)]; rfl
  | succ m ih =>
    obtain ⟨f, rfl⟩ : ∃ f, fuel = f + 1 := ⟨fuel - 1, by omega⟩
    have hk : 2 ^ k ≤ 2 ^ r := Nat.pow_le_pow_right (by norm_num) (by omega)
    rw [scheduleFrom, if_pos (by omega), show 2 * (12 * 2 ^ k) = 12 * 2 ^ (k + 1) by ring, ih (k + 1) f (by omega) (by omega),
      List.range_succ_eq_map, List.map_cons, List.map_map]
    congr 1
    apply List.map_congr_left
    intro j _
    simp only [Function.comp_apply, Nat.succ_eq_add_one, show k + 1 + j = k + (j + 1) by omega]

/-- R175 in closed form: round `k` counts from 0 to the largest `r` with `12 * 2^r ≤ 8 * N`. -/
theorem schedule_eq {n r : Nat} (h2 : 12 * 2 ^ r ≤ 8 * n) (h3 : 8 * n < 12 * 2 ^ (r + 1)) :
    schedule n = (List.range (r + 1)).map fun k => min n ((12 * 2 ^ k + 13) / 4) := by
  have hr : r < 2 ^ r := Nat.lt_two_pow_self
  simpa [schedule] using scheduleFrom_eq h2 h3 (r + 1) 0 n (by omega) (by omega)

theorem mulLimbs_withPrec (a b : DValue) (q r p carry : Nat) (l : List Nat) :
    mulLimbs (a.withPrec q) (b.withPrec r) p carry l = mulLimbs a b p carry l := by
  induction p generalizing carry l with
  | zero => rfl
  | succ j ih => exact ih _ _

/-- `MulCore` reads no `prec` (R176). -/
theorem mulCore_withPrec (c : Config) (a b : DValue) (q r p : Nat) :
    mulCore c (a.withPrec q) (b.withPrec r) p = mulCore c a b p := by
  simp only [mulCore, mulRecord, mulFinite, mulLimbs_withPrec, withPrec_cls, withPrec_neg, withPrec_isZero, withPrec_exp]

/-- `Mul` of sources of precision `p` is `MulCore` at `p` (R161). -/
theorem decMul_withPrec (c : Config) (a b : DValue) {p : Nat} (h : p < 65536) :
    decMul c (a.withPrec p) (b.withPrec p) = mulCore c a b p := by
  rw [decMul, mulCore_withPrec, withPrec_prec, withPrec_prec, prec_toNat h, min_self]

/-- `Mul` of a source of precision `p` and a constant of the registry is `MulCore` at `p` (R161). -/
theorem decMul_withPrec_constant (c : Config) (a : DValue) {p : Nat} (h : p ≤ c.n) (hn : c.n < 65536) (l : Nat) (e : Int)
    (neg : Bool) : decMul c (a.withPrec p) (leadingLimb c.n l e neg) = mulCore c a (leadingLimb c.n l e neg) p := by
  have hb : leadingLimb c.n l e neg = (leadingLimb c.n l e neg).withPrec c.n := rfl
  rw [decMul, hb, mulCore_withPrec, withPrec_prec, withPrec_prec, prec_toNat (by omega), prec_toNat hn, min_eq_left h]
  exact congrArg (fun z => mulCore c a z p) hb

/-- `Add` reads no `prec` (R140). -/
theorem decAdd_withPrec (c : Config) (a b : DValue) (q r : Nat) :
    decAdd c (a.withPrec q) (b.withPrec r) = decAdd c a b := rfl

theorem decAdd_withPrec_left (c : Config) (a b : DValue) (q : Nat) : decAdd c (a.withPrec q) b = decAdd c a b := rfl

theorem exec_setprec_legal {d : DReg} {p : BitVec 12} {s : State} (h : 1 ≤ p.toNat ∧ p.toNat ≤ s.cfg.n) :
    exec (.setprec d p) s = .next (s.writeD d ((s.readD d).withPrec p.toNat)) := by
  have : precisionLegal s.cfg.n p.toNat = true := by simp [precisionLegal, h]
  simp [exec, execSetprec, this]

theorem execAll_next {i : Instr} {rest : List Instr} {s t : State} (h : exec i s = .next t) :
    execAll (i :: rest) s = execAll rest t := by
  rw [execAll, h]

theorem execAll_append {is js : List Instr} {s t : State} (h : execAll is s = .next t) :
    execAll (is ++ js) s = execAll js t := by
  induction is generalizing s with
  | nil => cases h; rfl
  | cons i is ih =>
    rw [List.cons_append, execAll]
    rw [execAll] at h
    cases hi : exec i s with
    | next u => rw [hi] at h; exact ih h
    | fault f => rw [hi] at h; cases h
    | refused r => rw [hi] at h; cases h

/-- The commands of a Newton round leave the next iterate in `D[y]` and the operand in `D[a]` (R176). -/
theorem execAll_recipRound {s : State} {a y t w : DReg} (hd : [a, y, t, w].Nodup) {p : BitVec 12}
    (hp : 1 ≤ p.toNat ∧ p.toNat ≤ s.cfg.n) :
    ∃ u, execAll (recipRoundCommands a y t w p) s = .next u ∧ u.cfg = s.cfg ∧
      u.readD a = (s.readD a).withPrec p.toNat ∧
      u.readD y = newtonRound s.cfg (s.readD a) (s.readD y) p.toNat := by
  have hn : p.toNat < 65536 := by omega
  simp only [List.nodup_cons, List.mem_cons, List.not_mem_nil, or_false, not_or] at hd
  obtain ⟨⟨ay, at', aw⟩, ⟨yt, yw⟩, tw, -⟩ := hd
  rw [recipRoundCommands, execAll_next (exec_setprec_legal hp), execAll_next (exec_setprec_legal (by simpa using hp)),
    execAll_next (t := _) (by simp only [exec, execMul]; rfl), execAll_next (t := _) (by simp only [exec, execLdc, registry]; rfl),
    execAll_next (t := _) (by simp only [exec, execSub]; rfl), execAll_next (exec_setprec_legal (by simpa using hp)),
    execAll_next (t := _) (by simp only [exec, execMul]; rfl)]
  refine ⟨_, rfl, by simp, ?_, ?_⟩
  · simp [readD_writeD, Ne.symm ay, Ne.symm at', Ne.symm aw]
  · simp [readD_writeD, ay, Ne.symm ay, Ne.symm yt, Ne.symm yw, Ne.symm tw, decMul_withPrec _ _ _ hn]
    rfl

/-- The commands of a coupled round leave the next pair in `D[y]` and `D[v]`, `D[v]` with the precision of the round, and do
not touch `D[a]` (R193). -/
theorem execAll_sqrtRound {s : State} {a y v t w : DReg} (hd : [a, y, v, t, w].Nodup) {p : BitVec 12}
    (hp : 1 ≤ p.toNat ∧ p.toNat ≤ s.cfg.n) (hc : s.cfg.n < 65536) :
    ∃ u, execAll (sqrtRoundCommands a y v t w p) s = .next u ∧ u.cfg = s.cfg ∧ u.readD a = s.readD a ∧
      u.readD y = (sqrtRound s.cfg (s.readD a) (s.readD y, s.readD v) p.toNat).1 ∧
      u.readD v = (sqrtRound s.cfg (s.readD a) (s.readD y, s.readD v) p.toNat).2.withPrec p.toNat := by
  have hn : p.toNat < 65536 := by omega
  simp only [List.nodup_cons, List.mem_cons, List.not_mem_nil, or_false, not_or] at hd
  obtain ⟨⟨ay, av, at', aw⟩, ⟨yv, yt, yw⟩, ⟨vt, vw⟩, tw, -⟩ := hd
  rw [sqrtRoundCommands, execAll_next (exec_setprec_legal hp), execAll_next (exec_setprec_legal (by simpa using hp)),
    execAll_next (t := _) (by simp only [exec, execMul]; rfl), execAll_next (t := _) (by simp only [exec, execNeg]; rfl),
    execAll_next (t := _) (by simp only [exec, execLdc, registry]; rfl), execAll_next (exec_setprec_legal (by simpa using hp)),
    execAll_next (t := _) (by simp only [exec, execMul]; rfl), execAll_next (t := _) (by simp only [exec, execLdc, registry]; rfl),
    execAll_next (t := _) (by simp only [exec, execAdd]; rfl), execAll_next (exec_setprec_legal (by simpa using hp)),
    execAll_next (t := _) (by simp only [exec, execMul]; rfl), execAll_next (t := _) (by simp only [exec, execAdd]; rfl),
    execAll_next (exec_setprec_legal (by simpa using hp)), execAll_next (t := _) (by simp only [exec, execMul]; rfl),
    execAll_next (t := _) (by simp only [exec, execNeg]; rfl), execAll_next (t := _) (by simp only [exec, execAdd]; rfl),
    execAll_next (exec_setprec_legal (by simpa using hp)), execAll_next (exec_setprec_legal (by simpa using hp)),
    execAll_next (t := _) (by simp only [exec, execMul]; rfl), execAll_next (t := _) (by simp only [exec, execAdd]; rfl)]
  refine ⟨_, rfl, by simp, ?_, ?_⟩
  · simp [readD_writeD, Ne.symm ay, Ne.symm av, Ne.symm at', Ne.symm aw]
  · simp [readD_writeD, yv, vt, tw, Ne.symm ay, Ne.symm av, Ne.symm at', Ne.symm aw,
      Ne.symm yv, Ne.symm yt, Ne.symm yw, Ne.symm vt, Ne.symm vw, Ne.symm tw, decMul_withPrec _ _ _ hn,
      decMul_withPrec_constant _ _ hp.2 hc, decAdd_withPrec_left, sqrtRound, sqrtRoundV, sqrtRoundY, twoValue, oneValue]

end Sys2Proof.Machine
end

