-- ==== Sys2Proof/Laws/Text.lean ====
section
/-! SUPPORT. Digit strings: the number a string writes, the limbs `PARSE` packs from it, the string `FORMAT` renders
(R226, R242 to R245). -/

namespace Sys2Proof

open Machine

theorem digitsValueFrom_eq (acc : Nat) (ds : List Nat) : digitsValueFrom acc ds = acc * 10 ^ ds.length + digitsValue ds := by
  unfold digitsValue
  induction ds generalizing acc with
  | nil => simp [digitsValueFrom]
  | cons d ds ih =>
    rw [digitsValueFrom, digitsValueFrom, ih, ih (10 * 0 + d), List.length_cons, pow_succ]; ring

@[simp] theorem digitsValue_nil : digitsValue [] = 0 := rfl

theorem digitsValue_cons (d : Nat) (ds : List Nat) : digitsValue (d :: ds) = d * 10 ^ ds.length + digitsValue ds := by
  rw [digitsValue, digitsValueFrom, digitsValueFrom_eq]; ring

theorem digitsValue_append (as bs : List Nat) :
    digitsValue (as ++ bs) = digitsValue as * 10 ^ bs.length + digitsValue bs := by
  induction as with
  | nil => simp
  | cons a as ih => rw [List.cons_append, digitsValue_cons, ih, digitsValue_cons, List.length_append, pow_add]; ring

@[simp] theorem digitsValue_replicate_zero (k : Nat) : digitsValue (List.replicate k 0) = 0 := by
  induction k with
  | zero => rfl
  | succ k ih => rw [List.replicate_succ, digitsValue_cons, ih]; simp

theorem digitsValue_lt {ds : List Nat} (h : ∀ d ∈ ds, d < 10) : digitsValue ds < 10 ^ ds.length := by
  induction ds with
  | nil => simp
  | cons d ds ih =>
    have := ih fun x hx => h x (by simp [hx])
    have hd := h d (by simp)
    rw [digitsValue_cons, List.length_cons, pow_succ]
    have : d * 10 ^ ds.length ≤ 9 * 10 ^ ds.length := Nat.mul_le_mul_right _ (by omega)
    omega

theorem digitsValue_ge {ds : List Nat} (h : ds.getD 0 0 ≠ 0) : 10 ^ (ds.length - 1) ≤ digitsValue ds := by
  cases ds with
  | nil => simp at h
  | cons d ds =>
    simp only [List.getD_cons_zero] at h
    rw [digitsValue_cons, List.length_cons, Nat.add_sub_cancel]
    exact Nat.le_add_right_of_le (Nat.le_mul_of_pos_left _ (Nat.pos_of_ne_zero h))

theorem digitsValue_take {ds : List Nat} (h : ∀ d ∈ ds, d < 10) (k : Nat) :
    digitsValue (ds.take k) = digitsValue ds / 10 ^ (ds.length - k) := by
  have h1 := digitsValue_append (ds.take k) (ds.drop k)
  rw [List.take_append_drop, List.length_drop] at h1
  have h2 := digitsValue_lt (ds := ds.drop k) fun d hd => h d (List.mem_of_mem_drop hd)
  rw [List.length_drop] at h2
  rw [h1, mul_comm, Nat.mul_add_div (by positivity), Nat.div_eq_of_lt h2, add_zero]

/-- A digit string cut after its first `k` digits, zeros standing for the digits it lacks, writes the floor of its
number in the new unit (R226). -/
theorem digitsValue_padded {ds : List Nat} (h : ∀ d ∈ ds, d < 10) (k m : Nat) (hm : k ≤ ds.length + m) :
    digitsValue ((ds ++ List.replicate m 0).take k) = scaleFloor (digitsValue ds) ((k : Int) - ds.length) := by
  unfold scaleFloor
  by_cases hk : ds.length ≤ k
  · rw [if_pos (by omega), List.take_append, List.take_of_length_le hk, List.take_replicate, digitsValue_append,
      digitsValue_replicate_zero, List.length_replicate, add_zero]
    congr 2; omega
  · rw [if_neg (by omega), List.take_append, show k - ds.length = 0 by omega, List.take_zero, List.append_nil,
      digitsValue_take h]
    congr 2; omega

/-- Grouping a digit string into a leading group of `r` digits and groups of 8 gives the limbs of its number (R226). -/
theorem limbsNat_groups (r m : Nat) (L : List Nat) (hL : L.length = r + 8 * m) :
    limbsNat (digitsValue (L.take r) :: (List.range m).map fun i => digitsValue ((L.drop (r + 8 * i)).take 8)) =
      digitsValue L := by
  induction m generalizing L with
  | zero =>
    rw [List.take_of_length_le (by omega)]
    simp [limbsNat_cons]
  | succ m ih =>
    have hsplit : L = L.take (r + 8 * m) ++ L.drop (r + 8 * m) := (List.take_append_drop _ _).symm
    have hlen : (L.take (r + 8 * m)).length = r + 8 * m := by simp; omega
    have hlast : (L.drop (r + 8 * m)).length = 8 := by simp; omega
    have key := ih (L.take (r + 8 * m)) hlen
    rw [List.range_succ, List.map_append, ← List.cons_append, limbsNat_append]
    have e1 : (digitsValue (L.take r) :: (List.range m).map fun i => digitsValue ((L.drop (r + 8 * i)).take 8)) =
        digitsValue ((L.take (r + 8 * m)).take r) ::
          (List.range m).map fun i => digitsValue (((L.take (r + 8 * m)).drop (r + 8 * i)).take 8) := by
      congr 1
      · rw [List.take_take]; congr 2; omega
      · apply List.map_congr_left
        intro i hi
        have := List.mem_range.1 hi
        rw [List.drop_take, List.take_take]
        congr 2; omega
    rw [e1, key]
    simp only [List.map_cons, List.map_nil, List.length_singleton, pow_one, limbsNat_cons, List.length_nil, pow_zero,
      mul_one, limbsNat_nil, add_zero]
    rw [List.take_of_length_le (l := L.drop (r + 8 * m)) (by omega)]
    conv_rhs => rw [hsplit, digitsValue_append, hlast, ← limbBase_eq]

theorem packDigits_spec {n r : Nat} {ds : List Nat} (hn : 1 ≤ n) (hd : ∀ d ∈ ds, d < 10) (hr : 1 ≤ r ∧ r ≤ 8)
    (h0 : ds.getD 0 0 ≠ 0) :
    (packDigits n r ds).length = n ∧ LimbsBelow (packDigits n r ds) ∧ (packDigits n r ds).getD 0 0 ≠ 0 ∧
      limbsNat (packDigits n r ds) = scaleFloor (digitsValue ds) (((r + 8 * (n - 1) : Nat) : Int) - ds.length) := by
  have hpd : ∀ d ∈ ds ++ List.replicate (r + 8 * (n - 1)) 0, d < 10 := by
    intro d h
    rcases List.mem_append.1 h with h | h
    · exact hd d h
    · rw [List.eq_of_mem_replicate h]; decide
  have hgroup : ∀ (l : List Nat) (k : Nat), (∀ d ∈ l, d < 10) → k ≤ 8 → digitsValue (l.take k) < limbBase := by
    intro l k hl hk
    have h1 := digitsValue_lt (ds := l.take k) fun d h => hl d (List.mem_of_mem_take h)
    refine lt_of_lt_of_le h1 ?_
    rw [limbBase_eq]
    exact Nat.pow_le_pow_right (by norm_num) (by simp; omega)
  refine ⟨by simp [packDigits]; omega, ?_, ?_, ?_⟩
  · intro l hl
    rw [packDigits] at hl
    rcases List.mem_cons.1 hl with h | h
    · rw [h]; exact hgroup _ _ hpd hr.2
    · obtain ⟨i, _, rfl⟩ := List.mem_map.1 h
      exact hgroup _ _ (fun d h => hpd d (List.mem_of_mem_drop h)) (le_refl _)
  · obtain ⟨d, ds', rfl⟩ : ∃ d ds', ds = d :: ds' := by
      cases ds with
      | nil => simp at h0
      | cons d ds' => exact ⟨d, ds', rfl⟩
    obtain ⟨k, rfl⟩ : ∃ k, r = k + 1 := ⟨r - 1, by omega⟩
    simp only [packDigits, List.getD_cons_zero, List.cons_append, List.take_succ_cons, digitsValue_cons] at h0 ⊢
    have : 0 < d * 10 ^ (List.take k (ds' ++ List.replicate (k + 1 + 8 * (n - 1)) 0)).length :=
      Nat.mul_pos (Nat.pos_of_ne_zero h0) (by positivity)
    omega
  · have hlen : ((ds ++ List.replicate (r + 8 * (n - 1)) 0).take (r + 8 * (n - 1))).length = r + 8 * (n - 1) := by
      simp
    have h1 := limbsNat_groups r (n - 1) _ hlen
    rw [digitsValue_padded hd _ _ (by omega)] at h1
    rw [← h1, packDigits]
    congr 2
    · rw [List.take_take]; congr 2; omega
    · apply List.map_congr_left
      intro i hi
      have := List.mem_range.1 hi
      rw [List.drop_take, List.take_take]
      congr 2; omega

/-- The magnitude a `number` denotes (R223). -/
theorem numberValue_truncates {c : Config} (hc : c.Valid) {p : NumberParts} (hd : ∀ d ∈ p.int ++ p.frac, d < 10) :
    TruncatesTo c ((digitsValue (p.int ++ p.frac) : ℚ) * (10 : ℚ) ^ (p.exp - p.frac.length)) p.sgn c.n (numberValue c p) := by
  have h5 := c.n_ge
  have hsplit := takeWhile_zero (p.int ++ p.frac)
  have hhead := @drop_takeWhile_zero (p.int ++ p.frac)
  have hle : ((p.int ++ p.frac).takeWhile (· == 0)).length ≤ (p.int ++ p.frac).length := (List.takeWhile_sublist _).length_le
  have hlen : (p.int ++ p.frac).length = p.int.length + p.frac.length := List.length_append
  unfold numberValue
  simp only
  generalize hS : p.int ++ p.frac = S at *
  generalize hz : (S.takeWhile (· == 0)).length = lz at *
  by_cases h : lz = S.length
  · rw [if_pos h]
    have h0 : digitsValue S = 0 := by rw [hsplit, h]; simp
    rw [h0, Nat.cast_zero, zero_mul]
    unfold TruncatesTo
    have h1 := ten_zpow_pos (c.maxExp : Int)
    have h2 := ten_zpow_pos ((c.maxExp : Int) - 8 * ((c.n : Int) - 1))
    rw [if_neg (by linarith), if_pos (ten_zpow_pos _)]
  · rw [if_neg h]
    have hN : digitsValue S = digitsValue (S.drop lz) := by
      conv_lhs => rw [hsplit]
      rw [digitsValue_append]; simp
    have hd' : ∀ d ∈ S.drop lz, d < 10 := fun d hd'' => hd d (List.mem_of_mem_drop hd'')
    generalize hw : p.exp + p.int.length - 1 - lz = w
    have hr : 1 ≤ (w - 8 * (w / 8) + 1).toNat ∧ (w - 8 * (w / 8) + 1).toNat ≤ 8 := by omega
    obtain ⟨s1, s2, s3, s4⟩ := packDigits_spec (n := c.n) (by omega) hd' hr (hhead h)
    have hU := lastUnit_pos c.n (8 * (w / 8))
    have hq : (digitsValue S : ℚ) * (10 : ℚ) ^ (p.exp - p.frac.length) =
        (digitsValue (S.drop lz) : ℚ) *
          (10 : ℚ) ^ ((((w - 8 * (w / 8) + 1).toNat + 8 * (c.n - 1) : Nat) : Int) - (S.drop lz).length) *
          lastUnit c.n (8 * (w / 8)) := by
      rw [hN, lastUnit, mul_assoc, ← zpow_add₀ (by norm_num)]
      congr 2
      rw [List.length_drop]; omega
    obtain ⟨g1, g2⟩ := scaleFloor_spec (digitsValue (S.drop lz))
      ((((w - 8 * (w / 8) + 1).toNat + 8 * (c.n - 1) : Nat) : Int) - (S.drop lz).length)
    rw [hq]
    rw [← s4] at g1 g2
    exact truncates_saturate hc s1 s2 s3 (by omega) ⟨by omega, le_refl _⟩ (mul_le_mul_of_nonneg_right g1 hU.le)
      (mul_lt_mul_of_pos_right g2 hU)

/-! ### Rendering -/

theorem padDigits_length (k l : Nat) : (padDigits k l).length = k := by simp [padDigits]

theorem padDigits_lt (k l : Nat) : ∀ d ∈ padDigits k l, d < 10 := by
  intro d hd
  obtain ⟨i, _, rfl⟩ := List.mem_map.1 hd
  exact Nat.mod_lt _ (by norm_num)

theorem padDigits_succ (k l : Nat) : padDigits (k + 1) l = (l / 10 ^ k % 10) :: padDigits k l := by
  simp only [padDigits, List.range_succ_eq_map, List.map_cons, List.map_map]
  congr 1
  · apply List.map_congr_left
    intro i hi
    have := List.mem_range.1 hi
    simp only [Function.comp]
    congr 3; omega

theorem digitsValue_padDigits (k l : Nat) : digitsValue (padDigits k l) = l % 10 ^ k := by
  induction k with
  | zero => simp [padDigits, Nat.mod_one]
  | succ k ih => rw [padDigits_succ, digitsValue_cons, padDigits_length, ih, pow_succ, Nat.mod_mul, mul_comm, add_comm]

theorem dropWhile_eq_drop (ls : List Nat) : ls.dropWhile (· == 0) = ls.drop (ls.takeWhile (· == 0)).length := by
  induction ls with
  | nil => rfl
  | cons a as ih =>
    by_cases h : a = 0
    · subst h; simpa using ih
    · have : (a == 0) = false := by simpa using h
      simp [this]

/-- The digits of a leading limb: between 1 and 8 of them, the first not zero, writing the limb (R242). -/
theorem leadingDigits_spec {l : Nat} (h0 : l ≠ 0) (hl : l < limbBase) :
    1 ≤ (leadingDigits l).length ∧ (leadingDigits l).length ≤ 8 ∧ (∀ d ∈ leadingDigits l, d < 10) ∧
      (leadingDigits l).getD 0 0 ≠ 0 ∧ digitsValue (leadingDigits l) = l := by
  have hv := digitsValue_padDigits 8 l
  rw [← limbBase_eq, Nat.mod_eq_of_lt hl] at hv
  have hsplit := takeWhile_zero (padDigits 8 l)
  have hhead := @drop_takeWhile_zero (padDigits 8 l)
  have hlen := padDigits_length 8 l
  have hlt := padDigits_lt 8 l
  unfold leadingDigits
  rw [dropWhile_eq_drop]
  generalize padDigits 8 l = P at *
  generalize (P.takeWhile (· == 0)).length = z at *
  have hz : z < P.length := by
    by_contra h
    rw [List.drop_of_length_le (by omega), List.append_nil] at hsplit
    rw [hsplit] at hv; simp at hv; omega
  refine ⟨by simp; omega, by simp; omega, fun d hd => hlt d (List.mem_of_mem_drop hd), hhead (by omega), ?_⟩
  conv_rhs => rw [← hv, hsplit, digitsValue_append]
  simp

theorem digitsValue_flatten (ls : List Nat) (h : LimbsBelow ls) :
    digitsValue ((ls.map (padDigits 8)).flatten) = limbsNat ls ∧ ((ls.map (padDigits 8)).flatten).length = 8 * ls.length ∧
      ∀ d ∈ (ls.map (padDigits 8)).flatten, d < 10 := by
  induction ls with
  | nil => simp
  | cons l ls ih =>
    obtain ⟨h1, h2, h3⟩ := ih fun x hx => h x (by simp [hx])
    rw [List.map_cons, List.flatten_cons, digitsValue_append, h1, h2, digitsValue_padDigits, limbsNat_cons, pow_mul,
      ← limbBase_eq, Nat.mod_eq_of_lt (h l (by simp))]
    refine ⟨rfl, by simp [padDigits_length, h2]; ring, ?_⟩
    intro d hd
    rcases List.mem_append.1 hd with hd | hd
    · exact padDigits_lt _ _ d hd
    · exact h3 d hd

/-- The digit string of a finite non-zero stored value writes its limbs: `8*N - 7` to `8*N` digits, the first not
zero (R242). -/
theorem digitString_spec {c : Config} {v : DValue} (hv : v.wf c) (hf : v.cls = .fin) (hz : v.isZero = false) :
    (digitString v).length = (leadingDigits (v.limb 0)).length + 8 * (c.n - 1) ∧ (∀ d ∈ digitString v, d < 10) ∧
      (digitString v).getD 0 0 ≠ 0 ∧ digitsValue (digitString v) = limbsNat v.nats := by
  obtain ⟨a1, a2, a3, a4, a5⟩ := leadingDigits_spec (limb_ne_zero hf hz) (hv.limbBelow 0)
  obtain ⟨b1, b2, b3⟩ := digitsValue_flatten (v.nats.drop 1) (limbsBelow_drop hv.natsBelow 1)
  have hl := hv.natsLength
  have h5 := c.n_ge
  rw [List.length_drop, hl] at b2
  unfold digitString
  refine ⟨by rw [List.length_append, b2], ?_, ?_, ?_⟩
  · intro d hd
    rcases List.mem_append.1 hd with hd | hd
    · exact a3 d hd
    · exact b3 d hd
  · cases hx : leadingDigits (v.limb 0) with
    | nil => rw [hx] at a1; simp at a1
    | cons x xs => rw [hx] at a4; simpa using a4
  · rw [digitsValue_append, a5, b1, b2, pow_mul, ← limbBase_eq]
    obtain ⟨rest, hx⟩ := nats_cons hv
    conv_rhs => rw [hx, limbsNat_cons]
    have : v.nats.drop 1 = v.limb 1 :: v.limb 2 :: rest := by rw [hx]; rfl
    rw [this]
    have : (v.limb 1 :: v.limb 2 :: rest).length = c.n - 1 := by rw [← this, List.length_drop, hl]
    rw [this]

theorem incrementDigits_length (ds : List Nat) : (incrementDigits ds).1.length = ds.length := by
  induction ds with
  | nil => rfl
  | cons d ds ih =>
    rw [incrementDigits]
    rcases h : incrementDigits ds with ⟨r, carry⟩
    rw [h] at ih
    simp only at ih ⊢
    split_ifs <;> simp [ih]

theorem roundDigits_length (ds : List Nat) (e0 : Int) (n : Nat) (hn : 1 ≤ n) :
    (roundDigits ds e0 n).1.length = min n ds.length := by
  unfold roundDigits
  split
  · simp only; omega
  · split
    · split
      · simp; omega
      · rw [incrementDigits_length, List.length_take]
    · rw [List.length_take]

/-- The text of a record fits the buffer: at most `8*N` bytes (R240). -/
theorem formatValue_length {c : Config} {v : DValue} (hv : v.wf c) {n : Nat} (hn : 1 ≤ n) :
    (formatValue v n).text.length ≤ 8 * c.n := by
  have h5 := c.n_ge
  unfold formatValue
  split
  · simp [nanText]; omega
  · simp [infText]; omega
  · rename_i hf
    split
    · simp; omega
    · rename_i hz
      have hz' : v.isZero = false := by simpa using hz
      obtain ⟨a1, a2, -⟩ := leadingDigits_spec (limb_ne_zero hf hz') (hv.limbBelow 0)
      obtain ⟨b1, -⟩ := digitString_spec hv hf hz'
      have := roundDigits_length (digitString v) (firstDigitExponent v) n hn
      simp only [List.length_map]
      rw [this]; omega

end Sys2Proof
end

