-- ==== Sys2Proof/Tests/Slice0.lean ====
section
/-! SUPPORT. Tests: the well-formedness checks refuse ill-formed commands, words written out from spec/30_encoding.md
decode to their commands, single steps give the results of spec/95_test_vectors.md (the section is named at each group),
and every statement with hypotheses has a state and operands that meet them. -/

set_option Elab.async false

namespace Sys2Proof.Tests

open Sys2Proof.Machine

/-! ### Helpers -/

/-- A finite record of the reference configuration: its limbs, exponent, sign and precision. -/
def num (ls : List (BitVec 32)) (exp : Int) (neg : Bool := false) (prec : BitVec 16 := 5) : DValue :=
  { limbs := ls, exp := exp, neg := neg, cls := .fin, prec := prec }

/-- The reset state with `D1 = a`, `D2 = b`, `X1 = x`, a text in the buffer and host events pending. -/
def bench (a b : DValue) (x : XWord) (text : List Byte) (events : List HostEvent) : State :=
  { (((State.reset.writeD 1 a).writeD 2 b).writeX 1 x).writeText 0 text with
    tlen := BitVec.ofNat 16 text.length, pending := events }

/-- `D[r]` after a step. -/
def dAfter (r : DReg) : Result → Option DValue
  | .next t => some (t.readD r)
  | _ => none

/-- `X[i]` after a step. -/
def xAfter (i : XReg) : Result → Option XWord
  | .next t => some (t.readX i)
  | _ => none

/-- What the port answered in a step. -/
def portAfter : Result → Option PortResponse
  | .next t => some t.port
  | _ => none

/-- `FLAGS` after a step. -/
def flagsAfter : Result → Option Word
  | .next t => some t.flags.word
  | _ => none

/-- `TBUF` as listed, `TLEN`, `FINFO` and `FEXP` after a step. -/
def recordAfter : Result → Option (List Byte × Nat × Nat × Int)
  | .next t => some (t.tbuf.cells.map Prod.snd, t.tlen.toNat, t.finfo.toNat, t.fexp.toInt)
  | _ => none

def zero : DValue := num [0, 0, 0, 0, 0] 0
def one : DValue := num [1, 0, 0, 0, 0] 0
def twoHalf : DValue := num [2, 50000000, 0, 0, 0] 0
def three : DValue := num [3, 0, 0, 0, 0] 0
def threeHalf : DValue := num [3, 50000000, 0, 0, 0] 0
def nines : DValue := num [99999999, 99999999, 99999999, 99999999, 99999999] (-8)
def maxv : DValue := num [1, 0, 0, 0, 0] 67108864
def minv : DValue := num [1, 0, 0, 0, 0] (-67108864)
def inf : DValue := { zero with cls := .inf }
def negInf : DValue := { inf with neg := true }
def nan : DValue := { zero with cls := .nan }

/-- Runs one command on the bench. -/
def run (i : Instr) (a b : DValue) (x : XWord := 0) (text : List Byte := []) : Result := exec i (bench a b x text [])

/-! ### WellFormed refuses ill-formed commands (R95 (c), (d)) -/

theorem test_ldc_unassigned_is_ill_formed : (Instr.ldc 0 14).wellFormed 5 = false := by decide
theorem test_ldc_last_id_is_ill_formed : (Instr.ldc 0 511).wellFormed 5 = false := by decide
theorem test_setprec_zero_is_ill_formed : (Instr.setprec 0 0).wellFormed 5 = false := by decide
theorem test_setprec_above_n_is_ill_formed : (Instr.setprec 0 6).wellFormed 5 = false := by decide
theorem test_setprec_n_is_well_formed : (Instr.setprec 0 5).wellFormed 5 = true := by decide

/-! ### Words written out from the formats and opcodes of R91 and R93 -/

theorem test_decode_limb_store :
    decode 5 0x00000000 = .ok .nop ∧ decode 5 0x01210000 = .ok (.mov 2 1) ∧ decode 5 0x02120000 = .ok (.neg 1 2) ∧
    decode 5 0x03010000 = .ok (.abs 0 1) ∧ decode 5 0x047001FE = .ok (.ldc 7 510) ∧
    decode 5 0x05200003 = .ok (.setprec 2 3) ∧ decode 5 0x06070000 = .ok (.getprec 0 7) ∧
    decode 5 0x08100000 = .ok (.fromu64 1 0) := by decide +kernel

theorem test_decode_conversions :
    decode 5 0x09120000 = .ok (.fromi64 1 2) ∧ decode 5 0x0A120000 = .ok (.fromf64 1 2) ∧
    decode 5 0x0C210000 = .ok (.tou64 2 1) ∧ decode 5 0x0D210000 = .ok (.toi64 2 1) ∧
    decode 5 0x0E210000 = .ok (.tof64 2 1) := by decide +kernel

theorem test_decode_arithmetic :
    decode 5 0x10312000 = .ok (.add 3 1 2) ∧ decode 5 0x11312000 = .ok (.sub 3 1 2) ∧
    decode 5 0x12312000 = .ok (.mul 3 1 2) ∧ decode 5 0x13312000 = .ok (.div 3 1 2) ∧
    decode 5 0x14210000 = .ok (.recip 2 1) ∧ decode 5 0x15210000 = .ok (.sqrt 2 1) := by decide +kernel

theorem test_decode_comparisons :
    decode 5 0x20512000 = .ok (.cmp 5 1 2) ∧ decode 5 0x21310000 = .ok (.iszero 3 1) ∧
    decode 5 0x22310000 = .ok (.isone 3 1) ∧ decode 5 0x23310000 = .ok (.isint 3 1) ∧
    decode 5 0x24310000 = .ok (.isneg 3 1) ∧ decode 5 0x25310000 = .ok (.isnan 3 1) ∧
    decode 5 0x26310000 = .ok (.isinf 3 1) ∧ decode 5 0x27310000 = .ok (.isfin 3 1) ∧
    decode 5 0x28310000 = .ok (.classof 3 1) := by decide +kernel

theorem test_decode_text :
    decode 5 0x30400000 = .ok (.parse 4) ∧ decode 5 0x31041000 = .ok (.format 4 1 .sci) ∧
    decode 5 0x31041001 = .ok (.format 4 1 .fix) := by decide +kernel

/-- spec/95_test_vectors.md 2.1: every illegal word it lists. -/
theorem test_decode_illegal :
    ([0x10312001, 0x00100000, 0x01213000, 0x07000000, 0x0B000000, 0x0F000000, 0x16000000, 0x1F000000, 0x29000000,
        0x2F000000, 0x32000000, 0xFF000000, 0xFFFFFFFF, 0x0400000E, 0x040000FF, 0x040001FF, 0x04000200, 0x04010001,
        0x05000000, 0x05000006, 0x30410000, 0x31140000, 0x31041002] : List Word).all
      (fun w => match decode 5 w with | .ok _ => false | .error _ => true) = true := by decide +kernel

theorem test_table_word : decodeTableWord 32 0x31041001 = some (.format 4 1 .fix) := by decide +kernel

/-! ### Limb store (spec/95_test_vectors.md 2.2, spec/40_limb_store.md) -/

theorem test_nop : run .nop twoHalf three = .next (bench twoHalf three 0 [] []) := rfl
theorem test_mov_copies_prec : dAfter 2 (run (.mov 2 1) (num [2, 50000000, 0, 0, 0] 0 false 3) zero) =
    some (num [2, 50000000, 0, 0, 0] 0 false 3) := by decide +kernel
theorem test_neg_value : dAfter 1 (run (.neg 1 1) twoHalf zero) = some (num [2, 50000000, 0, 0, 0] 0 true) := by
  decide +kernel
theorem test_neg_zero_and_infinity : dAfter 1 (run (.neg 1 1) zero zero) = some zero ∧
    dAfter 1 (run (.neg 1 1) inf zero) = some negInf := by decide +kernel
theorem test_abs : dAfter 0 (run (.abs 0 1) negInf zero) = some inf := by decide +kernel
theorem test_ldc_powers : dAfter 4 (run (.ldc 4 256) zero zero) =
      some (num [58, 77471754, 11143753, 98436826, 86111228] (-40)) ∧
    dAfter 7 (run (.ldc 7 510) zero zero) = some (num [1701411, 83460469, 23173168, 73037158, 84105728] 32) := by
  decide +kernel
theorem test_ldc_doubles : dAfter 2 (run (.ldc 2 12) zero zero) =
      some (num [17976, 93134862, 31570814, 52742373, 17043567] 304) ∧
    dAfter 3 (run (.ldc 3 13) zero zero) = some (num [22250, 73858507, 20138309, 2327173, 32404064] (-312)) := by
  decide +kernel
theorem test_setprec : dAfter 1 (run (.setprec 1 3) twoHalf zero) = some (num [2, 50000000, 0, 0, 0] 0 false 3) := by
  decide +kernel
theorem test_setprec_illegal : flagsAfter (run (.setprec 1 6) twoHalf zero) = some 0x8 := by decide +kernel
theorem test_getprec : xAfter 0 (run (.getprec 0 7) zero zero) = some 5 := by decide +kernel
theorem test_fromu64 : dAfter 3 (run (.fromu64 3 1) zero zero 0xFFFFFFFFFFFFFFFF) =
    some (num [1844, 67440737, 9551615, 0, 0] 16) := by decide +kernel
theorem test_fromu64_power : dAfter 3 (run (.fromu64 3 1) zero zero 0x002386F26FC10000) =
    some (num [1, 0, 0, 0, 0] 16) := by decide +kernel

/-! ### ADD and SUB (spec/95_test_vectors.md 2.3) -/

theorem test_add_last_limb : dAfter 3 (run (.add 3 1 2) one (num [1, 0, 0, 0, 0] (-32))) =
    some (num [1, 0, 0, 0, 1] 0) := by decide +kernel
theorem test_add_carry_to_maxv : dAfter 3 (run (.add 3 1 2) (num [50000000, 0, 0, 0, 0] 67108856)
    (num [50000000, 0, 0, 0, 0] 67108856)) = some maxv := by decide +kernel
theorem test_sub_borrow : dAfter 3 (run (.sub 3 1 2) (num [1, 23456789, 12500000, 0, 0] 8)
    (num [10000000, 0, 0, 0, 0] (-16))) = some (num [1, 23456789, 12499999, 90000000, 0] 8) := by decide +kernel
theorem test_sub_drops_past_the_last_limb : dAfter 3 (run (.sub 3 1 2) (num [1, 0, 0, 0, 0] 8)
    (num [1, 50000000, 0, 0, 0] (-24))) = some (num [99999999, 99999999, 99999999, 99999999, 0] 0) := by decide +kernel

/-! ### MUL, RECIP, DIV, SQRT (spec/95_test_vectors.md 2.4 to 2.6) -/

theorem test_mul_truncated : dAfter 3 (run (.mul 3 1 2) (num [1, 23456789, 1234567, 80000000, 0] 0)
    (num [1, 23456789, 1234567, 80000000, 0] 0)) = some (num [1, 52415787, 53238836, 52796829, 95677489] 0) := by
  decide +kernel
theorem test_mul_reduced : dAfter 3 (run (.mul 3 1 2) (num [6, 0, 0, 0, 0] 0 false 2)
    (num [33333333, 33333333, 33333333, 33333333, 66666666] (-8))) =
    some (num [1, 99999999, 99999998, 0, 0] 0 false 2) := by decide +kernel
/-- A result that is no finite non-zero value has the smaller precision too (R28). -/
theorem test_mul_special_prec : dAfter 3 (run (.mul 3 1 2) (num [6, 0, 0, 0, 0] 0 false 2) zero) =
    some (num [0, 0, 0, 0, 0] 0 false 2) ∧
    dAfter 3 (run (.mul 3 1 2) (num [2, 0, 0, 0, 0] 33554432 true 3) (num [5, 0, 0, 0, 0] 33554432)) =
      some (negInf.withPrec 3) := by decide +kernel
/-- `6 / 0` with a dividend of precision 2 (R171). -/
theorem test_div_by_zero_prec : dAfter 3 (run (.div 3 1 2) (num [6, 0, 0, 0, 0] 0 false 2) zero) = some (inf.withPrec 2) := by
  decide +kernel
theorem test_recip_three : dAfter 2 (run (.recip 2 1) three zero) =
    some (num [33333333, 33333333, 33333333, 33333333, 66666666] (-8)) := by decide +kernel
/-- The first round of the worked example of R177, run with commands. -/
theorem test_recip_round : dAfter 2 (execAll (recipRoundCommands 1 2 3 4 5)
    (bench three (num [33333333, 33333333, 33333333, 0, 0] (-8)) 0 [] [])) =
    some (num [33333333, 33333333, 33333333, 33333333, 33333333] (-8)) := by decide +kernel
theorem test_recip_minv : dAfter 2 (run (.recip 2 1) minv zero) = some maxv := by decide +kernel
theorem test_div_general : dAfter 3 (run (.div 3 1 2) (num [355, 0, 0, 0, 0] 0) (num [113, 0, 0, 0, 0] 0)) =
    some (num [3, 14159292, 3539823, 884955, 75221242] 0) := by decide +kernel
theorem test_div_fast_path : dAfter 3 (run (.div 3 1 2) (num [2, 0, 0, 0, 0] 0) (num [2, 0, 0, 0, 0] 0 true 3)) =
    some (num [1, 0, 0, 0, 0] 0 true) := by decide +kernel
theorem test_sqrt_two : dAfter 2 (run (.sqrt 2 1) (num [2, 0, 0, 0, 0] 0) zero) =
    some (num [1, 41421356, 23730950, 48801689, 4220100] 0) := by decide +kernel
theorem test_sqrt_negative : flagsAfter (run (.sqrt 2 1) (num [4, 0, 0, 0, 0] 0 true) zero) = some 0x1 ∧
    dAfter 2 (run (.sqrt 2 1) (num [4, 0, 0, 0, 0] 0 true) zero) = some nan := by decide +kernel

/-! ### CMP and predicates (spec/95_test_vectors.md 2.7) -/

theorem test_cmp_below : xAfter 5 (run (.cmp 5 1 2) twoHalf threeHalf) = some 0xFFFFFFFFFFFFFFFF := by decide +kernel
theorem test_cmp_last_limb : xAfter 5 (run (.cmp 5 1 2) (num [1, 0, 0, 0, 1] 0) one) = some 1 := by decide +kernel
theorem test_iszero : xAfter 0 (run (.iszero 0 1) zero one) = some 1 ∧ xAfter 0 (run (.iszero 0 2) zero one) = some 0 := by
  decide +kernel
theorem test_isone : xAfter 0 (run (.isone 0 1) nines (num [1, 50000000, 0, 0, 0] 0)) = some 1 ∧
    xAfter 0 (run (.isone 0 2) nines (num [1, 50000000, 0, 0, 0] 0)) = some 0 := by decide +kernel
theorem test_isint : xAfter 0 (run (.isint 0 1) (num [1, 2, 3, 4, 5] 32) nines) = some 1 ∧
    xAfter 0 (run (.isint 0 2) (num [1, 2, 3, 4, 5] 32) nines) = some 0 := by decide +kernel
theorem test_isneg : xAfter 0 (run (.isneg 0 1) negInf zero) = some 1 := by decide +kernel
theorem test_isnan : xAfter 0 (run (.isnan 0 1) nan inf) = some 1 ∧ xAfter 0 (run (.isnan 0 2) nan inf) = some 0 := by
  decide +kernel
theorem test_isinf : xAfter 0 (run (.isinf 0 1) negInf nan) = some 1 ∧ xAfter 0 (run (.isinf 0 2) negInf nan) = some 0 := by
  decide +kernel
theorem test_isfin : xAfter 0 (run (.isfin 0 1) minv inf) = some 1 ∧ xAfter 0 (run (.isfin 0 2) minv inf) = some 0 := by
  decide +kernel
theorem test_class : xAfter 0 (run (.classof 0 1) nan negInf) = some 2 ∧ xAfter 0 (run (.classof 0 2) nan negInf) = some 1 := by
  decide +kernel

/-! ### PARSE and FORMAT (spec/95_test_vectors.md 2.8, 2.9, and its examples S1 and S3) -/

theorem test_parse_number : dAfter 4 (run (.parse 4) zero zero 0
    [0x2D, 0x31, 0x32, 0x33, 0x34, 0x35, 0x36, 0x37, 0x38, 0x39, 0x2E, 0x31, 0x32, 0x35]) =
    some (num [1, 23456789, 12500000, 0, 0] 8 true) := by decide +kernel
theorem test_parse_error : flagsAfter (run (.parse 1) twoHalf zero 0 [0x31, 0x65]) = some 0x2 ∧
    dAfter 1 (run (.parse 1) twoHalf zero 0 [0x31, 0x65]) = some twoHalf := by decide +kernel
theorem test_format_half_to_even : recordAfter (run (.format 1 1 .sci) twoHalf zero 1) = some ([0x32], 1, 1, 0) := by
  decide +kernel
theorem test_format_carry : recordAfter (run (.format 1 1 .sci) (num [9, 50000000, 0, 0, 0] 0) zero 1) =
    some ([0x31], 1, 1, 1) := by decide +kernel
theorem test_format_infinity : recordAfter (run (.format 1 1 .fix) negInf zero 7) =
    some ([0x69, 0x6E, 0x66], 3, 0xB0003, 0) := by decide +kernel

/-! ### Conversions (spec/95_test_vectors.md 2.10, spec/48_conversions.md R264, R265) -/

theorem test_fromi64 : dAfter 3 (run (.fromi64 3 1) zero zero 0x8000000000000000) =
    some (num [922, 33720368, 54775808, 0, 0] 16 true) := by decide +kernel
theorem test_fromf64 : dAfter 3 (run (.fromf64 3 1) zero zero 0x3FD5555555555555) =
    some (num [33333333, 33333333, 14829616, 25624739, 9929394] (-8)) := by decide +kernel
theorem test_tou64 : xAfter 0 (run (.tou64 0 1) (num [1000, 0, 0, 0, 0] 16) twoHalf) = some 0x8AC7230489E80000 ∧
    xAfter 0 (run (.tou64 0 2) zero (num [2, 50000000, 0, 0, 0] 0 true)) = some 0 := by decide +kernel
theorem test_toi64 : xAfter 0 (run (.toi64 0 1) (num [1000, 0, 0, 0, 0] 16) zero) = some 0x7FFFFFFFFFFFFFFF ∧
    xAfter 0 (run (.toi64 0 2) zero (num [2, 50000000, 0, 0, 0] 0 true)) = some 0xFFFFFFFFFFFFFFFE := by decide +kernel
theorem test_tof64 : xAfter 0 (run (.tof64 0 1) twoHalf zero) = some 0x4004000000000000 := by decide +kernel
theorem test_tof64_seventh : xAfter 0 (run (.tof64 0 1)
    (num [14285714, 28571428, 57142857, 14285714, 42857142] (-8)) zero) = some 0x3FC2492492492492 := by decide +kernel

/-! ### The port (spec/95_test_vectors.md 2.11, 2.12) -/

theorem test_step_runs_the_command :
    dAfter 3 (step ((bench twoHalf threeHalf 0 [] []).withFetchWord 32 0x10312000)) = some (num [6, 0, 0, 0, 0] 0) := by
  decide +kernel
theorem test_flags_write_one_to_clear : flagsAfter (step { bench zero zero 0 [] [.write .w32 0x0008 0x00000002] with
    flags := { dom := true, perr := true, ill := true } }) = some 0x9 := by decide +kernel
theorem test_tlen_saturates : (match step (bench zero zero 0 [] [.write .w32 0x000C 0x00010005]) with
    | .next t => t.tlen.toNat | _ => 0) = 4096 := by decide +kernel
theorem test_x_window : xAfter 1 (step (bench zero zero 0x1122334455667788 [] [.write .w32 0x0108 0xAAAAAAAA])) =
    some 0x11223344AAAAAAAA := by decide +kernel
theorem test_dmeta : portAfter (step { bench negInf zero 0 [] [.read .w32 0x0050] with dsel := 0x00000001 }) =
    some (.data 0x00050003) := by decide +kernel
theorem test_dlimb : portAfter (step { bench zero (num [3, 3, 3, 3, 66666666] (-8) true) 0 [] [.read .w32 0x0044] with
    dsel := 0x00040002 }) = some (.data 0x03F940AA) := by decide +kernel
theorem test_text_window : portAfter (step (bench zero zero 0 [0x32, 0x2E, 0x35, 0x00] [.read .w32 0x8000])) =
    some (.data 0x00352E32) := by decide +kernel
theorem test_configuration : portAfter (step (bench zero zero 0 [] [.read .w32 0x0024])) = some (.data 0x10100005) := by
  decide +kernel
theorem test_refused : portAfter (step (bench zero zero 0 [] [.read .w32 0x0000])) = some (.refused .writeOnly) ∧
    portAfter (step (bench zero zero 0 [] [.write .w32 0x9000 1])) = some (.refused .beyondTextBuffer) := by
  decide +kernel

/-! ### Every statement with hypotheses has a state and operands that meet them

Each theorem is named after the statement; where a statement has several clauses there is a case for each. -/

theorem valid_reference : Config.reference.Valid := by decide +kernel

theorem reset_d : ∀ r : DReg, State.reset.readD r = DValue.zero Config.reference.n := by decide +kernel

/-- The bench meets the invariants. -/
theorem bench_inv {a b : DValue} {x : XWord} {text : List Byte} {events : List HostEvent}
    (ha : a.wf Config.reference) (hb : b.wf Config.reference) (ht : text.length ≤ 4096) :
    (bench a b x text events).Inv where
  valid := valid_reference
  values r := by
    have h : (bench a b x text events).readD r = if 2 = r then b else if 1 = r then a else State.reset.readD r := by
      rw [← readD_writeD, ← readD_writeD]; rfl
    rw [h, reset_d]
    show DValue.wf Config.reference _
    split
    · exact hb
    · split
      · exact ha
      · exact zero_wf valid_reference
  tlen := by
    show (BitVec.ofNat 16 text.length).toNat ≤ 4096
    rw [BitVec.toNat_ofNat]; omega
  canonical := TextBuffer.writeBytes_wf (t := { cells := [] }) List.Pairwise.nil 0 text
  inBuffer cell hc := by
    show cell.1 < 4096
    rcases TextBuffer.mem_writeBytes (t := { cells := [] }) hc with h | h
    · omega
    · cases h
  dselBits := by show (0 : BitVec 32) &&& dselMask = 0; decide
  idle := rfl

theorem finite_bench {x : XWord} {text : List Byte} {events : List HostEvent} (h : text.length ≤ 4096) :
    (bench twoHalf threeHalf x text events).Inv := bench_inv (by decide +kernel) (by decide +kernel) h

theorem witness_EncodeThenDecode : (Instr.ldc 15 510).wellFormed 5 = true ∧ (Instr.setprec 15 5).wellFormed 5 = true := by
  decide

theorem witness_DecodeThenEncode : decode 5 0x04F001FE = .ok (.ldc 15 510) ∧ decode 5 0x05F00005 = .ok (.setprec 15 5) := by
  decide +kernel

theorem witness_DecodingIsTotalAndExclusive :
    (0x10, 0xFF000FFF) ∈ commandRows ∧ RowMatches 5 (0x10, 0xFF000FFF) 0x10312000 ∧
    rowCommand 0x10 0x10312000 = some (.add 3 1 2) := by
  refine ⟨by simp [commandRows], by simp [RowMatches], by decide +kernel⟩

theorem witness_StepRunsTheCommand :
    (bench twoHalf threeHalf 0 [] [.write .w32 0 0x10312000]).pending = [.write .w32 0 0x10312000] ∧
    decode (bench twoHalf threeHalf 0 [] []).cfg.n 0x10312000 = .ok (.add 3 1 2) := by decide +kernel

theorem witness_IllegalCommandSetsIll :
    (¬ ∃ row ∈ commandRows, RowMatches (bench zero zero 0 [] []).cfg.n row 0x10312001) ∧
    decode (bench zero zero 0 [] []).cfg.n 0x31041000 = .ok (.format 4 1 .sci) ∧
    (bench zero zero 0 [] []).readX 1 = 0 := by
  refine ⟨by simp [commandRows, RowMatches], by decide +kernel, by decide +kernel⟩

theorem witness_ResetValues : (bench twoHalf three 1 [0x30] [.reset]).pending = .reset :: [] := rfl

theorem witness_ResetMeetsInvariants : Config.reference.Valid ∧
    ({ Config.reference with digits := 321, ew := 10, maxExp := 320, tbytes := 352 } : Config).Valid := by decide +kernel

theorem witness_StepKeepsInvariants :
    (bench twoHalf threeHalf 0 [] [.write .w32 0 0x10312000]).Inv ∧
    ∃ t, step (bench twoHalf threeHalf 0 [] [.write .w32 0 0x10312000]) = .next t :=
  ⟨finite_bench (by decide), _, rfl⟩

theorem witness_StepCompletes : (bench twoHalf threeHalf 1 [0x31] [.write .w32 0 0x31011000]).Inv := finite_bench (by decide)

theorem witness_StepTakesOneEvent :
    (∃ t, step (bench twoHalf threeHalf 0 [] [.write .w32 0 0x10312000]) = .next t) ∧ State.reset.pending = [] :=
  ⟨⟨_, rfl⟩, rfl⟩

theorem witness_CommandsOnlySetFlags : ∃ t, exec (.sqrt 2 1)
    { bench three three 0 [] [] with flags := { dom := true, perr := true, ill := true } } = .next t := ⟨_, rfl⟩

/-- One case for each flag, and one without. -/
theorem witness_WhichCommandRaisesWhichFlag :
    (∃ t, run (.add 3 1 2) twoHalf three = .next t) ∧ flagsAfter (run (.sqrt 2 1) nan zero) = some 0x1 ∧
    flagsAfter (run (.parse 1) zero zero 0 [0x2E]) = some 0x2 ∧ flagsAfter (run (.ldc 1 14) zero zero) = some 0x8 ∧
    flagsAfter (run (.format 1 1 .sci) three zero 0) = some 0x8 := by
  refine ⟨⟨_, rfl⟩, by decide +kernel, by decide +kernel, by decide +kernel, by decide +kernel⟩

theorem witness_CommandsReadOnlyTheirSources :
    let s := bench twoHalf threeHalf 0 [] []
    let s' := { s with flags := { dom := true, perr := true, ill := true }, fexp := 1, finfo := 1, dsel := 1 }
    SameD s s' ∧ SameX s s' ∧ s'.tlen = s.tlen ∧ s'.tbuf = s.tbuf ∧ s'.cfg = s.cfg ∧ s'.draws = s.draws ∧
      ∃ t, exec (.add 3 1 2) s = .next t :=
  ⟨fun _ => rfl, fun _ => rfl, rfl, rfl, rfl, rfl, _, rfl⟩

theorem witness_OnlyFormatWritesText : ∃ t, run (.format 1 1 .sci) twoHalf zero 1 = .next t := ⟨_, rfl⟩

theorem witness_CommandsWriteOnlyTheirDestination :
    (∃ t, run (.mul 3 1 2) twoHalf three = .next t) ∧ destD (.mul 3 1 2) ≠ some 2 ∧ destX (.cmp 5 1 2) ≠ some 4 :=
  ⟨⟨_, rfl⟩, by decide, by decide⟩

theorem witness_HostCannotWriteD :
    (∃ t, step (bench twoHalf three 0 [] [.write .w8 0 0x10312000]) = .next t) ∧ ¬(Width.w8 = .w32 ∧ (0 : BitVec 16) = 0) :=
  ⟨⟨_, rfl⟩, by decide⟩

theorem witness_PortReadsHaveNoSideEffect :
    (bench zero zero 0 [] [.read .w32 0x8000]).pending = .read .w32 0x8000 :: [] := rfl

/-- Accepted and refused offsets at the edges of the map. -/
theorem witness_RefusedAccesses :
    ReadAccepted 4096 .w32 0x8FFC ∧ ¬ ReadAccepted 4096 .w32 0x9000 ∧ ¬ ReadAccepted 4096 .w32 0 ∧
    ¬ ReadAccepted 4096 .w16 4 ∧ WriteAccepted 4096 .w32 0x017C ∧ ¬ WriteAccepted 4096 .w32 0x0180 ∧
    ¬ WriteAccepted 4096 .w32 4 := by
  simp [ReadAccepted, WriteAccepted, ReadWriteOffset, ReadOnlyOffset]

theorem witness_FlagsRegister :
    (bench zero zero 0 [] [.write .w32 0x0008 2]).pending = .write .w32 0x0008 2 :: [] ∧
    (bench zero zero 0 [] [.read .w32 0x0008]).pending = .read .w32 0x0008 :: [] := ⟨rfl, rfl⟩

theorem witness_TlenRegister : (bench zero zero 0 [] []).cfg.Valid ∧
    (bench zero zero 0 [] [.write .w32 0x000C 4097]).pending = .write .w32 0x000C 4097 :: [] ∧
    (bench zero zero 0 [] [.read .w32 0x000C]).pending = .read .w32 0x000C :: [] := ⟨valid_reference, rfl, rfl⟩

theorem witness_XWindow :
    (bench zero zero 0 [] [.write .w32 0x0178 1]).pending = .write .w32 (BitVec.ofNat 16 (0x100 + 8 * (15 : XReg).toNat)) 1 :: [] ∧
    (bench zero zero 0 [] [.read .w32 0x017C]).pending = .read .w32 (BitVec.ofNat 16 (0x104 + 8 * (15 : XReg).toNat)) :: [] := by
  decide +kernel

theorem witness_TextWindow :
    (bench twoHalf threeHalf 0 [1, 2, 3, 4] [.read .w32 0x8000]).Inv ∧ 4 * 1023 < 4096 ∧
    (List.range 4).map (bench twoHalf threeHalf 0 [1, 2, 3, 4] []).tbuf.read = [some 1, some 2, some 3, some 4] ∧
    (bench twoHalf threeHalf 0 [] [.write .w32 0x8FFC 1]).pending =
      .write .w32 (BitVec.ofNat 16 (0x8000 + 4 * 1023)) 1 :: [] :=
  ⟨finite_bench (by decide), by decide, by decide +kernel, by decide +kernel⟩

theorem witness_ObservationWindow : (bench twoHalf threeHalf 0 [] [.read .w32 0x0044]).Inv ∧
    (bench twoHalf threeHalf 0 [] [.read .w32 0x0044]).pending = .read .w32 0x0044 :: [] ∧
    (bench twoHalf threeHalf 0 [] [.write .w32 0x0040 0xFFFFFFFF]).pending = .write .w32 0x0040 0xFFFFFFFF :: [] :=
  ⟨finite_bench (by decide), rfl, rfl⟩

theorem witness_ReadOnlyRegisters : (bench twoHalf threeHalf 0 [] [.read .w32 0x0034]).Inv ∧
    (bench twoHalf threeHalf 0 [] [.read .w32 0x0034]).pending = .read .w32 0x0034 :: [] := ⟨finite_bench (by decide), rfl⟩

/-- The edges of the assigned and the unassigned ids. -/
theorem witness_LdcLoadsTheRegistry : (bench zero zero 0 [] []).cfg.Valid ∧
    (256 ≤ (510 : BitVec 9).toNat ∧ (510 : BitVec 9).toNat ≤ 510) ∧ (14 ≤ (255 : BitVec 9).toNat ∧ (255 : BitVec 9).toNat ≤ 255) ∧
    (511 : BitVec 9).toNat = 511 := ⟨valid_reference, by decide⟩

theorem witness_PrecisionCommands : (1 ≤ (5 : BitVec 12).toNat ∧ (5 : BitVec 12).toNat ≤ (bench zero zero 0 [] []).cfg.n) ∧
    (bench zero zero 0 [] []).cfg.n < (6 : BitVec 12).toNat := by decide

theorem witness_FromIntegersExact : (bench zero zero 0x8000000000000000 [] []).cfg.Valid := valid_reference

/-- A NaN, an infinity, a zero and a subnormal pattern. -/
theorem witness_FromF64Values : (bench zero zero 0x7FF8000000000000 [] []).cfg.Valid ∧
    (binary64Exponent 0x7FF8000000000000 = 0x7FF ∧ binary64Fraction 0x7FF8000000000000 ≠ 0) ∧
    (binary64Exponent 0xFFF0000000000000 = 0x7FF ∧ binary64Fraction 0xFFF0000000000000 = 0) ∧
    (binary64Exponent 0x8000000000000000 = 0 ∧ binary64Fraction 0x8000000000000000 = 0) ∧
    (binary64Exponent 1 ≠ 0x7FF ∧ binary64Fraction 1 ≠ 0) := ⟨valid_reference, by decide +kernel⟩

theorem witness_ToIntegersTruncateAndClamp : (bench (num [922, 33720368, 54775808, 0, 0] 16 true) negInf 0 [] []).Inv :=
  bench_inv (by decide +kernel) (by decide +kernel) (by decide)

theorem witness_IntegerRoundTrip : (bench zero nan 0x8000000000000000 [] []).Inv :=
  bench_inv (by decide +kernel) (by decide +kernel) (by decide)

/-- Values below DBLMIN, above DBLMAX and between, an infinity and a NaN. -/
theorem witness_ToF64Ranges : (bench minv maxv 0 [] []).Inv ∧ (bench negInf nan 0 [] []).Inv ∧ (bench twoHalf zero 0 [] []).Inv ∧
    |zero.val| < (doubleMin 5).val ∧ (2 ^ 53 - 1) * (2 : ℚ) ^ (971 : Int) < |(num [1, 0, 0, 0, 0] 312).val| ∧
    (doubleMin 5).val ≤ |twoHalf.val| ∧ |twoHalf.val| ≤ (2 ^ 53 - 1) * (2 : ℚ) ^ (971 : Int) := by
  refine ⟨bench_inv ?_ ?_ ?_, bench_inv ?_ ?_ ?_, bench_inv ?_ ?_ ?_, ?_⟩ <;> decide +kernel

theorem witness_DecToF64IsNearest :
    (∀ x ∈ [2, 5], x < 10) ∧
    (0 : ℚ) < digitsValue [2, 5] * (10 : ℚ) ^ ((0 : Int) - ([2, 5] : List Nat).length + 1) ∧
    digitsValue [2, 5] * (10 : ℚ) ^ ((0 : Int) - ([2, 5] : List Nat).length + 1) < 2 ^ 1024 - 2 ^ 970 ∧
    (2 ^ 1024 - 2 ^ 970 : ℚ) ≤ digitsValue [2, 5] * (10 : ℚ) ^ ((309 : Int) - ([2, 5] : List Nat).length + 1) := by
  decide +kernel

theorem witness_AddSpecialOperands : ((bench inf twoHalf 0 [] []).readD 1).cls ≠ .fin ∧
    ((bench zero twoHalf 0 [] []).readD 1).isZero = true := by decide +kernel

/-- Both sides of the cut-off, one limb-step beyond it, and the last exponent before it. -/
theorem witness_AddCutoff : (bench one (num [1, 0, 0, 0, 0] (-40)) 0 [] []).Inv ∧
    (bench (num [1, 0, 0, 0, 0] (-40)) one 0 [] []).Inv ∧ FiniteNonzero one ∧ FiniteNonzero (num [1, 0, 0, 0, 0] (-40)) ∧
    8 * ((Config.reference.n : Int) - 1) < one.exp - (num [1, 0, 0, 0, 0] (-40)).exp ∧
    (bench one (num [1, 0, 0, 0, 0] (-32)) 0 [] []).Inv ∧ FiniteNonzero (num [1, 0, 0, 0, 0] (-32)) ∧
    one.exp - (num [1, 0, 0, 0, 0] (-32)).exp = 8 * ((Config.reference.n : Int) - 1) :=
  ⟨bench_inv (by decide +kernel) (by decide +kernel) (by decide), bench_inv (by decide +kernel) (by decide +kernel) (by decide),
    by unfold FiniteNonzero; decide +kernel, by unfold FiniteNonzero; decide +kernel, by decide +kernel,
    bench_inv (by decide +kernel) (by decide +kernel) (by decide), by unfold FiniteNonzero; decide +kernel, by decide +kernel⟩

theorem witness_AddSameSignTruncates : (bench twoHalf threeHalf 0 [] []).Inv ∧ FiniteNonzero twoHalf ∧
    FiniteNonzero threeHalf ∧ twoHalf.neg = threeHalf.neg :=
  ⟨finite_bench (by decide), by unfold FiniteNonzero; decide +kernel, by unfold FiniteNonzero; decide +kernel, rfl⟩

theorem witness_AddDifferentSignTruncates : (bench three twoHalf.negate 0 [] []).Inv ∧ FiniteNonzero three ∧
    FiniteNonzero twoHalf.negate ∧ three.neg ≠ twoHalf.negate.neg ∧ |twoHalf.negate.val| ≤ |three.val| :=
  ⟨bench_inv (by decide +kernel) (by decide +kernel) (by decide), by unfold FiniteNonzero; decide +kernel,
    by unfold FiniteNonzero; decide +kernel, by decide +kernel, by decide +kernel⟩

theorem witness_AddCommutesAndIgnoresPrec : (bench maxv negInf 0 [] []).Inv :=
  bench_inv (by decide +kernel) (by decide +kernel) (by decide)

theorem witness_AddIdentityAndInverse : (bench twoHalf zero 0 [] []).Inv ∧ (bench twoHalf twoHalf.negate 0 [] []).Inv ∧
    (bench twoHalf zero 0 [] []).readD 2 = DValue.zero 5 ∧
    (bench twoHalf twoHalf.negate 0 [] []).readD 2 = ((bench twoHalf twoHalf.negate 0 [] []).readD 1).negate :=
  ⟨bench_inv (by decide +kernel) (by decide +kernel) (by decide), bench_inv (by decide +kernel) (by decide +kernel) (by decide),
    by decide +kernel, by decide +kernel⟩

theorem witness_SubIsAddOfTheNegation : (bench twoHalf inf 0 [] []).Inv ∧ (7 : DReg) ≠ 2 ∧ (7 : DReg) ≠ 1 :=
  ⟨bench_inv (by decide +kernel) (by decide +kernel) (by decide), by decide, by decide⟩

theorem witness_MulSpecialOperands : ((bench inf zero 0 [] []).readD 1).cls ≠ .fin ∧
    ((bench twoHalf zero 0 [] []).readD 2).isZero = true := by decide +kernel

theorem witness_MulTruncatesTheFormedProducts : (bench nines (num [6, 0, 0, 0, 0] 0 true 2) 0 [] []).Inv ∧
    FiniteNonzero nines ∧ FiniteNonzero (num [6, 0, 0, 0, 0] 0 true 2) :=
  ⟨bench_inv (by decide +kernel) (by decide +kernel) (by decide), by unfold FiniteNonzero; decide +kernel,
    by unfold FiniteNonzero; decide +kernel⟩

theorem witness_MulLaws : (bench twoHalf one 0 [] []).Inv ∧ twoHalf.cls = .fin ∧ one.cls = .fin ∧
    dAfter 3 (run (.mul 3 1 2) twoHalf one) = some twoHalf ∧ twoHalf.prec.toNat = (bench twoHalf one 0 [] []).cfg.n ∧
    (bench twoHalf one 0 [] []).readD 2 = recordOf Config.reference [1] 0 false :=
  ⟨bench_inv (by decide +kernel) (by decide +kernel) (by decide), rfl, rfl, by decide +kernel, by decide +kernel,
    by decide +kernel⟩

/-- All nines, minus one, an infinity, a zero and a NaN. -/
theorem witness_RecipSpecialOperands : (bench nines one.negate 0 [] []).Inv ∧ (bench inf zero 0 [] []).Inv ∧
    (bench nan zero 0 [] []).Inv ∧ |nines.val| = 1 - (10 : ℚ) ^ (-(8 * 5 : Int)) ∧ |one.negate.val| = 1 ∧
    zero.isZero = true := by
  refine ⟨bench_inv ?_ ?_ ?_, bench_inv ?_ ?_ ?_, bench_inv ?_ ?_ ?_, ?_⟩ <;> decide +kernel

/-- MAXV, and `-10^-1`, whose leading limb is `10^7`. -/
theorem witness_RecipOfPowersOfTenIsExact :
    (bench maxv (num [10000000, 0, 0, 0, 0] (-8) true) 0 [] []).Inv ∧
    (bench maxv (num [10000000, 0, 0, 0, 0] (-8) true) 0 [] []).cfg.seedRecip = .reference ∧
    maxv.withPrec 5 = recordOf Config.reference [BitVec.ofNat 32 (10 ^ 0)] 67108864 false ∧
    (num [10000000, 0, 0, 0, 0] (-8) true).withPrec 5 = recordOf Config.reference [BitVec.ofNat 32 (10 ^ 7)] (-8) true :=
  ⟨bench_inv (by decide +kernel) (by decide +kernel) (by decide), rfl, by decide +kernel, by decide +kernel⟩

theorem witness_RecipCompletes : (bench three zero 0 [] []).Inv ∧ FiniteNonzero three ∧
    (∃ v, dAfter 2 (run (.recip 2 1) three zero) = some v ∧ v.isZero = false ∧ v.cls ≠ .nan) ∧
    [5, 6, 7, (8 : DReg)].Nodup ∧ (1 : DReg) ≠ 6 ∧ 12 * 2 ^ 1 ≤ 8 * Config.reference.n ∧
    8 * Config.reference.n < 12 * 2 ^ (1 + 1) ∧ |three.val| ≠ 1 ∧ |three.val| ≠ 1 - (10 : ℚ) ^ (-(8 * 5 : Int)) :=
  ⟨bench_inv (by decide +kernel) (by decide +kernel) (by decide), by unfold FiniteNonzero; decide +kernel,
    ⟨_, test_recip_three, by decide +kernel, by decide +kernel⟩, by decide, by decide, by decide +kernel, by decide +kernel,
    by decide +kernel, by decide +kernel⟩

theorem witness_DivByReciprocal : (bench three twoHalf 0 [] []).Inv ∧ (7 : DReg) ≠ 1 ∧ (1 : DReg) ≠ 2 ∧
    (FiniteNonzero three ∧ FiniteNonzero three.negate ∧ three.exp = three.negate.exp ∧
      three.limbs = three.negate.limbs) ∧ three.limbs ≠ twoHalf.limbs := by
  refine ⟨bench_inv ?_ ?_ ?_, ?_⟩ <;> try unfold FiniteNonzero
  all_goals decide +kernel

/-- One bench for each clause. -/
theorem witness_DivSpecialDivisors : (bench nan three 0 [] []).Inv ∧ (bench zero zero 0 [] []).Inv ∧
    (bench negInf zero 0 [] []).Inv ∧ (bench inf negInf 0 [] []).Inv ∧ (bench three inf 0 [] []).Inv := by
  refine ⟨bench_inv ?_ ?_ ?_, bench_inv ?_ ?_ ?_, bench_inv ?_ ?_ ?_, bench_inv ?_ ?_ ?_, bench_inv ?_ ?_ ?_⟩ <;>
    decide +kernel

theorem witness_SqrtDomainAndSpecials : (bench nines negInf 0 [] []).Inv ∧ (bench zero inf 0 [] []).Inv ∧
    (bench three nan 0 [] []).Inv ∧
    negInf.neg = true ∧ ¬(nines.cls = .nan ∨ nines.neg = true) ∧ nines.val = 1 - (10 : ℚ) ^ (-(8 * 5 : Int)) ∧
    [5, 6, 9, 7, (8 : DReg)].Nodup ∧ (1 : DReg) ≠ 6 ∧ (1 : DReg) ≠ 9 ∧ 12 * 2 ^ 1 ≤ 8 * Config.reference.n ∧
    8 * Config.reference.n < 12 * 2 ^ (1 + 1) ∧ (three.cls = .fin ∧ three.isZero = false) ∧ three.neg = false ∧
    three.val ≠ 1 ∧ three.val ≠ 1 - (10 : ℚ) ^ (-(8 * 5 : Int)) := by
  refine ⟨bench_inv ?_ ?_ ?_, bench_inv ?_ ?_ ?_, bench_inv ?_ ?_ ?_, ?_⟩ <;> decide +kernel

/-- MINV, and 10^6. -/
theorem witness_SqrtOfEvenPowersOfTenIsExact : (bench minv (num [1000000, 0, 0, 0, 0] 0) 0 [] []).Inv ∧
    (bench minv (num [1000000, 0, 0, 0, 0] 0) 0 [] []).cfg.seedSqrt = .reference ∧
    minv.withPrec 5 = recordOf Config.reference [BitVec.ofNat 32 (10 ^ 0)] (-67108864) false ∧
    (num [1000000, 0, 0, 0, 0] 0).withPrec 5 = recordOf Config.reference [BitVec.ofNat 32 (10 ^ 6)] 0 false :=
  ⟨bench_inv (by decide +kernel) (by decide +kernel) (by decide), rfl, by decide +kernel, by decide +kernel⟩

theorem witness_CmpOrdersFiniteValues : (bench minv zero 0 [] []).Inv ∧ minv.cls = .fin ∧ zero.cls = .fin :=
  ⟨bench_inv (by decide +kernel) (by decide +kernel) (by decide), rfl, rfl⟩

theorem witness_CmpSpecialOperands : ((bench nan nan 0 [] []).readD 1).cls ≠ .fin ∧
    ((bench one negInf 0 [] []).readD 2).cls ≠ .fin := by decide +kernel

theorem witness_ClassificationCommands : (bench zero minv 0 [] []).Inv ∧ zero.val = 0 :=
  ⟨bench_inv (by decide +kernel) (by decide +kernel) (by decide), by decide +kernel⟩

theorem witness_IsOneAndIsIntByValue : (bench nines (num [1, 2, 3, 4, 5] 32) 0 [] []).Inv ∧
    nines.val = 1 - (10 : ℚ) ^ (-(8 * 5 : Int)) ∧ ¬(twoHalf.val = 1 ∨ twoHalf.val = 1 - (10 : ℚ) ^ (-(8 * 5 : Int))) ∧
    three.val = ((3 : Int) : ℚ) :=
  ⟨bench_inv (by decide +kernel) (by decide +kernel) (by decide), by decide +kernel, by decide +kernel, by decide +kernel⟩

/-- The text "-2.5e1". -/
theorem witness_ParseNumbers : (bench zero zero 0 [0x2D, 0x32, 0x2E, 0x35, 0x65, 0x31] []).Inv ∧
    IsNumberText ((bench zero zero 0 [0x2D, 0x32, 0x2E, 0x35, 0x65, 0x31] []).readBytes 0 6)
      { sgn := true, int := [2], frac := [5], exp := 1 } := by
  refine ⟨bench_inv (by decide +kernel) (by decide +kernel) (by decide), [0x2D], [0x32], [0x2E, 0x35], [0x65, 0x31],
    by decide +kernel, .inr ⟨rfl, rfl⟩, ⟨by simp, by simp, rfl⟩, .inr ⟨[0x35], rfl, by simp, by simp, rfl⟩,
    .inr ⟨0x65, [], [0x31], false, [1], rfl, .inl rfl, .inl ⟨rfl, .inl rfl⟩, ⟨by simp, by simp, rfl⟩, rfl⟩⟩

/-- The text "-Inf", and the empty text, which is in neither language. -/
theorem witness_ParseSpecialsAndErrors : (bench zero zero 0 [0x2D, 0x49, 0x6E, 0x66] []).Inv ∧
    IsSpecialText 5 ((bench zero zero 0 [0x2D, 0x49, 0x6E, 0x66] []).readBytes 0 4) (DValue.infinity 5 true) ∧
    (bench zero zero 0 [] []).Inv ∧
    (∀ p, ¬ IsNumberText ((bench zero zero 0 [] []).readBytes 0 (bench zero zero 0 [] []).tlen.toNat) p) ∧
    (∀ v, ¬ IsSpecialText 5 ((bench zero zero 0 [] []).readBytes 0 (bench zero zero 0 [] []).tlen.toNat) v) := by
  have h0 : (bench zero zero 0 [] []).readBytes 0 (bench zero zero 0 [] []).tlen.toNat = [] := rfl
  refine ⟨bench_inv (by decide +kernel) (by decide +kernel) (by decide), ?_,
    bench_inv (by decide +kernel) (by decide +kernel) (by decide), ?_, ?_⟩
  · refine ⟨[0x2D], [0x49, 0x6E, 0x66], true, by decide +kernel, .inr ⟨rfl, rfl⟩, .inl ⟨?_, rfl⟩⟩
    exact .cons (.inr (by decide)) (.cons (.inl rfl) (.cons (.inl rfl) .nil))
  · rintro p ⟨sign, int, frac, exp, h, -, ⟨hne, -, hd⟩, -⟩
    rw [h0] at h; simp at h; simp_all
  · rintro v ⟨sign, body, neg, h, -, hb⟩
    rw [h0] at h; simp at h
    rcases hb with ⟨hb, -⟩ | ⟨hb, -⟩ | ⟨hb, -⟩ <;> · rw [h.2] at hb; cases hb

theorem witness_FormatSpecialRecords : (bench negInf nan 7 [] []).Inv ∧ (bench negInf nan 7 [] []).readX 1 ≠ 0 ∧
    ¬ FiniteNonzero negInf ∧ ¬ FiniteNonzero zero :=
  ⟨bench_inv (by decide +kernel) (by decide +kernel) (by decide), by decide +kernel,
    by unfold FiniteNonzero; decide +kernel, by unfold FiniteNonzero; decide +kernel⟩

theorem witness_FormatRoundsHalfToEven : (bench twoHalf minv 1 [] []).Inv ∧ (bench twoHalf minv 1 [] []).readX 1 ≠ 0 ∧
    FiniteNonzero twoHalf :=
  ⟨bench_inv (by decide +kernel) (by decide +kernel) (by decide), by decide +kernel, by unfold FiniteNonzero; decide +kernel⟩

theorem witness_FormatThenParseIsExact : Config.reference.Valid ∧ nines.wf Config.reference ∧ 8 * Config.reference.n ≤ 40 := by
  decide +kernel

end Sys2Proof.Tests
end

/-! PROOF. The opcode map and the worked encodings of spec/30_encoding.md (R93, R94, R100): a mask of R91 is read field by
field, each format is decoded by its rows, and the 30 rows are then gone through once. -/

namespace Sys2Proof

/-! ### The operand fields by value (R90) -/

theorem opField_toNat (w : Word) : (opField w).toNat = w.toNat / 2 ^ 24 := by
  have h := w.isLt
  simp only [opField, BitVec.extractLsb'_toNat, Nat.shiftRight_eq_div_pow]
  omega

theorem aField_eq_ofNat (w : Word) : aField w = BitVec.ofNat 4 (w.toNat / 2 ^ 20) := by
  rw [← Nat.shiftRight_eq_div_pow]; rfl

theorem bField_eq_ofNat (w : Word) : bField w = BitVec.ofNat 4 (w.toNat / 2 ^ 16) := by
  rw [← Nat.shiftRight_eq_div_pow]; rfl

theorem cField_eq_ofNat (w : Word) : cField w = BitVec.ofNat 4 (w.toNat / 2 ^ 12) := by
  rw [← Nat.shiftRight_eq_div_pow]; rfl

theorem immField_eq_ofNat (w : Word) : immField w = BitVec.ofNat 12 w.toNat := rfl

theorem immField_toNat (w : Word) : (immField w).toNat = w.toNat % 4096 := rfl

/-- The constant id of `LDC` (R91). -/
theorem constantField_eq_ofNat (w : Word) : (immField w).extractLsb' 0 9 = BitVec.ofNat 9 w.toNat := by
  apply BitVec.eq_of_toNat_eq
  simp only [BitVec.extractLsb'_toNat, immField_toNat, BitVec.toNat_ofNat, Nat.shiftRight_zero]
  omega

/-- The style of `FORMAT` (R91, R92). -/
theorem styleField_eq (w : Word) :
    styleOfBit ((immField w).extractLsb' 0 1) = if w.toNat % 2 = 0 then .sci else .fix := by
  have bit : (immField w).extractLsb' 0 1 = 0 ↔ w.toNat % 2 = 0 := by
    simp only [BitVec.toNat_eq, BitVec.extractLsb'_toNat, immField_toNat, BitVec.ofNat_eq_ofNat, BitVec.toNat_ofNat,
      Nat.shiftRight_zero]
    omega
  simp only [styleOfBit, bit]

/-! ### Masks field by field -/

theorem packFields_and (op op' : BitVec 8) (a a' b b' c c' : BitVec 4) (imm imm' : BitVec 12) :
    packFields op a b c imm &&& packFields op' a' b' c' imm' =
      packFields (op &&& op') (a &&& a') (b &&& b') (c &&& c') (imm &&& imm') := by
  unfold packFields
  refine BitVec.and_append.trans ?_
  rw [BitVec.and_append, BitVec.and_append, BitVec.and_append]

/-- The operand fields of a word are zero under the masks `ma`, `mb`, `mc` and `mi` (R91). -/
def ZeroUnder (w : Word) (ma mb mc : BitVec 4) (mi : BitVec 12) : Prop :=
  aField w &&& ma = 0 ∧ bField w &&& mb = 0 ∧ cField w &&& mc = 0 ∧ immField w &&& mi = 0

/-- A word has the opcode `op` and zeros under a mask exactly when each of its fields has. -/
theorem and_packFields_eq_iff (w : Word) (op : Nat) (ma mb mc : BitVec 4) (mi : BitVec 12) :
    w.toNat &&& (packFields 0xFF ma mb mc mi).toNat = op * 2 ^ 24 ↔
      (opField w).toNat = op ∧ ZeroUnder w ma mb mc mi := by
  have top : opField w &&& 0xFF = opField w := BitVec.and_allOnes
  have masked : w &&& packFields 0xFF ma mb mc mi =
      packFields (opField w) (aField w &&& ma) (bField w &&& mb) (cField w &&& mc) (immField w &&& mi) := by
    rw [← top, ← packFields_and, packFields_fields]
  have ha := (aField w &&& ma).isLt
  have hb := (bField w &&& mb).isLt
  have hc := (cField w &&& mc).isLt
  have hi := (immField w &&& mi).isLt
  rw [← BitVec.toNat_and, masked, packFields_toNat]
  simp only [ZeroUnder, BitVec.toNat_eq (n := 4), BitVec.toNat_eq (n := 12), BitVec.ofNat_eq_ofNat, BitVec.toNat_ofNat,
    Nat.zero_mod]
  omega

/-- The bits of `imm` from bit `k` on are zero. -/
theorem and_onesFrom_eq_zero_iff (x : BitVec 12) (k : Nat) :
    x &&& BitVec.allOnes 12 <<< k = 0 ↔ x.toNat / 2 ^ k = 0 := by
  have h := x.isLt
  have hle := Nat.div_mul_le_self x.toNat (2 ^ k)
  rw [← BitVec.shiftLeft_ushiftRight, BitVec.toNat_eq]
  simp only [BitVec.toNat_shiftLeft, BitVec.toNat_ushiftRight, Nat.shiftRight_eq_div_pow, Nat.shiftLeft_eq]
  rw [Nat.mod_eq_of_lt (by omega)]
  simp

theorem and_constantMask_eq_zero_iff (x : BitVec 12) : x &&& 0xE00#12 = 0#12 ↔ x.extractLsb' 9 3 = 0#3 := by
  have h := x.isLt
  refine (and_onesFrom_eq_zero_iff x 9).trans ?_
  simp only [BitVec.toNat_eq, BitVec.extractLsb'_toNat, Nat.shiftRight_eq_div_pow, BitVec.toNat_ofNat]
  omega

theorem and_styleMask_eq_zero_iff (x : BitVec 12) : x &&& 0xFFE#12 = 0#12 ↔ x.extractLsb' 1 11 = 0#11 := by
  have h := x.isLt
  refine (and_onesFrom_eq_zero_iff x 1).trans ?_
  simp only [BitVec.toNat_eq, BitVec.extractLsb'_toNat, Nat.shiftRight_eq_div_pow, BitVec.toNat_ofNat]
  omega

end Sys2Proof

namespace Sys2Proof.Machine

/-! ### The rows of each format (R91, R95) -/

/-- The operand check of `LDC` and of `SETPREC` (R95 (c), (d)), as `RowMatches` has it. -/
def OperandCheck (n op : Nat) (w : Word) : Prop :=
  (op = 0x04 → w.toNat % 512 ≤ 13 ∨ (256 ≤ w.toNat % 512 ∧ w.toNat % 512 ≤ 510)) ∧
    (op = 0x05 → 1 ≤ w.toNat % 4096 ∧ w.toNat % 4096 ≤ n)

/-- A checked command is answered exactly when its check passes. -/
theorem ite_ok_eq_ok_iff {p : Prop} [Decidable p] {e : IllegalWord} {i j : Instr} :
    (if p then .ok j else .error e : Except IllegalWord Instr) = .ok i ↔ p ∧ some j = some i := by
  split <;> simp [*]

theorem ite_ite_ok_eq_ok_iff {p q : Prop} [Decidable p] [Decidable q] {e e' : IllegalWord} {i j : Instr} :
    (if p then if q then .ok j else .error e' else .error e : Except IllegalWord Instr) = .ok i ↔
      (p ∧ q) ∧ some j = some i := by
  split_ifs <;> simp [*]

section
variable {n op : Nat} {w : Word} {i j : Instr} {p : Prop} [Decidable p] {e : IllegalWord}
  {ma mb mc : BitVec 4} {mi : BitVec 12}

/-- On a word with a row's opcode, the row asks for the fields under its mask and for its operand check. -/
theorem rowMatches_packFields_iff (h : (opField w).toNat = op) :
    RowMatches n (op, (packFields 0xFF ma mb mc mi).toNat) w ↔
      ZeroUnder w ma mb mc mi ∧ OperandCheck n op w :=
  and_congr_left' ((and_packFields_eq_iff w op ma mb mc mi).trans (and_iff_right h))

/-- A format without an operand check, on a word with the opcode of a row of it. -/
theorem unchecked_eq_ok_iff (h : (opField w).toNat = op) (hop : op ≠ 0x04 ∧ op ≠ 0x05)
    (hp : p ↔ ZeroUnder w ma mb mc mi) :
    (if p then .ok j else .error e : Except IllegalWord Instr) = .ok i ↔
      RowMatches n (op, (packFields 0xFF ma mb mc mi).toNat) w ∧ some j = some i := by
  rw [ite_ok_eq_ok_iff, rowMatches_packFields_iff h, hp]
  simp [OperandCheck, hop]

/-- A format with an operand check, on a word with the opcode of its row. -/
theorem checked_eq_ok_iff {e' : IllegalWord} {q : Prop} [Decidable q] (h : (opField w).toNat = op)
    (hp : p ↔ ZeroUnder w ma mb mc mi) (hq : q ↔ OperandCheck n op w) :
    (if p then if q then .ok j else .error e' else .error e : Except IllegalWord Instr) = .ok i ↔
      RowMatches n (op, (packFields 0xFF ma mb mc mi).toNat) w ∧ some j = some i := by
  rw [ite_ite_ok_eq_ok_iff, rowMatches_packFields_iff h, hp, hq]

theorem formatZ_eq_ok_iff (h : (opField w).toNat = op) (hop : op ≠ 0x04 ∧ op ≠ 0x05) :
    formatZ w j = .ok i ↔ RowMatches n (op, 0xFFFFFFFF) w ∧ some j = some i :=
  unchecked_eq_ok_iff (ma := .allOnes 4) (mb := .allOnes 4) (mc := .allOnes 4) (mi := .allOnes 12) h hop
    (by simp only [ZeroUnder, BitVec.and_allOnes])

theorem formatD_eq_ok_iff {mk : BitVec 4 → Instr} (h : (opField w).toNat = op) (hop : op ≠ 0x04 ∧ op ≠ 0x05) :
    formatD w mk = .ok i ↔
      RowMatches n (op, 0xFF0FFFFF) w ∧ some (mk (BitVec.ofNat 4 (w.toNat / 2 ^ 20))) = some i := by
  rw [← aField_eq_ofNat]
  exact unchecked_eq_ok_iff (ma := 0#4) (mb := .allOnes 4) (mc := .allOnes 4) (mi := .allOnes 12) h hop
    (by simp only [ZeroUnder, BitVec.and_allOnes, BitVec.and_zero, BitVec.ofNat_eq_ofNat, true_and])

theorem formatAB_eq_ok_iff {mk : BitVec 4 → BitVec 4 → Instr} (h : (opField w).toNat = op)
    (hop : op ≠ 0x04 ∧ op ≠ 0x05) :
    formatAB w mk = .ok i ↔ RowMatches n (op, 0xFF00FFFF) w ∧
      some (mk (BitVec.ofNat 4 (w.toNat / 2 ^ 20)) (BitVec.ofNat 4 (w.toNat / 2 ^ 16))) = some i := by
  rw [← aField_eq_ofNat, ← bField_eq_ofNat]
  exact unchecked_eq_ok_iff (ma := 0#4) (mb := 0#4) (mc := .allOnes 4) (mi := .allOnes 12) h hop
    (by simp only [ZeroUnder, BitVec.and_allOnes, BitVec.and_zero, BitVec.ofNat_eq_ofNat, true_and])

theorem formatABC_eq_ok_iff {mk : BitVec 4 → BitVec 4 → BitVec 4 → Instr} (h : (opField w).toNat = op)
    (hop : op ≠ 0x04 ∧ op ≠ 0x05) :
    formatABC w mk = .ok i ↔ RowMatches n (op, 0xFF000FFF) w ∧
      some (mk (BitVec.ofNat 4 (w.toNat / 2 ^ 20)) (BitVec.ofNat 4 (w.toNat / 2 ^ 16))
        (BitVec.ofNat 4 (w.toNat / 2 ^ 12))) = some i := by
  rw [← aField_eq_ofNat, ← bField_eq_ofNat, ← cField_eq_ofNat]
  exact unchecked_eq_ok_iff (ma := 0#4) (mb := 0#4) (mc := 0#4) (mi := .allOnes 12) h hop
    (by simp only [ZeroUnder, BitVec.and_allOnes, BitVec.and_zero, BitVec.ofNat_eq_ofNat, true_and])

theorem formatF_eq_ok_iff {mk : BitVec 4 → BitVec 4 → Style → Instr} (h : (opField w).toNat = op)
    (hop : op ≠ 0x04 ∧ op ≠ 0x05) :
    formatF w mk = .ok i ↔ RowMatches n (op, 0xFFF00FFE) w ∧
      some (mk (BitVec.ofNat 4 (w.toNat / 2 ^ 16)) (BitVec.ofNat 4 (w.toNat / 2 ^ 12))
        (if w.toNat % 2 = 0 then .sci else .fix)) = some i := by
  rw [← bField_eq_ofNat, ← cField_eq_ofNat, ← styleField_eq]
  exact unchecked_eq_ok_iff (ma := .allOnes 4) (mb := 0#4) (mc := 0#4) (mi := 0xFFE#12) h hop
    (by simp only [ZeroUnder, and_styleMask_eq_zero_iff, BitVec.and_allOnes, BitVec.and_zero, BitVec.ofNat_eq_ofNat,
      true_and])

theorem formatDC_eq_ok_iff {mk : BitVec 4 → BitVec 9 → Instr} (h : (opField w).toNat = 0x04) :
    formatDC w mk = .ok i ↔ RowMatches n (0x04, 0xFF0FFE00) w ∧
      some (mk (BitVec.ofNat 4 (w.toNat / 2 ^ 20)) (BitVec.ofNat 9 w.toNat)) = some i := by
  rw [← aField_eq_ofNat, ← constantField_eq_ofNat]
  exact checked_eq_ok_iff (ma := 0#4) (mb := .allOnes 4) (mc := .allOnes 4) (mi := 0xE00#12) h
    (by simp only [ZeroUnder, and_constantMask_eq_zero_iff, BitVec.and_allOnes, BitVec.and_zero, BitVec.ofNat_eq_ofNat,
      true_and])
    (by simp [OperandCheck, constantAssigned, constantField_eq_ofNat])

theorem formatDP_eq_ok_iff {mk : BitVec 4 → BitVec 12 → Instr} (h : (opField w).toNat = 0x05) :
    formatDP n w mk = .ok i ↔ RowMatches n (0x05, 0xFF0FF000) w ∧
      some (mk (BitVec.ofNat 4 (w.toNat / 2 ^ 20)) (BitVec.ofNat 12 w.toNat)) = some i := by
  rw [← aField_eq_ofNat, ← immField_eq_ofNat]
  exact checked_eq_ok_iff (ma := 0#4) (mb := .allOnes 4) (mc := .allOnes 4) (mi := 0#12) h
    (by simp only [ZeroUnder, BitVec.and_allOnes, BitVec.and_zero, BitVec.ofNat_eq_ofNat, true_and, and_true])
    (by simp [OperandCheck, precisionLegal, immField_eq_ofNat])

end

/-! ### The opcode map (R93, R94) -/

/-- The rows of R93 one by one: on a word with a row's opcode the decoder answers that row's command. -/
theorem decode_eq_ok_iff_of_row {n : Nat} {w : Word} {i : Instr} :
    ∀ row ∈ commandRows, (opField w).toNat = row.1 →
      (decode n w = .ok i ↔ RowMatches n row w ∧ rowCommand row.1 w = some i) := by
  simp only [commandRows, List.forall_mem_cons]
  refine ⟨?nop, ?mov, ?neg, ?abs, ?ldc, ?setprec, ?getprec, ?fromu64, ?fromi64, ?fromf64, ?tou64, ?toi64, ?tof64,
    ?add, ?sub, ?mul, ?div, ?recip, ?sqrt, ?cmp, ?iszero, ?isone, ?isint, ?isneg, ?isnan, ?isinf, ?isfin, ?classof,
    ?parse, ?format, List.forall_mem_nil _⟩
  all_goals intro h; rw [decode, h]
  case nop => exact formatZ_eq_ok_iff h (by decide)
  case ldc => exact formatDC_eq_ok_iff h
  case setprec => exact formatDP_eq_ok_iff h
  case parse => exact formatD_eq_ok_iff h (by decide)
  case format => exact formatF_eq_ok_iff h (by decide)
  case add | sub | mul | div | cmp => exact formatABC_eq_ok_iff h (by decide)
  -- formats DD, XD and DX
  all_goals exact formatAB_eq_ok_iff h (by decide)

/-- A word whose opcode is in no row is illegal (R95 (a)). -/
theorem decode_eq_unknownOpcode {n : Nat} {w : Word} (h : ∀ row ∈ commandRows, (opField w).toNat ≠ row.1) :
    decode n w = .error .unknownOpcode := by
  simp only [commandRows, List.forall_mem_cons] at h
  unfold decode
  split
  case h_31 => rfl
  all_goals omega

theorem exists_row_of_decode {n : Nat} {w : Word} {i : Instr} (h : decode n w = .ok i) :
    ∃ row ∈ commandRows, (opField w).toNat = row.1 := by
  by_contra hno
  push Not at hno
  rw [decode_eq_unknownOpcode hno] at h
  cases h

/-- Every mask covers the opcode byte, so a word matches only a row with its own opcode. -/
theorem opField_of_rowMatches {n : Nat} {w : Word} {row : Nat × Nat} (hrow : row ∈ commandRows)
    (h : RowMatches n row w) : (opField w).toNat = row.1 := by
  have top : ∀ r ∈ commandRows, r.2 / 2 ^ 24 = 2 ^ 8 - 1 := by decide
  obtain ⟨hmask, -, -⟩ := h
  calc (opField w).toNat
    _ = w.toNat / 2 ^ 24 &&& row.2 / 2 ^ 24 := by
      rw [top row hrow, Nat.and_two_pow_sub_one_eq_mod, ← opField_toNat, Nat.mod_eq_of_lt (opField w).isLt]
    _ = (w.toNat &&& row.2) / 2 ^ 24 := (Nat.and_div_two_pow ..).symm
    _ = row.1 := by rw [hmask, Nat.mul_div_cancel _ (by decide)]

theorem rowCommand_isSome {row : Nat × Nat} (hrow : row ∈ commandRows) (w : Word) :
    ∃ i, rowCommand row.1 w = some i := by
  have all : commandRows.all (fun r => (rowCommand r.1 w).isSome) = true := rfl
  exact Option.isSome_iff_exists.mp (List.all_eq_true.mp all row hrow)

theorem commandRows_opcodes_nodup : (commandRows.map Prod.fst).Nodup := by decide

/-- A word decodes to a command exactly when it is that command's row (R93, R94). -/
theorem decode_eq_ok_iff {n : Nat} {w : Word} {i : Instr} :
    decode n w = .ok i ↔ ∃ row ∈ commandRows, RowMatches n row w ∧ rowCommand row.1 w = some i := by
  constructor
  · intro h
    obtain ⟨row, hrow, hop⟩ := exists_row_of_decode h
    exact ⟨row, hrow, (decode_eq_ok_iff_of_row row hrow hop).mp h⟩
  · rintro ⟨row, hrow, hmatch, hcmd⟩
    exact (decode_eq_ok_iff_of_row row hrow (opField_of_rowMatches hrow hmatch)).mpr ⟨hmatch, hcmd⟩

/-- Settles O3: the decoder is the rows of R93, whose opcodes, all different, are the top byte of a word. -/
theorem decodingIsTotalAndExclusive : Obligations.DecodingIsTotalAndExclusive := by
  refine ⟨fun n w i => decode_eq_ok_iff, fun n w => ?_, fun n w p hp q hq hpw hqw => ?_,
    List.pairwise_map.mp commandRows_opcodes_nodup⟩
  · constructor
    · rintro ⟨i, h⟩
      obtain ⟨row, hrow, hmatch, -⟩ := decode_eq_ok_iff.mp h
      exact ⟨row, hrow, hmatch⟩
    · rintro ⟨row, hrow, hmatch⟩
      obtain ⟨i, hcmd⟩ := rowCommand_isSome hrow w
      exact ⟨i, decode_eq_ok_iff.mpr ⟨row, hrow, hmatch, hcmd⟩⟩
  · exact List.inj_on_of_nodup_map commandRows_opcodes_nodup hp hq
      ((opField_of_rowMatches hp hpw).symm.trans (opField_of_rowMatches hq hqw))

/-! ### The worked encodings (R100) -/

/-- Settles O4, by evaluating the decoder: only `SETPREC` looks at the limb capacity, which is at least 5. -/
theorem workedEncodings : Obligations.WorkedEncodings := by
  intro c
  have legal : precisionLegal c.n 3 = true := by
    have := c.n_ge
    simp [precisionLegal]; omega
  have setprec : decode c.n 0x05200003 =
      if precisionLegal c.n 3 then .ok (.setprec 2 3) else .error .precisionOutOfRange := rfl
  rw [if_pos legal] at setprec
  have illegal : decode c.n 0x10312001 = .error .unusedField := rfl
  refine ⟨rfl, rfl, rfl, setprec, rfl, rfl, rfl, rfl, rfl, fun i h => ?_⟩
  rw [illegal] at h
  cases h

end Sys2Proof.Machine

/-! PROOF. The precision cut-off of `ADD` (spec/41_add_sub.md R142). Beyond it the operand of the larger exponent is
answered; at it, the smaller operand shifted by N - 1 limbs is its leading limb in the last place, so the sum and the
difference are those of the record that has this limb alone. -/

namespace Sys2Proof

open Machine

/-! ### The record of the leading limb alone -/

/-- A shift by all places but one leaves the leading limb, in the last place. -/
theorem shiftLimbs_last {n : Nat} {ls : List Nat} (hn : 1 ≤ n) (hl : ls.length = n) :
    shiftLimbs n (n - 1) ls = List.replicate (n - 1) 0 ++ [ls.getD 0 0] := by
  rw [shiftLimbs_eq (Nat.sub_le n 1), show n - (n - 1) = 1 by omega]
  cases ls with
  | nil => simp at hl; omega
  | cons l ls => rfl

theorem abs_val_leadingLimb {n l : Nat} (hn : 1 ≤ n) (hl : l < limbBase) (e : Int) (s : Bool) :
    |(leadingLimb n l e s).val| = l * (10 : ℚ) ^ e := by
  have hnats := leadingLimb_nats n hl e s
  rw [abs_val_eq (n := n) (by rw [hnats]; simp; omega), hnats, limbsNat_cons, limbsNat_replicate_zero,
    List.length_replicate, leadingLimb_exp, ← lastUnit_full hn]
  push_cast; ring

/-- The operand with every limb but the leading one cleared. -/
def leadingPart (n : Nat) (v : DValue) : DValue := leadingLimb n (v.limb 0) v.exp v.neg

@[simp] theorem leadingPart_neg (n : Nat) (v : DValue) : (leadingPart n v).neg = v.neg := rfl

section
variable {c : Config} {v : DValue}

theorem leadingPart_isZero (hv : v.wf c) (h : FiniteNonzero v) : (leadingPart c.n v).isZero = false :=
  leadingLimb_isZero _ (hv.limbBelow 0) (limb_ne_zero h.1 h.2) _ _

theorem leadingPart_wf (hc : c.Valid) (hv : v.wf c) (h : FiniteNonzero v) (hlt : v.exp < c.maxExp) :
    (leadingPart c.n v).wf c :=
  leadingLimb_wf hc (Nat.one_le_iff_ne_zero.mpr (limb_ne_zero h.1 h.2)) (hv.limbBelow 0) hv.expMod hv.exp_fits.1 (.inl hlt)

theorem abs_val_leadingPart (hv : v.wf c) : |(leadingPart c.n v).val| = v.limb 0 * (10 : ℚ) ^ v.exp :=
  abs_val_leadingLimb (by have := c.n_ge; omega) (hv.limbBelow 0) _ _

/-- Shifted by N - 1 limbs, an operand is its leading limb. -/
theorem shiftLimbs_leadingPart (hv : v.wf c) :
    shiftLimbs c.n (c.n - 1) (leadingPart c.n v).nats = shiftLimbs c.n (c.n - 1) v.nats := by
  have hn : 1 ≤ c.n := by have := c.n_ge; omega
  have hnats : (leadingPart c.n v).nats = v.limb 0 :: List.replicate (c.n - 1) 0 :=
    leadingLimb_nats _ (hv.limbBelow 0) _ _
  rw [shiftLimbs_last hn hv.natsLength, shiftLimbs_last hn (by rw [hnats]; simp; omega), hnats, limb_eq_nats,
    List.getD_cons_zero]

end

/-! ### `Add` on both sides of the cut-off -/

section
variable {c : Config} {a b : DValue}

theorem magCmp_of_exp_lt (hza : a.isZero = false) (hzb : b.isZero = false) (h : b.exp < a.exp) : magCmp a b = .gt := by
  simp [magCmp, hza, hzb, h, not_lt.mpr h.le]

theorem magCmp_of_lt_exp (hza : a.isZero = false) (hzb : b.isZero = false) (h : a.exp < b.exp) : magCmp a b = .lt := by
  simp [magCmp, hza, hzb, h]

/-- More than N - 1 limb-steps apart, `Add` answers the operand of the larger exponent, on either side (R142). -/
theorem decAdd_beyond_cutoff (ha : a.wf c) (hb : b.wf c) (hfa : FiniteNonzero a) (hfb : FiniteNonzero b)
    (h : 8 * ((c.n : Int) - 1) < a.exp - b.exp) :
    decAdd c a b = a.withPrec c.n ∧ decAdd c b a = a.withPrec c.n := by
  have ma := ha.expMod; have mb := hb.expMod; have h5 := c.n_ge
  rw [decAdd_finite hfa.1 hfb.1 hfa.2 hfb.2, decAdd_finite hfb.1 hfa.1 hfb.2 hfa.2]
  constructor
  · rw [addFinite, if_pos (by omega)]
  · rw [addFinite, if_neg (by omega), if_pos (by omega)]

/-- At N - 1 limb-steps `Add` goes on: the smaller operand is shifted by N - 1 limbs and added or subtracted, on either
side (R142 to R145). -/
theorem decAdd_at_cutoff (hfa : FiniteNonzero a) (hfb : FiniteNonzero b) (h : a.exp - b.exp = 8 * ((c.n : Int) - 1)) :
    decAdd c a b = saturate c (if a.neg = b.neg then addSameSign c a b (c.n - 1) else addDifferentSign c a b (c.n - 1)) ∧
      decAdd c b a = decAdd c a b := by
  have h5 := c.n_ge
  obtain ⟨k, hk⟩ : ∃ k : Nat, c.n = k + 1 := ⟨c.n - 1, by omega⟩
  have hlast : (c.n : Int) - 1 = k := by omega
  have hab : (a.exp - b.exp) / 8 = k := by omega
  have hba : (b.exp - a.exp) / 8 = -k := by omega
  have hlt : b.exp < a.exp := by omega
  have hkk : ¬ (k : Int) < -k := by omega
  have hk0 : k ≠ 0 := by omega
  rw [decAdd_finite hfa.1 hfb.1 hfa.2 hfb.2, decAdd_finite hfb.1 hfa.1 hfb.2 hfa.2, addFinite, addFinite, hab, hba, hlast,
    magCmp_of_exp_lt hfa.2 hfb.2 hlt, magCmp_of_lt_exp hfb.2 hfa.2 hlt, show c.n - 1 = k by omega]
  by_cases hs : a.neg = b.neg
  · simp [hs, hkk, hk0]
  · simp [hs, Ne.symm hs, hkk]

/-- At N - 1 limb-steps `Add` does not see the limbs of the smaller operand after the leading one (R142). -/
theorem decAdd_leadingPart (hb : b.wf c) (hfa : FiniteNonzero a) (hfb : FiniteNonzero b)
    (h : a.exp - b.exp = 8 * ((c.n : Int) - 1)) : decAdd c a (leadingPart c.n b) = decAdd c a b := by
  have hfl : FiniteNonzero (leadingPart c.n b) := ⟨rfl, leadingPart_isZero hb hfb⟩
  rw [(decAdd_at_cutoff hfa hfl h).1, (decAdd_at_cutoff hfa hfb h).1]
  simp only [addSameSign, addDifferentSign, shiftLimbs_leadingPart hb, leadingPart_neg]

/-- At N - 1 limb-steps `Add` is the truncation of the larger magnitude with the leading limb of the smaller operand
added to, or subtracted from, its last limb (R142 to R146). -/
theorem decAdd_at_cutoff_truncates (hc : c.Valid) (ha : a.wf c) (hb : b.wf c) (hfa : FiniteNonzero a)
    (hfb : FiniteNonzero b) (h : a.exp - b.exp = 8 * ((c.n : Int) - 1)) :
    TruncatesTo c (|a.val| + (if a.neg = b.neg then b.limb 0 * lastUnit c.n a.exp else -(b.limb 0 * lastUnit c.n a.exp)))
      a.neg c.n (decAdd c a b) := by
  have h5 := c.n_ge
  have hmax := ha.exp_fits.2
  have hl : (leadingPart c.n b).wf c := leadingPart_wf hc hb hfb (by omega)
  have hzl := leadingPart_isZero hb hfb
  have hval : |(leadingPart c.n b).val| = b.limb 0 * lastUnit c.n a.exp := by
    rw [abs_val_leadingPart hb, lastUnit, ← h, sub_sub_cancel]
  rw [← decAdd_leadingPart hb hfa hfb h]
  split_ifs with hs
  · rw [← hval]
    exact decAdd_sameSign hc ha hl hfa.1 rfl hfa.2 hzl hs
  · have hle : |(leadingPart c.n b).val| ≤ |a.val| :=
      calc |(leadingPart c.n b).val|
        _ ≤ (10 : ℚ) ^ (b.exp + 8) := (abs_val_bounds hl rfl hzl).2.le
        _ ≤ (10 : ℚ) ^ a.exp := ten_zpow_le (by omega)
        _ ≤ |a.val| := (abs_val_bounds ha hfa.1 hfa.2).1
    have key := (decAdd_differentSign hc ha hl hfa.1 rfl hfa.2 hzl hs hle).1
    rwa [hval, mul_div_assoc, div_self (lastUnit_pos c.n a.exp).ne', mul_one, Int.floor_natCast, Int.cast_natCast,
      sub_eq_add_neg] at key

end

end Sys2Proof

namespace Sys2Proof.Machine

/-- `ADD` writes the sum of its sources to its destination and completes (R140). -/
theorem exec_add (d s1 s2 : DReg) (s : State) :
    exec (.add d s1 s2) s = .next (s.writeD d (decAdd s.cfg (s.readD s1) (s.readD s2))) := rfl

/-- Settles O36: beyond the cut-off by the answer of `Add` itself, at the cut-off by the leading limb of the smaller
operand, which is all that its shift by N - 1 limbs leaves. -/
theorem addCutoff : Obligations.AddCutoff := by
  intro s d s1 s2 hinv hf1 hf2
  have wf1 := hinv.values s1
  have wf2 := hinv.values s2
  refine ⟨fun h => ?_, fun h => ?_, fun h => ?_⟩
  · refine ⟨_, exec_add d s1 s2 s, onlyD_writeD s d _, ?_⟩
    rw [readD_writeD_same, (decAdd_beyond_cutoff wf1 wf2 hf1 hf2 h).1]
  · refine ⟨_, exec_add d s1 s2 s, onlyD_writeD s d _, ?_⟩
    rw [readD_writeD_same, (decAdd_beyond_cutoff wf2 wf1 hf2 hf1 h).2]
  · refine ⟨_, exec_add d s1 s2 s, ?_, onlyD_writeD s d _, ?_⟩
    · rw [exec_add, (decAdd_at_cutoff hf1 hf2 h).2]
    · rw [readD_writeD_same]
      exact decAdd_at_cutoff_truncates hinv.valid wf1 wf2 hf1 hf2 h

end Sys2Proof.Machine

/-! PROOF. Encoding and decoding are inverse to each other (spec/30_encoding.md R91, R93, R95). The per-command halves of
one direction stand in Sys2Proof/Laws/PerInstr.lean; for the other, each format gives back the fields of its word. -/

namespace Sys2Proof

open Laws

/-! ### A format gives back the fields of its word (R91) -/

section
variable {w : Word} {i : Instr}

/-- A word whose unused fields are zero is the pack of its opcode and its used fields. -/
theorem eq_packFields_of_fields {a b c : BitVec 4} {imm : BitVec 12} (ha : aField w = a) (hb : bField w = b)
    (hc : cField w = c) (hi : immField w = imm) : packFields (opField w) a b c imm = w := by
  rw [← ha, ← hb, ← hc, ← hi, packFields_fields]

theorem formatZ_ok {j : Instr} (h : formatZ w j = .ok i) : i = j ∧ packFields (opField w) 0 0 0 0 = w := by
  unfold formatZ at h
  split at h
  · next hz =>
    obtain ⟨ha, hb, hc, hi⟩ := hz
    cases h
    exact ⟨rfl, eq_packFields_of_fields ha hb hc hi⟩
  · cases h

theorem formatD_ok {mk : BitVec 4 → Instr} (h : formatD w mk = .ok i) :
    i = mk (aField w) ∧ packFields (opField w) (aField w) 0 0 0 = w := by
  unfold formatD at h
  split at h
  · next hz =>
    obtain ⟨hb, hc, hi⟩ := hz
    cases h
    exact ⟨rfl, eq_packFields_of_fields rfl hb hc hi⟩
  · cases h

theorem formatAB_ok {mk : BitVec 4 → BitVec 4 → Instr} (h : formatAB w mk = .ok i) :
    i = mk (aField w) (bField w) ∧ packFields (opField w) (aField w) (bField w) 0 0 = w := by
  unfold formatAB at h
  split at h
  · next hz =>
    obtain ⟨hc, hi⟩ := hz
    cases h
    exact ⟨rfl, eq_packFields_of_fields rfl rfl hc hi⟩
  · cases h

theorem formatABC_ok {mk : BitVec 4 → BitVec 4 → BitVec 4 → Instr} (h : formatABC w mk = .ok i) :
    i = mk (aField w) (bField w) (cField w) ∧ packFields (opField w) (aField w) (bField w) (cField w) 0 = w := by
  unfold formatABC at h
  split at h
  · next hi =>
    cases h
    exact ⟨rfl, eq_packFields_of_fields rfl rfl rfl hi⟩
  · cases h

/-- A 12-bit field is its low bits, extended, when its other bits are zero. -/
theorem setWidth_low_of_high {k m : Nat} (x : BitVec 12) (hkm : k + m = 12) (h : x.extractLsb' k m = 0) :
    (x.extractLsb' 0 k).setWidth 12 = x := by
  have hx := x.isLt
  have hpow : 2 ^ k * 2 ^ m = 2 ^ 12 := by rw [← pow_add, hkm]
  have hk := Nat.two_pow_pos k
  have hhigh : x.toNat / 2 ^ k = 0 := by
    have h' := congrArg BitVec.toNat h
    rw [BitVec.extractLsb'_toNat, Nat.shiftRight_eq_div_pow] at h'
    rwa [Nat.mod_eq_of_lt (Nat.div_lt_of_lt_mul (hpow ▸ hx))] at h'
  have hlow : x.toNat % 2 ^ k = x.toNat := Nat.mod_eq_of_lt (by rwa [Nat.div_eq_zero_iff_lt hk] at hhigh)
  apply BitVec.eq_of_toNat_eq
  rw [BitVec.toNat_setWidth, BitVec.extractLsb'_toNat, Nat.shiftRight_zero, hlow, Nat.mod_eq_of_lt hx]

theorem formatDC_ok {mk : BitVec 4 → BitVec 9 → Instr} (h : formatDC w mk = .ok i) :
    ∃ cid : BitVec 9, i = mk (aField w) cid ∧ constantAssigned cid.toNat = true ∧
      packFields (opField w) (aField w) 0 0 (cid.setWidth 12) = w := by
  unfold formatDC at h
  split at h
  · next hz =>
    obtain ⟨hb, hc, hi⟩ := hz
    split at h
    · next hcid =>
      cases h
      exact ⟨_, rfl, hcid, eq_packFields_of_fields rfl hb hc (setWidth_low_of_high (immField w) rfl hi).symm⟩
    · cases h
  · cases h

theorem formatDP_ok {n : Nat} {mk : BitVec 4 → BitVec 12 → Instr} (h : formatDP n w mk = .ok i) :
    ∃ p : BitVec 12, i = mk (aField w) p ∧ precisionLegal n p.toNat = true ∧
      packFields (opField w) (aField w) 0 0 p = w := by
  unfold formatDP at h
  split at h
  · next hz =>
    obtain ⟨hb, hc⟩ := hz
    split at h
    · next hp => cases h; exact ⟨_, rfl, hp, eq_packFields_of_fields rfl hb hc rfl⟩
    · cases h
  · cases h

theorem bitOfStyle_styleOfBit (b : BitVec 1) : bitOfStyle (styleOfBit b) = b := by
  revert b; decide

theorem formatF_ok {mk : BitVec 4 → BitVec 4 → Style → Instr} (h : formatF w mk = .ok i) :
    ∃ style, i = mk (bField w) (cField w) style ∧
      packFields (opField w) 0 (bField w) (cField w) ((bitOfStyle style).setWidth 12) = w := by
  unfold formatF at h
  split at h
  · next hz =>
    obtain ⟨ha, hi⟩ := hz
    cases h
    refine ⟨_, rfl, eq_packFields_of_fields ha rfl rfl ?_⟩
    rw [bitOfStyle_styleOfBit, setWidth_low_of_high (immField w) rfl hi]
  · cases h

end

namespace Machine

/-! ### The two obligations (R93, R95) -/

/-- Settles O1, command by command. -/
theorem encodeThenDecode : Obligations.EncodeThenDecode := by
  intro n i
  cases i with
  | nop => exact EncodeDecode.nop n
  | mov d s => exact EncodeDecode.mov d s n
  | neg d s => exact EncodeDecode.neg d s n
  | abs d s => exact EncodeDecode.abs d s n
  | ldc d cid => exact EncodeDecode.ldc d cid n
  | setprec d p => exact EncodeDecode.setprec d p n
  | getprec d s => exact EncodeDecode.getprec d s n
  | fromu64 d s => exact EncodeDecode.fromu64 d s n
  | fromi64 d s => exact EncodeDecode.fromi64 d s n
  | fromf64 d s => exact EncodeDecode.fromf64 d s n
  | tou64 d s => exact EncodeDecode.tou64 d s n
  | toi64 d s => exact EncodeDecode.toi64 d s n
  | tof64 d s => exact EncodeDecode.tof64 d s n
  | add d s1 s2 => exact EncodeDecode.add d s1 s2 n
  | sub d s1 s2 => exact EncodeDecode.sub d s1 s2 n
  | mul d s1 s2 => exact EncodeDecode.mul d s1 s2 n
  | div d s1 s2 => exact EncodeDecode.div d s1 s2 n
  | recip d s => exact EncodeDecode.recip d s n
  | sqrt d s => exact EncodeDecode.sqrt d s n
  | cmp d s1 s2 => exact EncodeDecode.cmp d s1 s2 n
  | iszero d s => exact EncodeDecode.iszero d s n
  | isone d s => exact EncodeDecode.isone d s n
  | isint d s => exact EncodeDecode.isint d s n
  | isneg d s => exact EncodeDecode.isneg d s n
  | isnan d s => exact EncodeDecode.isnan d s n
  | isinf d s => exact EncodeDecode.isinf d s n
  | isfin d s => exact EncodeDecode.isfin d s n
  | classof d s => exact EncodeDecode.classof d s n
  | parse d => exact EncodeDecode.parse d n
  | format s x style => exact EncodeDecode.format s x style n

/-- Settles O2: the opcode picks the row, and the row's format gives the operands back. -/
theorem decodeThenEncode : Obligations.DecodeThenEncode := by
  intro n w i h
  have opcode : ∀ {k : Nat}, (opField w).toNat = k → opField w = BitVec.ofNat 8 k := by
    rintro k rfl; simp
  unfold decode at h
  split at h
  case h_1 hop => -- format Z
    obtain ⟨rfl, hw⟩ := formatZ_ok h
    rw [opcode hop] at hw
    exact ⟨hw, rfl⟩
  case h_5 hop => -- format DC
    obtain ⟨cid, rfl, hcid, hw⟩ := formatDC_ok h
    rw [opcode hop] at hw
    exact ⟨hw, hcid⟩
  case h_6 hop => -- format DP
    obtain ⟨p, rfl, hp, hw⟩ := formatDP_ok h
    rw [opcode hop] at hw
    exact ⟨hw, hp⟩
  case h_29 hop => -- format D
    obtain ⟨rfl, hw⟩ := formatD_ok h
    rw [opcode hop] at hw
    exact ⟨hw, rfl⟩
  case h_30 hop => -- format F
    obtain ⟨style, rfl, hw⟩ := formatF_ok h
    rw [opcode hop] at hw
    exact ⟨hw, rfl⟩
  case h_31 => cases h
  case h_14 hop | h_15 hop | h_16 hop | h_17 hop | h_20 hop => -- formats DDD and XDD
    obtain ⟨rfl, hw⟩ := formatABC_ok h
    rw [opcode hop] at hw
    exact ⟨hw, rfl⟩
  all_goals -- formats DD, XD and DX
    next hop =>
    obtain ⟨rfl, hw⟩ := formatAB_ok h
    rw [opcode hop] at hw
    exact ⟨hw, rfl⟩

end Machine

end Sys2Proof

/-! PROOF. `PARSE` reads the grammar of spec/46_parse.md (R223, R224): each reader of Sys2Proof/Machine/Parse.lean takes
the longest part of its kind, so it answers exactly the parts that the grammar names. -/

namespace Sys2Proof.Machine

/-! ### Characters (R222) -/

theorem digitOf_digitChar {d : Nat} (h : d < 10) : digitOf (digitChar d) = some d := by
  have key : ∀ d < 10, digitOf (digitChar d) = some d := by decide
  exact key d h

theorem digitOf_eq_some {b : Byte} {d : Nat} (h : digitOf b = some d) : d < 10 ∧ b = digitChar d := by
  unfold digitOf at h
  split at h
  · next hb =>
    cases h
    refine ⟨by omega, BitVec.eq_of_toNat_eq ?_⟩
    rw [digitChar, BitVec.toNat_ofNat]
    omega
  · cases h

/-- A digit is no sign. -/
theorem digitChar_ne_sign {d : Nat} (h : d < 10) : digitChar d ≠ 0x2D ∧ digitChar d ≠ 0x2B := by
  have key : ∀ d < 10, digitChar d ≠ 0x2D ∧ digitChar d ≠ 0x2B := by decide
  exact key d h

/-- The text does not go on with a digit. -/
def NoDigitHead (bs : List Byte) : Prop := ∀ b ∈ bs.head?, digitOf b = none

/-- The text does not go on with a sign. -/
def NoSignHead (bs : List Byte) : Prop := ∀ b ∈ bs.head?, b ≠ 0x2D ∧ b ≠ 0x2B

/-! ### Signs and digits (R223) -/

theorem takeSign_spec (bs : List Byte) : ∃ sign, bs = sign ++ (takeSign bs).2 ∧ IsSign sign (takeSign bs).1 := by
  cases bs with
  | nil => exact ⟨[], rfl, .inl ⟨rfl, .inl rfl⟩⟩
  | cons b rest =>
    rw [takeSign]
    split_ifs with hminus hplus
    · exact ⟨[0x2D], by rw [hminus]; rfl, .inr ⟨rfl, rfl⟩⟩
    · exact ⟨[0x2B], by rw [hplus]; rfl, .inl ⟨rfl, .inr rfl⟩⟩
    · exact ⟨[], rfl, .inl ⟨rfl, .inl rfl⟩⟩

theorem takeSign_append {sign rest : List Byte} {neg : Bool} (hs : IsSign sign neg) (hr : NoSignHead rest) :
    takeSign (sign ++ rest) = (neg, rest) := by
  obtain ⟨rfl, rfl | rfl⟩ | ⟨rfl, rfl⟩ := hs
  · cases rest with
    | nil => rfl
    | cons b rest =>
      obtain ⟨hminus, hplus⟩ := hr b rfl
      rw [List.nil_append, takeSign, if_neg hminus, if_neg hplus]
  · rfl
  · rfl

theorem takeDigits_cons_digit {b : Byte} {d : Nat} {rest : List Byte} (h : digitOf b = some d) :
    takeDigits (b :: rest) = (d :: (takeDigits rest).1, (takeDigits rest).2) := by rw [takeDigits, h]

theorem takeDigits_of_noDigitHead {bs : List Byte} (h : NoDigitHead bs) : takeDigits bs = ([], bs) := by
  cases bs with
  | nil => rfl
  | cons b rest => rw [takeDigits, h b rfl]

theorem takeDigits_spec (bs : List Byte) :
    bs = (takeDigits bs).1.map digitChar ++ (takeDigits bs).2 ∧ ∀ d ∈ (takeDigits bs).1, d < 10 := by
  induction bs with
  | nil => exact ⟨rfl, nofun⟩
  | cons b rest ih =>
    obtain ⟨hrest, hlt⟩ := ih
    cases hb : digitOf b with
    | none => rw [takeDigits_of_noDigitHead (by rintro _ ⟨⟩; exact hb)]; exact ⟨rfl, nofun⟩
    | some d =>
      obtain ⟨hd, rfl⟩ := digitOf_eq_some hb
      rw [takeDigits_cons_digit hb]
      exact ⟨congrArg (digitChar d :: ·) hrest, List.forall_mem_cons.mpr ⟨hd, hlt⟩⟩

theorem takeDigits_append {ds : List Nat} {rest : List Byte} (hd : ∀ d ∈ ds, d < 10) (hr : NoDigitHead rest) :
    takeDigits (ds.map digitChar ++ rest) = (ds, rest) := by
  induction ds with
  | nil => exact takeDigits_of_noDigitHead hr
  | cons d ds ih =>
    obtain ⟨hlt, hds⟩ := List.forall_mem_cons.mp hd
    rw [List.map_cons, List.cons_append, takeDigits_cons_digit (digitOf_digitChar hlt), ih hds]

theorem takeDigits_isDigits {bs : List Byte} {ds : List Nat} {rest : List Byte} (h : IsDigits bs ds)
    (hr : NoDigitHead rest) : takeDigits (bs ++ rest) = (ds, rest) := by
  obtain ⟨-, hd, rfl⟩ := h
  exact takeDigits_append hd hr

theorem isDigits_takeDigits {bs : List Byte} (h : (takeDigits bs).1 ≠ []) :
    ∃ body, bs = body ++ (takeDigits bs).2 ∧ IsDigits body (takeDigits bs).1 :=
  ⟨_, (takeDigits_spec bs).1, h, (takeDigits_spec bs).2, rfl⟩

theorem IsDigits.noSignHead {bs : List Byte} {ds : List Nat} (h : IsDigits bs ds) (rest : List Byte) :
    NoSignHead (bs ++ rest) := by
  obtain ⟨hne, hd, rfl⟩ := h
  cases ds with
  | nil => exact absurd rfl hne
  | cons d ds => rintro _ ⟨⟩; exact digitChar_ne_sign (hd d List.mem_cons_self)

/-! ### The parts of a number (R223) -/

/-- The fraction part of R223 and its digits. -/
def IsFraction (bs : List Byte) (ds : List Nat) : Prop := (bs = [] ∧ ds = []) ∨ ∃ f, bs = 0x2E :: f ∧ IsDigits f ds

/-- The exponent part of R223 and its integer. -/
def IsExponent (bs : List Byte) (k : Int) : Prop :=
  (bs = [] ∧ k = 0) ∨
    ∃ e esign ebody eneg eds, bs = e :: (esign ++ ebody) ∧ (e = 0x65 ∨ e = 0x45) ∧ IsSign esign eneg ∧
      IsDigits ebody eds ∧ k = if eneg then -(digitsValue eds : Int) else digitsValue eds

/-- An exponent part starts with no digit and no point. -/
theorem IsExponent.head {bs : List Byte} {k : Int} (h : IsExponent bs k) : NoDigitHead bs ∧ ∀ b ∈ bs.head?, b ≠ 0x2E := by
  obtain ⟨rfl, -⟩ | ⟨e, esign, ebody, eneg, eds, rfl, he, -⟩ := h
  · exact ⟨nofun, nofun⟩
  · obtain rfl | rfl := he
    · exact ⟨by rintro _ ⟨⟩; decide, by rintro _ ⟨⟩; decide⟩
    · exact ⟨by rintro _ ⟨⟩; decide, by rintro _ ⟨⟩; decide⟩

theorem IsFraction.noDigitHead {bs rest : List Byte} {ds : List Nat} (h : IsFraction bs ds) (hr : NoDigitHead rest) :
    NoDigitHead (bs ++ rest) := by
  obtain ⟨rfl, -⟩ | ⟨f, rfl, -⟩ := h
  · exact hr
  · rintro _ ⟨⟩; decide

theorem takeFraction_sound {bs rest : List Byte} {ds : List Nat} (h : takeFraction bs = some (ds, rest)) :
    ∃ frac, bs = frac ++ rest ∧ IsFraction frac ds := by
  cases bs with
  | nil => cases h; exact ⟨[], rfl, .inl ⟨rfl, rfl⟩⟩
  | cons b bs =>
    rw [takeFraction] at h
    split_ifs at h with hpoint hnone
    · injection h with h
      obtain ⟨body, hbs, hbody⟩ := isDigits_takeDigits hnone
      rw [h] at hbs hbody
      exact ⟨0x2E :: body, by rw [hpoint, hbs, List.cons_append], .inr ⟨body, rfl, hbody⟩⟩
    · cases h; exact ⟨[], rfl, .inl ⟨rfl, rfl⟩⟩

theorem takeFraction_append {frac rest : List Byte} {ds : List Nat} (h : IsFraction frac ds) (hd : NoDigitHead rest)
    (hp : ∀ b ∈ rest.head?, b ≠ 0x2E) : takeFraction (frac ++ rest) = some (ds, rest) := by
  obtain ⟨rfl, rfl⟩ | ⟨f, rfl, hf⟩ := h
  · cases rest with
    | nil => rfl
    | cons b rest => rw [List.nil_append, takeFraction, if_neg (hp b rfl)]
  · rw [List.cons_append, takeFraction, if_pos rfl, takeDigits_isDigits hf hd, if_neg hf.1]

theorem takeExponent_eq_some_iff {bs : List Byte} {k : Int} : takeExponent bs = some k ↔ IsExponent bs k := by
  constructor
  · intro h
    cases bs with
    | nil => cases h; exact .inl ⟨rfl, rfl⟩
    | cons b rest =>
      obtain ⟨sign, hsign, hs⟩ := takeSign_spec rest
      obtain ⟨neg, r, htake⟩ : ∃ neg r, takeSign rest = (neg, r) := ⟨_, _, rfl⟩
      rw [htake] at hsign hs
      rw [takeExponent, htake] at h
      dsimp only at h hsign hs
      by_cases hb : b = 0x65 ∨ b = 0x45
      · rw [if_pos hb] at h
        split at h
        · cases h
        · next hdigits =>
          obtain ⟨hsome, hend⟩ := not_or.mp hdigits
          obtain ⟨body, hbody, hd⟩ := isDigits_takeDigits hsome
          rw [not_not.mp hend, List.append_nil] at hbody
          cases h
          exact .inr ⟨b, sign, body, neg, _, by rw [← hbody, ← hsign], hb, hs, hd, rfl⟩
      · rw [if_neg hb] at h; cases h
  · rintro (⟨rfl, rfl⟩ | ⟨e, esign, ebody, eneg, eds, rfl, he, hs, hd, rfl⟩)
    · rfl
    · have hsign : takeSign (esign ++ ebody) = (eneg, ebody) :=
        takeSign_append hs (by simpa using hd.noSignHead [])
      have hdigits : takeDigits ebody = (eds, []) := by simpa using takeDigits_isDigits hd (rest := []) nofun
      rw [takeExponent, if_pos he, hsign]
      simp [hdigits, hd.1]

theorem parseNumber_of_noDigitHead {text r : List Byte} {neg : Bool} (h : takeSign text = (neg, r)) (hr : NoDigitHead r) :
    parseNumber text = none := by
  rw [parseNumber, h]
  exact if_pos (congrArg Prod.fst (takeDigits_of_noDigitHead hr))

/-- `PARSE` accepts as a number exactly the language `number`, and reads the parts that R223 names. -/
theorem parseNumber_eq_some_iff {text : List Byte} {p : NumberParts} : parseNumber text = some p ↔ IsNumberText text p := by
  constructor
  · intro h
    obtain ⟨sign, hsign, hs⟩ := takeSign_spec text
    obtain ⟨neg, r, htake⟩ : ∃ neg r, takeSign text = (neg, r) := ⟨_, _, rfl⟩
    rw [htake] at hsign hs
    rw [parseNumber, htake] at h
    dsimp only at h hsign hs
    by_cases hnone : (takeDigits r).1 = []
    · rw [if_pos hnone] at h; cases h
    obtain ⟨int, hint, hi⟩ := isDigits_takeDigits hnone
    rw [if_neg hnone] at h
    split at h
    · cases h
    · next frac rest hfrac =>
      obtain ⟨fpart, hf, hfp⟩ := takeFraction_sound hfrac
      split at h
      · cases h
      · next e hexp =>
        cases h
        refine ⟨sign, int, fpart, rest, ?_, hs, hi, hfp, takeExponent_eq_some_iff.mp hexp⟩
        rw [List.append_assoc, List.append_assoc, ← hf, ← hint, ← hsign]
  · rintro ⟨sign, int, frac, exp, rfl, hs, hi, hf, he⟩
    replace hf : IsFraction frac p.frac := hf
    replace he : IsExponent exp p.exp := he
    obtain ⟨hnodigit, hnopoint⟩ := he.head
    have hsign : takeSign (sign ++ int ++ frac ++ exp) = (p.sgn, int ++ (frac ++ exp)) := by
      rw [List.append_assoc, List.append_assoc]
      exact takeSign_append hs (hi.noSignHead _)
    have hint := takeDigits_isDigits hi (hf.noDigitHead hnodigit)
    rw [parseNumber, hsign]
    simp [hint, hi.1, takeFraction_append hf hnodigit hnopoint, takeExponent_eq_some_iff.mpr he]

/-! ### Special literals (R224) -/

/-- A letter of a special literal. -/
def IsLetter (l : Byte) : Prop := l ∈ nanText ++ infinityText

/-- Setting bit 5 takes exactly the two cases of a letter to the lower one (R222). -/
theorem lowerCase_eq_iff {l : Byte} (h : IsLetter l) (b : Byte) : lowerCase b = l ↔ b = l ∨ b = l - 0x20 := by
  have key : ∀ l ∈ nanText ++ infinityText, ∀ b : Byte, lowerCase b = l ↔ b = l ∨ b = l - 0x20 := by decide +kernel
  exact key l h b

theorem map_lowerCase_eq_iff {word : List Byte} (h : ∀ l ∈ word, IsLetter l) (bs : List Byte) :
    bs.map lowerCase = word ↔ Spells word bs := by
  induction word generalizing bs with
  | nil => cases bs <;> simp [Spells]
  | cons l word ih =>
    obtain ⟨hl, hword⟩ := List.forall_mem_cons.mp h
    cases bs with
    | nil => simp [Spells]
    | cons b bs =>
      rw [List.map_cons, List.cons.injEq, lowerCase_eq_iff hl, ih hword, Spells, Spells, List.forall₂_cons]

theorem infText_letters : ∀ l ∈ infText, IsLetter l := by unfold IsLetter; decide
theorem infinityText_letters : ∀ l ∈ infinityText, IsLetter l := by unfold IsLetter; decide
theorem nanText_letters : ∀ l ∈ nanText, IsLetter l := by unfold IsLetter; decide

/-- A character whose lower case is a letter is neither a sign nor a digit. -/
theorem no_sign_no_digit_of_letter {b : Byte} (h : IsLetter (lowerCase b)) : (b ≠ 0x2D ∧ b ≠ 0x2B) ∧ digitOf b = none := by
  have key : ∀ b : Byte, lowerCase b ∈ nanText ++ infinityText → (b ≠ 0x2D ∧ b ≠ 0x2B) ∧ digitOf b = none := by
    decide +kernel
  exact key b h

/-- A text that spells a literal starts with neither a sign nor a digit. -/
theorem spelled_head {word bs : List Byte} (hw : ∀ l ∈ word, IsLetter l) (h : bs.map lowerCase = word) :
    NoSignHead bs ∧ NoDigitHead bs := by
  subst h
  cases bs with
  | nil => exact ⟨nofun, nofun⟩
  | cons b bs =>
    obtain ⟨hsign, hdigit⟩ := no_sign_no_digit_of_letter (hw (lowerCase b) List.mem_cons_self)
    exact ⟨by rintro _ ⟨⟩; exact hsign, by rintro _ ⟨⟩; exact hdigit⟩

/-- The literal a text spells after its sign, and its value (R224). -/
theorem isSpecialText_iff {n : Nat} {text : List Byte} {v : DValue} :
    IsSpecialText n text v ↔ ∃ sign body neg, text = sign ++ body ∧ IsSign sign neg ∧
      (((body.map lowerCase = infText ∨ body.map lowerCase = infinityText) ∧ v = DValue.infinity n neg) ∨
        (body.map lowerCase = nanText ∧ v = DValue.notANumber n)) := by
  have hinf (body : List Byte) := map_lowerCase_eq_iff infText_letters body
  have hinfinity (body : List Byte) := map_lowerCase_eq_iff infinityText_letters body
  have hnan (body : List Byte) := map_lowerCase_eq_iff nanText_letters body
  simp only [hinf, hinfinity, hnan, or_and_right, or_assoc]
  rfl

/-- After its sign a special literal goes on with no digit. -/
theorem specialText_body {n : Nat} {text : List Byte} {v : DValue} (h : IsSpecialText n text v) :
    ∃ neg body, takeSign text = (neg, body) ∧ NoDigitHead body := by
  obtain ⟨sign, body, neg, rfl, hs, hword⟩ := isSpecialText_iff.mp h
  have hbody : NoSignHead body ∧ NoDigitHead body := by
    obtain ⟨hb | hb, -⟩ | ⟨hb, -⟩ := hword
    · exact spelled_head infText_letters hb
    · exact spelled_head infinityText_letters hb
    · exact spelled_head nanText_letters hb
  exact ⟨neg, body, takeSign_append hs hbody.1, hbody.2⟩

/-- `PARSE` accepts as a special literal exactly the language `special`, with the value that R224 names. -/
theorem parseSpecial_eq_some_iff {n : Nat} {text : List Byte} {v : DValue} :
    parseSpecial n text = some v ↔ IsSpecialText n text v := by
  rw [isSpecialText_iff]
  constructor
  · intro h
    obtain ⟨sign, hsign, hs⟩ := takeSign_spec text
    obtain ⟨neg, r, htake⟩ : ∃ neg r, takeSign text = (neg, r) := ⟨_, _, rfl⟩
    rw [htake] at hsign hs
    rw [parseSpecial, htake] at h
    dsimp only at h hsign hs
    split_ifs at h with hinf hnan
    · cases h; exact ⟨sign, r, neg, hsign, hs, .inl ⟨hinf, rfl⟩⟩
    · cases h; exact ⟨sign, r, neg, hsign, hs, .inr ⟨hnan, rfl⟩⟩
  · rintro ⟨sign, body, neg, rfl, hs, ⟨hinf, rfl⟩ | ⟨hnan, rfl⟩⟩
    · have hhead : NoSignHead body := by
        obtain hb | hb := hinf
        · exact (spelled_head infText_letters hb).1
        · exact (spelled_head infinityText_letters hb).1
      simp [parseSpecial, takeSign_append hs hhead, hinf]
    · have hne : nanText ≠ infText ∧ nanText ≠ infinityText := by decide
      simp [parseSpecial, takeSign_append hs (spelled_head nanText_letters hnan).1, hnan, hne]

/-! ### `ParseText` (R221, R224, R226) -/

theorem parseText_of_special {c : Config} {text : List Byte} {v : DValue} (h : IsSpecialText c.n text v) :
    parseText c text = some v := by rw [parseText, parseSpecial_eq_some_iff.mpr h]

/-- No text is in both languages: after its sign a number goes on with a digit. -/
theorem parseText_of_number {c : Config} {text : List Byte} {p : NumberParts} (h : IsNumberText text p) :
    parseText c text = some (numberValue c p) := by
  have hspecial : parseSpecial c.n text = none := by
    by_contra hsome
    obtain ⟨v, hv⟩ := Option.ne_none_iff_exists'.mp hsome
    obtain ⟨neg, body, htake, hbody⟩ := specialText_body (parseSpecial_eq_some_iff.mp hv)
    have hnumber := parseNumber_eq_some_iff.mpr h
    rw [parseNumber_of_noDigitHead htake hbody] at hnumber
    cases hnumber
  rw [parseText, hspecial, parseNumber_eq_some_iff.mpr h]
  rfl

/-- `ParseText` answers nothing exactly for the texts in neither language (R221). -/
theorem parseText_eq_none_iff {c : Config} {text : List Byte} :
    parseText c text = none ↔ (∀ p, ¬ IsNumberText text p) ∧ ∀ v, ¬ IsSpecialText c.n text v := by
  constructor
  · intro h
    refine ⟨fun p hp => ?_, fun v hv => ?_⟩
    · rw [parseText_of_number hp] at h; cases h
    · rw [parseText_of_special hv] at h; cases h
  · rintro ⟨hnumber, hspecial⟩
    have h1 : parseSpecial c.n text = none := by
      by_contra hsome
      obtain ⟨v, hv⟩ := Option.ne_none_iff_exists'.mp hsome
      exact hspecial v (parseSpecial_eq_some_iff.mp hv)
    have h2 : parseNumber text = none := by
      by_contra hsome
      obtain ⟨p, hp⟩ := Option.ne_none_iff_exists'.mp hsome
      exact hnumber p (parseNumber_eq_some_iff.mp hp)
    rw [parseText, h1, h2]
    rfl

/-- What `ParseText` answers is the value of a text in one of its languages. -/
theorem parseText_eq_some {c : Config} {text : List Byte} {v : DValue} (h : parseText c text = some v) :
    IsSpecialText c.n text v ∨ ∃ p, IsNumberText text p ∧ v = numberValue c p := by
  by_cases hnumber : ∃ p, IsNumberText text p
  · obtain ⟨p, hp⟩ := hnumber
    rw [parseText_of_number hp] at h
    cases h
    exact .inr ⟨p, hp, rfl⟩
  · by_cases hspecial : ∃ w, IsSpecialText c.n text w
    · obtain ⟨w, hw⟩ := hspecial
      rw [parseText_of_special hw] at h
      cases h
      exact .inl hw
    · rw [parseText_eq_none_iff.mpr ⟨not_exists.mp hnumber, not_exists.mp hspecial⟩] at h
      cases h

theorem IsNumberText.digits_lt {text : List Byte} {p : NumberParts} (h : IsNumberText text p) :
    ∀ d ∈ p.int ++ p.frac, d < 10 := by
  obtain ⟨sign, int, frac, exp, -, -, ⟨-, hint, -⟩, hfrac, -⟩ := h
  intro d hd
  obtain hd | hd := List.mem_append.mp hd
  · exact hint d hd
  · obtain ⟨-, hnil⟩ | ⟨f, -, -, hf, -⟩ := hfrac
    · rw [hnil] at hd; cases hd
    · exact hf d hd

/-- What `PARSE` writes is a stored value (R22). -/
theorem parseText_wf {c : Config} (hc : c.Valid) {text : List Byte} {v : DValue} (h : parseText c text = some v) : v.wf c := by
  obtain hspecial | ⟨p, hp, rfl⟩ := parseText_eq_some h
  · obtain ⟨sign, body, neg, -, -, ⟨-, rfl⟩ | ⟨-, rfl⟩⟩ := isSpecialText_iff.mp hspecial
    · exact infinity_wf hc neg
    · exact notANumber_wf hc
  · exact (numberValue_truncates hc hp.digits_lt).wf hc

end Sys2Proof.Machine

/-! PROOF. What a command can do, said once (`CommandEffect`), and the frames, the flags and the independence of the port
that follow for all 30 commands (spec/10_state.md R44, spec/30_encoding.md R93, R97, spec/60_exceptions.md R281 to R293). -/

namespace Sys2Proof.Machine

/-! ### What a command can do -/

/-- The states a command can end in. -/
inductive CommandEffect (i : Instr) (s : State) : State → Prop
  /-- Nothing happens. -/
  | idle (hi : i = .nop) : CommandEffect i s s
  /-- A stored value goes to the `D` destination. -/
  | writesD {d : DReg} {v : DValue} (hd : destD i = some d) (hv : s.Inv → v.wf s.cfg) : CommandEffect i s (s.writeD d v)
  /-- A scalar goes to the `X` destination. -/
  | writesX {x : XReg} {v : XWord} (hx : destX i = some x) : CommandEffect i s (s.writeX x v)
  /-- `SQRT` outside its domain writes NaN and raises `DOM`. -/
  | domainError {d src : DReg} (hi : i = .sqrt d src) (hdom : sqrtDomainError (s.readD src) = true) :
      CommandEffect i s ((s.writeD d (DValue.notANumber s.cfg.n)).raise .dom)
  /-- `PARSE` writes the value of the text. -/
  | parses {d : DReg} {v : DValue} (hi : i = .parse d) (hv : parseText s.cfg (s.readBytes 0 s.tlen.toNat) = some v) :
      CommandEffect i s ((s.afterRead 0 s.tlen.toNat).writeD d v)
  /-- `PARSE` of an invalid text raises `PERR`. -/
  | parseError {d : DReg} (hi : i = .parse d) (hv : parseText s.cfg (s.readBytes 0 s.tlen.toNat) = none) :
      CommandEffect i s ((s.afterRead 0 s.tlen.toNat).raise .perr)
  /-- An illegal operand or a count of zero raises `ILL`. -/
  | illegal (h : i.wellFormed s.cfg.n = false ∨ ∃ src x style, i = .format src x style ∧ s.readX x = 0) :
      CommandEffect i s (s.raise .ill)
  /-- `FORMAT` hands its record off. -/
  | handsOff {src : DReg} {x : XReg} {style : Style} (hi : i = .format src x style) (hx : s.readX x ≠ 0)
      (hlen : (formatValue (s.readD src) (s.readUnsigned x)).text.length ≤ s.cfg.tbytes) :
      CommandEffect i s (s.handOff (formatValue (s.readD src) (s.readUnsigned x)) style)

theorem fromI64_readSigned_wf {s : State} (h : s.Inv) (x : XReg) : (fromI64 s.cfg.n (s.readSigned x)).wf s.cfg :=
  (fromI64_spec h.valid (BitVec.le_toInt _) (BitVec.toInt_lt)).1

theorem decSqrt_of_domainError {c : Config} {v : DValue} (h : sqrtDomainError v = true) :
    decSqrt c v = DValue.notANumber c.n := by
  have hdom : v.cls = .nan ∨ v.neg = true := by simpa [sqrtDomainError] using h
  rw [decSqrt, if_pos hdom]

/-- Every command that gives a next state has one of these effects. -/
theorem exec_effect {i : Instr} {s t : State} (h : exec i s = .next t) : CommandEffect i s t := by
  cases i with
  | nop => cases h; exact .idle rfl
  | mov d src => cases h; exact .writesD rfl fun hs => hs.values src
  | neg d src => cases h; exact .writesD rfl fun hs => negate_wf (hs.values src)
  | abs d src => cases h; exact .writesD rfl fun hs => absolute_wf (hs.values src)
  | ldc d cid =>
    obtain ⟨v, hv, rfl⟩ | ⟨hnone, rfl⟩ := execLdc_cases h
    · exact .writesD rfl fun hs => registry_wf hs.valid hv
    · exact .illegal (.inl (by rw [Instr.wellFormed, ← registry_isSome (c := s.cfg), hnone]; rfl))
  | setprec d p =>
    obtain ⟨hp, rfl⟩ | ⟨hp, rfl⟩ := execSetprec_cases h
    · exact .writesD rfl fun hs => withPrec_wf (hs.values d) (by simpa [precisionLegal] using hp) hs.valid.n_lt
    · exact .illegal (.inl hp)
  | fromu64 d x => cases h; exact .writesD rfl fun hs => (fromU64_spec hs.valid (s.readX x).isLt).1
  | fromi64 d x => cases h; exact .writesD rfl fun hs => fromI64_readSigned_wf hs x
  | fromf64 d x => cases h; exact .writesD rfl fun hs => fromF64_wf hs.valid (s.readX x)
  | add d s1 s2 => cases h; exact .writesD rfl fun hs => decAdd_wf hs.valid (hs.values s1) (hs.values s2)
  | sub d s1 s2 => cases h; exact .writesD rfl fun hs => decSub_wf hs.valid (hs.values s1) (hs.values s2)
  | mul d s1 s2 => cases h; exact .writesD rfl fun hs => decMul_wf hs.valid (hs.values s1) (hs.values s2)
  | div d s1 s2 => cases h; exact .writesD rfl fun hs => decDiv_wf hs.valid (hs.values s1) (hs.values s2)
  | recip d src => cases h; exact .writesD rfl fun hs => decRecip_wf hs.valid (hs.values src)
  | sqrt d src =>
    obtain ⟨hdom, rfl⟩ | ⟨-, rfl⟩ := execSqrt_cases h
    · rw [decSqrt_of_domainError hdom]; exact .domainError rfl hdom
    · exact .writesD rfl fun hs => decSqrt_wf hs.valid (hs.values src)
  | parse d =>
    obtain ⟨-, ⟨v, hv, rfl⟩ | ⟨hv, rfl⟩⟩ := execParse_cases h
    · exact .parses rfl hv
    · exact .parseError rfl hv
  | format src x style =>
    obtain ⟨hx, rfl⟩ | ⟨hx, hlen, rfl⟩ := execFormat_cases h
    · exact .illegal (.inr ⟨src, x, style, rfl, hx⟩)
    · exact .handsOff rfl hx hlen
  | getprec | tou64 | toi64 | tof64 | cmp | iszero | isone | isint | isneg | isnan | isinf | isfin | classof =>
    cases h; exact .writesX rfl

/-! ### Flags (R44, R281, R289) -/

/-- Settles O13: each effect raises one flag or none. -/
theorem whichCommandRaisesWhichFlag : Obligations.WhichCommandRaisesWhichFlag := by
  intro i s t h
  cases exec_effect h with
  | idle | writesD | writesX | handsOff => exact .inl rfl
  | parses => exact .inl (by simp)
  | @domainError d src hi hdom => exact .inr (.inl ⟨rfl, d, src, hi, by simpa [sqrtDomainError] using hdom⟩)
  | @parseError d hi hv => exact .inr (.inr (.inl ⟨by simp [Flags.set], d, hi, parseText_eq_none_iff.mp hv⟩))
  | illegal hi => exact .inr (.inr (.inr ⟨rfl, hi⟩))

/-- Settles O12: a command leaves `FLAGS` or sets one bit of it. -/
theorem commandsOnlySetFlags : Obligations.CommandsOnlySetFlags := by
  intro i s t h
  obtain hf | ⟨hf, -⟩ | ⟨hf, -⟩ | ⟨hf, -⟩ := whichCommandRaisesWhichFlag i s t h
  · rw [hf]; exact ⟨id, id, id⟩
  · rw [hf]; exact ⟨fun _ => rfl, id, id⟩
  · rw [hf]; exact ⟨id, fun _ => rfl, id⟩
  · rw [hf]; exact ⟨id, id, fun _ => rfl⟩

/-! ### Frames (R67, R93, R97, R293) -/

theorem CommandEffect.samePort {i : Instr} {s t : State} (h : CommandEffect i s t) : SamePort s t := by
  cases h with
  | parses | parseError => exact (afterRead_same s 0 s.tlen.toNat).2.2.2.2.2
  | _ => exact ⟨rfl, rfl, rfl, rfl, rfl⟩

/-- Every effect but the hand-off leaves the text and its record. -/
theorem CommandEffect.sameText {i : Instr} {s t : State} (h : CommandEffect i s t)
    (hi : ∀ src x style, i ≠ .format src x style) : SameText s t ∧ SameRecord s t := by
  cases h with
  | parses | parseError =>
    obtain ⟨-, -, -, hrecord, htext, -⟩ := afterRead_same s 0 s.tlen.toNat
    exact ⟨htext, hrecord⟩
  | handsOff hf => exact absurd hf (hi _ _ _)
  | _ => exact ⟨fun _ => rfl, rfl, rfl, rfl⟩

/-- Settles O15. -/
theorem onlyFormatWritesText : Obligations.OnlyFormatWritesText :=
  fun _ _ _ h => ⟨(exec_effect h).samePort, (exec_effect h).sameText⟩

/-- A register that is not the destination is not the register written. -/
theorem ne_of_dest_ne {α : Type} {dest : Option α} {d r : α} (hd : dest = some d) (hr : dest ≠ some r) : r ≠ d := by
  rintro rfl; exact hr hd

theorem CommandEffect.sameD {i : Instr} {s t : State} (h : CommandEffect i s t) {r : DReg} (hr : destD i ≠ some r) :
    t.readD r = s.readD r := by
  cases h with
  | writesD hd => exact readD_writeD_other s _ (ne_of_dest_ne hd hr)
  | domainError hi =>
    subst hi
    rw [readD_raise, readD_writeD_other s _ (ne_of_dest_ne rfl hr)]
  | parses hi =>
    subst hi
    rw [readD_writeD_other _ _ (ne_of_dest_ne rfl hr), readD_afterRead]
  | parseError => rw [readD_raise, readD_afterRead]
  | _ => rfl

theorem CommandEffect.sameX {i : Instr} {s t : State} (h : CommandEffect i s t) {x : XReg} (hx : destX i ≠ some x) :
    t.readX x = s.readX x := by
  cases h with
  | writesX hd => exact readX_writeX_other s _ (ne_of_dest_ne hd hx)
  | parses => rw [readX_writeD, readX_afterRead]
  | parseError => rw [readX_raise, readX_afterRead]
  | _ => rfl

/-- Settles O16. -/
theorem commandsWriteOnlyTheirDestination : Obligations.CommandsWriteOnlyTheirDestination :=
  fun _ _ _ h => ⟨fun _ => (exec_effect h).sameD, fun _ => (exec_effect h).sameX⟩

/-! ### A command does not read the port (R44, R97, R290) -/

/-- A state with everything that no command reads at its reset value: what is left is what a command can depend on. -/
def State.sources (s : State) : State :=
  { State.resetWith s.cfg with dregs := s.dregs, xregs := s.xregs, tlen := s.tlen, tbuf := s.tbuf, draws := s.draws }

/-- The sources that a result leaves. -/
def sourcesOf : Result → Result
  | .next s => .next s.sources
  | .fault f => .fault f
  | .refused r => .refused r

@[simp] theorem sources_cfg (s : State) : s.sources.cfg = s.cfg := rfl
@[simp] theorem sources_tlen (s : State) : s.sources.tlen = s.tlen := rfl
@[simp] theorem sources_readD (s : State) (r : DReg) : s.sources.readD r = s.readD r := rfl
@[simp] theorem sources_readUnsigned (s : State) (x : XReg) : s.sources.readUnsigned x = s.readUnsigned x := rfl
@[simp] theorem sources_readBytes (s : State) (a len : Nat) : s.sources.readBytes a len = s.readBytes a len := rfl

theorem sources_afterRead (s : State) (a len : Nat) : (s.sources.afterRead a len).sources = (s.afterRead a len).sources := by
  simp only [State.afterRead, show s.sources.someUnwritten a len = s.someUnwritten a len from rfl]
  split <;> rfl

theorem sources_writeD (s : State) (d : DReg) (v : DValue) : (s.writeD d v).sources = s.sources.writeD d v := rfl

theorem sources_raise (s : State) (f : Flag) : (s.raise f).sources = s.sources := rfl

/-- A command leaves the same sources whatever else its state holds. -/
theorem exec_sources (i : Instr) (s : State) : sourcesOf (exec i s.sources) = sourcesOf (exec i s) := by
  cases i with
  | ldc d cid =>
    simp only [exec, execLdc, sources_cfg]
    cases registry s.cfg cid.toNat <;> rfl
  | setprec d p =>
    by_cases hp : precisionLegal s.cfg.n p.toNat = true <;>
      simp only [exec, execSetprec, sources_cfg, sources_readD, hp, reduceIte] <;> rfl
  | sqrt d src =>
    by_cases hdom : sqrtDomainError (s.readD src) = true <;>
      simp only [exec, execSqrt, sources_cfg, sources_readD, hdom, reduceIte] <;> rfl
  | parse d =>
    by_cases hlen : s.cfg.tbytes < s.tlen.toNat
    · simp only [exec, execParse, sources_cfg, sources_tlen, hlen, reduceIte]
    · simp only [exec, execParse, sources_cfg, sources_tlen, sources_readBytes, hlen, reduceIte]
      cases parseText s.cfg (s.readBytes 0 s.tlen.toNat) with
      | none => simp only [abort, sourcesOf, sources_raise, sources_afterRead]
      | some v => simp only [sourcesOf, sources_writeD, sources_afterRead]
  | format src x style =>
    simp only [exec, execFormat, sources_cfg, sources_readD, sources_readUnsigned]
    by_cases hx : s.readUnsigned x = 0
    · simp only [hx, reduceIte]; rfl
    · by_cases hlen : s.cfg.tbytes < (formatValue (s.readD src) (s.readUnsigned x)).text.length
      · simp only [hx, hlen, reduceIte]
      · simp only [hx, hlen, reduceIte]; rfl
  | _ => rfl

/-- States that agree in what a command can depend on have the same sources. -/
theorem sources_congr {s s' : State} (hd : SameD s s') (hx : SameX s s') (htlen : s'.tlen = s.tlen)
    (htbuf : s'.tbuf = s.tbuf) (hcfg : s'.cfg = s.cfg) (hdraws : s'.draws = s.draws) : s'.sources = s.sources := by
  have hdregs : s'.dregs = s.dregs := Vector.ext fun k hk => hd (BitVec.ofFin ⟨k, hk⟩)
  have hxregs : s'.xregs = s.xregs := Vector.ext fun k hk => hx (BitVec.ofFin ⟨k, hk⟩)
  simp only [State.sources, hdregs, hxregs, htlen, htbuf, hcfg, hdraws]

/-- Settles O14: both runs leave the sources that the common sources lead to. -/
theorem commandsReadOnlyTheirSources : Obligations.CommandsReadOnlyTheirSources := by
  intro i s s' t hd hx htlen htbuf hcfg hdraws h
  have hrun : sourcesOf (exec i s') = .next t.sources := by
    rw [← exec_sources, sources_congr hd hx htlen htbuf hcfg hdraws, exec_sources, h]; rfl
  obtain ⟨t', ht', hsame⟩ : ∃ t', exec i s' = .next t' ∧ t'.sources = t.sources := by
    cases hres : exec i s' with
    | next t' => rw [hres] at hrun; exact ⟨t', rfl, Host.Outcome.next.inj hrun⟩
    | fault f => rw [hres] at hrun; cases hrun
    | refused r => rw [hres] at hrun; cases hrun
  have keep {α : Type} (f : State → α) : f t'.sources = f t.sources := congrArg f hsame
  exact ⟨t', ht', fun r => keep (·.readD r), fun x => keep (·.readX x), keep (·.tlen), fun a => keep (·.tbuf.read a),
    keep (·.draws)⟩

end Sys2Proof.Machine

/-! PROOF. Steps: what a command, a port store and a reset keep of the invariants of spec/10_state.md R22, R45, R48 and
spec/20_memory.md R60, that every step completes, and what it takes from the host (R14, R75, R310 to R322). -/

namespace Sys2Proof.Machine

/-! ### Steps by the host's event (R75) -/

theorem step_of_pending {s : State} {e : HostEvent} {rest : List HostEvent} (h : s.pending = e :: rest) :
    step s = performEvent e { s with pending := rest } := by rw [step, h]

/-- A `CMD` write runs the command of its word (R42). -/
theorem performWrite_cmd (w : Word) (s : State) : performWrite .w32 0 w s = completeCommand (runWord w s) := rfl

theorem runWord_of_decode {w : Word} {i : Instr} {s : State} (h : decode s.cfg.n w = .ok i) : runWord w s = exec i s := by
  rw [runWord, h]

/-- Settles O5: both forms perform a `CMD` write on the state without the event. -/
theorem stepRunsTheCommand : Obligations.StepRunsTheCommand := by
  have run : ∀ (s : State) (rest : List HostEvent) (w : Word) (i : Instr), s.pending = .write .w32 0 w :: rest →
      decode s.cfg.n w = .ok i → step s = completeCommand (exec i { s with pending := rest }) := by
    intro s rest w i hp hd
    rw [step_of_pending hp, performEvent, performWrite_cmd, runWord_of_decode (s := { s with pending := rest }) hd]
  refine ⟨run, fun s w i hd => ?_⟩
  have hp : (s.withFetchWord 32 w.toNat).pending = .write .w32 0 w :: s.pending := by
    rw [State.withFetchWord, Nat.mod_eq_of_lt w.isLt, BitVec.ofNat_toNat, BitVec.setWidth_eq]
  exact run _ s.pending w i hp hd

/-- Settles O6: no row means no command (R94), and both cases raise `ILL` alone. -/
theorem illegalCommandSetsIll : Obligations.IllegalCommandSetsIll := by
  have run : ∀ (s : State) (rest : List HostEvent) (w : Word), s.pending = .write .w32 0 w :: rest →
      runWord w { s with pending := rest } = abort .ill { s with pending := rest } →
      step s = .next { s with pending := rest, busy := false, port := .written, flags := { s.flags with ill := true } } := by
    intro s rest w hp h
    rw [step_of_pending hp, performEvent, performWrite_cmd, h]; rfl
  refine ⟨fun s rest w hp hrow => run s rest w hp ?_, fun s rest w src x style hp hd hx => run s rest w hp ?_⟩
  · obtain ⟨i, hd, -⟩ | ⟨e, -, h⟩ := runWord_cases w { s with pending := rest }
    · obtain ⟨row, hmem, hmatch, -⟩ := decode_eq_ok_iff.mp hd
      exact absurd ⟨row, hmem, hmatch⟩ hrow
    · exact h
  · rw [runWord_of_decode (s := { s with pending := rest }) hd]
    exact if_pos (congrArg BitVec.toNat hx)

/-! ### The reset state (R56, R310) -/

theorem recordOf_nil (c : Config) : recordOf c [] 0 false = DValue.zero c.n := by
  simp [recordOf, DValue.zero, finiteValue]

@[simp] theorem readD_resetWith (c : Config) (r : DReg) : (State.resetWith c).readD r = DValue.zero c.n :=
  Vector.getElem_replicate ..

@[simp] theorem readX_resetWith (c : Config) (x : XReg) : (State.resetWith c).readX x = 0 :=
  Vector.getElem_replicate ..

/-- Settles O7. -/
theorem resetValues : Obligations.ResetValues := by
  intro s rest hp
  refine ⟨_, step_of_pending hp, fun r => ?_, fun x => readX_resetWith s.cfg x, ⟨rfl, rfl, rfl⟩, rfl, rfl, rfl, rfl, rfl,
    fun _ => rfl, rfl, rfl⟩
  rw [recordOf_nil]
  exact readD_resetWith s.cfg r

theorem resetWith_inv {c : Config} (hc : c.Valid) : (State.resetWith c).Inv where
  valid := hc
  values r := by rw [readD_resetWith]; exact zero_wf hc
  tlen := Nat.zero_le _
  canonical := List.Pairwise.nil
  inBuffer := nofun
  dselBits := show (0 : BitVec 32) &&& dselMask = 0 by decide
  idle := rfl

/-- Settles O8. -/
theorem resetMeetsInvariants : Obligations.ResetMeetsInvariants :=
  ⟨fun _ hc => resetWith_inv hc, resetWith_inv (by decide)⟩

/-! ### What keeps the invariants (R22) -/

section
variable {s : State} (h : s.Inv)
include h

theorem State.Inv.writeD {d : DReg} {v : DValue} (hv : v.wf s.cfg) : (s.writeD d v).Inv where
  valid := h.valid
  values r := by
    rw [readD_writeD]
    split
    · exact hv
    · exact h.values r
  tlen := h.tlen
  canonical := h.canonical
  inBuffer := h.inBuffer
  dselBits := h.dselBits
  idle := h.idle

theorem State.Inv.writeX {x : XReg} {v : XWord} : (s.writeX x v).Inv := { h with }

theorem State.Inv.raise {f : Flag} : (s.raise f).Inv := { h with }

theorem State.Inv.answer {p : PortResponse} : (s.answer p).Inv := { h with }

theorem State.Inv.pending {es : List HostEvent} : State.Inv { s with pending := es } := { h with }

theorem State.Inv.afterRead {a len : Nat} : (s.afterRead a len).Inv := by
  unfold State.afterRead
  split
  · exact { h with }
  · exact h

theorem State.Inv.afterPortRead {reg : PortReg} : (s.afterPortRead reg).Inv := by
  obtain heq | heq := afterPortRead_eq s reg <;> rw [heq]
  · exact h
  · exact { h with }

/-- Writing bytes that exist keeps the buffer canonical (R60). -/
theorem State.Inv.writeText {a : Nat} {bs : List Byte} (hlen : a + bs.length ≤ s.cfg.tbytes) : (s.writeText a bs).Inv :=
  { h with
    canonical := TextBuffer.writeBytes_wf h.canonical a bs
    inBuffer := fun cell hcell => by
      obtain hnew | hold := TextBuffer.mem_writeBytes hcell
      · exact lt_of_lt_of_le hnew.2 hlen
      · exact h.inBuffer cell hold }

theorem State.Inv.setTlen {len : BitVec 16} (hlen : len.toNat ≤ s.cfg.tbytes) : State.Inv { s with tlen := len } :=
  { h with tlen := hlen }

theorem State.Inv.tbytes_le : s.cfg.tbytes ≤ 32768 := h.valid.2.2.2.1.2.2.2

theorem State.Inv.tbytes_mod : s.cfg.tbytes % 4 = 0 := h.valid.2.2.2.1.1

/-- A hand-off record that fits the buffer keeps the invariants (R240). -/
theorem State.Inv.handOff {r : FormatRecord} {style : Style} (hlen : r.text.length ≤ s.cfg.tbytes) :
    (s.handOff r style).Inv :=
  { h.writeText (a := 0) (by rwa [Nat.zero_add]) with
    tlen := by
      rw [handOff_tlen, BitVec.toNat_ofNat, handOff_cfg]
      exact (Nat.mod_le _ _).trans hlen }

theorem CommandEffect.inv {i : Instr} {t : State} (he : CommandEffect i s t) : t.Inv := by
  cases he with
  | idle => exact h
  | writesD _ hv => exact h.writeD (hv h)
  | writesX => exact h.writeX
  | domainError => exact (h.writeD (notANumber_wf h.valid)).raise
  | parses _ hv => exact h.afterRead.writeD (by rw [afterRead_cfg]; exact parseText_wf h.valid hv)
  | parseError => exact h.afterRead.raise
  | illegal => exact h.raise
  | handsOff _ _ hlen => exact h.handOff hlen

end

/-! ### The port map (R62) -/

/-- The rows of R62 below the `X` window. -/
def fixedRegisters : List (Nat × PortReg) :=
  [(0x00, .cmd), (0x04, .status), (0x08, .flags), (0x0C, .tlen), (0x10, .fexpl), (0x14, .fexph), (0x18, .finfo),
   (0x20, .cfgDigits), (0x24, .cfgN), (0x28, .cfgTbytes), (0x2C, .cfgEw), (0x30, .cfgMaxel), (0x34, .cfgMaxeh),
   (0x40, .dsel), (0x44, .dlimb), (0x48, .dexpl), (0x4C, .dexph), (0x50, .dmeta)]

theorem fixedOffset_eq_ok_iff {off : Nat} {reg : PortReg} : fixedOffset off = .ok reg ↔ (off, reg) ∈ fixedRegisters := by
  constructor
  · intro h
    unfold fixedOffset at h
    split at h <;> cases h <;> decide
  · intro h
    have all : ∀ row ∈ fixedRegisters, fixedOffset row.1 = .ok row.2 := by simp [fixedRegisters, fixedOffset]
    exact all _ h

/-- The port map by its regions (R62, R66). -/
theorem portMap_eq_ok_iff {tbytes off : Nat} {reg : PortReg} :
    portMap tbytes off = .ok reg ↔ off % 4 = 0 ∧
      ((0x8000 ≤ off ∧ off < 0x8000 + tbytes ∧ reg = .tbuf (off - 0x8000)) ∨
        (0x100 ≤ off ∧ off < 0x180 ∧ reg =
          if off % 8 = 0 then .xl (BitVec.ofNat 4 ((off - 0x100) / 8)) else .xh (BitVec.ofNat 4 ((off - 0x100) / 8))) ∨
        (off, reg) ∈ fixedRegisters) := by
  have hfixed : (off, reg) ∈ fixedRegisters → off < 0x100 := by
    have all : ∀ row ∈ fixedRegisters, row.1 < 0x100 := by decide
    exact fun h => all _ h
  unfold portMap
  by_cases h4 : off % 4 = 0
  · rw [if_neg (not_not.mpr h4)]
    by_cases htext : 0x8000 ≤ off
    · rw [if_pos htext]
      have hx : ¬ off < 0x180 := by omega
      have hno : (off, reg) ∉ fixedRegisters := fun hmem => by have := hfixed hmem; omega
      by_cases hend : off - 0x8000 < tbytes
      · rw [if_pos hend]
        simp only [h4, htext, show off < 0x8000 + tbytes by omega, hx, hno, true_and, and_false, false_and, or_false,
          Except.ok.injEq, eq_comm]
      · rw [if_neg hend]
        simp only [show ¬ off < 0x8000 + tbytes by omega, hx, hno, false_and, and_false, or_false, reduceCtorEq]
    · rw [if_neg htext]
      by_cases hwin : 0x100 ≤ off ∧ off < 0x180
      · rw [if_pos hwin]
        have hno : (off, reg) ∉ fixedRegisters := fun hmem => by have := hfixed hmem; omega
        split <;> simp only [h4, htext, hwin, hno, true_and, false_and, or_false, false_or, Except.ok.injEq, eq_comm]
      · rw [if_neg hwin, fixedOffset_eq_ok_iff]
        simp only [h4, htext, ← and_assoc, hwin, true_and, false_and, false_or]
  · rw [if_pos h4]
    simp [h4]

theorem selectPort_eq_ok_iff {s : State} {width : Width} {off : BitVec 16} {reg : PortReg} :
    selectPort s width off = .ok reg ↔ width = .w32 ∧ portMap s.cfg.tbytes off.toNat = .ok reg := by
  unfold selectPort
  split
  · next h => simp [h]
  · next h => simp [h]

/-- `CMD` is reached by a 32-bit access of offset 0 alone (R42, R62). -/
theorem selectPort_cmd {s : State} {width : Width} {off : BitVec 16} (h : selectPort s width off = .ok .cmd) :
    width = .w32 ∧ off = 0 := by
  obtain ⟨hwidth, hmap⟩ := selectPort_eq_ok_iff.mp h
  refine ⟨hwidth, BitVec.eq_of_toNat_eq ?_⟩
  obtain ⟨-, ⟨-, -, hreg⟩ | ⟨-, -, hreg⟩ | hmem⟩ := portMap_eq_ok_iff.mp hmap
  · cases hreg
  · split at hreg <;> cases hreg
  · simpa [fixedRegisters] using hmem

/-- A text window word that can be reached lies in the buffer (R64). -/
theorem selectPort_tbuf {s : State} {width : Width} {off : BitVec 16} {k : Nat} (h : selectPort s width off = .ok (.tbuf k)) :
    k % 4 = 0 ∧ k < s.cfg.tbytes := by
  obtain ⟨h4, ⟨hlo, hhi, hreg⟩ | ⟨-, -, hreg⟩ | hmem⟩ := portMap_eq_ok_iff.mp (selectPort_eq_ok_iff.mp h).2
  · injection hreg with hk
    omega
  · split at hreg <;> cases hreg
  · simp [fixedRegisters] at hmem

/-! ### What the port reads and stores (R66) -/

/-- The registers a host write other than a command reaches (R62). -/
def PortReg.writable : PortReg → Bool
  | .flags | .tlen | .dsel | .xl _ | .xh _ | .tbuf _ => true
  | _ => false

theorem portValue_of_ne_cmd (s : State) {reg : PortReg} (h : reg ≠ .cmd) : ∃ w, portValue s reg = .ok w := by
  cases reg with
  | cmd => exact absurd rfl h
  | _ => exact ⟨_, rfl⟩

theorem portStore_of_writable (s : State) (w : Word) {reg : PortReg} (h : reg.writable = true) :
    ∃ s', portStore s w reg = .ok s' := by
  cases reg with
  | flags | tlen | dsel | xl | xh | tbuf => exact ⟨_, rfl⟩
  | _ => cases h

theorem writable_of_portStore {s s' : State} {w : Word} {reg : PortReg} (h : portStore s w reg = .ok s') :
    reg.writable = true := by
  cases reg with
  | flags | tlen | dsel | xl | xh | tbuf => rfl
  | _ => cases h

/-- A store changes no `D` register, no parameter and not the host's events (R21). -/
theorem portStore_frame {s s' : State} {w : Word} {reg : PortReg} (h : portStore s w reg = .ok s') :
    SameD s s' ∧ s'.cfg = s.cfg ∧ s'.pending = s.pending := by
  cases reg with
  | flags | tlen | dsel | xl | xh | tbuf => cases h; exact ⟨fun _ => rfl, rfl, rfl⟩
  | _ => cases h

theorem portStore_inv {s s' : State} (hs : s.Inv) {w : Word} {reg : PortReg} (h : portStore s w reg = .ok s')
    (hreg : ∀ k, reg = .tbuf k → k % 4 = 0 ∧ k < s.cfg.tbytes) : s'.Inv := by
  cases reg with
  | flags => cases h; exact { hs with }
  | tlen =>
    cases h
    refine hs.setTlen ?_
    rw [BitVec.toNat_ofNat]
    exact (Nat.mod_le _ _).trans (min_le_right _ _)
  | dsel =>
    cases h
    exact { hs with dselBits := show w &&& dselMask &&& dselMask = w &&& dselMask by rw [BitVec.and_assoc, BitVec.and_self] }
  | xl x => cases h; exact hs.writeX
  | xh x => cases h; exact hs.writeX
  | tbuf k =>
    cases h
    have hk := hreg k rfl
    have h4 := hs.tbytes_mod
    exact hs.writeText (show k + 4 ≤ s.cfg.tbytes by omega)
  | _ => cases h

/-! ### Every step completes and keeps the invariants (R14, R22, R322) -/

/-- No command stops in a state that meets the invariants (R14). -/
theorem exec_completes {s : State} (h : s.Inv) (i : Instr) : ∃ t, exec i s = .next t := by
  cases i with
  | ldc d cid =>
    rw [exec, execLdc]
    split <;> exact ⟨_, rfl⟩
  | setprec d p =>
    rw [exec, execSetprec]
    split <;> exact ⟨_, rfl⟩
  | parse d =>
    rw [exec, execParse, if_neg (not_lt.mpr h.tlen)]
    split <;> exact ⟨_, rfl⟩
  | format src x style =>
    rw [exec, execFormat]
    by_cases hx : s.readUnsigned x = 0
    · rw [if_pos hx]; exact ⟨_, rfl⟩
    · have hlen := formatValue_length (h.values src) (Nat.one_le_iff_ne_zero.mpr hx)
      have hfit := h.valid.2.2.2.1.2.2.1
      rw [if_neg hx, if_neg (by omega)]
      exact ⟨_, rfl⟩
  | _ => exact ⟨_, rfl⟩

/-- One host event from a state that meets the invariants ends in one that does. -/
theorem performEvent_inv {s : State} (h : s.Inv) (e : HostEvent) : ∃ t, performEvent e s = .next t ∧ t.Inv := by
  cases e with
  | reset => exact ⟨_, rfl, { resetWith_inv h.valid with }⟩
  | read width off =>
    obtain ⟨why, hstep⟩ | ⟨reg, w, -, -, hstep⟩ := performRead_cases width off s
    · exact ⟨_, hstep, h.answer⟩
    · exact ⟨_, hstep, h.afterPortRead.answer⟩
  | write width off w =>
    obtain ⟨why, hstep⟩ | ⟨-, hstep⟩ | ⟨reg, s', hsel, -, hstore, hstep⟩ := performWrite_cases width off w s
    · exact ⟨_, hstep, h.answer⟩
    · rw [performEvent, hstep]
      obtain ⟨i, -, hrun⟩ | ⟨e, -, hrun⟩ := runWord_cases w s
      · obtain ⟨t, ht⟩ := exec_completes h i
        rw [hrun, ht]
        exact ⟨_, rfl, { (exec_effect ht).inv h with idle := rfl }⟩
      · rw [hrun]
        exact ⟨_, rfl, { h.raise (f := .ill) with idle := rfl }⟩
    · refine ⟨_, hstep, (portStore_inv h hstore fun k hk => ?_).answer⟩
      subst hk
      exact selectPort_tbuf hsel

theorem step_inv {s : State} (h : s.Inv) : ∃ t, step s = .next t ∧ t.Inv := by
  obtain ⟨-, hstep⟩ | ⟨e, rest, -, hstep⟩ := step_cases s
  · exact ⟨s, hstep, h⟩
  · rw [hstep]
    exact performEvent_inv h.pending e

/-- Settles O9: a step is idle or performs one event, and no event breaks the invariants. -/
theorem stepKeepsInvariants : Obligations.StepKeepsInvariants := by
  intro s t h hstep
  obtain ⟨u, hu, hinv⟩ := step_inv h
  rw [hu] at hstep
  cases hstep
  exact hinv

/-- Settles O10. -/
theorem stepCompletes : Obligations.StepCompletes := by
  intro s h
  obtain ⟨t, ht, -⟩ := step_inv h
  exact ⟨t, ht⟩

/-! ### What a step takes and what an access leaves alone (R6, R21, R66, R68, R75) -/

/-- One host event leaves the other events and the parameters. -/
theorem performEvent_frame {e : HostEvent} {s t : State} (h : performEvent e s = .next t) :
    t.pending = s.pending ∧ t.cfg = s.cfg := by
  cases e with
  | reset => cases h; exact ⟨rfl, rfl⟩
  | read width off =>
    obtain ⟨why, hstep⟩ | ⟨reg, w, -, -, hstep⟩ := performRead_cases width off s <;>
      rw [performEvent, hstep] at h <;> cases h
    · exact ⟨rfl, rfl⟩
    · obtain heq | heq := afterPortRead_eq s reg <;> rw [heq] <;> exact ⟨rfl, rfl⟩
  | write width off w =>
    obtain ⟨why, hstep⟩ | ⟨-, hstep⟩ | ⟨reg, s', -, -, hstore, hstep⟩ := performWrite_cases width off w s <;>
      rw [performEvent, hstep] at h
    · cases h; exact ⟨rfl, rfl⟩
    · obtain ⟨i, -, hrun⟩ | ⟨e, -, hrun⟩ := runWord_cases w s <;> rw [hrun] at h
      · cases hexec : exec i s with
        | next u =>
          rw [hexec] at h; cases h
          obtain ⟨-, hcfg, -, hpending, -⟩ := (exec_effect hexec).samePort
          exact ⟨hpending, hcfg⟩
        | fault f => rw [hexec] at h; cases h
        | refused r => rw [hexec] at h; cases h
      · cases h; exact ⟨rfl, rfl⟩
    · cases h
      obtain ⟨-, hcfg, hpending⟩ := portStore_frame hstore
      exact ⟨hpending, hcfg⟩

/-- Settles O11. -/
theorem stepTakesOneEvent : Obligations.StepTakesOneEvent := by
  refine ⟨fun s t h => ?_, fun s h => by rw [step, h], fun c => rfl⟩
  obtain ⟨hp, hstep⟩ | ⟨e, rest, hp, hstep⟩ := step_cases s <;> rw [hstep] at h
  · cases h; rw [hp]; exact ⟨rfl, rfl⟩
  · rw [hp]; exact performEvent_frame h

/-- Settles O18: a read answers, and at most counts a draw. -/
theorem portReadsHaveNoSideEffect : Obligations.PortReadsHaveNoSideEffect := by
  intro s rest width off hp
  rw [step_of_pending hp, performEvent]
  obtain ⟨why, hstep⟩ | ⟨reg, w, -, -, hstep⟩ := performRead_cases width off { s with pending := rest } <;> rw [hstep]
  · exact ⟨_, rfl, fun _ => rfl, fun _ => rfl, rfl, ⟨rfl, rfl, rfl⟩, rfl, rfl, rfl, rfl, rfl⟩
  · obtain heq | heq := afterPortRead_eq { s with pending := rest } reg <;> rw [heq] <;>
      exact ⟨_, rfl, fun _ => rfl, fun _ => rfl, rfl, ⟨rfl, rfl, rfl⟩, rfl, rfl, rfl, rfl, rfl⟩

/-- Settles O17: a read changes no register, and a write that is no `CMD` write stores elsewhere. -/
theorem hostCannotWriteD : Obligations.HostCannotWriteD := by
  rintro s t rest width off w (hp | ⟨hp, hcmd⟩) hstep
  · obtain ⟨u, hu, hd, -⟩ := portReadsHaveNoSideEffect s rest width off hp
    rw [hu] at hstep; cases hstep
    exact hd
  · rw [step_of_pending hp, performEvent] at hstep
    obtain ⟨why, h⟩ | ⟨hsel, -⟩ | ⟨reg, s', -, -, hstore, h⟩ := performWrite_cases width off w { s with pending := rest }
    · rw [h] at hstep; cases hstep; exact fun _ => rfl
    · exact absurd (selectPort_cmd hsel) hcmd
    · rw [h] at hstep; cases hstep; exact (portStore_frame hstore).1

/-- The offsets of R62 that a host read reaches. -/
theorem portMap_readable_iff {tbytes off : Nat} :
    (∃ reg, portMap tbytes off = .ok reg ∧ reg ≠ .cmd) ↔ ReadOnlyOffset off ∨ ReadWriteOffset tbytes off := by
  simp only [portMap_eq_ok_iff]
  constructor
  · rintro ⟨reg, ⟨h4, ⟨hlo, hhi, -⟩ | ⟨hlo, hhi, -⟩ | hmem⟩, hne⟩
    · exact .inr ⟨h4, .inr (.inr ⟨hlo, hhi⟩)⟩
    · exact .inr ⟨h4, .inr (.inl ⟨hlo, hhi⟩)⟩
    · have rows : ∀ row ∈ fixedRegisters, row.2 ≠ .cmd → ReadOnlyOffset row.1 ∨ row.1 ∈ [0x08, 0x0C, 0x40] := by
        unfold ReadOnlyOffset; decide
      exact (rows _ hmem hne).imp id fun h => ⟨h4, .inl h⟩
  · have readOnly : ∀ k, ReadOnlyOffset k → ∃ row ∈ fixedRegisters, row.1 = k ∧ k % 4 = 0 ∧ row.2 ≠ .cmd := by
      unfold ReadOnlyOffset; decide
    have readWrite : ∀ k ∈ [0x08, 0x0C, 0x40], ∃ row ∈ fixedRegisters, row.1 = k ∧ row.2 ≠ .cmd := by decide
    rintro (h | ⟨h4, h | ⟨hlo, hhi⟩ | ⟨hlo, hhi⟩⟩)
    · obtain ⟨⟨_, reg⟩, hmem, rfl, h4, hne⟩ := readOnly off h
      exact ⟨reg, ⟨h4, .inr (.inr hmem)⟩, hne⟩
    · obtain ⟨⟨_, reg⟩, hmem, rfl, hne⟩ := readWrite off h
      exact ⟨reg, ⟨h4, .inr (.inr hmem)⟩, hne⟩
    · exact ⟨_, ⟨h4, .inr (.inl ⟨hlo, hhi, rfl⟩)⟩, by split <;> simp⟩
    · exact ⟨_, ⟨h4, .inl ⟨hlo, hhi, rfl⟩⟩, by simp⟩

/-- The offsets of R62 that a host write other than a command reaches. -/
theorem portMap_writable_iff {tbytes off : Nat} :
    (∃ reg, portMap tbytes off = .ok reg ∧ reg.writable = true) ↔ ReadWriteOffset tbytes off := by
  simp only [portMap_eq_ok_iff]
  constructor
  · rintro ⟨reg, ⟨h4, ⟨hlo, hhi, -⟩ | ⟨hlo, hhi, -⟩ | hmem⟩, hw⟩
    · exact ⟨h4, .inr (.inr ⟨hlo, hhi⟩)⟩
    · exact ⟨h4, .inr (.inl ⟨hlo, hhi⟩)⟩
    · have rows : ∀ row ∈ fixedRegisters, row.2.writable = true → row.1 ∈ [0x08, 0x0C, 0x40] := by decide
      exact ⟨h4, .inl (rows _ hmem hw)⟩
  · have rows : ∀ k ∈ [0x08, 0x0C, 0x40], ∃ row ∈ fixedRegisters, row.1 = k ∧ row.2.writable = true := by decide
    rintro ⟨h4, h | ⟨hlo, hhi⟩ | ⟨hlo, hhi⟩⟩
    · obtain ⟨⟨_, reg⟩, hmem, rfl, hw⟩ := rows off h
      exact ⟨reg, ⟨h4, .inr (.inr hmem)⟩, hw⟩
    · exact ⟨_, ⟨h4, .inr (.inl ⟨hlo, hhi, rfl⟩)⟩, by split <;> rfl⟩
    · exact ⟨_, ⟨h4, .inl ⟨hlo, hhi, rfl⟩⟩, rfl⟩

theorem readAccepted_iff {s : State} {width : Width} {off : BitVec 16} :
    ReadAccepted s.cfg.tbytes width off.toNat ↔ ∃ reg, selectPort s width off = .ok reg ∧ reg ≠ .cmd := by
  simp only [ReadAccepted, selectPort_eq_ok_iff, ← portMap_readable_iff, and_assoc, exists_and_left]

theorem writeAccepted_iff {s : State} {width : Width} {off : BitVec 16} (h0 : off ≠ 0) :
    WriteAccepted s.cfg.tbytes width off.toNat ↔ ∃ reg, selectPort s width off = .ok reg ∧ reg.writable = true := by
  have h0' : off.toNat ≠ 0 := fun h => h0 (BitVec.eq_of_toNat_eq h)
  simp only [WriteAccepted, selectPort_eq_ok_iff, ← portMap_writable_iff, and_assoc, exists_and_left, h0', false_or]

theorem performRead_of_select {width : Width} {off : BitVec 16} {s : State} {reg : PortReg} {w : Word}
    (hsel : selectPort s width off = .ok reg) (hval : portValue s reg = .ok w) :
    performRead width off s = .next ((s.afterPortRead reg).answer (.data w)) := by
  simp [performRead, hsel, hval]

theorem performWrite_of_select {width : Width} {off : BitVec 16} {w : Word} {s s' : State} {reg : PortReg}
    (hsel : selectPort s width off = .ok reg) (hstore : portStore s w reg = .ok s') :
    performWrite width off w s = .next (s'.answer .written) := by
  have hw := writable_of_portStore hstore
  unfold performWrite
  rw [hsel]
  cases reg with
  | flags | tlen | dsel | xl | xh | tbuf => simp only [hstore]
  | _ => cases hw

/-- Settles O19: the accepted offsets are those the port map gives to a register that can be read, or written. -/
theorem refusedAccesses : Obligations.RefusedAccesses := by
  refine ⟨fun s rest width off hp => ?_, fun s rest width off w hp => ?_⟩ <;>
    rw [step_of_pending hp, performEvent]
  · rw [readAccepted_iff (s := { s with pending := rest })]
    refine ⟨fun hno => ?_, fun ⟨reg, hsel, hne⟩ => ?_⟩
    · obtain ⟨why, h⟩ | ⟨reg, w, hsel, hval, -⟩ := performRead_cases width off { s with pending := rest }
      · exact ⟨why, h⟩
      · exact absurd ⟨reg, hsel, by rintro rfl; cases hval⟩ hno
    · obtain ⟨w, hval⟩ := portValue_of_ne_cmd { s with pending := rest } hne
      exact ⟨_, w, performRead_of_select hsel hval, rfl⟩
  · refine ⟨fun hno => ?_, fun hacc h0 => ?_⟩
    · have h0 : off ≠ 0 ∨ width ≠ .w32 := by
        by_contra hboth
        push Not at hboth
        exact hno ⟨hboth.2, .inl (congrArg BitVec.toNat hboth.1)⟩
      obtain ⟨why, h⟩ | ⟨hsel, -⟩ | ⟨reg, s', hsel, hne, hstore, -⟩ :=
        performWrite_cases width off w { s with pending := rest }
      · exact ⟨why, h⟩
      · obtain ⟨hwidth, hoff⟩ := selectPort_cmd hsel
        exact absurd h0 (by simp [hwidth, hoff])
      · have hwidth := (selectPort_eq_ok_iff.mp hsel).1
        have hoff : off ≠ 0 := h0.resolve_right (not_not.mpr hwidth)
        have haccepted := writeAccepted_iff (s := { s with pending := rest }) (width := width) hoff
        exact absurd (haccepted.mpr ⟨reg, hsel, writable_of_portStore hstore⟩) hno
    · obtain ⟨reg, hsel, hw⟩ := (writeAccepted_iff (s := { s with pending := rest }) h0).mp hacc
      obtain ⟨s', hstore⟩ := portStore_of_writable { s with pending := rest } w hw
      exact ⟨_, performWrite_of_select hsel hstore, rfl⟩

end Sys2Proof.Machine

/-! PROOF. The registers and windows of the host port (spec/10_state.md R43 to R49, spec/20_memory.md R63 to R65): a write
is one store, a read one word, and the words are taken apart by their fields. -/

namespace Sys2Proof

theorem Config.Valid.maxExp_lt {c : Config} (h : c.Valid) : c.maxExp < 2 ^ 63 := by
  obtain ⟨-, ⟨hew, hmax⟩, -⟩ := h
  exact lt_of_lt_of_le hmax (Nat.pow_le_pow_right (by norm_num) (by omega))

theorem Config.Valid.n_le {c : Config} (h : c.Valid) : c.n ≤ 1844 := by
  obtain ⟨⟨-, hdigits⟩, -⟩ := h
  unfold Config.n; omega

/-- An integer that fits 64 bits is read back from them (R10). -/
theorem toInt_ofInt_64 {k : Int} (h1 : -2 ^ 63 ≤ k) (h2 : k < 2 ^ 63) : (BitVec.ofInt 64 k).toInt = k := by
  rw [BitVec.toInt_ofInt]
  exact Int.bmod_eq_of_le (by norm_num; exact h1) (by norm_num; exact h2)

/-- An append by value: the low part weighs 1, the high part the size of the low one. -/
theorem toNat_append_eq {v w : Nat} (x : BitVec v) (y : BitVec w) : (x ++ y).toNat = x.toNat * 2 ^ w + y.toNat := by
  rw [BitVec.toNat_append, ← Nat.shiftLeft_add_eq_or_of_lt y.isLt, Nat.shiftLeft_eq]

namespace Machine

/-! ### One access (R66, R68) -/

section
variable {s : State} {rest : List HostEvent} {off : BitVec 16} {reg : PortReg} {w : Word}

theorem step_read (hp : s.pending = .read .w32 off :: rest) (hmap : portMap s.cfg.tbytes off.toNat = .ok reg)
    (hval : portValue s reg = .ok w) : ∃ t, step s = .next t ∧ t.port = .data w := by
  have hval' : portValue { s with pending := rest } reg = .ok w := by rw [← hval]; cases reg <;> rfl
  exact ⟨_, (step_of_pending hp).trans (performRead_of_select hmap hval'), rfl⟩

theorem step_write {s' : State} (hp : s.pending = .write .w32 off w :: rest)
    (hmap : portMap s.cfg.tbytes off.toNat = .ok reg) (hstore : portStore { s with pending := rest } w reg = .ok s') :
    step s = .next (s'.answer .written) :=
  (step_of_pending hp).trans (performWrite_of_select hmap hstore)

end

/-! ### `FLAGS` and `TLEN` (R44, R45) -/

theorem flagsWord_toNat (f : Flags) : f.word.toNat = f.ill.toNat * 8 + f.perr.toNat * 2 + f.dom.toNat := by
  simp only [Flags.word, toNat_append_eq, BitVec.toNat_ofBool]
  simp only [BitVec.ofNat_eq_ofNat, BitVec.toNat_ofNat]
  omega

/-- The bits of `FLAGS` (R44). -/
theorem getLsbD_flagsWord (f : Flags) (i : Nat) :
    f.word.getLsbD i = if i = 0 then f.dom else if i = 1 then f.perr else if i = 3 then f.ill else false := by
  by_cases hi : i < 4
  · obtain ⟨dom, perr, ill⟩ := f
    revert dom perr ill
    obtain rfl | rfl | rfl | rfl : i = 0 ∨ i = 1 ∨ i = 2 ∨ i = 3 := by omega
    all_goals decide
  · have h1 := Bool.toNat_le f.ill
    have h2 := Bool.toNat_le f.perr
    have h3 := Bool.toNat_le f.dom
    have hword : f.word.toNat < 2 ^ i := calc
      f.word.toNat < 2 ^ 4 := by rw [flagsWord_toNat]; omega
      _ ≤ 2 ^ i := Nat.pow_le_pow_right (by norm_num) (by omega)
    rw [if_neg (by omega), if_neg (by omega), if_neg (by omega)]
    exact Nat.testBit_lt_two_pow hword

/-- Settles O20. -/
theorem flagsRegister : Obligations.FlagsRegister := by
  refine ⟨fun s rest w hp => step_write hp (reg := .flags) rfl rfl, fun s rest hp => ?_⟩
  obtain ⟨t, ht, hport⟩ := step_read hp (reg := .flags) rfl rfl
  refine ⟨t, _, ht, hport, ?_, ?_, ?_, fun i h0 h1 h3 => ?_⟩ <;> rw [getLsbD_flagsWord]
  · rfl
  · rfl
  · rfl
  · rw [if_neg h0, if_neg h1, if_neg h3]

/-- Settles O21: TBYTES fits the 16 bits of `TLEN`. -/
theorem tlenRegister : Obligations.TlenRegister := by
  refine ⟨fun s rest w hc hp => ⟨_, ?_, step_write hp (reg := .tlen) rfl rfl⟩, fun s rest hp => ?_⟩
  · have hle : s.cfg.tbytes ≤ 32768 := hc.2.2.2.1.2.2.2
    rw [BitVec.toNat_ofNat]
    exact Nat.mod_eq_of_lt (lt_of_le_of_lt (min_le_right _ _) (lt_of_le_of_lt hle (by norm_num)))
  · obtain ⟨t, ht, hport⟩ := step_read hp (reg := .tlen) rfl rfl
    refine ⟨t, _, ht, hport, ?_⟩
    rw [BitVec.toNat_setWidth]
    exact Nat.mod_eq_of_lt (lt_trans s.tlen.isLt (by norm_num))

/-! ### The `X` window (R63) -/

theorem xreg_toNat_lt (i : XReg) : i.toNat < 16 := i.isLt

theorem portMap_xl (tbytes : Nat) (i : XReg) : portMap tbytes (BitVec.ofNat 16 (0x100 + 8 * i.toNat)).toNat = .ok (.xl i) := by
  have hi := xreg_toNat_lt i
  rw [BitVec.toNat_ofNat, Nat.mod_eq_of_lt (by omega), portMap_eq_ok_iff]
  refine ⟨by omega, .inr (.inl ⟨by omega, by omega, ?_⟩)⟩
  rw [if_pos (by omega), show (0x100 + 8 * i.toNat - 0x100) / 8 = i.toNat by omega, BitVec.ofNat_toNat, BitVec.setWidth_eq]

theorem portMap_xh (tbytes : Nat) (i : XReg) : portMap tbytes (BitVec.ofNat 16 (0x104 + 8 * i.toNat)).toNat = .ok (.xh i) := by
  have hi := xreg_toNat_lt i
  rw [BitVec.toNat_ofNat, Nat.mod_eq_of_lt (by omega), portMap_eq_ok_iff]
  refine ⟨by omega, .inr (.inl ⟨by omega, by omega, ?_⟩)⟩
  rw [if_neg (by omega), show (0x104 + 8 * i.toNat - 0x100) / 8 = i.toNat by omega, BitVec.ofNat_toNat, BitVec.setWidth_eq]

theorem lowWord_append (hi lo : Word) : lowWord (hi ++ lo) = lo :=
  BitVec.extractLsb'_append_eq_right

theorem highWord_append (hi lo : Word) : highWord (hi ++ lo) = hi :=
  BitVec.extractLsb'_append_eq_left

theorem highWord_append_lowWord (x : BitVec 64) : highWord x ++ lowWord x = x :=
  BitVec.extractLsb'_append_extractLsb' (w := 32) (len := 32)

/-- A store to one scalar, seen from the state without the event. -/
theorem onlyX_answer_writeX (s : State) (rest : List HostEvent) (i : XReg) (v : XWord) :
    OnlyX i { s with pending := rest, port := .written } ((State.writeX { s with pending := rest } i v).answer .written) :=
  onlyX_writeX { s with pending := rest, port := .written } i v

/-- Settles O22. -/
theorem xWindow : Obligations.XWindow := by
  refine ⟨fun s rest i w hp => ?_, fun s rest i w hp => ?_, fun s rest i => ⟨fun hp => ?_, fun hp => ?_⟩⟩
  · refine ⟨_, step_write hp (portMap_xl _ i) rfl, ?_, ?_, onlyX_answer_writeX s rest i _⟩
    · rw [readX_answer, readX_writeX_same]; exact lowWord_append _ w
    · rw [readX_answer, readX_writeX_same]; exact highWord_append _ w
  · refine ⟨_, step_write hp (portMap_xh _ i) rfl, ?_, ?_, onlyX_answer_writeX s rest i _⟩
    · rw [readX_answer, readX_writeX_same]; exact highWord_append w _
    · rw [readX_answer, readX_writeX_same]; exact lowWord_append w _
  · exact step_read hp (portMap_xl _ i) rfl
  · exact step_read hp (portMap_xh _ i) rfl

/-! ### The text window (R64) -/

theorem portMap_tbuf {tbytes j : Nat} (hle : tbytes ≤ 32768) (hj : 4 * j < tbytes) :
    portMap tbytes (BitVec.ofNat 16 (0x8000 + 4 * j)).toNat = .ok (.tbuf (4 * j)) := by
  rw [BitVec.toNat_ofNat, Nat.mod_eq_of_lt (by omega), portMap_eq_ok_iff]
  exact ⟨by omega, .inl ⟨by omega, by omega, by rw [Nat.add_sub_cancel_left]⟩⟩

theorem unpackBytes_getElem? (w : Word) {k : Nat} (hk : k < 4) : (unpackBytes w)[k]? = some (w.extractLsb' (8 * k) 8) := by
  obtain rfl | rfl | rfl | rfl : k = 0 ∨ k = 1 ∨ k = 2 ∨ k = 3 := by omega
  all_goals rfl

theorem packBytes_toNat (b0 b1 b2 b3 : Byte) :
    (packBytes b0 b1 b2 b3).toNat = b3.toNat * 2 ^ 24 + b2.toNat * 2 ^ 16 + b1.toNat * 2 ^ 8 + b0.toNat := by
  simp only [packBytes, toNat_append_eq]
  omega

theorem extract_packBytes (b : Nat → Byte) {k : Nat} (hk : k < 4) :
    (packBytes (b 0) (b 1) (b 2) (b 3)).extractLsb' (8 * k) 8 = b k := by
  have h0 := (b 0).isLt; have h1 := (b 1).isLt; have h2 := (b 2).isLt; have h3 := (b 3).isLt
  apply BitVec.eq_of_toNat_eq
  rw [BitVec.extractLsb'_toNat, packBytes_toNat, Nat.shiftRight_eq_div_pow]
  obtain rfl | rfl | rfl | rfl : k = 0 ∨ k = 1 ∨ k = 2 ∨ k = 3 := by omega
  all_goals omega

theorem readByte_of_read {s : State} {a : Nat} {b : Byte} (h : s.tbuf.read a = some b) : s.readByte a = b := by
  rw [State.readByte, h]

/-- Settles O23. -/
theorem textWindow : Obligations.TextWindow := by
  refine ⟨fun s rest j w hs hj hp => ?_, fun s rest j b hs hj hb hp => ?_⟩
  · have hread (a : Nat) := TextBuffer.read_writeBytes hs.canonical (4 * j) a (unpackBytes w)
    refine ⟨_, step_write hp (portMap_tbuf hs.tbytes_le hj) rfl, fun k hk => ?_, fun a ha => ?_, fun _ => rfl,
      fun _ => rfl, rfl,
      ⟨rfl, rfl, rfl⟩, rfl, rfl, rfl, rfl, rfl⟩
    · refine (hread _).trans ?_
      rw [if_pos ⟨by omega, show 4 * j + k < 4 * j + 4 by omega⟩, Nat.add_sub_cancel_left]
      exact unpackBytes_getElem? w hk
    · refine (hread a).trans (if_neg ?_)
      rintro ⟨hlo, hhi⟩
      have hhi' : a < 4 * j + 4 := hhi
      omega
  · obtain ⟨t, ht, hport⟩ := step_read hp (portMap_tbuf hs.tbytes_le hj) rfl
    have hbyte (k : Nat) (hk : k < 4) := readByte_of_read (hb k hk)
    refine ⟨t, _, ht, hport, fun k hk => ?_⟩
    rw [← extract_packBytes b hk, ← hbyte 0 (by omega), ← hbyte 1 (by omega), ← hbyte 2 (by omega), ← hbyte 3 (by omega)]
    rfl

/-! ### The observation window (R48) -/

theorem getLsbD_dselMask {i : Nat} (hi : i < 32) : dselMask.getLsbD i = (decide (i < 4) || decide (16 ≤ i)) := by
  have all : ∀ i < 32, dselMask.getLsbD i = (decide (i < 4) || decide (16 ≤ i)) := by decide
  exact all i hi

theorem limb_toNat (v : DValue) (i : Nat) : BitVec.ofNat 32 (v.limb i) = v.limbs.getD i 0 := by
  rw [limb_eq_nats, DValue.nats, List.getD_eq_getElem?_getD, List.getElem?_map, List.getD_eq_getElem?_getD]
  cases v.limbs[i]? with
  | none => rfl
  | some l => simp

theorem Cls.code_lt (k : Cls) : k.code < 4 := by cases k <;> decide

theorem metaWord_toNat (v : DValue) : (metaWord v).toNat = v.prec.toNat * 2 ^ 16 + v.cls.code * 2 + v.neg.toNat := by
  have hcode := Cls.code_lt v.cls
  simp only [metaWord, toNat_append_eq, BitVec.toNat_ofBool, BitVec.ofNat_eq_ofNat, BitVec.toNat_ofNat]
  omega

/-- The fields of `DMETA` (R48). -/
theorem metaWord_fields (v : DValue) :
    (metaWord v).getLsbD 0 = v.neg ∧ ((metaWord v).extractLsb' 1 2).toNat = v.cls.code ∧
      (metaWord v).extractLsb' 3 13 = 0 ∧ (metaWord v).extractLsb' 16 16 = v.prec := by
  have hcode := Cls.code_lt v.cls
  have hneg := Bool.toNat_le v.neg
  have hprec := v.prec.isLt
  refine ⟨?_, ?_, BitVec.eq_of_toNat_eq ?_, BitVec.eq_of_toNat_eq ?_⟩
  · have hbit : (v.prec.toNat * 2 ^ 16 + v.cls.code * 2 + v.neg.toNat) % 2 = v.neg.toNat := by omega
    rw [BitVec.getLsbD, metaWord_toNat, Nat.testBit_zero, hbit]
    cases v.neg <;> rfl
  · rw [BitVec.extractLsb'_toNat, metaWord_toNat, Nat.shiftRight_eq_div_pow]
    omega
  · rw [BitVec.extractLsb'_toNat, metaWord_toNat, Nat.shiftRight_eq_div_pow]
    show _ = 0
    omega
  · rw [BitVec.extractLsb'_toNat, metaWord_toNat, Nat.shiftRight_eq_div_pow]
    omega

/-- Settles O24. -/
theorem observationWindow : Obligations.ObservationWindow := by
  refine ⟨fun s rest w hp => ⟨_, step_write hp (reg := .dsel) rfl rfl, fun i => ?_⟩, fun s rest hs hp => ?_,
    fun s rest hs hp => ?_, fun s rest hs => ?_, fun s rest hp => ?_⟩
  · rw [BitVec.getLsbD_and]
    by_cases hi : i < 32
    · rw [getLsbD_dselMask hi]
    · rw [BitVec.getLsbD_of_ge w i (by omega), Bool.false_and, Bool.false_and]
  · have h := step_read hp (reg := .dsel) rfl rfl
    rwa [hs.dselBits] at h
  · have h := step_read hp (reg := .dlimb) rfl rfl
    rw [limb_toNat] at h
    convert h using 5
    split_ifs with hlt
    · rfl
    · exact List.getD_eq_default _ _ (by rw [(hs.values _).length]; exact not_lt.mp hlt)
  · refine ⟨lowWord (BitVec.ofInt 64 (s.readD s.selectedReg).exp), highWord (BitVec.ofInt 64 (s.readD s.selectedReg).exp), ?_,
      fun hp => step_read hp (reg := .dexpl) rfl rfl, fun hp => step_read hp (reg := .dexph) rfl rfl⟩
    obtain ⟨hlo, hhi⟩ := (hs.values s.selectedReg).exp_fits
    have hmax := hs.valid.maxExp_lt
    rw [minExp_eq] at hlo
    rw [highWord_append_lowWord]
    exact toInt_ofInt_64 (by omega) (by omega)
  · obtain ⟨t, ht, hport⟩ := step_read hp (reg := .dmeta) rfl rfl
    exact ⟨t, _, ht, hport, metaWord_fields _⟩

/-! ### The read-only registers (R43, R46, R47, R49) -/

theorem cfgN_toNat {n : Nat} (h : n ≤ 1844) :
    ((16 : BitVec 8) ++ (16 : BitVec 8) ++ BitVec.ofNat 16 n : BitVec 32).toNat = 16 * 2 ^ 24 + 16 * 2 ^ 16 + n := by
  rw [toNat_append_eq, toNat_append_eq, BitVec.toNat_ofNat, Nat.mod_eq_of_lt (by omega)]
  rfl

/-- Settles O25: in a valid configuration every parameter fits its register. -/
theorem readOnlyRegisters : Obligations.ReadOnlyRegisters := by
  intro s rest off hs hp
  have hc := hs.valid
  have hmax := hc.maxExp_lt
  obtain ⟨⟨-, hdigits⟩, ⟨hew, -⟩, -, ⟨-, -, -, htbytes⟩, -⟩ := hc
  refine ⟨?_, ?_, ?_, ?_, ?_, ?_, ?_, ?_, ?_, ?_⟩ <;> rintro rfl
  · have h := step_read hp (reg := .status) rfl rfl
    rwa [hs.idle] at h
  · exact step_read hp (reg := .fexpl) rfl rfl
  · exact step_read hp (reg := .fexph) rfl rfl
  · obtain ⟨t, ht, hport⟩ := step_read hp (reg := .finfo) rfl rfl
    refine ⟨t, _, ht, hport, ?_⟩
    rw [BitVec.toNat_setWidth]
    exact Nat.mod_eq_of_lt (lt_trans s.finfo.isLt (by norm_num))
  · obtain ⟨t, ht, hport⟩ := step_read hp (reg := .cfgDigits) rfl rfl
    refine ⟨t, _, ht, hport, ?_⟩
    rw [BitVec.toNat_ofNat]
    exact Nat.mod_eq_of_lt (by omega)
  · obtain ⟨t, ht, hport⟩ := step_read hp (reg := .cfgN) rfl rfl
    exact ⟨t, _, ht, hport, cfgN_toNat hs.valid.n_le⟩
  · obtain ⟨t, ht, hport⟩ := step_read hp (reg := .cfgTbytes) rfl rfl
    refine ⟨t, _, ht, hport, ?_⟩
    rw [BitVec.toNat_ofNat]
    exact Nat.mod_eq_of_lt (by omega)
  · obtain ⟨t, ht, hport⟩ := step_read hp (reg := .cfgEw) rfl rfl
    refine ⟨t, _, ht, hport, ?_⟩
    rw [BitVec.toNat_ofNat]
    exact Nat.mod_eq_of_lt (by omega)
  · obtain ⟨t, ht, hport⟩ := step_read hp (reg := .cfgMaxel) rfl rfl
    refine ⟨t, _, ht, hport, ?_⟩
    rw [lowWord, BitVec.extractLsb'_toNat, BitVec.toNat_ofNat, Nat.shiftRight_zero]
    omega
  · obtain ⟨t, ht, hport⟩ := step_read hp (reg := .cfgMaxeh) rfl rfl
    refine ⟨t, _, ht, hport, ?_⟩
    rw [highWord, BitVec.extractLsb'_toNat, BitVec.toNat_ofNat, Nat.shiftRight_eq_div_pow]
    omega

end Machine

end Sys2Proof

/-! PROOF. Values: a stored value is its sign and its magnitude, equal values are equal records up to `prec`, and the tests
of spec/45_compare_classify.md say this of the operand (R200 to R210). -/

namespace Sys2Proof

open Machine

/-! ### Sign and magnitude (R23) -/

theorem limbSum_nats_eq_abs_val (v : DValue) : limbSum v.nats v.exp = |v.val| :=
  (limbSum_nats rfl).trans (abs_val_eq rfl).symm

theorem val_eq_sign_mul_abs (v : DValue) : v.val = (if v.neg then -1 else 1) * |v.val| := by
  rw [← limbSum_nats_eq_abs_val]; rfl

theorem val_of_neg {v : DValue} (h : v.neg = true) : v.val = -|v.val| := by
  have hv := val_eq_sign_mul_abs v
  rwa [h, if_pos rfl, neg_one_mul] at hv

theorem val_of_not_neg {v : DValue} (h : v.neg = false) : v.val = |v.val| := by
  have hv := val_eq_sign_mul_abs v
  rwa [h, if_neg Bool.false_ne_true, one_mul] at hv

theorem absolute_val (v : DValue) : v.absolute.val = |v.val| := by
  rw [val_of_not_neg (absolute_neg v), ← limbSum_nats_eq_abs_val, ← limbSum_nats_eq_abs_val v]
  rfl

theorem isZero_iff {v : DValue} : v.isZero = true ↔ v.cls = .fin ∧ v.limb 0 = 0 := by simp [DValue.isZero]

section
variable {c : Config} {v w : DValue}

theorem abs_val_of_isZero (hv : v.wf c) (hz : v.isZero = true) : |v.val| = 0 := by
  have hnats : v.nats = List.replicate c.n 0 := by simpa using congrArg DValue.nats (hv.zeroForm hz)
  rw [abs_val_eq hv.natsLength, hnats]
  simp

theorem abs_val_pos (hv : v.wf c) (h : FiniteNonzero v) : 0 < |v.val| :=
  lt_of_lt_of_le (ten_zpow_pos _) (abs_val_bounds hv h.1 h.2).1

/-- Zero is the one finite value that is 0 (R22 INV4). -/
theorem isZero_iff_val_eq_zero (hv : v.wf c) (hf : v.cls = .fin) : v.isZero = true ↔ v.val = 0 := by
  constructor
  · intro hz; exact abs_eq_zero.mp (abs_val_of_isZero hv hz)
  · intro h0
    by_contra hz
    have hpos := abs_val_pos hv ⟨hf, Bool.eq_false_iff.mpr hz⟩
    rw [h0, abs_zero] at hpos
    exact lt_irrefl 0 hpos

theorem neg_iff_val_neg (hv : v.wf c) (h : FiniteNonzero v) : v.neg = true ↔ v.val < 0 := by
  have hpos := abs_val_pos hv h
  constructor
  · intro hn; rw [val_of_neg hn]; exact neg_neg_of_pos hpos
  · intro hlt
    by_contra hn
    rw [val_of_not_neg (Bool.eq_false_iff.mpr hn)] at hlt
    exact lt_asymm hlt hpos

/-- A stored value is the truncation of its own magnitude. -/
theorem withPrec_truncates_self (hc : c.Valid) (hv : v.wf c) (h : FiniteNonzero v) :
    TruncatesTo c |v.val| v.neg c.n (v.withPrec c.n) :=
  withPrec_truncates hc hv h.1 h.2 (le_refl _) (lt_add_of_pos_right _ (lastUnit_pos _ _))

/-- The truncation of a magnitude that the format has is the record of that magnitude. -/
theorem Machine.TruncatesTo.eq_of_abs_val {q : ℚ} (hv : TruncatesTo c q w.neg c.n v) (hc : c.Valid) (hw : w.wf c)
    (h : FiniteNonzero w) (hq : |w.val| = q) : v = w.withPrec c.n := by
  subst hq
  exact hv.unique (withPrec_truncates_self hc hw h)

/-- Finite stored values of the same value are the same record up to `prec` (R22). -/
theorem withPrec_eq_of_val_eq (hc : c.Valid) (hv : v.wf c) (hw : w.wf c) (hfv : v.cls = .fin) (hfw : w.cls = .fin)
    (h : v.val = w.val) : v.withPrec c.n = w.withPrec c.n := by
  by_cases hz : v.isZero = true
  · have hzw : w.isZero = true := by rwa [isZero_iff_val_eq_zero hw hfw, ← h, ← isZero_iff_val_eq_zero hv hfv]
    rw [hv.zeroForm hz, hw.zeroForm hzw]
  · have hnv : FiniteNonzero v := ⟨hfv, Bool.eq_false_iff.mpr hz⟩
    have hnw : FiniteNonzero w := by
      refine ⟨hfw, Bool.eq_false_iff.mpr fun hzw => hz ?_⟩
      rwa [isZero_iff_val_eq_zero hv hfv, h, ← isZero_iff_val_eq_zero hw hfw]
    have hneg : v.neg = w.neg := by
      rw [Bool.eq_iff_iff, neg_iff_val_neg hv hnv, neg_iff_val_neg hw hnw, h]
    have ht := withPrec_truncates_self hc hv hnv
    rw [hneg] at ht
    exact ht.eq_of_abs_val hc hw hnw (by rw [h])

end

/-! ### The records taken as one (R204) -/

theorem oneValue_val (c : Config) : (oneValue c).val = 1 := by
  have h5 := c.n_ge
  rw [val_of_not_neg rfl, oneValue, abs_val_leadingLimb (by omega) (by decide)]
  norm_num

/-- The record of all nines just below 1. -/
def ninesValue (n : Nat) : DValue := finiteValue (List.replicate n (limbBase - 1)) (-8) false n

theorem limbsBelow_nines (n : Nat) : LimbsBelow (List.replicate n (limbBase - 1)) := by
  intro l hl; rw [List.eq_of_mem_replicate hl]; decide

theorem ninesValue_nats (n : Nat) : (ninesValue n).nats = List.replicate n (limbBase - 1) :=
  finiteValue_nats (limbsBelow_nines n) _ _ _

theorem limbsNat_nines (n : Nat) : limbsNat (List.replicate n (limbBase - 1)) + 1 = limbBase ^ n := by
  induction n with
  | zero => rfl
  | succ n ih =>
    rw [List.replicate_succ, limbsNat_cons, List.length_replicate, add_assoc, ih, pow_succ', limbBase]
    omega

theorem ninesValue_val (n : Nat) : (ninesValue n).val = 1 - (10 : ℚ) ^ (-(8 * n : Int)) := by
  have hnat : ((limbsNat (List.replicate n (limbBase - 1)) : Nat) : ℚ) = (10 : ℚ) ^ (8 * n : Int) - 1 := by
    rw [eq_sub_iff_add_eq]
    have h := limbsNat_nines n
    rw [limbBase_eq, ← pow_mul] at h
    exact_mod_cast h
  have hten : (10 : ℚ) ^ (8 * n : Int) * (10 : ℚ) ^ (-(8 * n : Int)) = 1 := by
    rw [← zpow_add₀ (by norm_num), add_neg_cancel, zpow_zero]
  rw [val_of_not_neg rfl, abs_val_eq (n := n) (by simp [ninesValue_nats]), ninesValue_nats, hnat, lastUnit,
    show (ninesValue n).exp - 8 * ((n : Int) - 1) = -(8 * n) by simp [ninesValue]; ring, sub_mul, hten, one_mul]

theorem ninesValue_wf {c : Config} (hc : c.Valid) : (ninesValue c.n).wf c := by
  have h5 := c.n_ge
  have hM := hc.maxExp_ge
  refine record_wf hc (List.length_replicate ..) (limbsBelow_nines _) ?_ (by decide) (by rw [minExp_eq]; omega) (by omega)
  obtain ⟨k, hk⟩ : ∃ k, c.n = k + 1 := ⟨c.n - 1, by omega⟩
  rw [hk, List.replicate_succ]; simp

/-- A list of `n` limbs that are all `l` after the first. -/
theorem nats_eq_cons_replicate {v : DValue} {n l : Nat} (hn : 1 ≤ n) (hlen : v.nats.length = n)
    (h : ∀ i < n - 1, v.limb (i + 1) = l) : v.nats = v.limb 0 :: List.replicate (n - 1) l := by
  apply List.ext_getElem
  · simp [hlen]; omega
  · intro i h1 h2
    have hlimb : v.limb i = v.nats[i] := by rw [limb_eq_nats, List.getD_eq_getElem _ _ h1]
    cases i with
    | zero => exact hlimb.symm
    | succ i => rw [← hlimb, h i (by omega)]; simp

theorem limb_of_nats {v : DValue} {ls : List Nat} (h : v.nats = ls) (i : Nat) : v.limb i = ls.getD i 0 := by
  rw [limb_eq_nats, h]

/-- `IsOne` by the record: 1, or all nines below it (R204). -/
theorem isOne_iff_record {n : Nat} (hn : 1 ≤ n) {v : DValue} (hlen : v.nats.length = n) :
    isOne n v = true ↔ v.cls = .fin ∧ v.neg = false ∧
      ((v.exp = 0 ∧ v.nats = 1 :: List.replicate (n - 1) 0) ∨
        (v.exp = -8 ∧ v.nats = List.replicate n (limbBase - 1))) := by
  have hsucc : List.replicate n (limbBase - 1) = (limbBase - 1) :: List.replicate (n - 1) (limbBase - 1) := by
    obtain ⟨k, rfl⟩ : ∃ k, n = k + 1 := ⟨n - 1, by omega⟩
    rfl
  have hrest (l x : Nat) : (v.limb 0 = x ∧ ∀ i < n - 1, v.limb (i + 1) = l) ↔ v.nats = x :: List.replicate (n - 1) l := by
    constructor
    · rintro ⟨rfl, h⟩; exact nats_eq_cons_replicate hn hlen h
    · intro h
      refine ⟨limb_of_nats h 0, fun i hi => ?_⟩
      rw [limb_of_nats h, List.getD_cons_succ, List.getD_eq_getElem _ _ (by simpa using hi), List.getElem_replicate]
  rw [hsucc, ← hrest, ← hrest]
  simp [isOne, and_assoc]

theorem isOne_withPrec (n p : Nat) (v : DValue) : isOne n (v.withPrec p) = isOne n v := rfl

/-- `IsOne` by the value (R204). -/
theorem isOne_iff_val {c : Config} (hc : c.Valid) {v : DValue} (hv : v.wf c) :
    isOne c.n v = true ↔ v.cls = .fin ∧ (v.val = 1 ∨ v.val = 1 - (10 : ℚ) ^ (-(8 * c.n : Int))) := by
  have hn : 1 ≤ c.n := by have := c.n_ge; omega
  have hone : (oneValue c).nats = 1 :: List.replicate (c.n - 1) 0 := leadingLimb_nats _ (by decide) _ _
  have hnines := ninesValue_nats c.n
  have one_iff : v.val = 1 ∧ v.cls = .fin → isOne c.n v = true := by
    rintro ⟨h, hf⟩
    have heq := withPrec_eq_of_val_eq hc hv (oneValue_wf hc) hf rfl (h.trans (oneValue_val c).symm)
    rw [← isOne_withPrec c.n c.n, heq, isOne_withPrec, isOne_iff_record hn (by rw [hone]; simp; omega)]
    exact ⟨rfl, rfl, .inl ⟨rfl, hone⟩⟩
  have nines_iff : v.val = 1 - (10 : ℚ) ^ (-(8 * c.n : Int)) ∧ v.cls = .fin → isOne c.n v = true := by
    rintro ⟨h, hf⟩
    have heq := withPrec_eq_of_val_eq hc hv (ninesValue_wf hc) hf rfl (h.trans (ninesValue_val c.n).symm)
    rw [← isOne_withPrec c.n c.n, heq, isOne_withPrec, isOne_iff_record hn (by rw [hnines]; simp)]
    exact ⟨rfl, rfl, .inr ⟨rfl, hnines⟩⟩
  constructor
  · intro h
    obtain ⟨hf, hneg, ⟨he, hl⟩ | ⟨he, hl⟩⟩ := (isOne_iff_record hn hv.natsLength).mp h
    · refine ⟨hf, .inl ?_⟩
      rw [← oneValue_val c, DValue.val, DValue.val, hneg, hl, he, hone]; rfl
    · refine ⟨hf, .inr ?_⟩
      rw [← ninesValue_val c.n, DValue.val, DValue.val, hneg, hl, he, hnines]; rfl
  · rintro ⟨hf, h | h⟩
    · exact one_iff ⟨h, hf⟩
    · exact nines_iff ⟨h, hf⟩

/-! ### Integers (R205) -/

theorem limbsNat_eq_zero_iff {ls : List Nat} : limbsNat ls = 0 ↔ ∀ l ∈ ls, l = 0 := by
  induction ls with
  | nil => simp
  | cons l ls ih =>
    have hpow := (limbBase_pow_pos ls.length).ne'
    rw [limbsNat_cons, Nat.add_eq_zero_iff, Nat.mul_eq_zero, or_iff_left hpow, ih, List.forall_mem_cons]

/-- The limbs up to number `k` are the integer part of a magnitude with exponent `8*k`, the others its fraction. -/
theorem abs_val_split {c : Config} {v : DValue} (hv : v.wf c) {k : Nat} (hk : v.exp = 8 * k) (hkn : k < c.n) :
    |v.val| = limbsNat (v.nats.take (k + 1)) + limbsNat (v.nats.drop (k + 1)) * lastUnit c.n v.exp := by
  have hunit : (limbBase : ℚ) ^ (c.n - (k + 1)) * lastUnit c.n v.exp = 1 := by
    rw [mul_comm, lastUnit_mul_pow, hk, lastUnit,
      show (8 * k + 8 * (c.n - (k + 1) : Nat) - 8 * ((c.n : Int) - 1) : Int) = 0 by omega,
      zpow_zero]
  rw [abs_val_eq hv.natsLength, ← List.take_append_drop (k + 1) v.nats, limbsNat_append]
  simp only [List.take_append_drop, List.length_drop, hv.natsLength]
  rw [Nat.cast_add, Nat.cast_mul, Nat.cast_pow, add_mul, mul_assoc, hunit, mul_one]

/-- The fraction of a magnitude is less than 1. -/
theorem fraction_lt_one {c : Config} {v : DValue} (hv : v.wf c) {k : Nat} (hk : v.exp = 8 * k) (hkn : k < c.n) :
    (limbsNat (v.nats.drop (k + 1)) : ℚ) * lastUnit c.n v.exp < 1 := by
  have hfloor := floor_abs_val hv hk hkn
  have hlt := Int.lt_floor_add_one |v.val|
  rw [hfloor, abs_val_split hv hk hkn] at hlt
  push_cast at hlt
  linarith

theorem isInt_iff_limbs {n : Nat} {v : DValue} (hlen : v.nats.length = n) {k : Nat} (hk : v.exp = 8 * k) :
    isInt n v = true ↔ v.cls = .fin ∧ ∀ l ∈ v.nats.drop (k + 1), l = 0 := by
  have hlimb (i : Nat) (hi : i < v.nats.length) : v.limb i = v.nats[i] := by
    rw [limb_eq_nats, List.getD_eq_getElem _ _ hi]
  have hall : (∀ i < n, 8 * (i : Int) ≤ v.exp ∨ v.limb i = 0) ↔ ∀ l ∈ v.nats.drop (k + 1), l = 0 := by
    constructor
    · intro h l hl
      obtain ⟨j, hj, rfl⟩ := List.getElem_of_mem hl
      rw [List.length_drop] at hj
      rw [List.getElem_drop, ← hlimb]
      exact (h (k + 1 + j) (by omega)).resolve_left (by omega)
    · intro h i hi
      by_cases hik : i ≤ k
      · exact .inl (by omega)
      · refine .inr ?_
        rw [hlimb i (by omega)]
        refine h _ (List.mem_of_getElem? (i := i - (k + 1)) ?_)
        rw [List.getElem?_drop, Nat.add_sub_cancel' (by omega), List.getElem?_eq_getElem (by omega)]
  rw [← hall]
  simp [isInt]

/-- The only integer from 0 up to, but not including, 1 is 0. -/
theorem int_eq_zero_of_lt_one {x : ℚ} {j : Int} (hx : x = j) (h0 : 0 ≤ x) (h1 : x < 1) : j = 0 := by
  rw [hx] at h0 h1
  have h0' : 0 ≤ j := by exact_mod_cast h0
  have h1' : j < 1 := by exact_mod_cast h1
  omega

theorem exists_int_val_iff_abs (v : DValue) : (∃ k : Int, v.val = k) ↔ ∃ k : Int, |v.val| = k := by
  constructor
  · rintro ⟨k, hk⟩; exact ⟨|k|, by rw [hk]; push_cast; rfl⟩
  · rintro ⟨k, hk⟩
    cases hn : v.neg with
    | false => exact ⟨k, (val_of_not_neg hn).trans hk⟩
    | true => exact ⟨-k, by rw [val_of_neg hn, hk]; push_cast; rfl⟩

/-- A value with a negative exponent lies between 0 and 1 in magnitude: no integer, and its leading limb is a fraction. -/
theorem isInt_iff_of_exp_neg {c : Config} {v : DValue} (hv : v.wf c) (hf : v.cls = .fin) (hneg : v.exp < 0) :
    isInt c.n v = true ↔ ∃ k : Int, |v.val| = k := by
  have h5 := c.n_ge
  have hm := hv.expMod
  have hz : v.isZero = false := by
    by_contra hz
    rw [hv.zeroExp (by simpa using hz)] at hneg
    exact lt_irrefl _ hneg
  refine iff_of_false (fun h => ?_) ?_
  · have hlead := (List.all_eq_true.mp (Bool.and_eq_true_iff.mp h).2) 0 (List.mem_range.mpr (by omega))
    rw [Bool.or_eq_true] at hlead
    obtain hle | hzero := hlead
    · have hle' := of_decide_eq_true hle
      push_cast at hle'
      omega
    · exact limb_ne_zero hf hz (by simpa using hzero)
  · rintro ⟨k, hk⟩
    have hpos := abs_val_pos hv ⟨hf, hz⟩
    have hlt : |v.val| < 1 := calc
      |v.val| < (10 : ℚ) ^ (v.exp + 8) := (abs_val_bounds hv hf hz).2
      _ ≤ (10 : ℚ) ^ (0 : Int) := ten_zpow_le (by omega)
      _ = 1 := zpow_zero _
    rw [int_eq_zero_of_lt_one hk hpos.le hlt, Int.cast_zero] at hk
    exact hpos.ne' hk

/-- A magnitude is an integer exactly when the limbs of its fraction are zero. -/
theorem exists_int_abs_val_iff {c : Config} {v : DValue} (hv : v.wf c) {k : Nat} (hk : v.exp = 8 * k) :
    (∃ j : Int, |v.val| = j) ↔ ∀ l ∈ v.nats.drop (k + 1), l = 0 := by
  by_cases hkn : k < c.n
  · rw [← limbsNat_eq_zero_iff, abs_val_split hv hk hkn]
    constructor
    · rintro ⟨j, hj⟩
      have hunit := lastUnit_pos c.n v.exp
      have hfrac : (limbsNat (v.nats.drop (k + 1)) : ℚ) * lastUnit c.n v.exp =
          ((j - limbsNat (v.nats.take (k + 1)) : Int) : ℚ) := by push_cast; linarith
      rw [int_eq_zero_of_lt_one hfrac (by positivity) (fraction_lt_one hv hk hkn), Int.cast_zero, mul_eq_zero,
        or_iff_left hunit.ne'] at hfrac
      exact_mod_cast hfrac
    · intro h0; exact ⟨limbsNat (v.nats.take (k + 1)), by rw [h0]; simp⟩
  · have hdrop : v.nats.drop (k + 1) = [] := List.drop_of_length_le (by rw [hv.natsLength]; omega)
    rw [hdrop]
    refine iff_of_true ⟨limbsNat v.nats * 10 ^ (8 * k - 8 * (c.n - 1)), ?_⟩ nofun
    have h5 := c.n_ge
    rw [abs_val_eq hv.natsLength, lastUnit, hk,
      show (8 * (k : Int) - 8 * ((c.n : Int) - 1)) = ((8 * k - 8 * (c.n - 1) : Nat) : Int) by omega, zpow_natCast]
    push_cast; rfl

/-- `IsInt` by the value (R205). -/
theorem isInt_iff_val {c : Config} {v : DValue} (hv : v.wf c) :
    isInt c.n v = true ↔ v.cls = .fin ∧ ∃ k : Int, v.val = k := by
  by_cases hf : v.cls = .fin
  swap
  · simp [isInt, hf]
  rw [exists_int_val_iff_abs]
  by_cases hneg : v.exp < 0
  · rw [isInt_iff_of_exp_neg hv hf hneg, and_iff_right hf]
  · have hm := hv.expMod
    obtain ⟨k, hk⟩ : ∃ k : Nat, v.exp = 8 * k := ⟨(v.exp / 8).toNat, by omega⟩
    rw [isInt_iff_limbs hv.natsLength hk, exists_int_abs_val_iff hv hk]

/-! ### Comparison (R200 to R202) -/

/-- The order of two finite values in {+1, 0, -1} (R200). -/
def valueOrder (x y : ℚ) : Int := if y < x then 1 else if x = y then 0 else -1

theorem valueOrder_of_lt {x y : ℚ} (h : x < y) : valueOrder x y = -1 := by
  rw [valueOrder, if_neg h.not_gt, if_neg h.ne]

theorem valueOrder_of_gt {x y : ℚ} (h : y < x) : valueOrder x y = 1 := if_pos h

theorem valueOrder_self (x : ℚ) : valueOrder x x = 0 := by rw [valueOrder, if_neg (lt_irrefl x), if_pos rfl]

section
variable {c : Config} {a b : DValue}

/-- Values of the same sign are ordered as their magnitudes, the other way round when negative. -/
theorem valueOrder_of_abs_lt (h : a.neg = b.neg) (hlt : |a.val| < |b.val|) :
    valueOrder a.val b.val = if a.neg then 1 else -1 := by
  cases hn : a.neg with
  | false =>
    have ha := val_of_not_neg hn
    have hb := val_of_not_neg (h ▸ hn)
    exact valueOrder_of_lt (by linarith)
  | true =>
    have ha := val_of_neg hn
    have hb := val_of_neg (h ▸ hn)
    exact valueOrder_of_gt (by linarith)

theorem valueOrder_of_abs_gt (h : a.neg = b.neg) (hgt : |b.val| < |a.val|) :
    valueOrder a.val b.val = if a.neg then -1 else 1 := by
  cases hn : a.neg with
  | false =>
    have ha := val_of_not_neg hn
    have hb := val_of_not_neg (h ▸ hn)
    exact valueOrder_of_gt (by linarith)
  | true =>
    have ha := val_of_neg hn
    have hb := val_of_neg (h ▸ hn)
    exact valueOrder_of_lt (by linarith)

theorem valueOrder_of_abs_eq (h : a.neg = b.neg) (heq : |a.val| = |b.val|) : valueOrder a.val b.val = 0 := by
  have hval : a.val = b.val := by rw [val_eq_sign_mul_abs a, val_eq_sign_mul_abs b, h, heq]
  rw [hval]; exact valueOrder_self _

theorem val_lt_zero (ha : a.wf c) (h : FiniteNonzero a) (hn : a.neg = true) : a.val < 0 := (neg_iff_val_neg ha h).mp hn

theorem val_gt_zero (ha : a.wf c) (h : FiniteNonzero a) (hn : a.neg = false) : 0 < a.val := by
  rw [val_of_not_neg hn]; exact abs_val_pos ha h

/-- `Cmp` of finite values is their order (R201, R202). -/
theorem decCmp_eq_valueOrder (ha : a.wf c) (hb : b.wf c) (hfa : a.cls = .fin) (hfb : b.cls = .fin) :
    decCmp a b = valueOrder a.val b.val := by
  have zero {v : DValue} (hv : v.wf c) (hz : v.isZero = true) : v.val = 0 :=
    (isZero_iff_val_eq_zero hv (isZero_cls hz)).mp hz
  simp only [decCmp, hfa, hfb, reduceCtorEq, false_and, if_false]
  cases hza : a.isZero with
  | true =>
    rw [zero ha hza]
    cases hzb : b.isZero with
    | true => rw [zero hb hzb]; exact (valueOrder_self 0).symm
    | false =>
      cases hn : b.neg with
      | true => exact (valueOrder_of_gt (val_lt_zero hb ⟨hfb, hzb⟩ hn)).symm
      | false => exact (valueOrder_of_lt (val_gt_zero hb ⟨hfb, hzb⟩ hn)).symm
  | false =>
    cases hzb : b.isZero with
    | true =>
      rw [zero hb hzb]
      cases hn : a.neg with
      | true => exact (valueOrder_of_lt (val_lt_zero ha ⟨hfa, hza⟩ hn)).symm
      | false => exact (valueOrder_of_gt (val_gt_zero ha ⟨hfa, hza⟩ hn)).symm
    | false =>
      by_cases hs : a.neg = b.neg
      · have hmag := magCmp_eq_compare ha hb hfa hfb
        simp only [hs, ne_eq, not_true_eq_false, Bool.false_eq_true, false_and, if_false]
        cases hm : magCmp a b with
        | lt => rw [valueOrder_of_abs_lt hs (compare_lt_iff_lt.mp (hmag.symm.trans hm)), hs]
        | eq => rw [valueOrder_of_abs_eq hs (compare_eq_iff_eq.mp (hmag.symm.trans hm))]
        | gt => rw [valueOrder_of_abs_gt hs (compare_gt_iff_gt.mp (hmag.symm.trans hm)), hs]
      · have hne : a.neg ≠ b.neg := hs
        cases hn : a.neg with
        | true =>
          have hnb : b.neg = false := by simpa [hn] using hne
          have hlt := (val_lt_zero ha ⟨hfa, hza⟩ hn).trans (val_gt_zero hb ⟨hfb, hzb⟩ hnb)
          simp [valueOrder_of_lt hlt, hnb]
        | false =>
          have hnb : b.neg = true := by simpa [hn] using hne
          have hlt := (val_lt_zero hb ⟨hfb, hzb⟩ hnb).trans (val_gt_zero ha ⟨hfa, hza⟩ hn)
          simp [valueOrder_of_gt hlt, hnb]

end

namespace Machine

theorem readX_writeInt_same (s : State) (x : XReg) (k : Int) : (s.writeInt x k).readX x = BitVec.ofInt 64 k :=
  readX_writeX_same s x _

/-- Settles O52. -/
theorem cmpOrdersFiniteValues : Obligations.CmpOrdersFiniteValues := by
  intro s d s1 s2 hs hf1 hf2
  refine ⟨_, rfl, onlyX_writeX s d _, ?_⟩
  rw [readX_writeInt_same, decCmp_eq_valueOrder (hs.values s1) (hs.values s2) hf1 hf2, valueOrder]
  split_ifs <;> rfl

/-- Settles O53: the lines of R201 before the finite ones. -/
theorem cmpSpecialOperands : Obligations.CmpSpecialOperands := by
  intro s d s1 s2 a b hspecial
  refine ⟨_, rfl, onlyX_writeX s d _, ?_⟩
  have hcmp : decCmp a b =
      if a.cls = .nan then 1
      else if b.cls = .nan then -1
      else if a.cls = .inf ∧ b.cls = .inf then (if a.neg = b.neg then 0 else if a.neg then -1 else 1)
      else if a.cls = .inf then (if a.neg then -1 else 1)
      else (if b.neg then 1 else -1) := by
    unfold decCmp
    refine ite_congr rfl (fun _ => rfl) fun hna => ite_congr rfl (fun _ => rfl) fun hnb => ite_congr rfl (fun _ => rfl)
      fun _ => ite_congr rfl (fun _ => rfl) fun hia => if_pos ?_
    have hfa : a.cls = .fin := by
      cases ha : a.cls with
      | fin => rfl
      | inf => exact absurd ha hia
      | nan => exact absurd ha hna
    cases hb : b.cls with
    | fin => exact absurd hspecial (by simp [hfa, hb])
    | inf => rfl
    | nan => exact absurd hb hnb
  rw [← hcmp]
  show ((s.writeInt d (decCmp a b)).readX d).toInt = _
  rw [readX_writeInt_same]
  have hrange : -1 ≤ decCmp a b ∧ decCmp a b ≤ 1 := by
    rw [hcmp]; split_ifs <;> decide
  exact toInt_ofInt_64 (by omega) (by omega)

/-! ### Tests (R203 to R210) -/

/-- A test writes 1 or 0. -/
theorem exec_test {i : Instr} {s : State} {d : XReg} {b : Bool} {P : Prop} [Decidable P]
    (h : exec i s = .next (s.writeBool d b)) (hb : b = true ↔ P) :
    ∃ t, exec i s = .next t ∧ OnlyX d s t ∧ t.readX d = if P then 1 else 0 := by
  refine ⟨_, h, onlyX_writeX s d _, ?_⟩
  simp only [State.writeBool, readX_writeX_same, hb]

/-- Settles O54. -/
theorem classificationCommands : Obligations.ClassificationCommands := by
  refine ⟨fun s d src hs => exec_test rfl ?_, fun s d src => exec_test rfl Iff.rfl, fun s d src => exec_test rfl beq_iff_eq,
    fun s d src => exec_test rfl beq_iff_eq, fun s d src => exec_test rfl beq_iff_eq,
    fun s d src => ⟨_, rfl, onlyX_writeX s d _, ?_⟩⟩
  · constructor
    · intro hz; exact ⟨isZero_cls hz, (isZero_iff_val_eq_zero (hs.values src) (isZero_cls hz)).mp hz⟩
    · rintro ⟨hf, h0⟩; exact (isZero_iff_val_eq_zero (hs.values src) hf).mpr h0
  · rw [readX_writeX_same]
    cases (s.readD src).cls <;> rfl

/-- Settles O55. -/
theorem isOneAndIsIntByValue : Obligations.IsOneAndIsIntByValue := by
  classical
  refine ⟨fun s d src hs => ?_, fun s d src hs => ?_⟩
  · obtain ⟨t, ht, honly, hread⟩ := exec_test (i := .isone d src) rfl (isOne_iff_val hs.valid (hs.values src))
    exact ⟨t, ht, honly, fun h => hread.trans (if_pos h), fun h => hread.trans (if_neg h)⟩
  · obtain ⟨t, ht, honly, hread⟩ := exec_test (i := .isint d src) rfl (isInt_iff_val (hs.values src))
    exact ⟨t, ht, honly, fun h => hread.trans (if_pos h), fun h => hread.trans (if_neg h)⟩

/-! ### Copies, signs and precision (R120 to R126) -/

theorem negate_eq (v : DValue) :
    v.negate = if v.cls = .nan ∨ (v.cls = .fin ∧ v.limb 0 = 0) then v else { v with neg := !v.neg } := by
  simp only [DValue.negate, isZero_iff]

/-- Settles O26. -/
theorem copyAndSignCommands : Obligations.CopyAndSignCommands := by
  refine ⟨fun _ => rfl, fun s d src => ⟨_, rfl, readD_writeD_same s d _, onlyD_writeD s d _, ?_⟩,
    fun s d src => ⟨_, rfl, onlyD_writeD s d _, ?_⟩, fun s d src => ⟨_, rfl, onlyD_writeD s d _, readD_writeD_same s d _⟩⟩
  · rintro rfl; exact writeD_readD s d
  · rw [readD_writeD_same, negate_eq]

/-- Settles O28. -/
theorem precisionCommands : Obligations.PrecisionCommands := by
  refine ⟨fun s d p h1 h2 => ⟨_, exec_setprec_legal ⟨h1, h2⟩, onlyD_writeD s d _, ?_, ?_⟩, fun s d p hp => ?_,
    fun s d src => ⟨_, rfl, onlyX_writeX s d _, ?_⟩⟩
  · rw [readD_writeD_same, withPrec_prec, prec_toNat (lt_trans p.isLt (by norm_num))]
  · rw [readD_writeD_same]; rfl
  · have hillegal : precisionLegal s.cfg.n p.toNat = false := by
      obtain rfl | hp := hp
      · rfl
      · simp [precisionLegal, hp]
    rw [exec, execSetprec, hillegal]
    rfl
  · rw [readX_writeX_same, BitVec.toNat_setWidth]
    exact Nat.mod_eq_of_lt (lt_trans (s.readD src).prec.isLt (by norm_num))

end Machine

end Sys2Proof

/-! PROOF. The registry (spec/10_state.md R50) and the conversions between decimal values and native scalars
(spec/48_conversions.md R260 to R268). -/

namespace Sys2Proof

open Machine

/-! ### The records of the registry (R50) -/

/-- A record given by its first limbs is the built one. -/
theorem recordOf_eq_finiteValue (c : Config) (ls : List (BitVec 32)) (e : Int) (s : Bool) :
    recordOf c ls e s = finiteValue (ls.map BitVec.toNat ++ List.replicate (c.n - ls.length) 0) e s c.n := by
  simp [recordOf, finiteValue, Function.comp_def]

theorem recordOf_singleton (c : Config) (l : BitVec 32) (e : Int) (s : Bool) :
    recordOf c [l] e s = leadingLimb c.n l.toNat e s := recordOf_eq_finiteValue c [l] e s

theorem registry_powerOfTwo (c : Config) {j : Nat} (hj : j ≤ 254) : registry c (256 + j) = some (powerOfTwo c.n j) := by
  unfold registry
  split
  case h_15 => rw [if_pos (by omega), Nat.add_sub_cancel_left]
  all_goals omega

namespace Machine

theorem exec_ldc {s : State} {d : DReg} {cid : BitVec 9} {v : DValue} (h : registry s.cfg cid.toNat = some v) :
    ∃ t, exec (.ldc d cid) s = .next t ∧ t.readD d = v ∧ OnlyD d s t := by
  refine ⟨s.writeD d v, ?_, readD_writeD_same s d v, onlyD_writeD s d v⟩
  rw [exec, execLdc, h]

/-- Settles O27. -/
theorem ldcLoadsTheRegistry : Obligations.LdcLoadsTheRegistry := by
  refine ⟨fun s d row hrow => exec_ldc ?_, fun s d cid q hc hq => ?_, fun s d cid hcid => ?_⟩
  · revert row
    simp only [List.forall_mem_cons, recordOf_eq_finiteValue]
    exact ⟨rfl, rfl, rfl, rfl, rfl, rfl, rfl, rfl, rfl, rfl, rfl, nofun⟩
  · obtain ⟨v, hv, htrunc⟩ : ∃ v, registry s.cfg cid.toNat = some v ∧ TruncatesTo s.cfg q false s.cfg.n v := by
      obtain ⟨rfl, rfl⟩ | ⟨rfl, rfl⟩ | ⟨rfl, rfl⟩ | ⟨hlo, hhi, rfl⟩ := hq
      · exact ⟨_, rfl, epsilon_truncates hc⟩
      · exact ⟨_, rfl, doubleMax_truncates hc⟩
      · exact ⟨_, rfl, doubleMin_truncates hc⟩
      · obtain ⟨j, hj⟩ := Nat.exists_eq_add_of_le hlo
        rw [hj]
        refine ⟨_, registry_powerOfTwo s.cfg (by omega), ?_⟩
        have hexp : (((256 + j : Nat) : Int) - 256 - 127) = (j : Int) - 127 := by push_cast; ring
        rw [hexp]
        exact powerOfTwo_truncates hc (by omega)
    obtain ⟨t, ht, hread, honly⟩ := exec_ldc (d := d) hv
    exact ⟨t, ht, by rwa [hread], honly⟩
  · have hnone : registry s.cfg cid.toNat = none := by
      rw [← Option.not_isSome_iff_eq_none, registry_isSome]
      simp [constantAssigned]; omega
    rw [exec, execLdc, hnone]
    rfl

/-! ### Integers (R127, R260 to R264) -/

/-- Settles O29. -/
theorem fromIntegersExact : Obligations.FromIntegersExact := by
  refine ⟨fun s d x hc => ⟨_, rfl, onlyD_writeD s d _, ?_⟩, fun s d x hc => ⟨_, rfl, onlyD_writeD s d _, ?_⟩⟩ <;>
    rw [readD_writeD_same]
  · obtain ⟨hwf, hf, -, hval, -, hprec, -⟩ := fromU64_spec hc (s.readX x).isLt
    exact ⟨hwf, hf, hval, by rw [State.readUnsigned, hprec, prec_toNat hc.n_lt]⟩
  · obtain ⟨hwf, hf, hval, hprec, -⟩ := fromI64_spec hc (BitVec.le_toInt (s.readX x)) BitVec.toInt_lt
    exact ⟨hwf, hf, hval, by rw [State.readSigned, hprec, prec_toNat hc.n_lt]⟩

end Machine

section
variable {c : Config} {v : DValue}

/-- Cut to any bound of 64 bits, `IntPart` is the integer part of the magnitude (R261, log entry 16). -/
theorem min_intPart (hv : v.wf c) (hf : v.cls = .fin) {b : Int} (hb : b ≤ 2 ^ 64) :
    min (intPart c.n v : Int) b = min ⌊|v.val|⌋ b := by
  by_cases he : v.exp < 24
  · rw [intPart_floor hv hf he]
  · obtain ⟨hpart, hbig⟩ := intPart_large hv hf (not_lt.mp he)
    have hfloor : (10 : Int) ^ 24 ≤ ⌊|v.val|⌋ := by
      rw [Int.le_floor]; exact_mod_cast hbig
    rw [hpart, min_eq_right (by push_cast; omega), min_eq_right (by omega)]

/-- `TOU64` of a finite value (R262). -/
theorem toU64_of_fin (hv : v.wf c) (hf : v.cls = .fin) :
    toU64 c.n v = if v.neg then 0 else min ⌊v.val⌋.toNat (2 ^ 64 - 1) := by
  simp only [toU64, hf, reduceCtorEq, if_false]
  cases hn : v.neg with
  | true => rfl
  | false =>
    have hmin := min_intPart hv hf (b := 2 ^ 64 - 1) (by norm_num)
    have h0 : 0 ≤ ⌊|v.val|⌋ := Int.floor_nonneg.mpr (abs_nonneg _)
    rw [val_of_not_neg hn]
    simp only [Bool.false_eq_true, if_false]
    omega

/-- `TOI64` of a finite value (R263). -/
theorem toI64_of_fin (hv : v.wf c) (hf : v.cls = .fin) :
    toI64 c.n v = if v.neg then max ⌈v.val⌉ (-2 ^ 63) else min ⌊v.val⌋ (2 ^ 63 - 1) := by
  simp only [toI64, hf, reduceCtorEq, if_false]
  cases hn : v.neg with
  | true =>
    have hmin := min_intPart hv hf (b := 2 ^ 63) (by norm_num)
    rw [val_of_neg hn, Int.ceil_neg]
    simp only [if_true]
    omega
  | false =>
    rw [val_of_not_neg hn]
    exact min_intPart hv hf (by norm_num)

end

namespace Machine

theorem toU64_lt (n : Nat) (v : DValue) : toU64 n v < 2 ^ 64 := by
  unfold toU64; split_ifs <;> omega

theorem toI64_range (n : Nat) (v : DValue) : -2 ^ 63 ≤ toI64 n v ∧ toI64 n v < 2 ^ 63 := by
  unfold toI64; split_ifs <;> omega

/-- Settles O31. -/
theorem toIntegersTruncateAndClamp : Obligations.ToIntegersTruncateAndClamp := by
  refine ⟨fun s d src hs => ⟨_, rfl, onlyX_writeX s d _, ?_⟩, fun s d src hs => ⟨_, rfl, onlyX_writeX s d _, ?_⟩⟩
  · rw [readX_writeX_same, BitVec.toNat_ofNat, Nat.mod_eq_of_lt (toU64_lt _ _)]
    cases hk : (s.readD src).cls with
    | nan => exact if_pos hk
    | inf => simp [toU64, hk]
    | fin => exact toU64_of_fin (hs.values src) hk
  · obtain ⟨hlo, hhi⟩ := toI64_range s.cfg.n (s.readD src)
    rw [readX_writeInt_same, toInt_ofInt_64 hlo hhi]
    cases hk : (s.readD src).cls with
    | nan => exact if_pos hk
    | inf => simp [toI64, hk]
    | fin => exact toI64_of_fin (hs.values src) hk

theorem toU64_fromU64 {c : Config} (hc : c.Valid) {u : Nat} (hu : u < 2 ^ 64) : toU64 c.n (fromU64 c.n u) = u := by
  obtain ⟨hwf, hf, hneg, hval, -⟩ := fromU64_spec hc hu
  rw [toU64_of_fin hwf hf, hneg, hval, Int.floor_natCast, Int.toNat_natCast]
  exact min_eq_left (by omega)

theorem toI64_fromI64 {c : Config} (hc : c.Valid) {i : Int} (h1 : -2 ^ 63 ≤ i) (h2 : i < 2 ^ 63) :
    toI64 c.n (fromI64 c.n i) = i := by
  obtain ⟨hwf, hf, hval, -, -⟩ := fromI64_spec hc h1 h2
  rw [toI64_of_fin hwf hf, hval, Int.floor_intCast, Int.ceil_intCast, max_eq_left h1, min_eq_left (by omega), ite_self]

/-- Settles O32. -/
theorem integerRoundTrip : Obligations.IntegerRoundTrip := by
  refine ⟨fun s d x y hs => ⟨_, _, rfl, rfl, ?_⟩, fun s d x y hs => ⟨_, _, rfl, rfl, ?_⟩⟩
  · rw [readX_writeX_same, readD_writeD_same, writeD_cfg, State.readUnsigned, toU64_fromU64 hs.valid (s.readX x).isLt,
      BitVec.ofNat_toNat, BitVec.setWidth_eq]
  · rw [readX_writeInt_same, readD_writeD_same, writeD_cfg, State.readSigned,
      toI64_fromI64 hs.valid (BitVec.le_toInt _) BitVec.toInt_lt, BitVec.ofInt_toInt]

end Machine

end Sys2Proof

/-! PROOF. The conversions between decimal values and binary64 apart from the rounding of `DecToF64`
(spec/48_conversions.md R265, R267, R268). -/

namespace Sys2Proof

open Machine

/-! ### Binary64 patterns (R267) -/

theorem binary64Val_eq (b : XWord) :
    binary64Val b =
      if binary64Exponent b = 0 then binary64Fraction b * (2 : ℚ) ^ (-1074 : Int)
      else (2 ^ 52 + binary64Fraction b) * (2 : ℚ) ^ ((binary64Exponent b : Int) - 1075) := by
  unfold binary64Val binary64Magnitude
  split_ifs
  · rfl
  · push_cast; rfl

/-- A finite pattern is below `2^1024`. -/
theorem binary64Val_lt {b : XWord} (h : FiniteBinary64 b) : binary64Val b < (2 : ℚ) ^ (1024 : Int) := by
  obtain ⟨hfrac, hexp⟩ := binary64_fields b
  have hfinite : binary64Exponent b ≠ 2047 := h
  have hsig : ((binary64Magnitude b).1 : ℚ) < (2 : ℚ) ^ (53 : Int) := by
    have hnat : (binary64Magnitude b).1 < 2 ^ 53 := by unfold binary64Magnitude; split_ifs <;> omega
    exact_mod_cast hnat
  have hscale : (binary64Magnitude b).2 ≤ 971 := by unfold binary64Magnitude; split_ifs <;> omega
  calc binary64Val b
    _ < (2 : ℚ) ^ (53 : Int) * (2 : ℚ) ^ (binary64Magnitude b).2 := mul_lt_mul_of_pos_right hsig (zpow_pos (by norm_num) _)
    _ ≤ (2 : ℚ) ^ (53 : Int) * (2 : ℚ) ^ (971 : Int) :=
      mul_le_mul_of_nonneg_left (zpow_le_zpow_right₀ (by norm_num) hscale) (by positivity)
    _ = (2 : ℚ) ^ (1024 : Int) := by rw [← zpow_add₀ (by norm_num)]; norm_num

theorem two_pow_1024_le : (2 : ℚ) ^ (1024 : Int) ≤ (10 : ℚ) ^ (320 : Int) := by
  have h : 2 ^ 1024 ≤ 10 ^ 320 := calc
    2 ^ 1024 ≤ 2 ^ (13 * 80) := Nat.pow_le_pow_right (by norm_num) (by norm_num)
    _ = (2 ^ 13) ^ 80 := pow_mul _ _ _
    _ ≤ (10 ^ 4) ^ 80 := Nat.pow_le_pow_left (by norm_num) _
    _ = 10 ^ 320 := (pow_mul 10 4 80).symm
  exact_mod_cast h

section
variable {c : Config} {v : DValue} {q : ℚ}

/-- A truncation is within the requested digits of its number (R6, R268). -/
theorem truncation_relative_error (hv : v.wf c) (h : FiniteNonzero v) (h1 : |v.val| ≤ q)
    (h2 : q < |v.val| + lastUnit c.n v.exp) : |(|v.val| / q) - 1| ≤ (10 : ℚ) ^ (-(c.digits : Int)) := by
  have hlo := (abs_val_bounds hv h.1 h.2).1
  have hq : 0 < q := lt_of_lt_of_le (ten_zpow_pos _) (hlo.trans h1)
  have hdigits : (c.digits : Int) ≤ 8 * ((c.n : Int) - 1) := by unfold Config.n; omega
  have hunit : lastUnit c.n v.exp ≤ (10 : ℚ) ^ (-(c.digits : Int)) * q := calc
    lastUnit c.n v.exp = (10 : ℚ) ^ (-(8 * ((c.n : Int) - 1))) * (10 : ℚ) ^ v.exp := by
      rw [lastUnit, ← zpow_add₀ (by norm_num)]; congr 1; ring
    _ ≤ (10 : ℚ) ^ (-(c.digits : Int)) * q :=
      mul_le_mul (ten_zpow_le (by omega)) (hlo.trans h1) (ten_zpow_pos _).le (ten_zpow_pos _).le
  have hle : |v.val| / q - 1 ≤ 0 := by rw [sub_nonpos, div_le_one hq]; exact h1
  have herr : 1 - |v.val| / q = (q - |v.val|) / q := by rw [sub_div, div_self hq.ne']
  rw [abs_of_nonpos hle, neg_sub, herr, div_le_iff₀ hq]
  linarith

end

namespace Machine

/-- What R268 promises of the value `v` stored for a pattern of magnitude `q` and sign `s`. -/
def ConvertsFrom (c : Config) (q : ℚ) (s : Bool) (v : DValue) : Prop :=
  (v = DValue.zero c.n ∧ q < (10 : ℚ) ^ c.minExp) ∨
    (v.wf c ∧ v.cls = .fin ∧ v.neg = s ∧ v.prec.toNat = c.n ∧ |(|v.val| / q) - 1| ≤ (10 : ℚ) ^ (-(c.digits : Int)))

/-- A truncation of a number below MAXV keeps the promise. -/
theorem TruncatesTo.convertsFrom {c : Config} {q : ℚ} {s : Bool} {v : DValue} (h : TruncatesTo c q s c.n v)
    (hq : q < (10 : ℚ) ^ (c.maxExp : Int)) : ConvertsFrom c q s v := by
  unfold TruncatesTo at h
  have hnot : ¬ (10 : ℚ) ^ (c.maxExp : Int) + (10 : ℚ) ^ ((c.maxExp : Int) - 8 * ((c.n : Int) - 1)) ≤ q := by
    have hunit := ten_zpow_pos ((c.maxExp : Int) - 8 * ((c.n : Int) - 1))
    linarith
  rw [if_neg hnot] at h
  split_ifs at h with hmin
  · exact .inl ⟨h, hmin⟩
  · obtain ⟨hwf, hf, hz, hneg, hprec, hle, hlt⟩ := h
    exact .inr ⟨hwf, hf, hneg, hprec, truncation_relative_error hwf ⟨hf, hz⟩ hle hlt⟩

/-- `F64ToDec` keeps its promise in every configuration (R268, U5). -/
theorem f64ToDec_convertsFrom {c : Config} (hc : c.Valid) {b : XWord} (hfin : FiniteBinary64 b)
    (h0 : (binary64Magnitude b).1 ≠ 0) : ConvertsFrom c (binary64Val b) (b.getLsbD 63) (f64ToDec c b) := by
  have hbelow : binary64Val b < (10 : ℚ) ^ (c.maxExp : Int) := calc
    binary64Val b < (2 : ℚ) ^ (1024 : Int) := binary64Val_lt hfin
    _ ≤ (10 : ℚ) ^ (320 : Int) := two_pow_1024_le
    _ ≤ (10 : ℚ) ^ (c.maxExp : Int) := ten_zpow_le (by have := hc.maxExp_ge; omega)
  have href := (f64ToDecReference_truncates hc h0).convertsFrom hbelow
  unfold f64ToDec
  cases c.f64ToDec with
  | reference => exact href
  | custom id =>
    dsimp only
    split
    · next hcontract =>
      obtain ⟨hzero, hlt⟩ | ⟨⟨hf, hwf, hneg⟩, herr⟩ := hcontract
      · rw [hzero]; exact .inl ⟨rfl, hlt⟩
      · refine .inr ⟨withPrec_full_wf hc hwf, hf, hneg, prec_toNat hc.n_lt, ?_⟩
        rwa [absolute_val, one_div, ← zpow_natCast, ← zpow_neg] at herr
    · exact href

/-- Settles O30: the special patterns by the lines of R268, the others by the contract. -/
theorem fromF64Values : Obligations.FromF64Values := by
  intro s d x hc
  refine ⟨_, rfl, onlyD_writeD s d _, ?_⟩
  rw [readD_writeD_same]
  intro b e f q
  have hq : binary64Val b = q := binary64Val_eq b
  refine ⟨fun he hf => if_pos ⟨he, hf⟩, fun he hf => ?_, fun he hf => ?_, fun he hq0 => ?_⟩
  · exact (if_neg fun h => h.2 hf).trans (if_pos he)
  · have hexp : ¬ binary64Exponent b = 0x7FF := by
      rw [show binary64Exponent b = 0 from he]; decide
    exact (if_neg fun h => hexp h.1).trans ((if_neg hexp).trans (if_pos ⟨he, hf⟩))
  · have hnonzero : (binary64Magnitude b).1 ≠ 0 := by
      intro h0
      rw [← hq, binary64Val, h0, Nat.cast_zero, zero_mul] at hq0
      exact hq0 rfl
    have hpath : fromF64 s.cfg b = f64ToDec s.cfg b := by
      refine (if_neg fun h => he h.1).trans ((if_neg he).trans (if_neg ?_))
      rintro ⟨he0, hf0⟩
      exact hnonzero (by rw [binary64Magnitude, if_pos he0]; exact hf0)
    rw [hpath, ← hq]
    refine ⟨f64ToDec_convertsFrom hc he hnonzero, fun href => ?_⟩
    rw [f64ToDec, href]
    exact f64ToDecReference_truncates hc hnonzero

end Machine

/-! ### `TOF64` outside the range of binary64 (R265) -/

section
variable {c : Config} {v w : DValue}

/-- Two stored magnitudes, one above the other, differ by at least a unit of the smaller. -/
theorem abs_val_add_unit_le (hv : v.wf c) (hw : w.wf c) (hnv : FiniteNonzero v) (hnw : FiniteNonzero w)
    (h : |w.val| < |v.val|) : |w.val| + lastUnit c.n w.exp ≤ |v.val| := by
  have hexp : w.exp ≤ v.exp := by
    by_contra hlt
    have hmv := hv.expMod
    have hmw := hw.expMod
    have hle : |v.val| ≤ |w.val| := calc
      |v.val| ≤ (10 : ℚ) ^ (v.exp + 8) := (abs_val_bounds hv hnv.1 hnv.2).2.le
      _ ≤ (10 : ℚ) ^ w.exp := ten_zpow_le (by omega)
      _ ≤ |w.val| := (abs_val_bounds hw hnw.1 hnw.2).1
    exact absurd h hle.not_gt
  obtain ⟨k, hk⟩ : ∃ k : Nat, v.exp = w.exp + 8 * k :=
    ⟨((v.exp - w.exp) / 8).toNat, by have := hv.expMod; have := hw.expMod; omega⟩
  have hunit := lastUnit_pos c.n w.exp
  rw [abs_val_eq hv.natsLength, abs_val_eq hw.natsLength, hk, ← lastUnit_mul_pow, mul_comm (lastUnit c.n w.exp), ← mul_assoc]
    at h ⊢
  have hlt := lt_of_mul_lt_mul_right h hunit.le
  have hnat : limbsNat w.nats + 1 ≤ limbsNat v.nats * limbBase ^ k := by exact_mod_cast hlt
  calc (limbsNat w.nats : ℚ) * lastUnit c.n w.exp + lastUnit c.n w.exp
    _ = ((limbsNat w.nats : ℚ) + 1) * lastUnit c.n w.exp := by ring
    _ ≤ (limbsNat v.nats : ℚ) * (limbBase : ℚ) ^ k * lastUnit c.n w.exp :=
      mul_le_mul_of_nonneg_right (by exact_mod_cast hnat) hunit.le

/-- A stored value is above a number exactly when it is above the truncation of the number. -/
theorem lt_abs_val_iff_of_truncates {q : ℚ} (hv : v.wf c) (hw : w.wf c) (hnv : FiniteNonzero v) (hnw : FiniteNonzero w)
    (h1 : |w.val| ≤ q) (h2 : q < |w.val| + lastUnit c.n w.exp) : q < |v.val| ↔ |w.val| < |v.val| :=
  ⟨fun h => h1.trans_lt h, fun h => h2.trans_le (abs_val_add_unit_le hv hw hnv hnw h)⟩

end

theorem doubleMin_bounds {c : Config} (hc : c.Valid) :
    (10 : ℚ) ^ c.minExp ≤ (2 : ℚ) ^ (-1022 : Int) ∧ (2 : ℚ) ^ (-1022 : Int) ≤ 1 := by
  have hM := hc.maxExp_ge
  refine ⟨?_, zpow_le_one_of_nonpos₀ (by norm_num) (by norm_num)⟩
  calc (10 : ℚ) ^ c.minExp
    _ ≤ (10 : ℚ) ^ (-320 : Int) := ten_zpow_le (by rw [minExp_eq]; omega)
    _ ≤ (2 : ℚ) ^ (-1024 : Int) := by
      rw [zpow_neg, zpow_neg]
      exact inv_anti₀ (zpow_pos (by norm_num) _) two_pow_1024_le
    _ ≤ (2 : ℚ) ^ (-1022 : Int) := zpow_le_zpow_right₀ (by norm_num) (by norm_num)

theorem doubleMax_bounds {c : Config} (hc : c.Valid) :
    1 ≤ (2 ^ 53 - 1) * (2 : ℚ) ^ (971 : Int) ∧ (2 ^ 53 - 1) * (2 : ℚ) ^ (971 : Int) ≤ (10 : ℚ) ^ (c.maxExp : Int) := by
  have hM := hc.maxExp_ge
  constructor
  · exact one_le_mul_of_one_le_of_one_le (by norm_num) (one_le_zpow₀ (by norm_num) (by norm_num))
  · calc (2 ^ 53 - 1) * (2 : ℚ) ^ (971 : Int)
      _ ≤ (2 : ℚ) ^ (53 : Int) * (2 : ℚ) ^ (971 : Int) :=
        mul_le_mul_of_nonneg_right (by norm_num) (zpow_pos (by norm_num) _).le
      _ = (2 : ℚ) ^ (1024 : Int) := by rw [← zpow_add₀ (by norm_num)]; norm_num
      _ ≤ (10 : ℚ) ^ (320 : Int) := two_pow_1024_le
      _ ≤ (10 : ℚ) ^ (c.maxExp : Int) := ten_zpow_le (by omega)

theorem one_le_ten_maxExp (c : Config) : (1 : ℚ) ≤ (10 : ℚ) ^ (c.maxExp : Int) :=
  one_le_zpow₀ (by norm_num) (by omega)

theorem ten_minExp_le_one (c : Config) : (10 : ℚ) ^ c.minExp ≤ 1 :=
  zpow_le_one_of_nonpos₀ (by norm_num) (by rw [minExp_eq]; omega)

/-- DBLMIN is a stored value not above 1 (R50). -/
theorem doubleMin_spec {c : Config} (hc : c.Valid) :
    (doubleMin c.n).wf c ∧ FiniteNonzero (doubleMin c.n) ∧ |(doubleMin c.n).val| = (doubleMin c.n).val ∧
      |(doubleMin c.n).val| ≤ 1 := by
  obtain ⟨hlo, hone⟩ := doubleMin_bounds hc
  obtain ⟨hwf, hf, hz, hneg, -, hle, -⟩ := (doubleMin_truncates hc).inRange hlo (hone.trans (one_le_ten_maxExp c))
  exact ⟨hwf, ⟨hf, hz⟩, (val_of_not_neg hneg).symm, hle.trans hone⟩

section
variable {c : Config} (hc : c.Valid) {v : DValue} (hv : v.wf c) (hf : v.cls = .fin)
include hc hv hf

theorem magCmp_doubleMin : magCmp v.absolute (doubleMin c.n) = .lt ↔ |v.val| < (doubleMin c.n).val := by
  obtain ⟨hwf, hmin, habs, -⟩ := doubleMin_spec hc
  rw [magCmp_eq_compare (absolute_wf hv) hwf hf hmin.1, absolute_val, abs_abs, habs, compare_lt_iff_lt]

theorem magCmp_doubleMax (hz : v.isZero = false) :
    magCmp v.absolute (doubleMax c.n) = .gt ↔ (2 ^ 53 - 1) * (2 : ℚ) ^ (971 : Int) < |v.val| := by
  obtain ⟨hone, hmax⟩ := doubleMax_bounds hc
  obtain ⟨hwf, hfmax, hzmax, -, -, hle, hlt⟩ := (doubleMax_truncates hc).inRange ((ten_minExp_le_one c).trans hone) hmax
  rw [magCmp_eq_compare (absolute_wf hv) hwf hf hfmax, absolute_val, abs_abs, compare_gt_iff_gt,
    lt_abs_val_iff_of_truncates hv hwf ⟨hf, hz⟩ ⟨hfmax, hzmax⟩ hle hlt]

/-- `TOF64` of a finite value by its range (R265). -/
theorem toF64_of_fin :
    toF64 c v =
      if |v.val| < (doubleMin c.n).val then 0
      else if (2 ^ 53 - 1) * (2 : ℚ) ^ (971 : Int) < |v.val| then binary64Infinity v.neg
      else decToF64 c v.neg (formatValue v 18).text (formatValue v 18).exp := by
  obtain ⟨hwf, hmin, habs, -⟩ := doubleMin_spec hc
  have hpos : 0 < (doubleMin c.n).val := habs ▸ abs_val_pos hwf hmin
  simp only [toF64, hf, reduceCtorEq, if_false]
  cases hz : v.isZero with
  | true => rw [if_pos rfl, if_pos (by rwa [abs_val_of_isZero hv hz])]
  | false =>
    have hneg : (formatValue v 18).neg = v.neg := by simp [formatValue, hf, hz]
    simp only [Bool.false_eq_true, if_false, magCmp_doubleMin hc hv hf, magCmp_doubleMax hc hv hf hz, hneg]

end

/-- Settles O33. -/
theorem Machine.toF64Ranges : Obligations.ToF64Ranges := by
  intro s d src hs
  refine ⟨_, rfl, onlyX_writeX s d _, ?_⟩
  intro v inf
  rw [readX_writeX_same]
  have hpath (hf : v.cls = .fin) := toF64_of_fin hs.valid (hs.values src) hf
  refine ⟨fun hk => if_pos hk, fun hk => ?_, fun hf hlt => ?_, fun hf hgt => ?_, fun hf hlo hhi => ?_⟩
  · have hne : ¬ v.cls = .nan := by rw [hk]; decide
    exact (if_neg hne).trans (if_pos hk)
  · exact (hpath hf).trans (if_pos hlt)
  · obtain ⟨-, -, habs, hmin⟩ := doubleMin_spec hs.valid
    have hge : ¬ |v.val| < (doubleMin s.cfg.n).val := by
      have hone := (doubleMax_bounds hs.valid).1
      rw [← habs]
      exact not_lt.mpr ((hmin.trans hone).trans hgt.le)
    exact (hpath hf).trans ((if_neg hge).trans (if_pos hgt))
  · exact (hpath hf).trans ((if_neg hlo.not_gt).trans (if_neg hhi.not_gt))

end Sys2Proof

/-! PROOF. The reference `DecToF64` rounds to the nearest binary64 number (spec/48_conversions.md R266): in units of the
last place of the result every other number is an integer or lies below the result's binade. -/

namespace Sys2Proof

open Machine

/-! ### Rounding a quotient (R266) -/

theorem div_eq_quotient_add_fraction (num : Nat) {den : Nat} (hden : 0 < den) :
    (num : ℚ) / den = (num / den : Nat) + (num % den : Nat) / (den : ℚ) := by
  have hd : (den : ℚ) ≠ 0 := by exact_mod_cast hden.ne'
  have h : (num : ℚ) = den * (num / den : Nat) + (num % den : Nat) := by exact_mod_cast (Nat.div_add_mod num den).symm
  rw [div_eq_iff hd, add_mul, div_mul_cancel₀ _ hd, mul_comm, ← h]

/-- `roundHalfEven` is within one half of the quotient, and even at one half. -/
theorem roundHalfEven_spec (num : Nat) {den : Nat} (hden : 0 < den) :
    |(roundHalfEven num den : ℚ) - num / den| ≤ 1 / 2 ∧
      (|(roundHalfEven num den : ℚ) - num / den| = 1 / 2 → roundHalfEven num den % 2 = 0) := by
  have hd : (0 : ℚ) < den := by exact_mod_cast hden
  have hr : ((num % den : Nat) : ℚ) < den := by exact_mod_cast Nat.mod_lt num hden
  rw [div_eq_quotient_add_fraction num hden]
  obtain ⟨f, hf⟩ : ∃ f : ℚ, f = (num % den : Nat) / (den : ℚ) := ⟨_, rfl⟩
  have hmul : f * den = (num % den : Nat) := by rw [hf, div_mul_cancel₀ _ hd.ne']
  have hf0 : 0 ≤ f := by rw [hf]; positivity
  have hf1 : f < 1 := by rw [hf, div_lt_one hd]; exact hr
  rw [← hf]
  unfold roundHalfEven
  dsimp only
  split_ifs with hlow hhigh heven
  · have hlow' : (2 * (num % den : Nat) : ℚ) < den := by exact_mod_cast hlow
    have hlt : f < 1 / 2 := by nlinarith
    rw [show ((num / den : Nat) : ℚ) - ((num / den : Nat) + f) = -f by ring, abs_neg, abs_of_nonneg hf0]
    exact ⟨hlt.le, fun h => absurd h hlt.ne⟩
  · have hhigh' : (den : ℚ) < 2 * (num % den : Nat) := by exact_mod_cast hhigh
    have hgt : 1 / 2 < f := by nlinarith
    rw [show ((num / den + 1 : Nat) : ℚ) - ((num / den : Nat) + f) = 1 - f by push_cast; ring, abs_of_nonneg (by linarith)]
    exact ⟨by linarith, fun h => by linarith⟩
  all_goals
    have hmid : (2 * (num % den : Nat) : ℚ) = den := by exact_mod_cast (le_antisymm (not_lt.mp hhigh) (not_lt.mp hlow))
    have hhalf : f = 1 / 2 := by
      have : (2 * f - 1) * den = 0 := by linarith
      have := (mul_eq_zero.mp this).resolve_right hd.ne'
      linarith
  · refine ⟨?_, fun _ => heven⟩
    rw [hhalf, sub_add_cancel_left, abs_neg]
    exact (abs_of_pos (by norm_num)).le
  · refine ⟨?_, fun _ => by omega⟩
    rw [hhalf, show ((num / den + 1 : Nat) : ℚ) - ((num / den : Nat) + 1 / 2) = 1 / 2 by push_cast; ring]
    exact (abs_of_pos (by norm_num)).le

/-- A number rounded to `M` is nearer to `M` than to any other integer, or the tie rule decided. -/
theorem nearest_int {t : ℚ} {M : Int} (hM : |(M : ℚ) - t| ≤ 1 / 2) (j : Int) :
    |(M : ℚ) - t| ≤ |(j : ℚ) - t| ∧ (|(M : ℚ) - t| = |(j : ℚ) - t| → j ≠ M → |(M : ℚ) - t| = 1 / 2) := by
  by_cases hj : j = M
  · subst hj; exact ⟨le_refl _, fun _ h => absurd rfl h⟩
  · have hone : (1 : ℚ) ≤ |(j : ℚ) - M| := by
      have h : 1 ≤ |j - M| := Int.one_le_abs (sub_ne_zero.mpr hj)
      exact_mod_cast h
    have htri : |(j : ℚ) - M| ≤ |(j : ℚ) - t| + |(M : ℚ) - t| := by
      rw [abs_sub_comm (M : ℚ) t]; exact abs_sub_le _ _ _
    exact ⟨by linarith, fun heq _ => by linarith⟩

/-- The same against numbers that are integers or lie below an integer not above `t`. -/
theorem nearest_of_int_or_below {t y : ℚ} {M k : Int} (hM : |(M : ℚ) - t| ≤ 1 / 2)
    (hy : (∃ j : Int, y = j) ∨ (y < k ∧ (k : ℚ) ≤ t)) :
    |(M : ℚ) - t| ≤ |y - t| ∧ (|(M : ℚ) - t| = |y - t| → y ≠ M → |(M : ℚ) - t| = 1 / 2) := by
  obtain ⟨j, rfl⟩ | ⟨hlt, hle⟩ := hy
  · obtain ⟨h1, h2⟩ := nearest_int hM j
    exact ⟨h1, fun heq hne => h2 heq fun h => hne (by rw [h])⟩
  · have hk := (nearest_int hM k).1
    rw [abs_sub_comm (k : ℚ) t, abs_of_nonneg (sub_nonneg.mpr hle)] at hk
    have hy : |y - t| = t - y := by rw [abs_sub_comm, abs_of_pos (by linarith)]
    rw [hy]
    exact ⟨by linarith, fun heq _ => by linarith⟩

/-! ### The binade of a quotient -/

/-- A power of two with an integer exponent, as a quotient of naturals. -/
theorem two_zpow_eq_div (l : Int) : (2 : ℚ) ^ l = (2 ^ l.toNat : Nat) / (2 ^ (-l).toNat : Nat) := by
  obtain h | h := le_total 0 l
  · rw [show (-l).toNat = 0 by omega]
    conv_lhs => rw [← Int.toNat_of_nonneg h, zpow_natCast]
    push_cast; simp
  · rw [show l.toNat = 0 by omega]
    conv_lhs => rw [show l = -((-l).toNat : Int) by omega, zpow_neg, zpow_natCast]
    push_cast; simp

theorem log2_bounds {m : Nat} (hm : m ≠ 0) :
    (2 : ℚ) ^ (Nat.log2 m : Int) ≤ m ∧ (m : ℚ) < (2 : ℚ) ^ ((Nat.log2 m : Int) + 1) := by
  have h1 : 2 ^ Nat.log2 m ≤ m := Nat.log2_self_le hm
  have h2 : m < 2 ^ (Nat.log2 m + 1) := Nat.lt_log2_self
  rw [zpow_natCast]
  exact ⟨by exact_mod_cast h1, by exact_mod_cast h2⟩

/-- `log2Floor` is the binade of a positive quotient. -/
theorem log2Floor_spec {num den : Nat} (hnum : num ≠ 0) (hden : den ≠ 0) :
    (2 : ℚ) ^ log2Floor num den ≤ (num : ℚ) / den ∧ (num : ℚ) / den < (2 : ℚ) ^ (log2Floor num den + 1) := by
  obtain ⟨n1, n2⟩ := log2_bounds hnum
  obtain ⟨d1, d2⟩ := log2_bounds hden
  have hd : (0 : ℚ) < den := by exact_mod_cast Nat.pos_of_ne_zero hden
  obtain ⟨l, hl⟩ : ∃ l : Int, l = (Nat.log2 num : Int) - Nat.log2 den := ⟨_, rfl⟩
  have htest : den * 2 ^ l.toNat ≤ num * 2 ^ (-l).toNat ↔ (2 : ℚ) ^ l ≤ (num : ℚ) / den := by
    have hp : (0 : ℚ) < (2 ^ (-l).toNat : Nat) := by positivity
    rw [two_zpow_eq_div, div_le_div_iff₀ hp hd, mul_comm den]
    exact_mod_cast Iff.rfl
  have hhigh : (num : ℚ) / den < (2 : ℚ) ^ (l + 1) := by
    rw [div_lt_iff₀ hd]
    calc (num : ℚ) < (2 : ℚ) ^ ((Nat.log2 num : Int) + 1) := n2
      _ = (2 : ℚ) ^ (l + 1) * (2 : ℚ) ^ (Nat.log2 den : Int) := by rw [← zpow_add₀ (by norm_num)]; congr 1; omega
      _ ≤ (2 : ℚ) ^ (l + 1) * den := mul_le_mul_of_nonneg_left d1 (zpow_pos (by norm_num) _).le
  have hlow : (2 : ℚ) ^ (l - 1) ≤ (num : ℚ) / den := by
    rw [le_div_iff₀ hd]
    calc (2 : ℚ) ^ (l - 1) * den
      _ ≤ (2 : ℚ) ^ (l - 1) * (2 : ℚ) ^ ((Nat.log2 den : Int) + 1) :=
        mul_le_mul_of_nonneg_left d2.le (zpow_pos (by norm_num) _).le
      _ = (2 : ℚ) ^ (Nat.log2 num : Int) := by rw [← zpow_add₀ (by norm_num)]; congr 1; omega
      _ ≤ num := n1
  unfold log2Floor
  dsimp only
  rw [← hl]
  split
  · next h => exact ⟨htest.mp h, hhigh⟩
  · next h => exact ⟨hlow, by rw [sub_add_cancel]; exact not_le.mp (mt htest.mpr h)⟩

/-! ### The bits of a significand and a scale (R267) -/

/-- The pattern of a sign and the magnitude bits `B`. -/
def signedPattern (neg : Bool) (B : Nat) : XWord := BitVec.ofNat 64 ((if neg then 2 ^ 63 else 0) + B)

theorem signedPattern_fields (neg : Bool) {B : Nat} (hB : B < 2 ^ 63) :
    (signedPattern neg B).getLsbD 63 = neg ∧ binary64Exponent (signedPattern neg B) = B / 2 ^ 52 ∧
      binary64Fraction (signedPattern neg B) = B % 2 ^ 52 := by
  have hnat : (signedPattern neg B).toNat = (if neg then 2 ^ 63 else 0) + B := by
    rw [signedPattern, BitVec.toNat_ofNat]
    exact Nat.mod_eq_of_lt (by split <;> omega)
  refine ⟨?_, ?_, ?_⟩
  · rw [BitVec.getLsbD, hnat, Nat.testBit_eq_decide_div_mod_eq]
    cases neg with
    | false => exact decide_eq_false (by rw [if_neg Bool.false_ne_true]; omega)
    | true => exact decide_eq_true (by rw [if_pos rfl]; omega)
  · rw [binary64Exponent, BitVec.extractLsb'_toNat, hnat, Nat.shiftRight_eq_div_pow]
    split <;> omega
  · rw [binary64Fraction, BitVec.extractLsb'_toNat, hnat, Nat.shiftRight_zero]
    split <;> omega

/-- The number of a significand `M` and a scale `2^(X - 1074)`: a significand of 53 bits, or a subnormal one. -/
theorem binary64Val_signedPattern (neg : Bool) {X M : Nat} (hM : M ≤ 2 ^ 53) (hX : 2 ^ 52 ≤ M ∨ X = 0)
    (hB : X * 2 ^ 52 + M < 2 ^ 63) :
    binary64Val (signedPattern neg (X * 2 ^ 52 + M)) = M * (2 : ℚ) ^ ((X : Int) - 1074) := by
  obtain ⟨-, hexp, hfrac⟩ := signedPattern_fields neg hB
  rw [binary64Val_eq, hexp, hfrac]
  by_cases hsub : M < 2 ^ 52
  · obtain rfl := hX.resolve_left (not_le.mpr hsub)
    rw [if_pos (by omega), show (0 * 2 ^ 52 + M) % 2 ^ 52 = M by omega]
    rfl
  · rw [if_neg (by omega)]
    by_cases htop : M = 2 ^ 53
    · rw [htop, show (X * 2 ^ 52 + 2 ^ 53) / 2 ^ 52 = X + 2 by omega, show (X * 2 ^ 52 + 2 ^ 53) % 2 ^ 52 = 0 by omega,
        show (((X + 2 : Nat) : Int) - 1075) = 1 + ((X : Int) - 1074) by push_cast; ring, zpow_add₀ (by norm_num)]
      push_cast; ring
    · rw [show (X * 2 ^ 52 + M) / 2 ^ 52 = X + 1 by omega, show (X * 2 ^ 52 + M) % 2 ^ 52 = M - 2 ^ 52 by omega,
        show (((X + 1 : Nat) : Int) - 1075) = (X : Int) - 1074 by push_cast; ring, Nat.cast_sub (by omega)]
      push_cast; ring

/-- A finite binary64 number in units of `2^x`: an integer, or below `2^52`. -/
theorem binary64Val_in_units (b : XWord) {x : Int} (hx : -1074 ≤ x) :
    (∃ j : Int, binary64Val b / (2 : ℚ) ^ x = j) ∨ (binary64Val b / (2 : ℚ) ^ x < 2 ^ 52 ∧ -1074 < x) := by
  obtain ⟨hfrac, hexp⟩ := binary64_fields b
  have hm : (binary64Magnitude b).1 < 2 ^ 53 := by unfold binary64Magnitude; split_ifs <;> omega
  have hk : -1074 ≤ (binary64Magnitude b).2 := by unfold binary64Magnitude; split_ifs <;> omega
  have hunit : binary64Val b / (2 : ℚ) ^ x = (binary64Magnitude b).1 * (2 : ℚ) ^ ((binary64Magnitude b).2 - x) := by
    rw [binary64Val, mul_div_assoc, ← zpow_sub₀ (by norm_num)]
  rw [hunit]
  generalize (binary64Magnitude b).1 = m at *
  generalize (binary64Magnitude b).2 = k at *
  by_cases hle : x ≤ k
  · refine .inl ⟨m * 2 ^ (k - x).toNat, ?_⟩
    conv_lhs => rw [← Int.toNat_of_nonneg (sub_nonneg.mpr hle), zpow_natCast]
    push_cast; rfl
  · refine .inr ⟨?_, by omega⟩
    have hm' : (m : ℚ) < 2 ^ 53 := by exact_mod_cast hm
    calc (m : ℚ) * (2 : ℚ) ^ (k - x)
      _ ≤ m * (2 : ℚ) ^ (-1 : Int) :=
        mul_le_mul_of_nonneg_left (zpow_le_zpow_right₀ (by norm_num) (by omega)) (Nat.cast_nonneg m)
      _ < 2 ^ 53 * (2 : ℚ) ^ (-1 : Int) := mul_lt_mul_of_pos_right hm' (by positivity)
      _ = 2 ^ 52 := by norm_num

/-! ### The rounded significand (R266) -/

/-- The exponent of the last place that `nearestBinary64` rounds to. -/
def roundScale (num den : Nat) : Int := max (log2Floor num den - 52) (-1074)

/-- The significand that `nearestBinary64` rounds to. -/
def roundSignificand (num den : Nat) : Nat :=
  roundHalfEven (num * 2 ^ (-roundScale num den).toNat) (den * 2 ^ (roundScale num den).toNat)

theorem nearestBinary64_eq {num : Nat} (den : Nat) (hnum : num ≠ 0) :
    nearestBinary64 num den =
      min ((roundScale num den + 1074).toNat * 2 ^ 52 + roundSignificand num den) (0x7FF * 2 ^ 52) := if_neg hnum

section
variable {num den : Nat} (hnum : num ≠ 0) (hden : den ≠ 0)
include hnum hden

theorem roundScale_spec :
    -1074 ≤ roundScale num den ∧ (num : ℚ) / den / (2 : ℚ) ^ roundScale num den < 2 ^ 53 ∧
      (2 ^ 52 ≤ (num : ℚ) / den / (2 : ℚ) ^ roundScale num den ∨ roundScale num den = -1074) := by
  obtain ⟨hlo, hhi⟩ := log2Floor_spec hnum hden
  have hmax : log2Floor num den - 52 ≤ roundScale num den := le_max_left _ _
  have hpos : (0 : ℚ) < (2 : ℚ) ^ roundScale num den := zpow_pos (by norm_num) _
  refine ⟨le_max_right _ _, ?_, ?_⟩
  · rw [div_lt_iff₀ hpos]
    calc (num : ℚ) / den < (2 : ℚ) ^ (log2Floor num den + 1) := hhi
      _ ≤ (2 : ℚ) ^ (53 + roundScale num den) := zpow_le_zpow_right₀ (by norm_num) (by omega)
      _ = 2 ^ 53 * (2 : ℚ) ^ roundScale num den := by rw [zpow_add₀ (by norm_num)]; norm_num
  · by_cases h : roundScale num den = -1074
    · exact .inr h
    · have heq : roundScale num den = log2Floor num den - 52 := by unfold roundScale at h ⊢; omega
      refine .inl ?_
      rw [le_div_iff₀ hpos]
      calc (2 ^ 52 : ℚ) * (2 : ℚ) ^ roundScale num den
        _ = (2 : ℚ) ^ log2Floor num den := by
          rw [heq, zpow_sub₀ (by norm_num)]; norm_num
          ring
        _ ≤ (num : ℚ) / den := hlo

omit hnum in
theorem roundSignificand_spec :
    |(roundSignificand num den : ℚ) - (num : ℚ) / den / (2 : ℚ) ^ roundScale num den| ≤ 1 / 2 ∧
      (|(roundSignificand num den : ℚ) - (num : ℚ) / den / (2 : ℚ) ^ roundScale num den| = 1 / 2 →
        roundSignificand num den % 2 = 0) := by
  have hquot : (num : ℚ) / den / (2 : ℚ) ^ roundScale num den =
      (num * 2 ^ (-roundScale num den).toNat : Nat) / (den * 2 ^ (roundScale num den).toNat : Nat) := by
    rw [two_zpow_eq_div, div_div_eq_mul_div, div_mul_eq_mul_div, div_div]
    push_cast; rfl
  rw [hquot]
  exact roundHalfEven_spec _ (Nat.mul_pos (Nat.pos_of_ne_zero hden) (by positivity))

theorem roundSignificand_bounds :
    roundSignificand num den ≤ 2 ^ 53 ∧ (2 ^ 52 ≤ roundSignificand num den ∨ (roundScale num den + 1074).toNat = 0) := by
  obtain ⟨-, hhi, hlo⟩ := roundScale_spec hnum hden
  obtain ⟨h1, h2⟩ := abs_le.mp (roundSignificand_spec (num := num) hden).1
  constructor
  · have hlt : (roundSignificand num den : ℚ) < (2 ^ 53 + 1 : Nat) := by push_cast; linarith
    exact Nat.lt_succ_iff.mp (by exact_mod_cast hlt)
  · refine hlo.imp (fun h => ?_) fun h => by rw [h]; rfl
    have hlt : ((2 ^ 52 : Nat) : ℚ) < (roundSignificand num den + 1 : Nat) := by push_cast; linarith
    exact Nat.lt_succ_iff.mp (by exact_mod_cast hlt)

omit hnum hden in
/-- The number from which on the nearest number is the infinity, in units of `2^971`. -/
theorem overflow_threshold : (2 ^ 1024 - 2 ^ 970 : ℚ) = (2 ^ 53 - 1 / 2) * (2 : ℚ) ^ (971 : Int) := by
  have h971 : (2 : ℚ) ^ (971 : Int) = 2 ^ 970 * 2 := by rw [← pow_succ]; exact zpow_natCast _ _
  have h1024 : (2 : ℚ) ^ 1024 = 2 ^ 970 * 2 ^ 54 := by rw [← pow_add]
  rw [h971, h1024]
  ring

/-- The rounded pattern reaches the infinity exactly from `2^1024 - 2^970` on. -/
theorem overflows_iff :
    0x7FF * 2 ^ 52 ≤ (roundScale num den + 1074).toNat * 2 ^ 52 + roundSignificand num den ↔
      (2 ^ 1024 - 2 ^ 970 : ℚ) ≤ (num : ℚ) / den := by
  obtain ⟨hmin, hhi, hlo⟩ := roundScale_spec hnum hden
  obtain ⟨hnear, htie⟩ := roundSignificand_spec (num := num) hden
  obtain ⟨htop, hnormal⟩ := roundSignificand_bounds hnum hden
  obtain ⟨h1, h2⟩ := abs_le.mp hnear
  have hpos : (0 : ℚ) < (2 : ℚ) ^ roundScale num den := zpow_pos (by norm_num) _
  have hunit : (0 : ℚ) < (2 : ℚ) ^ (971 : Int) := zpow_pos (by norm_num) _
  have hq : (num : ℚ) / den = (num : ℚ) / den / (2 : ℚ) ^ roundScale num den * (2 : ℚ) ^ roundScale num den :=
    (div_mul_cancel₀ _ hpos.ne').symm
  rw [overflow_threshold]
  obtain hx | hx | hx := lt_trichotomy (roundScale num den) 971
  · refine iff_of_false (by omega) (not_le.mpr ?_)
    calc (num : ℚ) / den < 2 ^ 53 * (2 : ℚ) ^ roundScale num den := (div_lt_iff₀ hpos).mp hhi
      _ ≤ 2 ^ 53 * (2 : ℚ) ^ (970 : Int) :=
        mul_le_mul_of_nonneg_left (zpow_le_zpow_right₀ (by norm_num) (by omega)) (by positivity)
      _ = 2 ^ 53 / 2 * (2 : ℚ) ^ (971 : Int) := by
        rw [show (971 : Int) = 970 + 1 by norm_num, zpow_add_one₀ (by norm_num)]; ring
      _ ≤ (2 ^ 53 - 1 / 2) * (2 : ℚ) ^ (971 : Int) := mul_le_mul_of_nonneg_right (by norm_num) hunit.le
  · rw [hx] at hnear htie h1 h2 ⊢
    rw [← le_div_iff₀ hunit]
    constructor
    · intro h
      have hM : roundSignificand num den = 2 ^ 53 := by omega
      rw [hM] at h2
      push_cast at h2
      linarith
    · intro h
      have hgt : ((2 ^ 53 : Nat) : ℚ) < (roundSignificand num den + 2 : Nat) := by push_cast; linarith
      have hgt' : 2 ^ 53 < roundSignificand num den + 2 := by exact_mod_cast hgt
      have hodd : roundSignificand num den ≠ 2 ^ 53 - 1 := by
        intro hM
        rw [hM] at h1 htie
        have hcast : ((2 ^ 53 - 1 : Nat) : ℚ) = 2 ^ 53 - 1 := by norm_num
        rw [hcast] at h1 htie
        have hmid : (num : ℚ) / den / (2 : ℚ) ^ (971 : Int) = 2 ^ 53 - 1 / 2 := le_antisymm (by linarith) h
        have heven := htie (by rw [hmid]; norm_num)
        norm_num at heven
      omega
  · have hnorm := hlo.resolve_right (by omega)
    have hM := hnormal.resolve_right (by omega)
    refine iff_of_true (by omega) ?_
    calc (2 ^ 53 - 1 / 2) * (2 : ℚ) ^ (971 : Int)
      _ ≤ 2 ^ 53 * (2 : ℚ) ^ (971 : Int) := mul_le_mul_of_nonneg_right (by norm_num) hunit.le
      _ = 2 ^ 52 * (2 : ℚ) ^ (972 : Int) := by
        rw [show (972 : Int) = 971 + 1 by norm_num, zpow_add_one₀ (by norm_num)]; ring
      _ ≤ 2 ^ 52 * (2 : ℚ) ^ roundScale num den :=
        mul_le_mul_of_nonneg_left (zpow_le_zpow_right₀ (by norm_num) (by omega)) (by positivity)
      _ ≤ (num : ℚ) / den := (le_div_iff₀ hpos).mp hnorm

/-- Below the threshold the rounded pattern is a nearest finite number, ties to the even significand (R266). -/
theorem signedPattern_nearest (neg : Bool) (hlt : (num : ℚ) / den < 2 ^ 1024 - 2 ^ 970) :
    FiniteBinary64 (signedPattern neg (nearestBinary64 num den)) ∧ ∀ b', FiniteBinary64 b' →
      |binary64Val (signedPattern neg (nearestBinary64 num den)) - num / den| ≤ |binary64Val b' - num / den| ∧
      (|binary64Val (signedPattern neg (nearestBinary64 num den)) - num / den| = |binary64Val b' - num / den| →
        binary64Val b' ≠ binary64Val (signedPattern neg (nearestBinary64 num den)) →
        binary64Fraction (signedPattern neg (nearestBinary64 num den)) % 2 = 0) := by
  obtain ⟨hmin, -, hlo⟩ := roundScale_spec hnum hden
  obtain ⟨hnear, htie⟩ := roundSignificand_spec (num := num) hden
  obtain ⟨htop, hnormal⟩ := roundSignificand_bounds hnum hden
  have hfinite := not_le.mp (mt (overflows_iff hnum hden).mp (not_le.mpr hlt))
  obtain ⟨-, hexp, hfrac⟩ := signedPattern_fields neg (B := nearestBinary64 num den)
    (by rw [nearestBinary64_eq den hnum]; omega)
  have hval : binary64Val (signedPattern neg (nearestBinary64 num den)) =
      roundSignificand num den * (2 : ℚ) ^ roundScale num den := by
    rw [nearestBinary64_eq den hnum, min_eq_left hfinite.le, binary64Val_signedPattern neg htop hnormal (by omega),
      Int.toNat_of_nonneg (by omega), add_sub_cancel_right]
  rw [nearestBinary64_eq den hnum, min_eq_left hfinite.le] at hexp hfrac
  have hpos : (0 : ℚ) < (2 : ℚ) ^ roundScale num den := zpow_pos (by norm_num) _
  -- every distance to the quotient, in units of the last place
  have scaled (y : ℚ) : |y - num / den| = |y / (2 : ℚ) ^ roundScale num den - num / den / (2 : ℚ) ^ roundScale num den| *
      (2 : ℚ) ^ roundScale num den := by
    rw [← sub_div, abs_div, abs_of_pos hpos, div_mul_cancel₀ _ hpos.ne']
  refine ⟨?_, fun b' _ => ?_⟩
  · rw [FiniteBinary64, nearestBinary64_eq den hnum, min_eq_left hfinite.le, hexp]
    omega
  · have hunits : (∃ j : Int, binary64Val b' / (2 : ℚ) ^ roundScale num den = j) ∨
        (binary64Val b' / (2 : ℚ) ^ roundScale num den < ((2 ^ 52 : Int) : ℚ) ∧
          ((2 ^ 52 : Int) : ℚ) ≤ (num : ℚ) / den / (2 : ℚ) ^ roundScale num den) := by
      refine (binary64Val_in_units b' hmin).imp id fun ⟨h, hx⟩ => ?_
      push_cast
      exact ⟨h, hlo.resolve_right (by omega)⟩
    obtain ⟨hle, heq⟩ := nearest_of_int_or_below (M := roundSignificand num den) (by exact_mod_cast hnear) hunits
    rw [Int.cast_natCast] at hle heq
    rw [scaled (binary64Val b'), scaled (binary64Val _), hval, mul_div_cancel_right₀ _ hpos.ne']
    refine ⟨mul_le_mul_of_nonneg_right hle hpos.le, fun hdist hne => ?_⟩
    have heven := htie (heq (mul_right_cancel₀ hpos.ne' hdist) fun h => hne ?_)
    · rw [nearestBinary64_eq den hnum, min_eq_left hfinite.le, hfrac]
      omega
    · rw [← h, div_mul_cancel₀ _ hpos.ne']

end

/-! ### The number of a digit string -/

theorem takeDigits_map_digitChar {ds : List Nat} (h : ∀ d ∈ ds, d < 10) : (takeDigits (ds.map digitChar)).1 = ds := by
  have htake := takeDigits_append (rest := []) h nofun
  rw [List.append_nil] at htake
  rw [htake]

/-- `DecToF64` of a digit string rounds the number that the string and the exponent write (R266). -/
theorem decToF64Reference_eq (neg : Bool) {ds : List Nat} (h : ∀ d ∈ ds, d < 10) (e : Int) :
    ∃ num den : Nat, den ≠ 0 ∧ (num : ℚ) / den = digitsValue ds * (10 : ℚ) ^ (e - ds.length + 1) ∧
      decToF64Reference neg (ds.map digitChar) e = signedPattern neg (nearestBinary64 num den) := by
  refine ⟨digitsValue ds * 10 ^ (e - ds.length + 1).toNat, 10 ^ (-(e - ds.length + 1)).toNat, by positivity, ?_, ?_⟩
  · obtain ⟨k, hk⟩ : ∃ k : Int, k = e - ds.length + 1 := ⟨_, rfl⟩
    rw [← hk]
    obtain hpos | hneg := le_total 0 k
    · rw [show (-k).toNat = 0 by omega]
      conv_rhs => rw [← Int.toNat_of_nonneg hpos, zpow_natCast]
      push_cast; simp
    · rw [show k.toNat = 0 by omega]
      conv_rhs => rw [show k = -((-k).toNat : Int) by omega, zpow_neg, zpow_natCast]
      push_cast; simp [div_eq_mul_inv]
  · rw [decToF64Reference, takeDigits_map_digitChar h, List.length_map]
    rfl

/-- Settles O34. -/
theorem Machine.decToF64IsNearest : Obligations.DecToF64IsNearest := by
  intro neg ds e hds q b hq
  obtain ⟨num, den, hden, hquot, hb⟩ := decToF64Reference_eq neg hds e
  have hnum : num ≠ 0 := by
    rintro rfl
    rw [Nat.cast_zero, zero_div] at hquot
    exact hq.ne hquot
  have hbits : nearestBinary64 num den < 2 ^ 63 := by rw [nearestBinary64_eq den hnum]; omega
  obtain ⟨hsign, hexp, hfrac⟩ := signedPattern_fields neg hbits
  have hbq : b = signedPattern neg (nearestBinary64 num den) := hb
  have hqq : q = (num : ℚ) / den := hquot.symm
  rw [hbq, hqq]
  refine ⟨hsign, fun hge => ?_, signedPattern_nearest hnum hden neg⟩
  have hover := (overflows_iff hnum hden).mpr hge
  rw [hexp, hfrac, nearestBinary64_eq den hnum, min_eq_right hover]
  exact ⟨rfl, rfl⟩

end Sys2Proof

/-! PROOF. `PARSE` and the records that `FORMAT` leaves (spec/46_parse.md R220 to R227, spec/47_format.md R240 to R248). -/

namespace Sys2Proof.Machine

/-! ### `PARSE` -/

theorem onlyD_afterRead_writeD (s : State) (len : Nat) (d : DReg) (v : DValue) :
    OnlyD d s ((s.afterRead 0 len).writeD d v) := by
  obtain ⟨hd, hx, hflags, ⟨htlen, hfexp, hfinfo⟩, htext, hdsel, hcfg, hbusy, hpending, hport⟩ := afterRead_same s 0 len
  exact ⟨fun r hr => (readD_writeD_other _ v hr).trans (hd r), hx, hflags, ⟨htlen, hfexp, hfinfo⟩, htext,
    hdsel, hcfg, hbusy, hpending, hport⟩

theorem onlyFlags_afterRead_raise (s : State) (len : Nat) (f : Flag) : OnlyFlags s ((s.afterRead 0 len).raise f) := by
  obtain ⟨hd, hx, -, hrecord, htext, hport⟩ := afterRead_same s 0 len
  exact ⟨hd, hx, hrecord, htext, hport⟩

section
variable {s : State} (hinv : s.Inv)
include hinv

theorem exec_parse_value (d : DReg) {v : DValue} (h : parseText s.cfg (s.readBytes 0 s.tlen.toNat) = some v) :
    ∃ t, exec (.parse d) s = .next t ∧ OnlyD d s t ∧ t.readD d = v := by
  refine ⟨_, ?_, onlyD_afterRead_writeD s s.tlen.toNat d v, by simp⟩
  show execParse d s = _
  rw [execParse, if_neg (not_lt.mpr hinv.tlen), h]

theorem exec_parse_error (d : DReg) (h : parseText s.cfg (s.readBytes 0 s.tlen.toNat) = none) :
    exec (.parse d) s = .next ((s.afterRead 0 s.tlen.toNat).raise .perr) := by
  show execParse d s = _
  rw [execParse, if_neg (not_lt.mpr hinv.tlen), h]
  rfl

end

/-- Settles O56. -/
theorem parseNumbers : Obligations.ParseNumbers := by
  intro s d p hinv htext
  obtain ⟨t, hexec, honly, hv⟩ := exec_parse_value hinv d (parseText_of_number htext)
  exact ⟨t, hexec, honly, hv ▸ numberValue_truncates hinv.valid htext.digits_lt⟩

/-- Settles O57. -/
theorem parseSpecialsAndErrors : Obligations.ParseSpecialsAndErrors := by
  refine ⟨fun s d v hinv htext => ?_, fun s d hinv hnumber hspecial => ?_⟩
  · obtain ⟨t, hexec, honly, hv⟩ := exec_parse_value hinv d (parseText_of_special htext)
    exact ⟨t, hexec, hv, honly⟩
  · obtain ⟨-, -, hflags, -⟩ := afterRead_same s 0 s.tlen.toNat
    refine ⟨_, exec_parse_error hinv d (parseText_eq_none_iff.mpr ⟨hnumber, hspecial⟩), onlyFlags_afterRead_raise _ _ _, ?_⟩
    show ({ (s.afterRead 0 s.tlen.toNat).flags with perr := true } : Flags) = _
    rw [hflags]

/-! ### The record in the registers (R47, R240) -/

theorem finfoWord_fields {r : FormatRecord} (style : Style) (h : r.text.length < 2 ^ 16) :
    ((finfoWord r style).extractLsb' 0 16).toNat = r.text.length ∧ (finfoWord r style).getLsbD 16 = r.neg ∧
      ((finfoWord r style).extractLsb' 17 2).toNat = r.cls.code ∧
      (finfoWord r style).getLsbD 19 = decide (style = .fix) := by
  have hcls := Cls.code_lt r.cls
  have hneg := Bool.toNat_lt r.neg
  have hword : (finfoWord r style).toNat =
      (((bitOfStyle style).toNat * 4 + r.cls.code) * 2 + r.neg.toNat) * 2 ^ 16 + r.text.length := by
    rw [finfoWord, toNat_append_eq, toNat_append_eq, toNat_append_eq, BitVec.toNat_ofBool, BitVec.toNat_ofNat,
      BitVec.toNat_ofNat, Nat.mod_eq_of_lt h, Nat.mod_eq_of_lt (show r.cls.code < 2 ^ 2 by omega)]
    rfl
  refine ⟨?_, ?_, ?_, ?_⟩
  · rw [BitVec.extractLsb'_toNat, hword, Nat.shiftRight_zero]
    omega
  · rw [BitVec.getLsbD, hword, Nat.testBit_eq_decide_div_mod_eq]
    cases r.neg <;> simp <;> omega
  · rw [BitVec.extractLsb'_toNat, hword, Nat.shiftRight_eq_div_pow]
    omega
  · rw [BitVec.getLsbD, hword, Nat.testBit_eq_decide_div_mod_eq]
    cases style <;> simp [bitOfStyle] <;> omega

/-- What a state shows of a record that was handed off (R240). -/
theorem handOff_spec {s : State} (hinv : s.Inv) {r : FormatRecord} (style : Style) (h : r.text.length < 2 ^ 16) :
    OnlyRecord r.text.length s (s.handOff r style) ∧
      (∀ j < r.text.length, (s.handOff r style).tbuf.read j = r.text[j]?) ∧
      (s.handOff r style).tlen.toNat = r.text.length := by
  have hread (a : Nat) := TextBuffer.read_writeBytes hinv.canonical 0 a r.text
  refine ⟨⟨fun _ => rfl, fun _ => rfl, rfl, fun a ha => ?_, rfl, rfl, rfl, rfl, rfl⟩, fun j hj => ?_, ?_⟩
  · exact (hread a).trans (if_neg (by omega))
  · exact (hread j).trans (if_pos (by omega))
  · rw [handOff_tlen, BitVec.toNat_ofNat, Nat.mod_eq_of_lt h]

theorem exec_format {s : State} (hinv : s.Inv) {src : DReg} {x : XReg} (style : Style) (hx : s.readX x ≠ 0) :
    (formatValue (s.readD src) (s.readX x).toNat).text.length < 2 ^ 16 ∧
      exec (.format src x style) s = .next (s.handOff (formatValue (s.readD src) (s.readX x).toNat) style) := by
  have hcount : (s.readX x).toNat ≠ 0 := fun h => hx (BitVec.eq_of_toNat_eq h)
  have hlen := formatValue_length (hinv.values src) (Nat.one_le_iff_ne_zero.mpr hcount)
  obtain ⟨-, -, -, ⟨-, -, hfits, hsmall⟩, -⟩ := hinv.valid
  refine ⟨by omega, ?_⟩
  show execFormat src x style s = _
  rw [execFormat]
  exact (if_neg hcount).trans (if_neg (by unfold State.readUnsigned; omega))

/-- The text of the record of a NaN, an infinity and zero (R245). -/
def specialRecordText : Cls → List Byte
  | .nan => nanText
  | .inf => infText
  | .fin => [0x30]

theorem formatValue_of_not_finiteNonzero {c : Config} {v : DValue} (hv : v.wf c) (h : ¬ FiniteNonzero v) (n : Nat) :
    (formatValue v n).text = specialRecordText v.cls ∧
      (formatValue v n).exp = 0 ∧ (formatValue v n).neg = v.neg ∧ (formatValue v n).cls = v.cls := by
  obtain hc | hc | hc : v.cls = .fin ∨ v.cls = .inf ∨ v.cls = .nan := by cases v.cls <;> simp
  · have hz : v.isZero = true := by
      by_contra hne
      exact h ⟨hc, Bool.eq_false_iff.mpr hne⟩
    simp [formatValue, specialRecordText, hc, hz, hv.zeroNeg hz]
  · simp [formatValue, specialRecordText, hc]
  · simp [formatValue, specialRecordText, hc, hv.nanNeg hc]

/-- Settles O58. -/
theorem formatSpecialRecords : Obligations.FormatSpecialRecords := by
  intro s src x style hinv hx hspecial
  obtain ⟨hlen, hexec⟩ := exec_format hinv (src := src) style hx
  obtain ⟨htext, hexp, hneg, hcls⟩ :=
    formatValue_of_not_finiteNonzero (hinv.values src) hspecial (s.readX x).toNat
  obtain ⟨honly, hbytes, htlen⟩ := handOff_spec hinv style hlen
  obtain ⟨hfinfoLen, hfinfoNeg, hfinfoCls, hfinfoStyle⟩ := finfoWord_fields style hlen
  refine ⟨_, hexec, ?_⟩
  rw [hneg] at hfinfoNeg
  rw [hcls] at hfinfoCls
  rw [htext] at honly hbytes htlen hfinfoLen
  exact ⟨honly, hbytes, htlen, by rw [handOff_fexp, hexp]; rfl, hfinfoLen, hfinfoNeg, hfinfoCls, hfinfoStyle⟩

end Sys2Proof.Machine

/-! PROOF. `FORMAT` of a finite non-zero value (spec/47_format.md R242 to R244): the digit string is the value in units of
its last place, and the kept digits are that number rounded half to even. -/

namespace Sys2Proof.Machine

/-! ### Adding 1 to a digit string (R244) -/

theorem incrementDigits_spec {ds : List Nat} (h : ∀ d ∈ ds, d < 10) :
    digitsValue (incrementDigits ds).1 + (if (incrementDigits ds).2 then 10 ^ ds.length else 0) = digitsValue ds + 1 ∧
      ∀ d ∈ (incrementDigits ds).1, d < 10 := by
  induction ds with
  | nil => exact ⟨rfl, nofun⟩
  | cons d ds ih =>
    obtain ⟨ihv, ihd⟩ := ih fun x hx => h x (List.mem_cons_of_mem _ hx)
    have hd : d < 10 := h d List.mem_cons_self
    have hlen := incrementDigits_length ds
    obtain ⟨r, carry, hr⟩ : ∃ r carry, incrementDigits ds = (r, carry) := ⟨_, _, rfl⟩
    rw [hr] at ihv ihd hlen
    rw [incrementDigits, hr]
    dsimp only at ihv ihd hlen ⊢
    cases carry with
    | false =>
      refine ⟨?_, List.forall_mem_cons.mpr ⟨hd, ihd⟩⟩
      simp only [Bool.false_eq_true, if_false, digitsValue_cons, hlen] at ihv ⊢
      omega
    | true =>
      by_cases hnine : d = 9
      · refine ⟨?_, by simpa [hnine] using ihd⟩
        simp only [if_true, hnine, digitsValue_cons, List.length_cons, pow_succ] at ihv ⊢
        omega
      · refine ⟨?_, by simpa [hnine] using ⟨by omega, ihd⟩⟩
        simp only [if_true, hnine, if_false, Bool.false_eq_true, digitsValue_cons, hlen, add_mul] at ihv ⊢
        omega

/-- The kept digits of a string and the rest, as a quotient and a remainder. -/
theorem digitsValue_split {ds : List Nat} (h : ∀ d ∈ ds, d < 10) (n : Nat) :
    digitsValue ds = digitsValue (ds.take n) * 10 ^ (ds.length - n) + digitsValue (ds.drop n) ∧
      digitsValue (ds.drop n) < 10 ^ (ds.length - n) := by
  have hlt := digitsValue_lt (ds := ds.drop n) fun d hd => h d (List.mem_of_mem_drop hd)
  rw [List.length_drop] at hlt
  refine ⟨?_, hlt⟩
  conv_lhs => rw [← List.take_append_drop n ds, digitsValue_append, List.length_drop]

theorem digitsValue_eq_zero_iff {ds : List Nat} : digitsValue ds = 0 ↔ ∀ d ∈ ds, d = 0 := by
  induction ds with
  | nil => simp
  | cons d ds ih =>
    rw [digitsValue_cons, Nat.add_eq_zero_iff, ih, Nat.mul_eq_zero, List.forall_mem_cons]
    simp

/-- The parity of a digit string is that of its last digit. -/
theorem digitsValue_take_mod_two {ds : List Nat} {n : Nat} (hn : 1 ≤ n) (hlen : n ≤ ds.length) :
    digitsValue (ds.take n) % 2 = ds.getD (n - 1) 0 % 2 := by
  obtain ⟨m, rfl⟩ : ∃ m, n = m + 1 := ⟨n - 1, by omega⟩
  rw [List.take_succ_eq_append_getElem (by omega), digitsValue_append, digitsValue_cons, digitsValue_nil,
    Nat.add_sub_cancel, List.getD_eq_getElem _ _ (by omega)]
  simp only [List.length_singleton, List.length_nil]
  omega

/-- Rounding half to even at a digit `cut` with `tail` of its units after it (R243). -/
theorem roundHalfEven_of_digit (kept : Nat) {cut tail unit : Nat} (hcut : cut < 10) (htail : tail < unit) :
    roundHalfEven (kept * (10 * unit) + (cut * unit + tail)) (10 * unit) =
      kept + if 6 ≤ cut ∨ (cut = 5 ∧ (kept % 2 = 1 ∨ tail ≠ 0)) then 1 else 0 := by
  have hlt : cut * unit + tail < 10 * unit := by nlinarith
  have hquot : (kept * (10 * unit) + (cut * unit + tail)) / (10 * unit) = kept := by
    rw [mul_comm, Nat.mul_add_div (by omega), Nat.div_eq_of_lt hlt, add_zero]
  have hrem : (kept * (10 * unit) + (cut * unit + tail)) % (10 * unit) = cut * unit + tail := by
    rw [mul_comm, Nat.mul_add_mod, Nat.mod_eq_of_lt hlt]
  rw [roundHalfEven, hquot, hrem]
  obtain hc | rfl | hc : cut ≤ 4 ∨ cut = 5 ∨ 6 ≤ cut := by omega
  · rw [if_pos (by nlinarith), if_neg (by omega), add_zero]
  · split_ifs <;> omega
  · rw [if_neg (by nlinarith), if_pos (by nlinarith), if_pos (.inl hc)]

/-- The rounding rule of R243 is the one of R266 on the number that the whole string writes. -/
theorem roundsUp_eq {ds : List Nat} (h : ∀ d ∈ ds, d < 10) {n : Nat} (hn : 1 ≤ n) (hlen : n < ds.length) :
    digitsValue (ds.take n) + (if roundsUp ds n then 1 else 0) =
      roundHalfEven (digitsValue ds) (10 ^ (ds.length - n)) := by
  obtain ⟨hsplit, hrest⟩ := digitsValue_split h n
  have hparity := digitsValue_take_mod_two hn hlen.le
  have hcut := h (ds[n]) (List.getElem_mem hlen)
  have htail := digitsValue_lt (ds := ds.drop (n + 1)) fun d hd => h d (List.mem_of_mem_drop hd)
  have hunit : 10 ^ (ds.length - n) = 10 * 10 ^ (ds.drop (n + 1)).length := by
    rw [← pow_succ', List.length_drop]; congr 1; omega
  have hdrop : digitsValue (ds.drop n) = ds[n] * 10 ^ (ds.drop (n + 1)).length + digitsValue (ds.drop (n + 1)) := by
    rw [List.drop_eq_getElem_cons hlen, digitsValue_cons]
  have hany : ((ds.drop (n + 1)).any (· != 0) = true) ↔ digitsValue (ds.drop (n + 1)) ≠ 0 := by
    rw [ne_eq, digitsValue_eq_zero_iff]; simp
  have hup : roundsUp ds n = true ↔ 6 ≤ ds[n] ∨ (ds[n] = 5 ∧ (digitsValue (ds.take n) % 2 = 1 ∨
      digitsValue (ds.drop (n + 1)) ≠ 0)) := by
    rw [← hany, hparity, roundsUp, List.getD_eq_getElem _ _ hlen]
    simp
  rw [hsplit, hdrop, hunit, roundHalfEven_of_digit _ hcut htail]
  exact congrArg _ (if_congr hup rfl rfl)

theorem getD_zero_ne_zero_of_le {ds : List Nat} (h : ∀ d ∈ ds, d < 10) (hlen : ds ≠ [])
    (hge : 10 ^ (ds.length - 1) ≤ digitsValue ds) : ds.getD 0 0 ≠ 0 := by
  cases ds with
  | nil => exact absurd rfl hlen
  | cons d ds =>
    rintro hz
    have hd : d = 0 := hz
    have hlt := digitsValue_lt fun x hx => h x (List.mem_cons_of_mem _ hx)
    rw [hd, digitsValue_cons, zero_mul, zero_add] at hge
    exact absurd hge (not_le.mpr hlt)

/-- The digits that `FORMAT` keeps, and the exponent of the first, against the whole string (R243, R244). -/
structure RoundedDigits (ds : List Nat) (e0 : Int) (n : Nat) (rs : List Nat) (e : Int) : Prop where
  digits : ∀ d ∈ rs, d < 10
  head : rs.getD 0 0 ≠ 0
  length : rs.length = min n ds.length
  exp : e = e0 ∨ e = e0 + 1
  whole : ds.length ≤ n → rs = ds ∧ e = e0
  rounded : n < ds.length → digitsValue rs * 10 ^ (e - e0).toNat = roundHalfEven (digitsValue ds) (10 ^ (ds.length - n))

theorem roundDigits_spec {ds : List Nat} (h : ∀ d ∈ ds, d < 10) (hhead : ds.getD 0 0 ≠ 0) (e0 : Int) {n : Nat} (hn : 1 ≤ n) :
    RoundedDigits ds e0 n (roundDigits ds e0 n).1 (roundDigits ds e0 n).2 := by
  have hlength := roundDigits_length ds e0 n hn
  by_cases hwhole : ds.length ≤ n
  · have heq : roundDigits ds e0 n = (ds, e0) := if_pos hwhole
    rw [heq] at hlength ⊢
    exact ⟨h, hhead, hlength, .inl rfl, fun _ => ⟨rfl, rfl⟩, fun hlt => absurd hwhole (not_le.mpr hlt)⟩
  have hlt : n < ds.length := not_le.mp hwhole
  have hne : ds ≠ [] := by rintro rfl; simp at hlt
  have hround := roundsUp_eq h hn hlt
  have htake : ∀ d ∈ ds.take n, d < 10 := fun d hd => h d (List.mem_of_mem_take hd)
  have htakeLen : (ds.take n).length = n := by rw [List.length_take]; omega
  have htakeHead : (ds.take n).getD 0 0 ≠ 0 := by
    obtain ⟨m, rfl⟩ : ∃ m, n = m + 1 := ⟨n - 1, by omega⟩
    cases ds with
    | nil => exact absurd rfl hne
    | cons d ds => exact hhead
  have hge := digitsValue_ge htakeHead
  have htop := digitsValue_lt htake
  obtain ⟨hincr, hincrDigits⟩ := incrementDigits_spec htake
  have hincrLen := incrementDigits_length (ds.take n)
  rw [htakeLen] at hincr hincrLen hge htop
  by_cases hup : roundsUp ds n = true
  · rw [hup, if_pos rfl] at hround
    by_cases hcarry : (incrementDigits (ds.take n)).2 = true
    · have heq : roundDigits ds e0 n = (1 :: List.replicate (n - 1) 0, e0 + 1) := by
        rw [roundDigits, if_neg hwhole, if_pos hup, if_pos hcarry]
      rw [heq] at hlength ⊢
      rw [hcarry, if_pos rfl] at hincr
      refine ⟨by simp, by simp, hlength, .inr rfl, fun hge => absurd hge hwhole, fun _ => ?_⟩
      have hpow : 10 ^ (n - 1) * 10 = 10 ^ n := by rw [← pow_succ]; congr 1; omega
      rw [← hround, digitsValue_cons, digitsValue_replicate_zero, List.length_replicate, add_sub_cancel_left]
      simp only [Int.toNat_one, pow_one, one_mul, add_zero]
      omega
    · have heq : roundDigits ds e0 n = ((incrementDigits (ds.take n)).1, e0) := by
        rw [roundDigits, if_neg hwhole, if_pos hup, if_neg hcarry]
      rw [heq] at hlength ⊢
      rw [if_neg hcarry, add_zero] at hincr
      refine ⟨hincrDigits, getD_zero_ne_zero_of_le hincrDigits ?_ (by dsimp only; rw [hincrLen]; omega), hlength, .inl rfl,
        fun hge => absurd hge hwhole, fun _ => ?_⟩
      · intro hnil
        rw [hnil] at hincrLen
        simp at hincrLen; omega
      · rw [← hround, sub_self, hincr]; simp
  · have heq : roundDigits ds e0 n = (ds.take n, e0) := by rw [roundDigits, if_neg hwhole, if_neg hup]
    rw [heq] at hlength ⊢
    rw [if_neg hup, add_zero] at hround
    refine ⟨htake, htakeHead, hlength, .inl rfl, fun hge => absurd hge hwhole, fun _ => ?_⟩
    rw [← hround, sub_self]; simp

/-! ### The digit string of a value (R242) -/

section
variable {c : Config} {v : DValue} (hc : c.Valid) (hv : v.wf c) (h : FiniteNonzero v)

include hv h in
/-- The digit string is the magnitude in units of its last digit. -/
theorem digitString_value :
    ((digitString v).length : Int) = firstDigitExponent v - v.exp + 1 + 8 * ((c.n : Int) - 1) ∧
      |v.val| = digitsValue (digitString v) * (10 : ℚ) ^ (firstDigitExponent v - (digitString v).length + 1) := by
  obtain ⟨hlen, -, -, hvalue⟩ := digitString_spec hv h.1 h.2
  have hn := c.n_ge
  have hlength : ((digitString v).length : Int) = firstDigitExponent v - v.exp + 1 + 8 * ((c.n : Int) - 1) := by
    unfold firstDigitExponent; omega
  refine ⟨hlength, ?_⟩
  rw [abs_val_eq hv.natsLength, hvalue, lastUnit, hlength]
  congr 2
  omega

include hv h in
theorem firstDigitExponent_bounds :
    (10 : ℚ) ^ firstDigitExponent v ≤ |v.val| ∧ |v.val| < (10 : ℚ) ^ (firstDigitExponent v + 1) := by
  obtain ⟨hlen, hdigits, hhead, -⟩ := digitString_spec hv h.1 h.2
  obtain ⟨hone, -⟩ := leadingDigits_spec (limb_ne_zero h.1 h.2) (hv.limbBelow 0)
  have hge := digitsValue_ge hhead
  have hlt := digitsValue_lt hdigits
  obtain ⟨k, hk⟩ : ∃ k, (digitString v).length = k + 1 := ⟨(digitString v).length - 1, by omega⟩
  have hunit := ten_zpow_pos (firstDigitExponent v - (digitString v).length + 1)
  rw [(digitString_value hv h).2]
  rw [hk] at hge hlt hunit ⊢
  constructor
  · calc (10 : ℚ) ^ firstDigitExponent v
      _ = ((10 ^ k : Nat) : ℚ) * (10 : ℚ) ^ (firstDigitExponent v - (k + 1 : Nat) + 1) := by
        rw [Nat.cast_pow, Nat.cast_ofNat, ← zpow_natCast, ← zpow_add₀ (by norm_num)]; congr 1; omega
      _ ≤ _ := mul_le_mul_of_nonneg_right (by exact_mod_cast hge) hunit.le
  · calc _ < ((10 ^ (k + 1) : Nat) : ℚ) * (10 : ℚ) ^ (firstDigitExponent v - (k + 1 : Nat) + 1) :=
        mul_lt_mul_of_pos_right (by exact_mod_cast hlt) hunit
      _ = (10 : ℚ) ^ (firstDigitExponent v + 1) := by
        rw [Nat.cast_pow, Nat.cast_ofNat, ← zpow_natCast, ← zpow_add₀ (by norm_num)]; congr 1; omega

include hc hv h in
/-- The exponent of the first digit, and the next one, fit the exponent field (R6). -/
theorem firstDigitExponent_fits : -2 ^ 63 ≤ firstDigitExponent v ∧ firstDigitExponent v + 1 < 2 ^ 63 := by
  obtain ⟨hmin, hmax⟩ := hv.expBounds h.1 h.2
  obtain ⟨hone, height, -⟩ := leadingDigits_spec (limb_ne_zero h.1 h.2) (hv.limbBelow 0)
  have hlt := hc.maxExp_lt
  have hmod := hc.maxExp_mod
  have hexp := hv.expMod
  unfold Config.minExp at hmin
  unfold firstDigitExponent
  by_cases hat : v.exp = c.maxExp
  · have hlimb : v.limb 0 = 1 := by rw [limb_of_nats (hv.atMaxExp h.1 h.2 hat)]; rfl
    have hlen : (leadingDigits (v.limb 0)).length = 1 := by rw [hlimb]; decide
    omega
  · omega

include hv h in
/-- The kept digits as a number, against the magnitude (R243). -/
theorem rounded_value {n : Nat} {rs : List Nat} {e : Int}
    (hr : RoundedDigits (digitString v) (firstDigitExponent v) n rs e) :
    let rendered : ℚ := digitsValue rs * (10 : ℚ) ^ (e - rs.length + 1)
    let unit : ℚ := (10 : ℚ) ^ (firstDigitExponent v - rs.length + 1)
    ((digitString v).length ≤ n → rendered = |v.val|) ∧ (∃ k : Int, rendered = k * unit) ∧
      |(rendered - |v.val|)| ≤ unit / 2 ∧ (|(rendered - |v.val|)| = unit / 2 → ∃ k : Int, rendered = 2 * k * unit) := by
  intro rendered unit
  have hunit : 0 < unit := ten_zpow_pos _
  have hvalue := (digitString_value hv h).2
  by_cases hwhole : (digitString v).length ≤ n
  · obtain ⟨hrs, he⟩ := hr.whole hwhole
    have hrendered : rendered = |v.val| := by simp only [rendered, hrs, he, hvalue]
    refine ⟨fun _ => hrendered, ⟨digitsValue rs, ?_⟩, ?_, fun htie => ?_⟩
    · simp only [rendered, unit, he]; push_cast; rfl
    · rw [hrendered, sub_self, abs_zero]; linarith
    · rw [hrendered, sub_self, abs_zero] at htie; linarith
  · have hlt : n < (digitString v).length := not_le.mp hwhole
    have hlen : rs.length = n := by rw [hr.length]; omega
    obtain ⟨hnear, htie⟩ := roundHalfEven_spec (digitsValue (digitString v))
      (den := 10 ^ ((digitString v).length - n)) (by positivity)
    have hrounded := hr.rounded hlt
    generalize roundHalfEven (digitsValue (digitString v)) (10 ^ ((digitString v).length - n)) = m at hnear htie hrounded
    have hrendered : rendered = m * unit := by
      rw [← hrounded, Nat.cast_mul, Nat.cast_pow, Nat.cast_ofNat, mul_assoc, ← zpow_natCast, ← zpow_add₀ (by norm_num)]
      simp only [rendered]
      congr 2
      have := hr.exp
      omega
    have habs : |v.val| = (digitsValue (digitString v) : ℚ) / (10 ^ ((digitString v).length - n) : Nat) * unit := by
      rw [hvalue, div_mul_eq_mul_div, mul_div_assoc, Nat.cast_pow, Nat.cast_ofNat, ← zpow_natCast,
        ← zpow_sub₀ (by norm_num)]
      congr 2
      omega
    have hdist : |(rendered - |v.val|)| =
        |(m : ℚ) - (digitsValue (digitString v) : ℚ) / (10 ^ ((digitString v).length - n) : Nat)| * unit := by
      rw [hrendered, habs, ← sub_mul, abs_mul, abs_of_pos hunit]
    refine ⟨fun hle => absurd hle hwhole, ⟨m, by rw [hrendered]; norm_cast⟩, ?_, fun heq => ?_⟩
    · rw [hdist]; linarith [mul_le_mul_of_nonneg_right hnear hunit.le]
    · rw [hdist, ← one_div_mul_eq_div 2 unit, mul_left_inj' hunit.ne'] at heq
      obtain ⟨k, hk⟩ : ∃ k, m = 2 * k := ⟨m / 2, by have := htie heq; omega⟩
      exact ⟨k, by rw [hrendered, hk]; push_cast; rfl⟩

theorem formatValue_of_finiteNonzero (h : FiniteNonzero v) (n : Nat) :
    formatValue v n =
      { text := (roundDigits (digitString v) (firstDigitExponent v) n).1.map digitChar
        exp := (roundDigits (digitString v) (firstDigitExponent v) n).2
        neg := v.neg
        cls := .fin } := by
  simp [formatValue, h.1, h.2]

end

/-- Settles O59. -/
theorem formatRoundsHalfToEven : Obligations.FormatRoundsHalfToEven := by
  intro s src x style hinv hx hfin v n
  have hv : v.wf s.cfg := hinv.values src
  have hn : 1 ≤ n := Nat.one_le_iff_ne_zero.mpr fun h => hx (BitVec.eq_of_toNat_eq h)
  obtain ⟨-, hdigits, hhead, -⟩ := digitString_spec hv hfin.1 hfin.2
  have hr := roundDigits_spec hdigits hhead (firstDigitExponent v) hn
  obtain ⟨hlen, hexec⟩ := exec_format hinv (src := src) style hx
  rw [formatValue_of_finiteNonzero hfin n] at hlen hexec
  generalize roundDigits (digitString v) (firstDigitExponent v) n = r at hr hlen hexec
  obtain ⟨rs, e⟩ := r
  obtain ⟨honly, hbytes, htlen⟩ := handOff_spec hinv style hlen
  obtain ⟨hfinfoLen, hfinfoNeg, hfinfoCls, hfinfoStyle⟩ := finfoWord_fields style hlen
  rw [List.length_map] at hlen honly hbytes htlen hfinfoLen
  obtain ⟨hlo, hhi⟩ := firstDigitExponent_bounds hv hfin
  obtain ⟨hmin, hmax⟩ := firstDigitExponent_fits hinv.valid hv hfin
  have hlength := (digitString_value hv hfin).1
  obtain ⟨hwhole, hgrid, hnear, htie⟩ := rounded_value hv hfin hr
  have hrs := hr.length
  have he := hr.exp
  dsimp only at hrs he
  have hfexp : (BitVec.ofInt 64 e).toInt = e := toInt_ofInt_64 (by omega) (by omega)
  refine ⟨_, rs, e, firstDigitExponent v, hexec, honly, hr.digits, hr.head, fun j hj => ?_, htlen,
    hfexp, hfinfoLen, hfinfoNeg, BitVec.eq_of_toNat_eq hfinfoCls, hfinfoStyle, hlo, hhi,
    by omega, hr.exp, fun hall => hwhole (by omega), hgrid, hnear, htie⟩
  rw [hbytes j hj, List.getElem?_map, List.getElem?_eq_getElem hj, List.getD_eq_getElem _ _ hj]
  rfl

end Sys2Proof.Machine

/-! PROOF. The round trip of a full rendering (spec/47_format.md R247, R248): the reference layout of a record is a text
that `PARSE` accepts and that denotes the record's value. -/

namespace Sys2Proof.Machine

/-! ### The layout of an integer (R247) -/

theorem naturalDigitsFrom_spec {fuel m : Nat} {acc : List Nat} (hacc : ∀ d ∈ acc, d < 10) (hm : m < 10 ^ fuel) :
    digitsValue (naturalDigitsFrom fuel m acc) = m * 10 ^ acc.length + digitsValue acc ∧
      ∀ d ∈ naturalDigitsFrom fuel m acc, d < 10 := by
  induction fuel generalizing m acc with
  | zero =>
    obtain rfl : m = 0 := by simpa using hm
    exact ⟨by simp [naturalDigitsFrom], hacc⟩
  | succ fuel ih =>
    rw [naturalDigitsFrom]
    by_cases hz : m = 0
    · rw [if_pos hz, hz]; exact ⟨by simp, hacc⟩
    · rw [if_neg hz]
      have hdigit : m % 10 < 10 := Nat.mod_lt _ (by norm_num)
      obtain ⟨hvalue, hdigits⟩ := ih (m := m / 10) (List.forall_mem_cons.mpr ⟨hdigit, hacc⟩)
        (Nat.div_lt_of_lt_mul (by rwa [← pow_succ']))
      refine ⟨?_, hdigits⟩
      rw [hvalue, digitsValue_cons, List.length_cons, pow_succ]
      conv_rhs => rw [← Nat.div_add_mod m 10]
      ring

theorem isDigits_map_digitChar {ds : List Nat} (hne : ds ≠ []) (h : ∀ d ∈ ds, d < 10) : IsDigits (ds.map digitChar) ds :=
  ⟨hne, h, rfl⟩

/-- The layout of an integer is a sign and digits that write it. -/
theorem decimalText_spec (e : Int) :
    ∃ sign body neg ds, decimalText e = sign ++ body ∧ IsSign sign neg ∧ IsDigits body ds ∧
      e = if neg then -(digitsValue ds : Int) else digitsValue ds := by
  by_cases hz : e = 0
  · subst hz
    exact ⟨[], [0x30], false, [0], rfl, .inl ⟨rfl, .inl rfl⟩, isDigits_map_digitChar (by simp) (by simp), rfl⟩
  · have hfuel : e.natAbs < 10 ^ (Nat.log2 e.natAbs + 1) :=
      lt_of_lt_of_le Nat.lt_log2_self (Nat.pow_le_pow_left (by norm_num) _)
    obtain ⟨hvalue, hdigits⟩ := naturalDigitsFrom_spec (acc := []) nofun hfuel
    rw [List.length_nil, pow_zero, mul_one, digitsValue_nil, add_zero] at hvalue
    have hne : naturalDigitsFrom (Nat.log2 e.natAbs + 1) e.natAbs [] ≠ [] := by
      intro hnil
      rw [hnil] at hvalue
      exact hz (Int.natAbs_eq_zero.mp hvalue.symm)
    refine ⟨if e < 0 then [0x2D] else [], _, decide (e < 0), _, ?_, ?_, isDigits_map_digitChar hne hdigits, ?_⟩
    · rw [decimalText, if_neg hz]
    · by_cases hneg : e < 0
      · rw [if_pos hneg]; exact .inr ⟨decide_eq_true hneg, rfl⟩
      · rw [if_neg hneg]; exact .inl ⟨decide_eq_false hneg, .inl rfl⟩
    · rw [hvalue]
      simp only [decide_eq_true_eq]
      split_ifs <;> omega

theorem isSign_layout (neg : Bool) : IsSign (if neg then [0x2D] else []) neg := by
  cases neg with
  | false => exact .inl ⟨rfl, .inl rfl⟩
  | true => exact .inr ⟨rfl, rfl⟩

/-! ### The layout of a record (R247) -/

/-- The layout of digits and an exponent is the number with one digit before the point. -/
theorem isNumberText_layoutSci {d : Nat} {ds : List Nat} (hd : ∀ x ∈ d :: ds, x < 10) (neg : Bool) (e : Int) :
    IsNumberText (layoutSci { text := (d :: ds).map digitChar, exp := e, neg := neg, cls := .fin })
      { sgn := neg, int := [d], frac := ds, exp := e } := by
  obtain ⟨hd0, hds⟩ := List.forall_mem_cons.mp hd
  obtain ⟨esign, ebody, eneg, eds, he, hesign, hebody, hexp⟩ := decimalText_spec e
  have hint : IsDigits [digitChar d] [d] := isDigits_map_digitChar (by simp) (by simpa using hd0)
  have hexpPart : IsExponent (0x65 :: (esign ++ ebody)) e :=
    .inr ⟨_, _, _, eneg, eds, rfl, .inl rfl, hesign, hebody, hexp⟩
  by_cases hne : ds = []
  · subst hne
    refine ⟨_, [digitChar d], [], _, ?_, isSign_layout neg, hint, .inl ⟨rfl, rfl⟩, hexpPart⟩
    simp [layoutSci, he]
  · have hlong : 1 < ((d :: ds).map digitChar).length := by
      have := List.length_pos_iff.mpr hne
      simp only [List.length_map, List.length_cons]
      omega
    refine ⟨_, [digitChar d], 0x2E :: ds.map digitChar, _, ?_, isSign_layout neg, hint,
      .inr ⟨_, rfl, isDigits_map_digitChar hne hds⟩, hexpPart⟩
    rw [layoutSci, if_pos hlong, he]
    simp

/-- A full rendering writes all digits of the value. -/
theorem formatValue_full {c : Config} {v : DValue} (hv : v.wf c) (h : FiniteNonzero v) {n : Nat} (hn : 8 * c.n ≤ n) :
    formatValue v n = { text := (digitString v).map digitChar, exp := firstDigitExponent v, neg := v.neg, cls := .fin } := by
  have hc := c.n_ge
  obtain ⟨hlen, -⟩ := digitString_spec hv h.1 h.2
  obtain ⟨-, height, -⟩ := leadingDigits_spec (limb_ne_zero h.1 h.2) (hv.limbBelow 0)
  have hround : roundDigits (digitString v) (firstDigitExponent v) n = (digitString v, firstDigitExponent v) :=
    if_pos (by omega)
  rw [formatValue_of_finiteNonzero h, hround]

theorem parseText_layout_finiteNonzero {c : Config} {v : DValue} (hc : c.Valid) (hv : v.wf c) (h : FiniteNonzero v)
    {n : Nat} (hn : 8 * c.n ≤ n) : parseText c (layoutSci (formatValue v n)) = some (v.withPrec c.n) := by
  obtain ⟨-, hdigits, hhead, -⟩ := digitString_spec hv h.1 h.2
  have hvalue := (digitString_value hv h).2
  rw [formatValue_full hv h hn]
  generalize digitString v = digits at hdigits hhead hvalue
  cases digits with
  | nil => exact absurd rfl hhead
  | cons d ds =>
    have htext := isNumberText_layoutSci hdigits v.neg (firstDigitExponent v)
    rw [parseText_of_number htext]
    refine congrArg some ((numberValue_truncates hc htext.digits_lt).eq_of_abs_val hc hv h ?_)
    rw [hvalue]
    congr 2
    rw [List.length_cons]; push_cast; ring

theorem numberValue_zero (c : Config) : numberValue c { sgn := false, int := [0], frac := [], exp := 0 } = DValue.zero c.n :=
  rfl

/-- Settles O60. -/
theorem formatThenParseIsExact : Obligations.FormatThenParseIsExact := by
  intro c v n hc hv hn
  by_cases hfin : FiniteNonzero v
  · exact parseText_layout_finiteNonzero hc hv hfin hn
  obtain hcls | hcls | hcls : v.cls = .fin ∨ v.cls = .inf ∨ v.cls = .nan := by cases v.cls <;> simp
  · have hz : v.isZero = true := by
      by_contra hne
      exact hfin ⟨hcls, Bool.eq_false_iff.mpr hne⟩
    have htext : formatValue v n = { text := [0].map digitChar, exp := 0, neg := false, cls := .fin } := by
      simp [formatValue, hcls, hz, digitChar]
    rw [htext, parseText_of_number (isNumberText_layoutSci (by simp) false 0), numberValue_zero, hv.zeroForm hz]
  · have htext : layoutSci (formatValue v n) = (if v.neg then [0x2D] else []) ++ infText := by
      simp [layoutSci, formatValue, hcls]
    rw [hv.infForm hcls]
    exact parseText_of_special (isSpecialText_iff.mpr ⟨_, infText, v.neg, htext, isSign_layout v.neg, .inl ⟨.inl rfl, rfl⟩⟩)
  · have htext : layoutSci (formatValue v n) = [] ++ nanText := by simp [layoutSci, formatValue, hcls]
    rw [hv.nanForm hcls]
    exact parseText_of_special (isSpecialText_iff.mpr ⟨_, nanText, false, htext, isSign_layout false, .inr ⟨rfl, rfl⟩⟩)

end Sys2Proof.Machine

/-! PROOF. `ADD` and `SUB` (spec/41_add_sub.md R140 to R148): one equation per line of R141, then commutation and the two
forms of `SUB` from the truncations that the finite cases are. -/

namespace Sys2Proof

open Machine

/-! ### The negation of a value (R122) -/

theorem negate_of_isZero {v : DValue} (h : v.isZero = true) : v.negate = v := if_pos (.inr h)

theorem negate_of_inf {v : DValue} (h : v.cls = .inf) : v.negate = { v with neg := !v.neg } :=
  if_neg (by simp [DValue.isZero, h])

theorem negate_of_finiteNonzero {v : DValue} (h : FiniteNonzero v) : v.negate = { v with neg := !v.neg } :=
  if_neg (by simp [h.1, h.2])

@[simp] theorem negate_cls (v : DValue) : v.negate.cls = v.cls := by rw [DValue.negate]; split_ifs <;> rfl

@[simp] theorem negate_isZero (v : DValue) : v.negate.isZero = v.isZero := by rw [DValue.negate]; split_ifs <;> rfl

@[simp] theorem negate_prec (v : DValue) : v.negate.prec = v.prec := by rw [DValue.negate]; split_ifs <;> rfl

@[simp] theorem withPrec_negate (v : DValue) (p : Nat) : (v.withPrec p).negate = v.negate.withPrec p := by
  rw [DValue.negate, DValue.negate, withPrec_cls, withPrec_isZero]
  split_ifs <;> rfl

@[simp] theorem negate_negate (v : DValue) : v.negate.negate = v := by
  by_cases h : v.cls = .nan ∨ v.isZero = true
  · have hv : v.negate = v := if_pos h
    rw [hv, hv]
  · have hv : v.negate = { v with neg := !v.neg } := if_neg h
    have hneg : v.negate.negate = { v.negate with neg := !v.negate.neg } := if_neg (by simpa using h)
    rw [hneg, hv, Bool.not_not]

@[simp] theorem negate_infinity (n : Nat) (s : Bool) : (DValue.infinity n s).negate = DValue.infinity n (!s) := rfl

@[simp] theorem negate_zero (n : Nat) : (DValue.zero n).negate = DValue.zero n := negate_of_isZero (by simp)

@[simp] theorem negate_notANumber (n : Nat) : (DValue.notANumber n).negate = DValue.notANumber n := rfl

theorem finiteNonzero_negate {v : DValue} (h : FiniteNonzero v) : FiniteNonzero v.negate := by
  rwa [FiniteNonzero, negate_cls, negate_isZero]

theorem negate_neg {v : DValue} (h : FiniteNonzero v) : v.negate.neg = !v.neg := by rw [negate_of_finiteNonzero h]

theorem abs_val_with_neg (v : DValue) (s : Bool) : |({ v with neg := s } : DValue).val| = |v.val| :=
  (limbSum_nats_eq_abs_val { v with neg := s }).symm.trans (limbSum_nats_eq_abs_val v)

theorem abs_val_negate (v : DValue) : |v.negate.val| = |v.val| := by
  rw [DValue.negate]
  split_ifs
  · rfl
  · exact abs_val_with_neg v _

/-! ### Truncations (R13, R146) -/

section
variable {c : Config} {q : ℚ} {s : Bool} {p : Nat} {v : DValue}

/-- A magnitude below MINV is truncated to `Zero`. -/
theorem Machine.TruncatesTo.eq_zero (h : TruncatesTo c q s p v) (hq : q < (10 : ℚ) ^ c.minExp) : v = DValue.zero c.n := by
  have hmax : q < (10 : ℚ) ^ (c.maxExp : Int) + (10 : ℚ) ^ ((c.maxExp : Int) - 8 * ((c.n : Int) - 1)) := by
    have hunit := ten_zpow_pos ((c.maxExp : Int) - 8 * ((c.n : Int) - 1))
    linarith [ten_minExp_le_one c, one_le_ten_maxExp c]
  rwa [TruncatesTo, if_neg (not_le.mpr hmax), if_pos hq] at h

theorem Machine.TruncatesTo.prec_eq (h : TruncatesTo c q s c.n v) (hc : c.Valid) : v.prec.toNat = c.n := by
  unfold TruncatesTo at h
  split_ifs at h
  · rw [h]; exact prec_toNat hc.n_lt
  · rw [h]; exact prec_toNat hc.n_lt
  · obtain ⟨-, -, -, -, hprec, -⟩ := h
    exact hprec

theorem Machine.TruncatesTo.negate (h : TruncatesTo c q s p v) : TruncatesTo c q (!s) p v.negate := by
  unfold TruncatesTo at h ⊢
  split_ifs at h ⊢
  · rw [h, negate_infinity]
  · rw [h, negate_zero]
  · obtain ⟨hwf, hcls, hz, hneg, hprec, hle, hlt⟩ := h
    have hnz : FiniteNonzero v := ⟨hcls, hz⟩
    refine ⟨negate_wf hwf, (negate_cls v).trans hcls, (negate_isZero v).trans hz, ?_, ?_, ?_, ?_⟩
    · rw [negate_neg hnz, hneg]
    · rw [negate_prec, hprec]
    · rwa [abs_val_negate]
    · rw [abs_val_negate, negate_of_finiteNonzero hnz]; exact hlt

end

/-! ### `Add` line by line (R141) -/

section
variable {c : Config} {a b : DValue}

theorem cls_fin_of_ne {v : DValue} (h1 : v.cls ≠ .nan) (h2 : v.cls ≠ .inf) : v.cls = .fin := by
  cases h : v.cls
  · rfl
  · exact absurd h h2
  · exact absurd h h1

theorem decAdd_nan (h : a.cls = .nan ∨ b.cls = .nan) : decAdd c a b = DValue.notANumber c.n := if_pos h

theorem decAdd_inf_inf (ha : a.cls = .inf) (hb : b.cls = .inf) :
    decAdd c a b = if a.neg = b.neg then DValue.infinity c.n a.neg else DValue.notANumber c.n := by
  simp [decAdd, ha, hb]

theorem decAdd_inf_fin (ha : a.cls = .inf) (hb : b.cls = .fin) : decAdd c a b = DValue.infinity c.n a.neg := by
  simp [decAdd, ha, hb]

theorem decAdd_fin_inf (ha : a.cls = .fin) (hb : b.cls = .inf) : decAdd c a b = DValue.infinity c.n b.neg := by
  simp [decAdd, ha, hb]

theorem decAdd_zero_fin (ha : a.isZero = true) (hb : b.cls = .fin) : decAdd c a b = b.withPrec c.n := by
  simp [decAdd, (isZero_iff.mp ha).1, hb, ha]

/-- For stored values the order of the two zero lines does not matter, as there is one zero. -/
theorem decAdd_fin_zero (hwa : a.wf c) (hwb : b.wf c) (ha : a.cls = .fin) (hb : b.isZero = true) :
    decAdd c a b = a.withPrec c.n := by
  by_cases hza : a.isZero = true
  · rw [decAdd_zero_fin hza (isZero_iff.mp hb).1, hwb.zeroForm hb, hwa.zeroForm hza]
  · simp [decAdd, ha, (isZero_iff.mp hb).1, hb, hza]

/-- The lines of R141, and the operands that none of them takes. -/
theorem add_operands (a b : DValue) :
    (a.cls = .nan ∨ b.cls = .nan) ∨ (a.cls = .inf ∧ b.cls = .inf) ∨ (a.cls = .inf ∧ b.cls = .fin) ∨
      (a.cls = .fin ∧ b.cls = .inf) ∨ (a.isZero = true ∧ b.cls = .fin) ∨ (a.cls = .fin ∧ b.isZero = true) ∨
      (FiniteNonzero a ∧ FiniteNonzero b) := by
  cases ha : a.cls with
  | nan => simp
  | inf => cases hb : b.cls <;> simp
  | fin =>
    cases hb : b.cls with
    | nan => simp
    | inf => simp
    | fin => cases hza : a.isZero <;> cases hzb : b.isZero <;> simp [FiniteNonzero, ha, hb, hza, hzb]

end

/-! ### Laws of `Add` (R147, R148) -/

section
variable {c : Config} {a b : DValue} (hc : c.Valid) (ha : a.wf c) (hb : b.wf c)
include hc ha hb

/-- Operands of the same magnitude and different signs cancel. -/
theorem decAdd_cancel (hna : FiniteNonzero a) (hnb : FiniteNonzero b) (hs : a.neg ≠ b.neg) (hle : |b.val| = |a.val|) :
    decAdd c a b = DValue.zero c.n := by
  refine (decAdd_differentSign hc ha hb hna.1 hnb.1 hna.2 hnb.2 hs hle.le).1.eq_zero ?_
  have hwhole : |b.val| / lastUnit c.n a.exp = limbsNat a.nats := by
    rw [hle, abs_val_eq ha.natsLength, mul_div_cancel_right₀ _ (lastUnit_pos _ _).ne']
  rw [hwhole, Int.floor_natCast, Int.cast_natCast, ← abs_val_eq ha.natsLength, sub_self]
  exact ten_zpow_pos _

theorem decAdd_comm_of_le (hna : FiniteNonzero a) (hnb : FiniteNonzero b) (hs : a.neg ≠ b.neg) (hle : |b.val| ≤ |a.val|) :
    decAdd c a b = decAdd c b a := by
  obtain ⟨h1, h2⟩ := decAdd_differentSign hc ha hb hna.1 hnb.1 hna.2 hnb.2 hs hle
  by_cases heq : |b.val| = |a.val|
  · rw [decAdd_cancel hc ha hb hna hnb hs heq, decAdd_cancel hc hb ha hnb hna hs.symm heq.symm]
  · rw [if_neg heq] at h2
    exact h1.unique h2

theorem decAdd_comm : decAdd c a b = decAdd c b a := by
  obtain h | ⟨h1, h2⟩ | ⟨h1, h2⟩ | ⟨h1, h2⟩ | ⟨h1, h2⟩ | ⟨h1, h2⟩ | ⟨h1, h2⟩ := add_operands a b
  · rw [decAdd_nan h, decAdd_nan h.symm]
  · rw [decAdd_inf_inf h1 h2, decAdd_inf_inf h2 h1]
    by_cases hs : a.neg = b.neg
    · rw [if_pos hs, if_pos hs.symm, hs]
    · rw [if_neg hs, if_neg (Ne.symm hs)]
  · rw [decAdd_inf_fin h1 h2, decAdd_fin_inf h2 h1]
  · rw [decAdd_fin_inf h1 h2, decAdd_inf_fin h2 h1]
  · rw [decAdd_zero_fin h1 h2, decAdd_fin_zero hb ha h2 h1]
  · rw [decAdd_fin_zero ha hb h1 h2, decAdd_zero_fin h2 h1]
  · by_cases hs : a.neg = b.neg
    · have hab := decAdd_sameSign hc ha hb h1.1 h2.1 h1.2 h2.2 hs
      have hba := decAdd_sameSign hc hb ha h2.1 h1.1 h2.2 h1.2 hs.symm
      rw [add_comm, hs] at hab
      exact hab.unique hba
    · obtain hle | hle := le_total |b.val| |a.val|
      · exact decAdd_comm_of_le hc ha hb h1 h2 hs hle
      · exact (decAdd_comm_of_le hc hb ha h2 h1 (Ne.symm hs) hle).symm

theorem decAdd_prec : (decAdd c a b).prec.toNat = c.n := by
  have hprec := prec_toNat hc.n_lt
  obtain h | ⟨h1, h2⟩ | ⟨h1, h2⟩ | ⟨h1, h2⟩ | ⟨h1, h2⟩ | ⟨h1, h2⟩ | ⟨h1, h2⟩ := add_operands a b
  · rw [decAdd_nan h]; exact hprec
  · rw [decAdd_inf_inf h1 h2]; split_ifs <;> exact hprec
  · rw [decAdd_inf_fin h1 h2]; exact hprec
  · rw [decAdd_fin_inf h1 h2]; exact hprec
  · rw [decAdd_zero_fin h1 h2]; exact hprec
  · rw [decAdd_fin_zero ha hb h1 h2]; exact hprec
  · by_cases hs : a.neg = b.neg
    · exact (decAdd_sameSign hc ha hb h1.1 h2.1 h1.2 h2.2 hs).prec_eq hc
    · obtain hle | hle := le_total |b.val| |a.val|
      · exact (decAdd_differentSign hc ha hb h1.1 h2.1 h1.2 h2.2 hs hle).1.prec_eq hc
      · exact (decAdd_differentSign hc hb ha h2.1 h1.1 h2.2 h1.2 (Ne.symm hs) hle).2.prec_eq hc

theorem decAdd_negate_of_le (h1 : FiniteNonzero a) (h2 : FiniteNonzero b) (hs : a.neg ≠ b.neg) (hle : |b.val| ≤ |a.val|) :
    decAdd c a.negate b.negate = (decAdd c a b).negate := by
  have hna := finiteNonzero_negate h1
  have hnb := finiteNonzero_negate h2
  have h := (decAdd_differentSign hc (negate_wf ha) (negate_wf hb) hna.1 hnb.1 hna.2 hnb.2
    (by rw [negate_neg h1, negate_neg h2]; simpa using hs) (by rwa [abs_val_negate, abs_val_negate])).1
  have hexp : a.negate.exp = a.exp := by rw [negate_of_finiteNonzero h1]
  rw [abs_val_negate, abs_val_negate, hexp, negate_neg h1] at h
  exact h.unique (decAdd_differentSign hc ha hb h1.1 h2.1 h1.2 h2.2 hs hle).1.negate

/-- The sum of the negations is the negation of the sum. -/
theorem decAdd_negate : decAdd c a.negate b.negate = (decAdd c a b).negate := by
  obtain h | ⟨h1, h2⟩ | ⟨h1, h2⟩ | ⟨h1, h2⟩ | ⟨h1, h2⟩ | ⟨h1, h2⟩ | ⟨h1, h2⟩ := add_operands a b
  · rw [decAdd_nan (by simpa using h), decAdd_nan h, negate_notANumber]
  · rw [decAdd_inf_inf (by simpa using h1) (by simpa using h2), decAdd_inf_inf h1 h2, negate_of_inf h1, negate_of_inf h2]
    by_cases hs : a.neg = b.neg
    · rw [if_pos hs, if_pos (congrArg _ hs), negate_infinity]
    · rw [if_neg hs, if_neg (by simpa using hs), negate_notANumber]
  · rw [decAdd_inf_fin (by simpa using h1) (by simpa using h2), decAdd_inf_fin h1 h2, negate_of_inf h1, negate_infinity]
  · rw [decAdd_fin_inf (by simpa using h1) (by simpa using h2), decAdd_fin_inf h1 h2, negate_of_inf h2, negate_infinity]
  · rw [decAdd_zero_fin (by simpa using h1) (by simpa using h2), decAdd_zero_fin h1 h2, withPrec_negate]
  · rw [decAdd_fin_zero (negate_wf ha) (negate_wf hb) (by simpa using h1) (by simpa using h2), decAdd_fin_zero ha hb h1 h2,
      withPrec_negate]
  · by_cases hs : a.neg = b.neg
    · have hna := finiteNonzero_negate h1
      have hnb := finiteNonzero_negate h2
      have h := decAdd_sameSign hc (negate_wf ha) (negate_wf hb) hna.1 hnb.1 hna.2 hnb.2
        (by rw [negate_neg h1, negate_neg h2, hs])
      rw [abs_val_negate, abs_val_negate, negate_neg h1] at h
      exact h.unique (decAdd_sameSign hc ha hb h1.1 h2.1 h1.2 h2.2 hs).negate
    · obtain hle | hle := le_total |b.val| |a.val|
      · exact decAdd_negate_of_le hc ha hb h1 h2 hs hle
      · rw [decAdd_comm hc (negate_wf ha) (negate_wf hb), decAdd_comm hc ha hb]
        exact decAdd_negate_of_le hc hb ha h2 h1 (Ne.symm hs) hle

theorem decSub_eq_decAdd_negate : decSub c a b = decAdd c a b.negate := by
  have h := decAdd_negate hc (negate_wf ha) hb
  rw [negate_negate] at h
  exact h.symm

end

namespace Machine

theorem exec_neg (d src : DReg) (s : State) : exec (.neg d src) s = .next (s.writeD d (s.readD src).negate) := rfl

theorem exec_sub (d s1 s2 : DReg) (s : State) :
    exec (.sub d s1 s2) s = .next (s.writeD d (decSub s.cfg (s.readD s1) (s.readD s2))) := rfl

/-- Settles O35. -/
theorem addSpecialOperands : Obligations.AddSpecialOperands := by
  intro s d s1 s2 a b n hspecial
  refine ⟨_, exec_add d s1 s2 s, onlyD_writeD _ _ _, ?_⟩
  rw [readD_writeD_same, decAdd]
  split_ifs with hnan hinf hsign hinfA hinfB hzeroA hzeroB
  · rfl
  · rfl
  · rfl
  · rfl
  · rfl
  · rfl
  · rfl
  · obtain ⟨hna, hnb⟩ := not_or.mp hnan
    obtain h | h | h | h := hspecial
    · exact absurd (cls_fin_of_ne hna hinfA) h
    · exact absurd (cls_fin_of_ne hnb hinfB) h
    · exact absurd h hzeroA
    · exact absurd h hzeroB

/-- Settles O37. -/
theorem addSameSignTruncates : Obligations.AddSameSignTruncates := by
  intro s d s1 s2 hinv h1 h2 hs
  refine ⟨_, exec_add d s1 s2 s, onlyD_writeD _ _ _, ?_⟩
  rw [readD_writeD_same]
  exact decAdd_sameSign hinv.valid (hinv.values s1) (hinv.values s2) h1.1 h2.1 h1.2 h2.2 hs

theorem exec_add_comm {s : State} (hinv : s.Inv) (d s1 s2 : DReg) : exec (.add d s1 s2) s = exec (.add d s2 s1) s := by
  rw [exec_add, exec_add, decAdd_comm hinv.valid (hinv.values s1) (hinv.values s2)]

/-- Settles O38. -/
theorem addDifferentSignTruncates : Obligations.AddDifferentSignTruncates := by
  intro s d s1 s2 hinv h1 h2 hs hle u q
  refine ⟨_, exec_add d s1 s2 s, (exec_add_comm hinv d s2 s1).trans (exec_add d s1 s2 s), onlyD_writeD _ _ _, ?_⟩
  rw [readD_writeD_same]
  exact (decAdd_differentSign hinv.valid (hinv.values s1) (hinv.values s2) h1.1 h2.1 h1.2 h2.2 hs hle).1

/-- Settles O39. -/
theorem addCommutesAndIgnoresPrec : Obligations.AddCommutesAndIgnoresPrec := by
  intro s d s1 s2 p hinv
  refine ⟨_, exec_add d s1 s2 s, (exec_add_comm hinv d s2 s1).trans (exec_add d s1 s2 s), onlyD_writeD _ _ _, ?_, ?_⟩
  · rw [readD_writeD_same, decAdd_prec hinv.valid (hinv.values s1) (hinv.values s2)]
  · refine ⟨_, exec_add d s1 s2 _, ?_⟩
    rw [readD_writeD_same, readD_writeD_same, readD_writeD_same]
    by_cases h : s2 = s1
    · rw [h, readD_writeD_same]; rfl
    · rw [readD_writeD_other _ _ h]; rfl

/-- Settles O40. -/
theorem addIdentityAndInverse : Obligations.AddIdentityAndInverse := by
  intro s d s1 s2 hinv hfin
  have h1 := hinv.values s1
  refine ⟨fun hzero => ⟨_, exec_add d s1 s2 s, onlyD_writeD _ _ _, ?_⟩,
    fun hneg => ⟨_, exec_add d s1 s2 s, onlyD_writeD _ _ _, ?_⟩⟩
  · rw [readD_writeD_same]
    exact decAdd_fin_zero h1 (hinv.values s2) hfin (by rw [hzero]; simp)
  · rw [readD_writeD_same, hneg]
    by_cases hz : (s.readD s1).isZero = true
    · rw [negate_of_isZero hz, decAdd_zero_fin hz hfin, h1.zeroForm hz]
    · have hnz : FiniteNonzero (s.readD s1) := ⟨hfin, Bool.eq_false_iff.mpr hz⟩
      exact decAdd_cancel hinv.valid h1 (negate_wf h1) hnz (finiteNonzero_negate hnz) (by simp [negate_neg hnz])
        (abs_val_negate _)

/-- Settles O41. -/
theorem subIsAddOfTheNegation : Obligations.SubIsAddOfTheNegation := by
  intro s d s1 s2 r hinv
  refine ⟨_, exec_sub d s1 s2 s, onlyD_writeD _ _ _, fun hr => ?_, fun hr => ?_⟩
  · refine ⟨_, _, _, exec_neg r s1 s, exec_add d r s2 _, exec_neg d d _, ?_⟩
    simp only [readD_writeD_same]
    rw [readD_writeD_other _ _ (Ne.symm hr)]
    rfl
  · refine ⟨_, _, exec_neg r s2 s, exec_add d s1 r _, ?_⟩
    simp only [readD_writeD_same]
    rw [readD_writeD_other _ _ (Ne.symm hr), decSub_eq_decAdd_negate hinv.valid (hinv.values s1) (hinv.values s2)]
    rfl

end Machine

end Sys2Proof

/-! PROOF. `MUL` (spec/42_multiply.md R160 to R163): the products it forms as a double sum of limb products, which is
symmetric, at most the exact product, and the first operand when the second is 1. -/

namespace Sys2Proof

open Machine

/-! ### The products formed (R161) -/

theorem limbConvolution_eq_sum (a b : DValue) (j : Nat) :
    limbConvolution a b j = ∑ i ∈ Finset.range (j + 1), a.limb i * b.limb (j - i) := by
  have hlist : limbConvolution a b j = ∑ i ∈ Finset.range (j + 1), a.limb (j - i) * b.limb i := rfl
  rw [hlist, ← Finset.sum_flip]
  refine Finset.sum_congr rfl fun i hi => ?_
  rw [Nat.sub_sub_self (Nat.lt_succ_iff.mp (Finset.mem_range.mp hi))]

theorem limbConvolution_comm (a b : DValue) (j : Nat) : limbConvolution a b j = limbConvolution b a j := by
  rw [limbConvolution_eq_sum]
  exact Finset.sum_congr rfl fun i _ => mul_comm _ _

/-- The value of the product of limb `x` of `a` and limb `y` of `b`. -/
def limbProduct (a b : DValue) (x y : Nat) : ℚ :=
  (a.limb x * b.limb y : ℚ) * (10 : ℚ) ^ (a.exp + b.exp - 8 * ((x : Int) + y))

theorem limbProduct_nonneg (a b : DValue) (x y : Nat) : 0 ≤ limbProduct a b x y := by
  unfold limbProduct
  have := ten_zpow_pos (a.exp + b.exp - 8 * ((x : Int) + y))
  positivity

theorem triangularProduct_eq_sum_convolutions (a b : DValue) (p : Nat) (e : Int) :
    (triangularProduct a b p : ℚ) * lastUnit p e =
      ∑ j ∈ Finset.range p, (limbConvolution a b j : ℚ) * (10 : ℚ) ^ (e - 8 * (j : Int)) := by
  induction p with
  | zero => simp [triangularProduct]
  | succ p ih =>
    have hunit : lastUnit (p + 1) e * limbBase = lastUnit p e := by
      have h := lastUnit_mul_pow (p + 1) e 1
      rw [pow_one] at h
      rw [h, lastUnit, lastUnit]
      congr 1
      push_cast
      ring
    have hlast : lastUnit (p + 1) e = (10 : ℚ) ^ (e - 8 * (p : Int)) := by
      rw [lastUnit]; congr 1; push_cast; ring
    rw [Finset.sum_range_succ, ← ih, triangularProduct, Nat.cast_add, Nat.cast_mul, add_mul, ← hunit, ← hlast]
    ring

/-- What the multiplier forms: the limb products with `x + y < p`. -/
theorem triangularProduct_eq_sum (a b : DValue) (p : Nat) :
    (triangularProduct a b p : ℚ) * lastUnit p (a.exp + b.exp) =
      ∑ x ∈ Finset.range p, ∑ y ∈ Finset.range (p - x), limbProduct a b x y := by
  rw [triangularProduct_eq_sum_convolutions, ← Finset.sum_range_diag_flip]
  refine Finset.sum_congr rfl fun j _ => ?_
  rw [limbConvolution_eq_sum, Nat.cast_sum, Finset.sum_mul]
  refine Finset.sum_congr rfl fun i hi => ?_
  have hij : i ≤ j := Nat.lt_succ_iff.mp (Finset.mem_range.mp hi)
  rw [limbProduct, Nat.cast_mul]
  congr 2
  omega

theorem limbSum_eq_sum (ls : List Nat) (e : Int) :
    limbSum ls e = ∑ x ∈ Finset.range ls.length, (ls.getD x 0 : ℚ) * (10 : ℚ) ^ (e - 8 * (x : Int)) := by
  induction ls generalizing e with
  | nil => rfl
  | cons l ls ih =>
    rw [limbSum, ih, List.length_cons, Finset.sum_range_succ']
    simp only [List.getD_cons_succ, List.getD_cons_zero]
    rw [add_comm]
    congr 1
    · refine Finset.sum_congr rfl fun x _ => ?_
      congr 2
      push_cast
      ring
    · simp

section
variable {c : Config} {a b : DValue} (ha : a.wf c) (hb : b.wf c)

include ha in
theorem abs_val_eq_sum : |a.val| = ∑ x ∈ Finset.range c.n, (a.limb x : ℚ) * (10 : ℚ) ^ (a.exp - 8 * (x : Int)) := by
  rw [← limbSum_nats_eq_abs_val, limbSum_eq_sum, ha.natsLength]
  exact Finset.sum_congr rfl fun x _ => by rw [limb_of_nats rfl]

include ha hb in
/-- All limb products together are the exact product. -/
theorem abs_val_mul_eq_sum :
    |a.val| * |b.val| = ∑ x ∈ Finset.range c.n, ∑ y ∈ Finset.range c.n, limbProduct a b x y := by
  rw [abs_val_eq_sum ha, abs_val_eq_sum hb, Finset.sum_mul_sum]
  refine Finset.sum_congr rfl fun x _ => Finset.sum_congr rfl fun y _ => ?_
  rw [limbProduct, show a.exp + b.exp - 8 * ((x : Int) + y) = (a.exp - 8 * x) + (b.exp - 8 * y) by ring,
    zpow_add₀ (by norm_num)]
  ring

include ha hb in
theorem triangularProduct_le {p : Nat} (hp : p ≤ c.n) :
    (triangularProduct a b p : ℚ) * lastUnit p (a.exp + b.exp) ≤ |a.val| * |b.val| := by
  rw [triangularProduct_eq_sum, abs_val_mul_eq_sum ha hb]
  calc ∑ x ∈ Finset.range p, ∑ y ∈ Finset.range (p - x), limbProduct a b x y
    _ ≤ ∑ x ∈ Finset.range p, ∑ y ∈ Finset.range c.n, limbProduct a b x y := by
      refine Finset.sum_le_sum fun x _ => Finset.sum_le_sum_of_subset_of_nonneg ?_ fun y _ _ => limbProduct_nonneg a b x y
      exact Finset.range_subset_range.mpr (by omega)
    _ ≤ _ := by
      refine Finset.sum_le_sum_of_subset_of_nonneg (Finset.range_subset_range.mpr hp) fun x _ _ => ?_
      exact Finset.sum_nonneg fun y _ => limbProduct_nonneg a b x y

/-- Only the leading limb of the value is not zero. -/
def SingleLimb (v : DValue) : Prop := ∀ i, i ≠ 0 → v.limb i = 0

include hb in
theorem abs_val_of_singleLimb (h : SingleLimb b) : |b.val| = b.limb 0 * (10 : ℚ) ^ b.exp := by
  have hn := c.n_ge
  rw [abs_val_eq_sum hb, Finset.sum_eq_single 0 (fun x _ hx => by rw [h x hx]; simp)
    fun h0 => absurd (Finset.mem_range.mpr (by omega)) h0]
  simp

include ha in
theorem limb_beyond {x : Nat} (hx : c.n ≤ x) : a.limb x = 0 := by
  rw [limb_of_nats rfl, List.getD_eq_default _ _ (by rw [ha.natsLength]; exact hx)]

include ha hb in
/-- When the second operand is one limb and the first has no limb beyond `p`, no product is lost. -/
theorem triangularProduct_of_singleLimb (h : SingleLimb b) {p : Nat} (hp : p ≤ c.n) (hlimbs : ∀ x, p ≤ x → a.limb x = 0) :
    (triangularProduct a b p : ℚ) * lastUnit p (a.exp + b.exp) = |a.val| * |b.val| := by
  have hrow (x : Nat) (hx : x ∈ Finset.range p) : ∑ y ∈ Finset.range (p - x), limbProduct a b x y = limbProduct a b x 0 := by
    refine Finset.sum_eq_single 0 (fun y _ hy => ?_) fun h0 => absurd ?_ h0
    · rw [limbProduct, h y hy]; simp
    · exact Finset.mem_range.mpr (Nat.sub_pos_of_lt (Finset.mem_range.mp hx))
  have hcut : ∑ x ∈ Finset.range p, limbProduct a b x 0 = ∑ x ∈ Finset.range c.n, limbProduct a b x 0 := by
    refine Finset.sum_subset (Finset.range_subset_range.mpr hp) fun x _ hx => ?_
    rw [limbProduct, hlimbs x (not_lt.mp (mt Finset.mem_range.mpr hx))]; simp
  rw [triangularProduct_eq_sum, Finset.sum_congr rfl hrow, hcut, abs_val_of_singleLimb hb h, abs_val_eq_sum ha, Finset.sum_mul]
  refine Finset.sum_congr rfl fun x _ => ?_
  rw [limbProduct, show a.exp + b.exp - 8 * ((x : Int) + (0 : Nat)) = (a.exp - 8 * x) + b.exp by push_cast; ring,
    zpow_add₀ (by norm_num)]
  ring

theorem singleLimb_leadingLimb (n : Nat) {l : Nat} (hl : l < limbBase) (e : Int) (s : Bool) :
    SingleLimb (leadingLimb n l e s) := by
  intro i hi
  obtain ⟨k, rfl⟩ := Nat.exists_eq_succ_of_ne_zero hi
  rw [limb_of_nats (leadingLimb_nats n hl e s), List.getD_cons_succ]
  exact (List.getD_eq_getElem?_getD ..).trans (List.getElem?_getD_replicate_default_eq _ _ k)

end

/-! ### `MulCore` line by line (R161) -/

theorem mulLimbs_comm (a b : DValue) (p carry : Nat) (r : List Nat) : mulLimbs a b p carry r = mulLimbs b a p carry r := by
  induction p generalizing carry r with
  | zero => rfl
  | succ p ih => rw [mulLimbs, mulLimbs, limbConvolution_comm, ih]

theorem mulFinite_comm (c : Config) (a b : DValue) (p : Nat) : mulFinite c a b p = mulFinite c b a p := by
  rw [mulFinite, mulFinite, mulLimbs_comm, add_comm a.exp, Bool.xor_comm]

theorem mulRecord_comm (c : Config) (a b : DValue) (p : Nat) : mulRecord c a b p = mulRecord c b a p := by
  rw [mulRecord, mulRecord, mulFinite_comm, Bool.xor_comm]
  refine if_congr or_comm rfl (if_congr ?_ rfl (if_congr or_comm rfl (if_congr or_comm rfl rfl)))
  rw [or_comm, and_comm, and_comm (a := a.cls = .inf)]

theorem decMul_comm (c : Config) (a b : DValue) : decMul c a b = decMul c b a := by
  rw [decMul, decMul, mulCore, mulCore, min_comm, mulRecord_comm]

theorem mulCore_zero {a b : DValue} (c : Config) (ha : a.cls = .fin) (hb : b.cls = .fin)
    (h : a.isZero = true ∨ b.isZero = true) (p : Nat) : mulCore c a b p = (DValue.zero c.n).withPrec p := by
  simp [mulCore, mulRecord, ha, hb, h]

theorem zero_val (n : Nat) : (DValue.zero n).val = 0 := by
  have hnats : (DValue.zero n).nats = List.replicate n 0 := by simp [DValue.nats, DValue.zero, finiteValue]
  rw [DValue.val, limbSum_eq, hnats, limbsNat_replicate_zero]
  simp

theorem withPrec_prec_self {v : DValue} {p : Nat} (h : v.prec.toNat = p) : v.withPrec p = v := by
  rw [← h, DValue.withPrec, BitVec.ofNat_toNat, BitVec.setWidth_eq]

/-- A finite truncation is at most the magnitude. -/
theorem Machine.TruncatesTo.abs_val_le {c : Config} {q : ℚ} {s : Bool} {p : Nat} {v : DValue} (h : TruncatesTo c q s p v)
    (hq : 0 ≤ q) (hf : v.cls = .fin) : |v.val| ≤ q := by
  unfold TruncatesTo at h
  split_ifs at h
  · rw [h] at hf; cases hf
  · rw [h, zero_val, abs_zero]; exact hq
  · obtain ⟨-, -, -, -, -, hle, -⟩ := h
    exact hle

section
variable {c : Config} {a b : DValue} (hc : c.Valid) (ha : a.wf c) (hb : b.wf c)
include hc ha hb

theorem decMul_truncates (hna : FiniteNonzero a) (hnb : FiniteNonzero b) :
    TruncatesTo c ((triangularProduct a b (min a.prec.toNat b.prec.toNat) : ℚ) *
        lastUnit (min a.prec.toNat b.prec.toNat) (a.exp + b.exp)) (a.neg ^^ b.neg) c.n ((decMul c a b).withPrec c.n) := by
  obtain ⟨ha1, ha2⟩ := ha.precBounds
  obtain ⟨hb1, -⟩ := hb.precBounds
  exact mulCore_truncates hc ha hb hna.1 hnb.1 hna.2 hnb.2 ⟨by omega, by omega⟩

theorem abs_val_decMul_le (hfa : a.cls = .fin) (hfb : b.cls = .fin) (hf : (decMul c a b).cls = .fin) :
    |(decMul c a b).val| ≤ |a.val| * |b.val| := by
  by_cases hz : a.isZero = true ∨ b.isZero = true
  · rw [decMul, mulCore_zero c hfa hfb hz, withPrec_val, zero_val, abs_zero]
    positivity
  · obtain ⟨hza, hzb⟩ := not_or.mp hz
    have ht := decMul_truncates hc ha hb ⟨hfa, Bool.eq_false_iff.mpr hza⟩ ⟨hfb, Bool.eq_false_iff.mpr hzb⟩
    obtain ⟨-, ha2⟩ := ha.precBounds
    have hunit := lastUnit_pos (min a.prec.toNat b.prec.toNat) (a.exp + b.exp)
    have hle := ht.abs_val_le (by positivity) hf
    rw [withPrec_val] at hle
    exact hle.trans (triangularProduct_le ha hb (by omega))

end

section
variable {c : Config} {a : DValue} (hc : c.Valid) (ha : a.wf c)
include hc ha

/-- The number 1 is the identity at full precision (R163). -/
theorem decMul_one (hf : a.cls = .fin) (hp : a.prec.toNat = c.n) : decMul c a (oneValue c) = a := by
  have hone : (oneValue c).prec.toNat = c.n := prec_toNat hc.n_lt
  have hprec : (decMul c a (oneValue c)).prec.toNat = c.n := by
    rw [decMul, mulCore_prec, hp, hone, min_self, prec_toNat hc.n_lt]
  have h5 := c.n_ge
  have honeZero : (oneValue c).isZero = false := leadingLimb_isZero _ (by decide) (by omega) _ _
  have hfull : (decMul c a (oneValue c)).withPrec c.n = a.withPrec c.n := by
    by_cases hz : a.isZero = true
    · rw [decMul, mulCore_zero c hf rfl (.inl hz), ha.zeroForm hz]
      rfl
    · have hna : FiniteNonzero a := ⟨hf, Bool.eq_false_iff.mpr hz⟩
      have ht := decMul_truncates hc ha (oneValue_wf hc) hna ⟨rfl, honeZero⟩
      rw [hp, hone, min_self, triangularProduct_of_singleLimb ha (oneValue_wf hc)
        (singleLimb_leadingLimb c.n (by decide) 0 false) le_rfl fun x hx => limb_beyond ha hx,
        show (a.neg ^^ (oneValue c).neg) = a.neg from Bool.xor_false _, oneValue_val, abs_one, mul_one] at ht
      exact ht.eq_of_abs_val hc ha hna rfl
  rwa [withPrec_prec_self hprec, withPrec_prec_self hp] at hfull

end

namespace Machine

theorem exec_mul (d s1 s2 : DReg) (s : State) :
    exec (.mul d s1 s2) s = .next (s.writeD d (decMul s.cfg (s.readD s1) (s.readD s2))) := rfl

/-- Settles O42. -/
theorem mulSpecialOperands : Obligations.MulSpecialOperands := by
  intro s d s1 s2 a b n hspecial
  refine ⟨_, exec_mul d s1 s2 s, onlyD_writeD _ _ _, ?_⟩
  rw [readD_writeD_same, decMul, mulCore]
  refine congrArg (DValue.withPrec · _) ?_
  rw [mulRecord]
  split_ifs with hnan hinvalid hinf hzero
  · rfl
  · rfl
  · rfl
  · rfl
  · obtain ⟨hna, hnb⟩ := not_or.mp hnan
    obtain ⟨hia, hib⟩ := not_or.mp hinf
    obtain ⟨hza, hzb⟩ := not_or.mp hzero
    obtain h | h | h | h := hspecial
    · exact absurd (cls_fin_of_ne hna hia) h
    · exact absurd (cls_fin_of_ne hnb hib) h
    · exact absurd h hza
    · exact absurd h hzb

/-- Settles O43. -/
theorem mulTruncatesTheFormedProducts : Obligations.MulTruncatesTheFormedProducts := by
  intro s d s1 s2 hinv h1 h2 a b p q
  obtain ⟨ha1, ha2⟩ := (hinv.values s1).precBounds
  refine ⟨_, exec_mul d s1 s2 s, onlyD_writeD _ _ _, ?_, ?_⟩
  · rw [readD_writeD_same, decMul, mulCore_prec]
    exact prec_toNat (lt_of_le_of_lt ((min_le_left _ _).trans ha2) hinv.valid.n_lt)
  · have ht := decMul_truncates hinv.valid (hinv.values s1) (hinv.values s2) h1 h2
    rw [triangularProduct_eq_sum] at ht
    rw [readD_writeD_same]
    exact ht

/-- Settles O44. -/
theorem mulLaws : Obligations.MulLaws := by
  refine ⟨fun s d s1 s2 hinv => ?_, fun s d s1 s2 hinv hfin hprec hone => ?_⟩
  · refine ⟨_, exec_mul d s1 s2 s, ?_, onlyD_writeD _ _ _, fun h1 h2 hf => ?_⟩
    · rw [exec_mul, decMul_comm]
    · rw [readD_writeD_same] at hf ⊢
      exact abs_val_decMul_le hinv.valid (hinv.values s1) (hinv.values s2) h1 h2 hf
  · refine ⟨_, exec_mul d s1 s2 s, onlyD_writeD _ _ _, ?_⟩
    rw [readD_writeD_same, hone, recordOf_singleton]
    exact decMul_one hinv.valid (hinv.values s1) hfin hprec

end Machine

end Sys2Proof

/-! PROOF. The special lines of `RECIP` and `DIV` (spec/43_divide_reciprocal.md R171, R173, R177, R178). -/

namespace Sys2Proof

open Machine

/-! ### `Recip` line by line (R173) -/

section
variable {c : Config} {x : DValue}

theorem decRecip_nan (h : x.cls = .nan) : decRecip c x = DValue.notANumber c.n := if_pos h

theorem decRecip_zero (h : x.isZero = true) : decRecip c x = DValue.infinity c.n false := by
  rw [decRecip, if_neg (by simp [(isZero_iff.mp h).1]), if_pos h]

theorem decRecip_inf (h : x.cls = .inf) : decRecip c x = DValue.zero c.n := by simp [decRecip, DValue.isZero, h]

theorem decRecip_one (h : FiniteNonzero x) (hone : isOne c.n x.absolute = true) : decRecip c x = x.withPrec c.n := by
  simp [decRecip, h.1, h.2, isOne_withPrec, hone]

theorem decRecip_rounds (h : FiniteNonzero x) (hone : isOne c.n x.absolute = false) :
    decRecip c x = completeRecip c x (recipIterate c (x.absolute.withPrec c.n)) := by
  simp [decRecip, h.1, h.2, isOne_withPrec, hone]

theorem isOne_absolute_iff (hc : c.Valid) (hx : x.wf c) :
    isOne c.n x.absolute = true ↔ x.cls = .fin ∧ (|x.val| = 1 ∨ |x.val| = 1 - (10 : ℚ) ^ (-(8 * c.n : Int))) := by
  rw [isOne_iff_val hc (absolute_wf hx), absolute_val, absolute_cls]

theorem recipIterate_wf_absolute (hc : c.Valid) (hx : x.wf c) (h : FiniteNonzero x) :
    (recipIterate c (x.absolute.withPrec c.n)).wf c :=
  recipIterate_wf hc (withPrec_full_wf hc (absolute_wf hx)) h.1 h.2

/-- Completion gives the last iterate full precision and the sign of the operand, except for `Zero` and NaN (R177). -/
theorem completeRecip_eq {y : DValue} (hy : y.wf c) :
    completeRecip c x y =
      if y.isZero = true ∨ y.cls = .nan then y.withPrec c.n else { y.withPrec c.n with neg := x.neg } := by
  unfold completeRecip
  split
  · next h => rw [if_pos (.inr h), hy.nanForm h]
  · next h => rw [if_neg (by simp [DValue.isZero, h]), hy.infForm h]; rfl
  · next h =>
    by_cases hz : y.isZero = true
    · rw [if_pos hz, if_pos (.inl hz), hy.zeroForm hz]
    · rw [if_neg hz, if_neg (by simp [hz, h])]

theorem completeRecip_prec (hc : c.Valid) {y : DValue} (hy : y.wf c) : (completeRecip c x y).prec.toNat = c.n := by
  rw [completeRecip_eq hy]
  split_ifs <;> exact prec_toNat hc.n_lt

theorem completeRecip_neg {y : DValue} (hy : y.wf c) (hz : (completeRecip c x y).isZero = false)
    (hnan : (completeRecip c x y).cls ≠ .nan) : (completeRecip c x y).neg = x.neg := by
  rw [completeRecip_eq hy] at hz hnan ⊢
  split_ifs at hz hnan ⊢ with h
  · obtain h | h := h
    · rw [withPrec_isZero, h] at hz; cases hz
    · exact absurd h hnan
  · rfl

theorem decRecip_prec (hc : c.Valid) (hx : x.wf c) : (decRecip c x).prec.toNat = c.n := by
  have hprec := prec_toNat hc.n_lt
  obtain hcls | hcls | hcls : x.cls = .fin ∨ x.cls = .inf ∨ x.cls = .nan := by cases x.cls <;> simp
  · by_cases hz : x.isZero = true
    · rw [decRecip_zero hz]; exact hprec
    · have hnz : FiniteNonzero x := ⟨hcls, Bool.eq_false_iff.mpr hz⟩
      by_cases hone : isOne c.n x.absolute = true
      · rw [decRecip_one hnz hone]; exact hprec
      · rw [decRecip_rounds hnz (Bool.eq_false_iff.mpr hone)]
        exact completeRecip_prec hc (recipIterate_wf_absolute hc hx hnz)
  · rw [decRecip_inf hcls]; exact hprec
  · rw [decRecip_nan hcls]; exact hprec

theorem decRecip_neg (hc : c.Valid) (hx : x.wf c) (h : FiniteNonzero x) (hz : (decRecip c x).isZero = false)
    (hnan : (decRecip c x).cls ≠ .nan) : (decRecip c x).neg = x.neg := by
  by_cases hone : isOne c.n x.absolute = true
  · rw [decRecip_one h hone, withPrec_neg]
  · rw [decRecip_rounds h (Bool.eq_false_iff.mpr hone)] at hz hnan ⊢
    exact completeRecip_neg (recipIterate_wf_absolute hc hx h) hz hnan

end

/-! ### `Mul` line by line (R161) -/

section
variable {c : Config} {a b : DValue}

theorem mulCore_nan (h : a.cls = .nan ∨ b.cls = .nan) (p : Nat) : mulCore c a b p = (DValue.notANumber c.n).withPrec p := by
  rw [mulCore, mulRecord, if_pos h]

theorem mulCore_inf_zero (ha : a.cls = .inf) (hb : b.isZero = true) (p : Nat) :
    mulCore c a b p = (DValue.notANumber c.n).withPrec p := by
  simp [mulCore, mulRecord, ha, hb]

theorem mulCore_zero_inf (ha : a.isZero = true) (hb : b.cls = .inf) (p : Nat) :
    mulCore c a b p = (DValue.notANumber c.n).withPrec p := by
  simp [mulCore, mulRecord, ha, hb]

theorem mulCore_inf_right (ha : FiniteNonzero a ∨ a.cls = .inf) (hb : b.cls = .inf) (p : Nat) :
    mulCore c a b p = (DValue.infinity c.n (a.neg ^^ b.neg)).withPrec p := by
  have hza : a.isZero = false := by
    obtain h | h := ha
    · exact h.2
    · simp [DValue.isZero, h]
  have hna : a.cls ≠ .nan := by
    obtain h | h := ha
    · rw [h.1]; decide
    · rw [h]; decide
  have hzb : b.isZero = false := by simp [DValue.isZero, hb]
  simp [mulCore, mulRecord, hb, hza, hna, hzb]

end

/-! ### `Div` (R171) -/

section
variable {c : Config} {a b : DValue}

theorem sameMagnitude_iff :
    sameMagnitude a b = true ↔ FiniteNonzero a ∧ FiniteNonzero b ∧ a.exp = b.exp ∧ a.limbs = b.limbs := by
  simp only [sameMagnitude, FiniteNonzero, Bool.and_eq_true, beq_iff_eq, Bool.not_eq_true']
  tauto

theorem decDiv_same (h : FiniteNonzero a ∧ FiniteNonzero b ∧ a.exp = b.exp ∧ a.limbs = b.limbs) :
    decDiv c a b = leadingLimb c.n 1 0 (a.neg ^^ b.neg) := if_pos (sameMagnitude_iff.mpr h)

theorem decDiv_of_not_same (h : ¬(FiniteNonzero a ∧ FiniteNonzero b ∧ a.exp = b.exp ∧ a.limbs = b.limbs)) :
    decDiv c a b = decMul c a (decRecip c b) := if_neg (mt sameMagnitude_iff.mp h)

theorem decDiv_withPrec (c : Config) (a b : DValue) (p : Nat) : decDiv c a (b.withPrec p) = decDiv c a b := rfl

/-- `Div` by `Recip` has the precision of the dividend. -/
theorem decMul_decRecip (hc : c.Valid) (ha : a.wf c) (hb : b.wf c) :
    decMul c a (decRecip c b) = mulCore c a (decRecip c b) a.prec.toNat := by
  rw [decMul, decRecip_prec hc hb, min_eq_left ha.precBounds.2]

end

namespace Machine

theorem exec_recip (d src : DReg) (s : State) :
    exec (.recip d src) s = .next (s.writeD d (decRecip s.cfg (s.readD src))) := rfl

theorem exec_div (d s1 s2 : DReg) (s : State) :
    exec (.div d s1 s2) s = .next (s.writeD d (decDiv s.cfg (s.readD s1) (s.readD s2))) := rfl

/-- Settles O45. -/
theorem recipSpecialOperands : Obligations.RecipSpecialOperands := by
  intro s d src hinv x
  have hx := hinv.values src
  refine ⟨_, exec_recip d src s, onlyD_writeD _ _ _, ?_⟩
  rw [readD_writeD_same]
  refine ⟨decRecip_nan, decRecip_zero, decRecip_inf, fun hfin hval => ?_⟩
  have hone := (isOne_absolute_iff hinv.valid hx).mpr ⟨hfin, hval⟩
  refine decRecip_one ⟨hfin, Bool.eq_false_iff.mpr fun hz => ?_⟩ hone
  have hzero : |x.val| = 0 := abs_val_of_isZero hx hz
  have hlt : (10 : ℚ) ^ (-(8 * s.cfg.n : Int)) < 1 :=
    zpow_lt_one_of_neg₀ (by norm_num) (by have := s.cfg.n_ge; omega)
  obtain h | h := hval
  · linarith
  · linarith

/-- Settles O48. -/
theorem divByReciprocal : Obligations.DivByReciprocal := by
  intro s d s1 s2 r hr a b
  refine ⟨_, exec_div d s1 s2 s, onlyD_writeD _ _ _, fun ha hb hexp hlimbs => ?_, fun hdiff => ?_, fun hinv hdiff => ?_,
    fun hne p => ?_⟩
  · rw [readD_writeD_same, decDiv_same ⟨ha, hb, hexp, hlimbs⟩, recordOf_singleton]
    rfl
  · refine ⟨_, _, exec_recip r s2 s, exec_mul d s1 r _, ?_⟩
    rw [readD_writeD_same, readD_writeD_same, readD_writeD_same, readD_writeD_other _ _ (Ne.symm hr),
      decDiv_of_not_same hdiff]
    rfl
  · rw [readD_writeD_same, decDiv_of_not_same hdiff, decMul_decRecip hinv.valid (hinv.values s1) (hinv.values s2),
      mulCore_prec, BitVec.ofNat_toNat, BitVec.setWidth_eq]
  · refine ⟨_, exec_div d s1 s2 _, ?_⟩
    rw [readD_writeD_same, readD_writeD_same, readD_writeD_same, readD_writeD_other _ _ hne, decDiv_withPrec]
    rfl

/-- Settles O49. -/
theorem divSpecialDivisors : Obligations.DivSpecialDivisors := by
  intro s d s1 s2 hinv a b
  refine ⟨_, exec_div d s1 s2 s, onlyD_writeD _ _ _, ?_⟩
  rw [readD_writeD_same]
  have hdiv (h : ¬(FiniteNonzero a ∧ FiniteNonzero b)) :
      decDiv s.cfg (s.readD s1) (s.readD s2) = mulCore s.cfg a (decRecip s.cfg b) a.prec.toNat := by
    rw [decDiv_of_not_same fun hsame => h ⟨hsame.1, hsame.2.1⟩]
    exact decMul_decRecip hinv.valid (hinv.values s1) (hinv.values s2)
  have hzero (hb : b.isZero = true) : ¬(FiniteNonzero a ∧ FiniteNonzero b) := by simp [FiniteNonzero, hb]
  have hinf (hb : b.cls = .inf) : ¬(FiniteNonzero a ∧ FiniteNonzero b) := by simp [FiniteNonzero, hb]
  refine ⟨fun hnan => ?_, fun hb ha => ?_, fun hb ha => ?_, fun hb ha => ?_, fun hb ha => ?_⟩
  · rw [hdiv (by rintro ⟨⟨ha, -⟩, hb, -⟩; rw [ha, hb] at hnan; simp at hnan)]
    refine mulCore_nan (hnan.imp id fun h => ?_) _
    rw [decRecip_nan h]
    rfl
  · rw [hdiv (hzero hb), decRecip_zero hb]
    exact mulCore_zero_inf ha rfl _
  · rw [hdiv (hzero hb), decRecip_zero hb, mulCore_inf_right ha rfl, infinity_neg, Bool.xor_false]
  · rw [hdiv (hinf hb), decRecip_inf hb]
    exact mulCore_inf_zero ha (by simp) _
  · rw [hdiv (hinf hb), decRecip_inf hb]
    exact mulCore_zero _ ha rfl (.inr (by simp)) _

end Machine

end Sys2Proof

/-! PROOF. The seeds meet their contracts, and the Newton rounds of `RECIP` are what the commands of R176 compute
(spec/43_divide_reciprocal.md R172 to R177, spec/44_square_root.md R192). -/

namespace Sys2Proof

open Machine

/-! ### Exact truncations (R13) -/

/-- A number of at most 33 digits loses nothing in a format of at least five limbs. -/
theorem truncN_val {n m : Nat} (hn : 5 ≤ n) (h0 : m ≠ 0) (hm : m < 10 ^ 33) (k : Int) :
    (truncN n m k).val = (m : ℚ) * (10 : ℚ) ^ k := by
  obtain ⟨M, htrunc, -, hM, hle, hlt⟩ := truncN_spec (n := n) (by omega) h0 k
  obtain ⟨hd1, hd2, -⟩ := countDigits_spec h0
  have hdigits : countDigits m ≤ 33 := by
    by_contra h
    exact absurd hm (not_lt.mpr ((Nat.pow_le_pow_right (by norm_num) (by omega)).trans hd2))
  obtain ⟨e, he⟩ : ∃ e, e = 8 * ((k + countDigits m - 1) / 8) := ⟨_, rfl⟩
  rw [← he] at htrunc hle hlt
  have hunit := lastUnit_pos n e
  obtain ⟨j, hj⟩ : ∃ j : Nat, (m : ℚ) * (10 : ℚ) ^ k = j * lastUnit n e := by
    refine ⟨m * 10 ^ (k - (e - 8 * ((n : Int) - 1))).toNat, ?_⟩
    rw [lastUnit, Nat.cast_mul, Nat.cast_pow, Nat.cast_ofNat, ← zpow_natCast, mul_assoc, ← zpow_add₀ (by norm_num)]
    congr 2
    omega
  rw [hj] at hle hlt ⊢
  have hjM : j = M := by
    have h1 : (M : ℚ) ≤ j := le_of_mul_le_mul_right hle hunit
    have h2 : (j : ℚ) < M + 1 := lt_of_mul_lt_mul_right hlt hunit.le
    have h1' : M ≤ j := by exact_mod_cast h1
    have h2' : j < M + 1 := by exact_mod_cast h2
    omega
  have hnats : (truncN n m k).nats = splitLimbs n M := by rw [htrunc, finiteValue_nats (splitLimbs_below n M)]
  have hexp : (truncN n m k).exp = e := by rw [htrunc]; rfl
  rw [val_of_not_neg (truncN_nonneg n m k), abs_val_eq (by rw [hnats, splitLimbs_length]), hnats, hexp,
    limbsNat_splitLimbs, Nat.mod_eq_of_lt hM, hjM]

theorem truncN_finiteNonzero {n m : Nat} (hn : 1 ≤ n) (h0 : m ≠ 0) (k : Int) : FiniteNonzero (truncN n m k) := by
  obtain ⟨M, htrunc, hlow, hM, -⟩ := truncN_spec hn h0 k
  rw [htrunc]
  refine ⟨rfl, ?_⟩
  rw [finiteValue_isZero (splitLimbs_below n M)]
  simpa using splitLimbs_head hn hlow hM

/-- The top three limbs are the magnitude up to their last unit (R174). -/
theorem abs_val_topThree {c : Config} {v : DValue} (hv : v.wf c) :
    ∃ r : ℚ, |v.val| = r * (10 : ℚ) ^ (v.exp - 16) ∧ (topThree v : ℚ) ≤ r ∧ r < topThree v + 1 := by
  have hn := c.n_ge
  obtain ⟨rest, hnats⟩ := nats_cons hv
  have hlen : rest.length = c.n - 3 := by
    have h := hv.natsLength
    rw [hnats] at h
    simp only [List.length_cons] at h
    omega
  have hrest : limbsNat rest < limbBase ^ (c.n - 3) := by
    rw [← hlen]
    refine limbsNat_lt fun l hl => hv.natsBelow l ?_
    rw [hnats]
    exact List.mem_cons_of_mem _ (List.mem_cons_of_mem _ (List.mem_cons_of_mem _ hl))
  have hnumber : limbsNat v.nats = topThree v * limbBase ^ (c.n - 3) + limbsNat rest := by
    have hsplit := limbsNat_append [v.limb 0, v.limb 1, v.limb 2] rest
    rw [limbsNat_three, ← add_assoc, hlen] at hsplit
    rw [hnats]
    exact hsplit
  have hscale : (limbBase : ℚ) ^ (c.n - 3) * lastUnit c.n v.exp = (10 : ℚ) ^ (v.exp - 16) := by
    rw [mul_comm, lastUnit_mul_pow, lastUnit]
    congr 1
    omega
  have hP : (0 : ℚ) < (limbBase : ℚ) ^ (c.n - 3) := by exact_mod_cast limbBase_pow_pos (c.n - 3)
  have hrest' : (limbsNat rest : ℚ) < (limbBase : ℚ) ^ (c.n - 3) := by exact_mod_cast hrest
  refine ⟨topThree v + limbsNat rest / (limbBase : ℚ) ^ (c.n - 3), ?_, ?_, ?_⟩
  · rw [abs_val_eq hv.natsLength, hnumber, ← hscale, Nat.cast_add, Nat.cast_mul, Nat.cast_pow, ← mul_assoc]
    congr 1
    rw [add_mul, div_mul_cancel₀ _ hP.ne']
  · exact le_add_of_nonneg_right (by positivity)
  · linarith [(div_lt_one hP).mpr hrest']

/-! ### The seed of `RECIP` (R174) -/

section
variable {c : Config} {a : DValue} (hc : c.Valid) (ha : a.wf c) (h : FiniteNonzero a)

include ha h in
/-- The digits of the reference seed. -/
theorem seedDigits_bounds : 10 ^ 40 / topThree a ≠ 0 ∧ 10 ^ 40 / topThree a < 10 ^ 33 := by
  obtain ⟨h1, h2⟩ := topThree_bounds ha h.1 h.2
  have hlow : 1 ≤ 10 ^ 40 / topThree a := by rw [Nat.le_div_iff_mul_le (by omega)]; omega
  have hhigh : 10 ^ 40 / topThree a < 10 ^ 33 := by rw [Nat.div_lt_iff_lt_mul (by omega)]; omega
  omega

include ha h in
theorem seedRecipReference_val :
    (seedRecipReference c.n a).val = ((10 ^ 40 / topThree a : Nat) : ℚ) * (10 : ℚ) ^ (-24 - a.exp) := by
  obtain ⟨h1, h2⟩ := seedDigits_bounds ha h
  exact truncN_val c.n_ge h1 h2 _

include hc ha h

theorem seedRecipReference_contract (hneg : a.neg = false) : SeedRecipContract c a (seedRecipReference c.n a) := by
  obtain ⟨h0, hfits⟩ := seedDigits_bounds ha h
  have hseed : FiniteNonzero (seedRecipReference c.n a) := truncN_finiteNonzero (by have := c.n_ge; omega) h0 _
  refine ⟨⟨hseed.1, limb_ne_zero hseed.1 hseed.2, truncN_nonneg _ _ _,
    (seedRecipReference_truncates hc ha h.1 h.2).wf hc⟩, ?_⟩
  obtain ⟨hT, hT'⟩ := topThree_bounds ha h.1 h.2
  obtain ⟨r, hr, hr1, hr2⟩ := abs_val_topThree ha
  have hquot1 : 10 ^ 40 / topThree a * topThree a ≤ 10 ^ 40 := Nat.div_mul_le_self _ _
  have hquot2 : 10 ^ 40 < (10 ^ 40 / topThree a + 1) * topThree a := by
    rw [mul_comm]; exact Nat.lt_mul_div_succ _ (by omega)
  have hquot3 : 10 ^ 40 / topThree a ≤ 10 ^ 24 := by
    rw [Nat.div_le_iff_le_mul_add_pred (by omega)]; omega
  have hscale : (10 : ℚ) ^ (a.exp - 16) * (10 : ℚ) ^ (-24 - a.exp) = 1 / 10 ^ 40 := by
    rw [← zpow_add₀ (by norm_num), show a.exp - 16 + (-24 - a.exp) = -(40 : Nat) by push_cast; ring, zpow_neg, zpow_natCast,
      one_div]
  have hproduct : a.val * (seedRecipReference c.n a).val = r * (10 ^ 40 / topThree a : Nat) / 10 ^ 40 := by
    rw [val_of_not_neg hneg, hr, seedRecipReference_val ha h, mul_mul_mul_comm, hscale, mul_one_div]
  rw [hproduct]
  generalize 10 ^ 40 / topThree a = q at hquot1 hquot2 hquot3 ⊢
  generalize topThree a = m at hT hT' hr1 hr2 hquot1 hquot2
  have hq1 : (q : ℚ) * m ≤ 10 ^ 40 := by exact_mod_cast hquot1
  have hq2 : (10 : ℚ) ^ 40 < (q + 1) * m := by exact_mod_cast hquot2
  have hq3 : (q : ℚ) ≤ 10 ^ 24 := by exact_mod_cast hquot3
  have hm : (m : ℚ) < 10 ^ 24 := by exact_mod_cast hT'
  have hq0 : (0 : ℚ) ≤ q := Nat.cast_nonneg q
  have hlow : (10 : ℚ) ^ 40 - 10 ^ 24 ≤ r * q := by nlinarith
  have hhigh : r * q ≤ (10 : ℚ) ^ 40 + 10 ^ 24 := by nlinarith
  rw [abs_le]
  constructor
  · rw [le_sub_iff_add_le, le_div_iff₀ (by norm_num)]
    refine le_trans ?_ hlow
    norm_num
  · rw [sub_le_iff_le_add, div_le_iff₀ (by norm_num)]
    refine hhigh.trans ?_
    norm_num

theorem seedRecip_contract (hneg : a.neg = false) : SeedRecipContract c a (seedRecip c a) := by
  unfold seedRecip
  split
  · exact seedRecipReference_contract hc ha h hneg
  · split
    · next hcontract => exact hcontract
    · exact seedRecipReference_contract hc ha h hneg

end

theorem seedRecip_reference {c : Config} (h : c.seedRecip = .reference) (a : DValue) :
    seedRecip c a = seedRecipReference c.n a := by
  rw [seedRecip, h]

theorem finiteNonzero_of_limb {v : DValue} (hcls : v.cls = .fin) (hlimb : v.limb 0 ≠ 0) : FiniteNonzero v :=
  ⟨hcls, Bool.eq_false_iff.mpr fun hz => hlimb (isZero_iff.mp hz).2⟩

/-! ### The rounds of `RECIP` (R175, R176) -/

theorem mulCore_withPrec_left (c : Config) (a b : DValue) (q p : Nat) : mulCore c (a.withPrec q) b p = mulCore c a b p := by
  have h := mulCore_withPrec c a b q b.prec.toNat p
  rwa [withPrec_prec_self rfl] at h

theorem mulCore_withPrec_right (c : Config) (a b : DValue) (q p : Nat) : mulCore c a (b.withPrec q) p = mulCore c a b p := by
  have h := mulCore_withPrec c a b a.prec.toNat q p
  rwa [withPrec_prec_self rfl] at h

theorem newtonRound_withPrec_operand (c : Config) (a y : DValue) (q p : Nat) :
    newtonRound c (a.withPrec q) y p = newtonRound c a y p := by
  rw [newtonRound, mulCore_withPrec_left, ← newtonRound]

theorem newtonRound_withPrec_iterate (c : Config) (a y : DValue) (q p : Nat) :
    newtonRound c a (y.withPrec q) p = newtonRound c a y p := by
  rw [newtonRound, mulCore_withPrec_left, mulCore_withPrec_right, ← newtonRound]

namespace Machine

/-- The limb count of round `k` as a number (R175). -/
def roundPrecision (n k : Nat) : Nat := min n ((12 * 2 ^ k + 13) / 4)

theorem roundLimbs_toNat {c : Config} (hc : c.Valid) (k : Nat) : (roundLimbs c.n k).toNat = roundPrecision c.n k := by
  have hn := hc.n_le
  rw [roundLimbs, BitVec.toNat_ofNat]
  exact Nat.mod_eq_of_lt (by omega)

theorem roundPrecision_legal (c : Config) (k : Nat) : 1 ≤ roundPrecision c.n k ∧ roundPrecision c.n k ≤ c.n := by
  have hn := c.n_ge
  have hpow : 1 ≤ 2 ^ k := Nat.one_le_two_pow
  unfold roundPrecision
  omega

theorem exec_abs (d src : DReg) (s : State) : exec (.abs d src) s = .next (s.writeD d (s.readD src).absolute) := rfl

/-- The commands of a list of Newton rounds leave the iterate after them in `D[y]`. -/
theorem execAll_recipRounds {a y t w : DReg} (hd : [a, y, t, w].Nodup) (ks : List Nat) {s : State} (hc : s.cfg.Valid) :
    ∃ u, execAll (ks.flatMap fun k => recipRoundCommands a y t w (roundLimbs s.cfg.n k)) s = .next u ∧
      u.readD y = ks.foldl (fun z k => newtonRound s.cfg (s.readD a) z (roundPrecision s.cfg.n k)) (s.readD y) := by
  induction ks generalizing s with
  | nil => exact ⟨s, rfl, rfl⟩
  | cons k ks ih =>
    have hp := roundLimbs_toNat hc k
    obtain ⟨v, hround, hcfg, hav, hyv⟩ := execAll_recipRound (s := s) hd (p := roundLimbs s.cfg.n k)
      (by rw [hp]; exact roundPrecision_legal s.cfg k)
    obtain ⟨u, hrest, hyu⟩ := ih (s := v) (by rw [hcfg]; exact hc)
    rw [hcfg] at hrest hyu
    refine ⟨u, ?_, ?_⟩
    · rw [List.flatMap_cons, execAll_append hround]
      exact hrest
    · rw [hyu, hav, hyv, hp, List.foldl_cons]
      simp only [newtonRound_withPrec_operand]

theorem recipIterate_eq {c : Config} {r : Nat} (h1 : 12 * 2 ^ r ≤ 8 * c.n) (h2 : 8 * c.n < 12 * 2 ^ (r + 1)) (a : DValue)
    (p : Nat) : recipIterate c (a.withPrec p) =
      (List.range (r + 1)).foldl (fun z k => newtonRound c a z (roundPrecision c.n k)) (seedRecip c (a.withPrec p)) := by
  rw [recipIterate, schedule_eq h1 h2, List.foldl_map]
  simp only [newtonRound_withPrec_operand]
  rfl

/-- Settles O47. -/
theorem recipCompletes : Obligations.RecipCompletes := by
  refine ⟨fun s d src hinv => ?_, ?_⟩
  · have hx := hinv.values src
    refine ⟨_, exec_recip d src s, onlyD_writeD _ _ _, ?_⟩
    rw [readD_writeD_same]
    exact ⟨decRecip_wf hinv.valid hx, decRecip_prec hinv.valid hx, decRecip_neg hinv.valid hx⟩
  · intro s d src a y t w r hinv hd hsrc h1 h2 x hx hone hnines m
    have hwf : x.wf s.cfg := hinv.values src
    have hawf := withPrec_full_wf hinv.valid (absolute_wf hwf)
    have hval : (x.absolute.withPrec s.cfg.n).val = |x.val| := absolute_val x
    have hcontract := seedRecip_contract hinv.valid hawf hx rfl
    obtain ⟨⟨hcls, hlimb, hneg, hseed⟩, herror⟩ := hcontract
    rw [hval] at herror
    have hay : a ≠ y := fun h => by simp [h] at hd
    have hnotone : isOne s.cfg.n x.absolute = false := by
      rw [Bool.eq_false_iff, ne_eq, isOne_absolute_iff hinv.valid hwf]
      rintro ⟨-, h | h⟩
      · exact hone h
      · exact hnines h
    obtain ⟨u, hrun, hy⟩ := execAll_recipRounds hd (List.range (r + 1))
      (s := (s.writeD y (seedRecip s.cfg (x.absolute.withPrec s.cfg.n))).writeD a x.absolute) hinv.valid
    rw [readD_writeD_same, readD_writeD_other _ _ (Ne.symm hay), readD_writeD_same] at hy
    have hiterate : u.readD y = recipIterate s.cfg (x.absolute.withPrec s.cfg.n) :=
      hy.trans (recipIterate_eq h1 h2 x.absolute s.cfg.n).symm
    refine ⟨_, _, u, ⟨hseed, finiteNonzero_of_limb hcls hlimb, hneg, herror⟩, fun href => ?_, exec_recip d src s,
      onlyD_writeD _ _ _, ?_, ?_⟩
    · rw [seedRecip_reference href, seedRecipReference_val hawf hx]
      rfl
    · rw [execAll_next (exec_abs a src _), readD_writeD_other _ _ hsrc]
      exact hrun
    · rw [readD_writeD_same, decRecip_rounds hx hnotone, hiterate,
        completeRecip_eq (recipIterate_wf_absolute hinv.valid hwf hx)]

end Machine

end Sys2Proof

/-! PROOF. `SQRT` (spec/44_square_root.md R190 to R194): its special lines, the contract of its seeds, and the coupled
rounds as the commands of R193 compute them. -/

namespace Sys2Proof

open Machine

/-! ### `Sqrt` line by line (R190, R191) -/

section
variable {c : Config} {x : DValue}

theorem sqrtDomainError_iff : sqrtDomainError x = true ↔ x.cls = .nan ∨ x.neg = true := by simp [sqrtDomainError]

theorem decSqrt_keep (hd : ¬(x.cls = .nan ∨ x.neg = true)) (h : x.isZero = true ∨ isOne c.n x = true) :
    decSqrt c x = x.withPrec c.n := by
  rw [decSqrt, if_neg hd, if_pos h]

theorem decSqrt_inf (hc : c.Valid) (hx : x.wf c) (hd : ¬(x.cls = .nan ∨ x.neg = true)) (h : x.cls = .inf) :
    decSqrt c x = x.withPrec c.n := by
  obtain ⟨-, hneg⟩ := not_or.mp hd
  have hinf := hx.infForm h
  rw [Bool.eq_false_iff.mpr hneg] at hinf
  have hline : ¬(x.isZero = true ∨ isOne c.n x = true) := by
    rw [isOne_iff_val hc hx, isZero_iff, h]; simp
  rw [decSqrt, if_neg hd, if_neg hline, if_pos h, hinf]

theorem decSqrt_rounds (h : FiniteNonzero x) (hneg : x.neg = false) (hone : isOne c.n x = false) :
    decSqrt c x = ((schedule c.n).foldl (sqrtRound c (x.withPrec c.n)) (seedSqrt c (x.withPrec c.n))).1.withPrec c.n := by
  simp [decSqrt, h.1, h.2, hneg, hone]

theorem decSqrt_prec (hc : c.Valid) (x : DValue) : (decSqrt c x).prec.toNat = c.n := by
  have hprec := prec_toNat hc.n_lt
  unfold decSqrt
  split_ifs <;> exact hprec

end

/-! ### The seeds of `SQRT` (R192) -/

theorem isqrt_eq_sqrt (m : Nat) : isqrt m = Nat.sqrt m := Nat.eq_sqrt.mpr (isqrt_spec m)

section
variable {c : Config} {x : DValue} (hc : c.Valid) (hx : x.wf c) (h : FiniteNonzero x)

include hx h in
/-- The digits of the reference seeds. -/
theorem seedRoot_digits : (seedRoot x ≠ 0 ∧ seedRoot x < 10 ^ 33) ∧
    10 ^ 48 / (2 * seedRoot x) ≠ 0 ∧ 10 ^ 48 / (2 * seedRoot x) < 10 ^ 33 := by
  obtain ⟨h1, h2⟩ := seedRoot_bounds hx h.1 h.2
  have hlow : 1 ≤ 10 ^ 48 / (2 * seedRoot x) := by rw [Nat.le_div_iff_mul_le (by omega)]; omega
  have hhigh : 10 ^ 48 / (2 * seedRoot x) < 10 ^ 33 := by rw [Nat.div_lt_iff_lt_mul (by omega)]; omega
  omega

include hx h in
theorem seedSqrtReference_val :
    (seedSqrtReference c.n x).1.val = (seedRoot x : ℚ) * (10 : ℚ) ^ ((x.exp - 16) / 2 - 12) ∧
      (seedSqrtReference c.n x).2.val =
        ((10 ^ 48 / (2 * seedRoot x) : Nat) : ℚ) * (10 : ℚ) ^ (-36 - (x.exp - 16) / 2) := by
  obtain ⟨⟨h1, h2⟩, h3, h4⟩ := seedRoot_digits hx h
  exact ⟨truncN_val c.n_ge h1 h2 _, truncN_val c.n_ge h3 h4 _⟩

include hx h in
theorem seedSqrtReference_square_error (hneg : x.neg = false) :
    |(seedSqrtReference c.n x).1.val ^ 2 / x.val - 1| ≤ 1 / 10 ^ 12 := by
  obtain ⟨hT, -⟩ := topThree_bounds hx h.1 h.2
  obtain ⟨-, hs⟩ := seedRoot_bounds hx h.1 h.2
  obtain ⟨hroot1, hroot2⟩ := isqrt_spec (topThree x * 10 ^ 24)
  obtain ⟨r, hr, hr1, hr2⟩ := abs_val_topThree hx
  have hmod := hx.expMod
  rw [(seedSqrtReference_val hx h).1, val_of_not_neg hneg, hr]
  have hhalf : x.exp - 16 = 2 * ((x.exp - 16) / 2) := by omega
  generalize (x.exp - 16) / 2 = k at hhalf ⊢
  rw [hhalf]
  unfold seedRoot at hs ⊢
  generalize isqrt (topThree x * 10 ^ 24) = root at hs hroot1 hroot2 ⊢
  generalize topThree x = m at hT hroot1 hroot2 hr1 hr2
  have hm : (10 : ℚ) ^ 16 ≤ m := by exact_mod_cast hT
  have hs' : (root : ℚ) < 10 ^ 24 := by exact_mod_cast hs
  have hroot1' : (root : ℚ) * root ≤ m * 10 ^ 24 := by exact_mod_cast hroot1
  have hroot2' : (m : ℚ) * 10 ^ 24 < (root + 1) * (root + 1) := by exact_mod_cast hroot2
  have hr0 : 0 < r * 10 ^ 24 := by linarith
  have hpow := ten_zpow_pos (2 * k)
  have hsquare : ((root : ℚ) * (10 : ℚ) ^ (k - 12)) ^ 2 = (root : ℚ) * root / 10 ^ 24 * (10 : ℚ) ^ (2 * k) := by
    have hexp : ((10 : ℚ) ^ (k - 12)) ^ 2 = (10 : ℚ) ^ (2 * k) / 10 ^ 24 := by
      rw [← zpow_natCast, ← zpow_mul, eq_div_iff (by norm_num), ← zpow_natCast (10 : ℚ) 24, ← zpow_add₀ (by norm_num)]
      congr 1
      push_cast
      ring
    rw [mul_pow, hexp]
    ring
  rw [hsquare, mul_div_mul_right _ _ hpow.ne', div_div, mul_comm ((10 : ℚ) ^ 24) r, abs_le]
  constructor
  · rw [le_sub_iff_add_le, le_div_iff₀ hr0]
    linarith
  · rw [sub_le_iff_le_add, div_le_iff₀ hr0]
    linarith

include hx h in
theorem seedSqrtReference_pair_error :
    |2 * (seedSqrtReference c.n x).2.val * (seedSqrtReference c.n x).1.val - 1| ≤ 1 / 10 ^ 12 := by
  obtain ⟨hs1, hs2⟩ := seedRoot_bounds hx h.1 h.2
  obtain ⟨hy, hv⟩ := seedSqrtReference_val hx h
  rw [hy, hv]
  have hquot1 : 10 ^ 48 / (2 * seedRoot x) * (2 * seedRoot x) ≤ 10 ^ 48 := Nat.div_mul_le_self _ _
  have hquot2 : 10 ^ 48 < (10 ^ 48 / (2 * seedRoot x) + 1) * (2 * seedRoot x) := by
    rw [mul_comm]; exact Nat.lt_mul_div_succ _ (by omega)
  generalize 10 ^ 48 / (2 * seedRoot x) = q at hquot1 hquot2 ⊢
  generalize seedRoot x = root at hs1 hs2 hquot1 hquot2 ⊢
  generalize (x.exp - 16) / 2 = k
  have hq1 : (q : ℚ) * (2 * root) ≤ 10 ^ 48 := by exact_mod_cast hquot1
  have hq2 : (10 : ℚ) ^ 48 < (q + 1) * (2 * root) := by exact_mod_cast hquot2
  have hroot : (root : ℚ) < 10 ^ 24 := by exact_mod_cast hs2
  have hscale : (10 : ℚ) ^ (-36 - k) * (10 : ℚ) ^ (k - 12) = 1 / 10 ^ 48 := by
    rw [← zpow_add₀ (by norm_num), show -36 - k + (k - 12) = -(48 : Nat) by push_cast; ring, zpow_neg, zpow_natCast, one_div]
  have hproduct : 2 * ((q : ℚ) * (10 : ℚ) ^ (-36 - k)) * ((root : ℚ) * (10 : ℚ) ^ (k - 12)) =
      (q : ℚ) * (2 * root) / 10 ^ 48 := by
    rw [div_eq_mul_one_div, ← hscale]
    ring
  rw [hproduct, abs_le]
  constructor
  · rw [le_sub_iff_add_le, le_div_iff₀ (by norm_num)]
    linarith
  · rw [sub_le_iff_le_add, div_le_iff₀ (by norm_num)]
    linarith

include hc hx h

theorem seedSqrtReference_contract (hneg : x.neg = false) :
    SeedSqrtContract c x (seedSqrtReference c.n x).1 (seedSqrtReference c.n x).2 := by
  obtain ⟨⟨h1, -⟩, h3, -⟩ := seedRoot_digits hx h
  obtain ⟨hy, hv⟩ := seedSqrtReference_wf hc hx h.1 h.2
  have hn := c.n_ge
  have hyn : FiniteNonzero (seedSqrtReference c.n x).1 := truncN_finiteNonzero (by omega) h1 _
  have hvn : FiniteNonzero (seedSqrtReference c.n x).2 := truncN_finiteNonzero (by omega) h3 _
  exact ⟨⟨hyn.1, limb_ne_zero hyn.1 hyn.2, truncN_nonneg _ _ _, hy⟩,
    ⟨hvn.1, limb_ne_zero hvn.1 hvn.2, truncN_nonneg _ _ _, hv⟩,
    seedSqrtReference_square_error hx h hneg, seedSqrtReference_pair_error hx h⟩

theorem seedSqrt_contract (hneg : x.neg = false) : SeedSqrtContract c x (seedSqrt c x).1 (seedSqrt c x).2 := by
  unfold seedSqrt
  split
  · exact seedSqrtReference_contract hc hx h hneg
  · split
    · next hcontract => exact hcontract
    · exact seedSqrtReference_contract hc hx h hneg

end

theorem seedSqrt_reference {c : Config} (h : c.seedSqrt = .reference) (x : DValue) :
    seedSqrt c x = seedSqrtReference c.n x := by
  rw [seedSqrt, h]

/-! ### The rounds of `SQRT` (R193) -/

theorem sqrtRoundV_withPrec (c : Config) (y v : DValue) (q p : Nat) :
    sqrtRoundV c y (v.withPrec q) p = sqrtRoundV c y v p := by
  rw [sqrtRoundV, mulCore_withPrec_right, mulCore_withPrec_right, decAdd_withPrec_left, ← sqrtRoundV]

theorem sqrtRound_withPrec (c : Config) (x y v : DValue) (q p : Nat) :
    sqrtRound c x (y, v.withPrec q) p = sqrtRound c x (y, v) p := by
  simp only [sqrtRound, sqrtRoundV_withPrec]

namespace Machine

/-- The pair after the rounds of a list of round numbers. -/
def sqrtIterate (c : Config) (x : DValue) (ks : List Nat) (yv : DValue × DValue) : DValue × DValue :=
  ks.foldl (fun z k => sqrtRound c x z (roundPrecision c.n k)) yv

theorem sqrtIterate_withPrec (c : Config) (x y v : DValue) (q : Nat) (ks : List Nat) :
    (sqrtIterate c x ks (y, v.withPrec q)).1 = (sqrtIterate c x ks (y, v)).1 := by
  cases ks with
  | nil => rfl
  | cons k ks => rw [sqrtIterate, List.foldl_cons, sqrtRound_withPrec, ← List.foldl_cons, ← sqrtIterate]

/-- The commands of a list of coupled rounds leave the first of the pair after them in `D[y]`. -/
theorem execAll_sqrtRounds {a y v t w : DReg} (hd : [a, y, v, t, w].Nodup) (ks : List Nat) {s : State} (hc : s.cfg.Valid) :
    ∃ u, execAll (ks.flatMap fun k => sqrtRoundCommands a y v t w (roundLimbs s.cfg.n k)) s = .next u ∧
      u.readD y = (sqrtIterate s.cfg (s.readD a) ks (s.readD y, s.readD v)).1 := by
  induction ks generalizing s with
  | nil => exact ⟨s, rfl, rfl⟩
  | cons k ks ih =>
    have hp := roundLimbs_toNat hc k
    obtain ⟨s', hround, hcfg, ha, hy, hv⟩ := execAll_sqrtRound (s := s) hd (p := roundLimbs s.cfg.n k)
      (by rw [hp]; exact roundPrecision_legal s.cfg k) hc.n_lt
    obtain ⟨u, hrest, hyu⟩ := ih (s := s') (by rw [hcfg]; exact hc)
    rw [hcfg] at hrest hyu
    refine ⟨u, ?_, ?_⟩
    · rw [List.flatMap_cons, execAll_append hround]
      exact hrest
    · rw [hyu, ha, hy, hv, hp, sqrtIterate_withPrec]
      rfl

theorem decSqrt_eq {c : Config} {x : DValue} {r : Nat} (h1 : 12 * 2 ^ r ≤ 8 * c.n) (h2 : 8 * c.n < 12 * 2 ^ (r + 1))
    (h : FiniteNonzero x) (hneg : x.neg = false) (hone : isOne c.n x = false) :
    decSqrt c x = (sqrtIterate c x (List.range (r + 1)) (seedSqrt c (x.withPrec c.n))).1.withPrec c.n := by
  rw [decSqrt_rounds h hneg hone, schedule_eq h1 h2, List.foldl_map]
  rfl

theorem exec_sqrt_of_domainError {s : State} {src : DReg} (d : DReg)
    (h : (s.readD src).cls = .nan ∨ (s.readD src).neg = true) :
    exec (.sqrt d src) s = .next ((s.writeD d (DValue.notANumber s.cfg.n)).raise .dom) := by
  have herr := sqrtDomainError_iff.mpr h
  show execSqrt d src s = _
  rw [execSqrt, if_pos herr, decSqrt_of_domainError herr]

theorem exec_sqrt {s : State} {src : DReg} (d : DReg) (h : ¬((s.readD src).cls = .nan ∨ (s.readD src).neg = true)) :
    exec (.sqrt d src) s = .next (s.writeD d (decSqrt s.cfg (s.readD src))) := by
  show execSqrt d src s = _
  rw [execSqrt, if_neg (mt sqrtDomainError_iff.mp h)]

theorem exec_mov (d src : DReg) (s : State) : exec (.mov d src) s = .next (s.writeD d (s.readD src)) := rfl

/-- Settles O50. -/
theorem sqrtDomainAndSpecials : Obligations.SqrtDomainAndSpecials := by
  intro s d src hinv x
  have hx : x.wf s.cfg := hinv.values src
  refine ⟨fun hd => ?_, fun hd => ?_, ?_⟩
  · refine ⟨_, exec_sqrt_of_domainError d hd, ?_, ?_⟩
    · exact readD_writeD_same _ _ _
    · obtain ⟨hD, hX, -, hrecord, htext, hport⟩ := onlyD_writeD s d (DValue.notANumber s.cfg.n)
      exact ⟨hD, hX, rfl, hrecord, htext, hport⟩
  · refine ⟨_, exec_sqrt d hd, onlyD_writeD _ _ _, ?_⟩
    rw [readD_writeD_same]
    refine ⟨decSqrt_wf hinv.valid hx, decSqrt_prec hinv.valid x, ?_⟩
    rintro (hz | hinf | hone)
    · exact decSqrt_keep hd (.inl hz)
    · exact decSqrt_inf hinv.valid hx hd hinf
    · exact decSqrt_keep hd (.inr ((isOne_iff_val hinv.valid hx).mpr hone))
  · intro a y v t w r hd hy hv h1 h2 hfin hneg hone hnines m root k
    have hwf := withPrec_full_wf hinv.valid hx
    have hnz : FiniteNonzero (x.withPrec s.cfg.n) := hfin
    obtain ⟨⟨hycls, hylimb, hyneg, hywf⟩, ⟨hvcls, hvlimb, hvneg, hvwf⟩, herrY, herrV⟩ :=
      seedSqrt_contract hinv.valid hwf hnz hneg
    have hay : y ≠ a := fun h => by simp [h] at hd
    have hav : v ≠ a := fun h => by simp [h] at hd
    have hyv : y ≠ v := fun h => by simp [h] at hd
    have hdom : ¬(x.cls = .nan ∨ x.neg = true) := by rw [hfin.1, hneg]; simp
    have hnotone : isOne s.cfg.n x = false := by
      rw [Bool.eq_false_iff, ne_eq, isOne_iff_val hinv.valid hx]
      rintro ⟨-, h | h⟩
      · exact hone h
      · exact hnines h
    obtain ⟨y0, v0, hseed⟩ : ∃ y0 v0, seedSqrt s.cfg (x.withPrec s.cfg.n) = (y0, v0) := ⟨_, _, rfl⟩
    obtain ⟨u, hrun, hyu⟩ := execAll_sqrtRounds hd (List.range (r + 1))
      (s := ((s.writeD y y0).writeD v v0).writeD a x) hinv.valid
    rw [readD_writeD_same, readD_writeD_other _ _ hay, readD_writeD_other _ _ hav, readD_writeD_other _ _ hyv,
      readD_writeD_same, readD_writeD_same, ← hseed] at hyu
    rw [hseed] at hycls hylimb hyneg hywf hvcls hvlimb hvneg hvwf herrY herrV
    refine ⟨y0, v0, _, u, ⟨hywf, finiteNonzero_of_limb hycls hylimb, hyneg, herrY⟩,
      ⟨hvwf, finiteNonzero_of_limb hvcls hvlimb, hvneg, herrV⟩, fun href => ?_, exec_sqrt d hdom, onlyD_writeD _ _ _, ?_, ?_⟩
    · have hval := seedSqrtReference_val hwf hnz
      rw [← seedSqrt_reference href, hseed, seedRoot, isqrt_eq_sqrt] at hval
      exact hval
    · rw [execAll_next (exec_mov a src _), readD_writeD_other _ _ hv, readD_writeD_other _ _ hy]
      exact hrun
    · rw [readD_writeD_same, hyu]
      exact decSqrt_eq h1 h2 hfin hneg hnotone

end Machine

end Sys2Proof

/-! PROOF. `RECIP` and `SQRT` of powers of ten are exact with the reference seeds (spec/43_divide_reciprocal.md R173 to
R178, spec/44_square_root.md R191 to R195): the seeds are the exact results already, each a single limb, and the rounds,
whose products are single limbs too, leave them. -/

namespace Sys2Proof

open Machine

/-! ### Records of one digit -/

/-- The record of `d * 10^m`, whose leading limb holds the digit. -/
def digitPower (c : Config) (d : Nat) (m : Int) (s : Bool) : DValue :=
  leadingLimb c.n (d * 10 ^ (m % 8).toNat) (8 * (m / 8)) s

theorem digitPower_limb_lt {d : Nat} (hd : d ≤ 9) (m : Int) : d * 10 ^ (m % 8).toNat < limbBase := by
  have hpow : 10 ^ (m % 8).toNat ≤ 10 ^ 7 := Nat.pow_le_pow_right (by norm_num) (by omega)
  calc d * 10 ^ (m % 8).toNat ≤ 9 * 10 ^ 7 := Nat.mul_le_mul hd hpow
    _ < limbBase := by decide

theorem digitPower_of_limb (c : Config) {e : Int} {k : Nat} (he : e % 8 = 0) (hk : k < 8) (s : Bool) :
    recordOf c [BitVec.ofNat 32 (10 ^ k)] e s = digitPower c 1 (e + k) s := by
  have hlimb : 10 ^ k < 2 ^ 32 := lt_of_le_of_lt (Nat.pow_le_pow_right (by norm_num) (show k ≤ 7 by omega)) (by norm_num)
  rw [recordOf_singleton, BitVec.toNat_ofNat, Nat.mod_eq_of_lt hlimb, digitPower, one_mul,
    show ((e + k) % 8).toNat = k by omega, show 8 * ((e + k) / 8) = e by omega]

theorem oneValue_eq (c : Config) : oneValue c = digitPower c 1 0 false := rfl

theorem twoValue_eq (c : Config) : twoValue c = digitPower c 2 0 false := rfl

theorem digitPower_negate {c : Config} {d : Nat} {m : Int} {s : Bool} (h : FiniteNonzero (digitPower c d m s)) :
    (digitPower c d m s).negate = digitPower c d m (!s) := negate_of_finiteNonzero h

section
variable {c : Config} {d : Nat} (hd : 1 ≤ d ∧ d ≤ 9) (m : Int) (s : Bool)
include hd

theorem digitPower_finiteNonzero : FiniteNonzero (digitPower c d m s) :=
  ⟨rfl, leadingLimb_isZero _ (digitPower_limb_lt hd.2 m) (Nat.mul_pos hd.1 (by positivity)).ne' _ _⟩

theorem digitPower_singleLimb : SingleLimb (digitPower c d m s) :=
  singleLimb_leadingLimb c.n (digitPower_limb_lt hd.2 m) _ _

theorem digitPower_abs_val : |(digitPower c d m s).val| = d * (10 : ℚ) ^ m := by
  rw [digitPower, abs_val_leadingLimb (by have := c.n_ge; omega) (digitPower_limb_lt hd.2 m), Nat.cast_mul, Nat.cast_pow,
    Nat.cast_ofNat, mul_assoc, ← zpow_natCast, ← zpow_add₀ (by norm_num)]
  congr 2
  omega

theorem digitPower_wf (hc : c.Valid) (hlo : c.minExp ≤ m) (hhi : m < c.maxExp ∨ (m = c.maxExp ∧ d = 1)) :
    (digitPower c d m s).wf c := by
  have hmod := hc.maxExp_mod
  rw [minExp_eq] at hlo
  refine leadingLimb_wf hc (Nat.mul_pos hd.1 (by positivity)) (digitPower_limb_lt hd.2 m) (by omega)
    (by rw [minExp_eq]; omega) ?_
  obtain hlt | ⟨rfl, rfl⟩ := hhi
  · exact .inl (by omega)
  · exact .inr ⟨by omega, by rw [show ((c.maxExp : Int) % 8).toNat = 0 by omega]; rfl⟩

theorem topThree_digitPower : topThree (digitPower c d m s) = d * 10 ^ (m % 8).toNat * 10 ^ 16 := by
  have hsingle := digitPower_singleLimb (c := c) hd m s
  have hlimb : (digitPower c d m s).limb 0 = d * 10 ^ (m % 8).toNat := by
    rw [digitPower, limb_of_nats (leadingLimb_nats c.n (digitPower_limb_lt hd.2 m) _ _)]
    rfl
  rw [topThree, hsingle 1 (by decide), hsingle 2 (by decide), hlimb]
  omega

end

/-! ### Exact operations on records of one limb -/

section
variable {c : Config} {a b w : DValue} (hc : c.Valid) (ha : a.wf c) (hb : b.wf c)
  (hna : FiniteNonzero a) (hnb : FiniteNonzero b)
include hc ha hb hna hnb

/-- A product of single limbs that the format has is exact at every precision. -/
theorem mulCore_of_singleLimb (hsa : SingleLimb a) (hsb : SingleLimb b) (hw : w.wf c) (hnw : FiniteNonzero w)
    (hval : |w.val| = |a.val| * |b.val|) (hneg : w.neg = (a.neg ^^ b.neg)) {p : Nat} (hp : 1 ≤ p ∧ p ≤ c.n) :
    mulCore c a b p = w.withPrec p := by
  have ht := mulCore_truncates hc ha hb hna.1 hnb.1 hna.2 hnb.2 hp
  rw [triangularProduct_of_singleLimb ha hb hsb hp.2 fun x hx => hsa x (by omega), ← hneg] at ht
  have hfull := ht.eq_of_abs_val hc hw hnw hval
  calc mulCore c a b p = ((mulCore c a b p).withPrec c.n).withPrec p := rfl
    _ = w.withPrec p := by rw [hfull, withPrec_withPrec]

/-- A difference at one exponent that the format has is exact. -/
theorem decAdd_of_same_exp (hs : a.neg ≠ b.neg) (hle : |b.val| ≤ |a.val|) (hexp : a.exp = b.exp) (hw : w.wf c)
    (hnw : FiniteNonzero w) (hval : |w.val| = |a.val| - |b.val|) (hneg : w.neg = a.neg) :
    decAdd c a b = w.withPrec c.n := by
  have ht := (decAdd_differentSign hc ha hb hna.1 hnb.1 hna.2 hnb.2 hs hle).1
  have hwhole : |b.val| / lastUnit c.n a.exp = limbsNat b.nats := by
    rw [abs_val_eq hb.natsLength, hexp, mul_div_cancel_right₀ _ (lastUnit_pos _ _).ne']
  rw [hwhole, Int.floor_natCast, Int.cast_natCast, hexp, ← abs_val_eq hb.natsLength, ← hneg] at ht
  exact ht.eq_of_abs_val hc hw hnw hval

end

section
variable {c : Config} (hc : c.Valid)
include hc

/-- A product of digits that is a digit again, in the format. -/
theorem mulCore_digitPower {d f g : Nat} {m k j : Int} {s t : Bool} {p : Nat} (ha : (digitPower c d m s).wf c)
    (hb : (digitPower c f k t).wf c) (hw : (digitPower c g j (s ^^ t)).wf c) (hd : 1 ≤ d ∧ d ≤ 9) (hf : 1 ≤ f ∧ f ≤ 9)
    (hg : 1 ≤ g ∧ g ≤ 9) (hval : (g : ℚ) * (10 : ℚ) ^ j = (d * f : ℚ) * (10 : ℚ) ^ (m + k)) (hp : 1 ≤ p ∧ p ≤ c.n) :
    mulCore c (digitPower c d m s) (digitPower c f k t) p = (digitPower c g j (s ^^ t)).withPrec p := by
  refine mulCore_of_singleLimb hc ha hb (digitPower_finiteNonzero hd m s) (digitPower_finiteNonzero hf k t)
    (digitPower_singleLimb hd m s) (digitPower_singleLimb hf k t) hw (digitPower_finiteNonzero hg j _) ?_ rfl hp
  rw [digitPower_abs_val hd, digitPower_abs_val hf, digitPower_abs_val hg, hval, zpow_add₀ (by norm_num)]
  ring

/-- A power of ten and its negation cancel. -/
theorem digitPower_cancel {m : Int} (hpos : (digitPower c 1 m false).wf c) (hneg : (digitPower c 1 m true).wf c) :
    decAdd c (digitPower c 1 m true) (digitPower c 1 m false) = DValue.zero c.n :=
  decAdd_cancel hc hneg hpos (digitPower_finiteNonzero (by decide) m true) (digitPower_finiteNonzero (by decide) m false)
    Bool.false_ne_true.symm (by rw [digitPower_abs_val (by decide), digitPower_abs_val (by decide)])

theorem decAdd_zero_withPrec {v : DValue} (hv : v.wf c) (hf : v.cls = .fin) {p : Nat} (hp : 1 ≤ p ∧ p ≤ c.n) :
    decAdd c v ((DValue.zero c.n).withPrec p) = v.withPrec c.n :=
  decAdd_fin_zero hv (withPrec_wf (zero_wf hc) hp hc.n_lt) hf (by simp)

theorem decAdd_two_neg_one : decAdd c (twoValue c) (oneValue c).negate = oneValue c := by
  have hone : FiniteNonzero (oneValue c) := digitPower_finiteNonzero (d := 1) (by decide) 0 false
  have htwo : FiniteNonzero (twoValue c) := digitPower_finiteNonzero (d := 2) (by decide) 0 false
  have hval : |(twoValue c).val| = 2 := by
    rw [twoValue_eq, digitPower_abs_val (by decide)]; norm_num
  refine decAdd_of_same_exp (w := oneValue c) hc (twoValue_wf hc) (negate_wf (oneValue_wf hc)) htwo (finiteNonzero_negate hone)
    ?_ ?_ ?_ (oneValue_wf hc) hone ?_ rfl
  · rw [negate_neg hone]; exact Bool.false_ne_true
  · rw [abs_val_negate, oneValue_val, hval]; norm_num
  · rw [negate_of_finiteNonzero hone]; rfl
  · rw [abs_val_negate, oneValue_val, hval]; norm_num

theorem decSub_two_one (p : Nat) : decSub c (twoValue c) ((oneValue c).withPrec p) = oneValue c := by
  have h := decSub_eq_decAdd_negate hc (twoValue_wf hc) (oneValue_wf hc)
  rw [decAdd_two_neg_one hc] at h
  exact h

end

theorem ten_zpow_ne_nines {n : Nat} (hn : 1 ≤ n) (m : Int) : (10 : ℚ) ^ m ≠ 1 - (10 : ℚ) ^ (-(8 * n : Int)) := by
  have hsmall : (10 : ℚ) ^ (-(8 * n : Int)) ≤ (10 : ℚ) ^ (-1 : Int) := ten_zpow_le (by omega)
  have hpos := ten_zpow_pos (-(8 * n : Int))
  rw [zpow_neg_one] at hsmall
  intro h
  obtain hm | hm := le_or_gt 0 m
  · have hge : (1 : ℚ) ≤ (10 : ℚ) ^ m := one_le_zpow₀ (by norm_num) hm
    linarith
  · have hle : (10 : ℚ) ^ m ≤ (10 : ℚ) ^ (-1 : Int) := ten_zpow_le (by omega)
    rw [zpow_neg_one] at hle
    linarith

/-- A power of ten is taken as one only when it is 1. -/
theorem isOne_of_power_iff {c : Config} (hc : c.Valid) {v : DValue} (hv : v.wf c) (hf : v.cls = .fin) {m : Int}
    (hval : v.val = (10 : ℚ) ^ m) : isOne c.n v = true ↔ m = 0 := by
  rw [isOne_iff_val hc hv, hval, or_iff_left (ten_zpow_ne_nines (by have := c.n_ge; omega) m)]
  constructor
  · rintro ⟨-, h⟩
    exact zpow_right_injective₀ (by norm_num : (0 : ℚ) < 10) (by norm_num) (h.trans (zpow_zero 10).symm)
  · rintro rfl
    exact ⟨hf, zpow_zero 10⟩

/-- The exponent of a stored power of ten. -/
theorem digitPower_range {c : Config} (hc : c.Valid) {e : Int} {k : Nat} (hk : k < 8) {s : Bool}
    (hwf : (recordOf c [BitVec.ofNat 32 (10 ^ k)] e s).wf c) : c.minExp ≤ e + k ∧ e + k ≤ c.maxExp := by
  have hmod := hc.maxExp_mod
  have he : e % 8 = 0 := hwf.expMod
  rw [digitPower_of_limb c he hk] at hwf
  have hnz := digitPower_finiteNonzero (c := c) (d := 1) (by decide) (e + k) s
  obtain ⟨h1, h2⟩ := hwf.expBounds hnz.1 hnz.2
  have hexp : (digitPower c 1 (e + k) s).exp = e := show 8 * ((e + k) / 8) = e by omega
  rw [hexp] at h1 h2
  refine ⟨by omega, ?_⟩
  by_cases hat : e = c.maxExp
  · have hval := digitPower_abs_val (c := c) (d := 1) (by decide) (e + k) s
    have hnats := hwf.atMaxExp hnz.1 hnz.2 (hexp.trans hat)
    have hsingle := abs_val_of_singleLimb hwf (digitPower_singleLimb (by decide) (e + k) s)
    rw [limb_of_nats hnats, hexp, hval] at hsingle
    have heq : (10 : ℚ) ^ (e + k) = (10 : ℚ) ^ e := by simpa using hsingle
    have := zpow_right_injective₀ (by norm_num : (0 : ℚ) < 10) (by norm_num) heq
    omega
  · omega

/-! ### `RECIP` (R173 to R178) -/

section
variable {c : Config} (hc : c.Valid) {m : Int} (hlo : c.minExp ≤ m) (hhi : m ≤ c.maxExp)
include hc hlo hhi

theorem power_wf (s : Bool) : (digitPower c 1 m s).wf c :=
  digitPower_wf (by decide) m s hc hlo (by omega)

theorem inverse_power_wf (s : Bool) : (digitPower c 1 (-m) s).wf c :=
  digitPower_wf (by decide) (-m) s hc (by rw [minExp_eq]; omega) (by rw [minExp_eq] at hlo; omega)

/-- The reference seed of a power of ten is the inverse power. -/
theorem seedRecipReference_power : seedRecipReference c.n (digitPower c 1 m false) = digitPower c 1 (-m) false := by
  have hnz := digitPower_finiteNonzero (c := c) (d := 1) (by decide) m false
  have hinv := digitPower_finiteNonzero (c := c) (d := 1) (by decide) (-m) false
  have ht := seedRecipReference_truncates hc (power_wf hc hlo hhi false) hnz.1 hnz.2
  have hquot : 10 ^ 40 / topThree (digitPower c 1 m false) = 10 ^ (24 - (m % 8).toNat) := by
    rw [topThree_digitPower (by decide), one_mul, ← pow_add, Nat.pow_div (by omega) (by norm_num)]
    congr 1
    omega
  refine ht.eq_of_abs_val (w := digitPower c 1 (-m) false) hc (inverse_power_wf hc hlo hhi false) hinv ?_
  rw [digitPower_abs_val (by decide), hquot, Nat.cast_one, one_mul, Nat.cast_pow, Nat.cast_ofNat, ← zpow_natCast,
    ← zpow_add₀ (by norm_num)]
  congr 1
  show -m = _ + (-24 - 8 * (m / 8))
  omega

/-- A Newton round leaves the inverse power. -/
theorem newtonRound_power {p : Nat} (hp : 1 ≤ p ∧ p ≤ c.n) :
    newtonRound c (digitPower c 1 m false) (digitPower c 1 (-m) false) p = (digitPower c 1 (-m) false).withPrec p := by
  have hx := power_wf hc hlo hhi false
  have hy := inverse_power_wf hc hlo hhi false
  have hone : (digitPower c 1 0 false).wf c := oneValue_wf hc
  have hproduct : mulCore c (digitPower c 1 m false) (digitPower c 1 (-m) false) p = (digitPower c 1 0 false).withPrec p :=
    mulCore_digitPower (s := false) (t := false) hc hx hy hone (by decide) (by decide) (by decide)
      (by rw [add_neg_cancel]; norm_num) hp
  rw [newtonRound, hproduct, ← oneValue_eq, decSub_two_one hc, oneValue_eq]
  exact mulCore_digitPower (s := false) (t := false) hc hy hone hy (by decide) (by decide) (by decide)
    (by rw [add_zero]; norm_num) hp

theorem recipIterate_power (href : c.seedRecip = .reference) :
    ∃ q, recipIterate c (digitPower c 1 m false) = (digitPower c 1 (-m) false).withPrec q := by
  refine foldl_wf (P := fun z => ∃ q, z = (digitPower c 1 (-m) false).withPrec q) _ ?_ _ ⟨c.n, ?_⟩
  · rintro _ p hp ⟨q, rfl⟩
    exact ⟨p, by rw [newtonRound_withPrec_iterate, newtonRound_power hc hlo hhi (schedule_legal hp)]⟩
  · rw [seedRecip_reference href, seedRecipReference_power hc hlo hhi]
    rfl

theorem decRecip_power (href : c.seedRecip = .reference) {x : DValue} (hx : x.wf c) {s : Bool}
    (h : x.withPrec c.n = digitPower c 1 m s) : decRecip c x = digitPower c 1 (-m) s := by
  have hnz : FiniteNonzero x := by
    have hpower := digitPower_finiteNonzero (c := c) (d := 1) (by decide) m s
    rwa [← h] at hpower
  have hneg : x.neg = s := congrArg DValue.neg h
  have habs : x.absolute.withPrec c.n = digitPower c 1 m false := congrArg DValue.absolute h
  have hval : x.absolute.val = (10 : ℚ) ^ m := by
    have hv := digitPower_abs_val (c := c) (d := 1) (by decide) m s
    rw [← h, withPrec_val] at hv
    rw [absolute_val, hv, Nat.cast_one, one_mul]
  have hone := isOne_of_power_iff hc (absolute_wf hx) hnz.1 hval
  by_cases hm : m = 0
  · rw [decRecip_one hnz (hone.mpr hm), h, hm]
    rfl
  · obtain ⟨q, hq⟩ := recipIterate_power hc hlo hhi href
    have hy := digitPower_finiteNonzero (c := c) (d := 1) (by decide) (-m) false
    rw [decRecip_rounds hnz (Bool.eq_false_iff.mpr (mt hone.mp hm)), completeRecip_eq (recipIterate_wf_absolute hc hx hnz),
      habs, hq, withPrec_isZero, withPrec_cls, hy.1, hy.2, if_neg (by simp), hneg]
    rfl

end

/-! ### `SQRT` (R191 to R195) -/

theorem truncN_withPrec (n m : Nat) (k : Int) : (truncN n m k).withPrec n = truncN n m k := by
  unfold truncN
  split_ifs <;> rfl

section
variable {c : Config} (hc : c.Valid) {h : Int} (hlo : c.minExp ≤ 2 * h) (hhi : 2 * h ≤ c.maxExp)
include hc hlo hhi

/-- The root, and half of its inverse. -/
theorem root_wf : (digitPower c 1 h false).wf c ∧ (digitPower c 5 (-h - 1) false).wf c := by
  have hmax := hc.maxExp_ge
  rw [minExp_eq] at hlo
  exact ⟨digitPower_wf (by decide) h false hc (by rw [minExp_eq]; omega) (by omega),
    digitPower_wf (by decide) (-h - 1) false hc (by rw [minExp_eq]; omega) (by omega)⟩

/-- The reference seeds of an even power of ten are its root and half the inverse of the root. -/
theorem seedSqrtReference_power :
    seedSqrtReference c.n (digitPower c 1 (2 * h) false) = (digitPower c 1 h false, digitPower c 5 (-h - 1) false) := by
  have hx := power_wf hc hlo hhi false
  have hnz := digitPower_finiteNonzero (c := c) (d := 1) (by decide) (2 * h) false
  obtain ⟨hy, hv⟩ := root_wf hc hlo hhi
  obtain ⟨hseedY, hseedV⟩ := seedSqrtReference_wf hc hx hnz.1 hnz.2
  obtain ⟨hvalY, hvalV⟩ := seedSqrtReference_val hx hnz
  obtain ⟨⟨hrootNe, -⟩, hinvNe, -⟩ := seedRoot_digits hx hnz
  have hn := c.n_ge
  have hfinY : (seedSqrtReference c.n (digitPower c 1 (2 * h) false)).1.cls = .fin :=
    (truncN_finiteNonzero (by omega) hrootNe _).1
  have hfinV : (seedSqrtReference c.n (digitPower c 1 (2 * h) false)).2.cls = .fin :=
    (truncN_finiteNonzero (by omega) hinvNe _).1
  obtain ⟨j, hj⟩ : ∃ j, ((2 * h) % 8).toNat = 2 * j := ⟨((2 * h) % 8).toNat / 2, by omega⟩
  have hroot : seedRoot (digitPower c 1 (2 * h) false) = 10 ^ (20 + j) := by
    rw [seedRoot, isqrt_eq_sqrt, topThree_digitPower (by decide), hj, one_mul, ← pow_add, ← pow_add,
      show 2 * j + 16 + 24 = (20 + j) * 2 by ring, pow_mul, Nat.sqrt_eq']
  have hinverse : 10 ^ 48 / (2 * 10 ^ (20 + j)) = 5 * 10 ^ (27 - j) := by
    refine Nat.div_eq_of_eq_mul_left (by positivity) ?_
    calc 10 ^ 48 = 10 * 10 ^ (27 - j + (20 + j)) := by rw [← pow_succ']; congr 1; omega
      _ = 5 * 10 ^ (27 - j) * (2 * 10 ^ (20 + j)) := by rw [pow_add]; ring
  have hexp : (digitPower c 1 (2 * h) false).exp = 8 * (2 * h / 8) := rfl
  rw [hroot, hexp] at hvalY
  rw [hroot, hexp, hinverse] at hvalV
  refine Prod.ext ?_ ?_
  · refine (truncN_withPrec c.n _ _).symm.trans (withPrec_eq_of_val_eq hc hseedY hy hfinY rfl ?_)
    rw [hvalY, val_of_not_neg rfl, digitPower_abs_val (by decide), Nat.cast_one, one_mul, Nat.cast_pow, Nat.cast_ofNat,
      ← zpow_natCast, ← zpow_add₀ (by norm_num)]
    congr 1
    omega
  · refine (truncN_withPrec c.n _ _).symm.trans (withPrec_eq_of_val_eq hc hseedV hv hfinV rfl ?_)
    rw [hvalV, val_of_not_neg rfl, digitPower_abs_val (by decide), Nat.cast_mul, mul_assoc, Nat.cast_pow,
      Nat.cast_ofNat (n := 10), ← zpow_natCast, ← zpow_add₀ (by norm_num)]
    congr 2
    omega

theorem sqrtRoundV_power {p : Nat} (hp : 1 ≤ p ∧ p ≤ c.n) :
    sqrtRoundV c (digitPower c 1 h false) (digitPower c 5 (-h - 1) false) p = digitPower c 5 (-h - 1) false := by
  obtain ⟨hy, hv⟩ := root_wf hc hlo hhi
  have hmax := hc.maxExp_ge
  have hmin := minExp_eq c
  have hhalf (s : Bool) : (digitPower c 5 (-1) s).wf c := digitPower_wf (by decide) (-1) s hc (by omega) (by omega)
  have hone (s : Bool) : (digitPower c 1 0 s).wf c := digitPower_wf (by decide) 0 s hc (by omega) (by omega)
  have htwo : (digitPower c 2 0 false).wf c := twoValue_wf hc
  have hproduct : mulCore c (digitPower c 1 h false) (digitPower c 5 (-h - 1) false) p =
      (digitPower c 5 (-1) false).withPrec p :=
    mulCore_digitPower (s := false) (t := false) hc hy hv (hhalf false) (by decide) (by decide) (by decide)
      (by rw [show h + (-h - 1) = -1 by ring]; norm_num) hp
  have hdouble : mulCore c (digitPower c 5 (-1) true) (digitPower c 2 0 false) p = (digitPower c 1 0 true).withPrec p :=
    mulCore_digitPower (s := true) (t := false) hc (hhalf true) htwo (hone true) (by decide) (by decide) (by decide)
      (by norm_num) hp
  rw [sqrtRoundV, hproduct, withPrec_negate, digitPower_negate (digitPower_finiteNonzero (by decide) _ _),
    mulCore_withPrec_left, Bool.not_false, twoValue_eq, hdouble, decAdd_withPrec_left, oneValue_eq,
    digitPower_cancel hc (hone false) (hone true), mulCore_zero c rfl rfl (.inl (by simp)), decAdd_zero_withPrec hc hv rfl hp]
  rfl

theorem sqrtRoundY_power {p : Nat} (hp : 1 ≤ p ∧ p ≤ c.n) :
    sqrtRoundY c (digitPower c 1 (2 * h) false) (digitPower c 1 h false) (digitPower c 5 (-h - 1) false) p =
      digitPower c 1 h false := by
  have hx := power_wf hc hlo hhi
  obtain ⟨hy, -⟩ := root_wf hc hlo hhi
  have hsquare : mulCore c (digitPower c 1 h false) (digitPower c 1 h false) p = (digitPower c 1 (2 * h) false).withPrec p :=
    mulCore_digitPower (s := false) (t := false) hc hy hy (hx false) (by decide) (by decide) (by decide)
      (by rw [two_mul]; norm_num) hp
  rw [sqrtRoundY, hsquare, withPrec_negate, digitPower_negate (digitPower_finiteNonzero (by decide) _ _),
    decAdd_withPrec_left, Bool.not_false, digitPower_cancel hc (hx false) (hx true),
    mulCore_zero c rfl rfl (.inl (by simp)), decAdd_zero_withPrec hc hy rfl hp]
  rfl

/-- A coupled round leaves the root and half of its inverse. -/
theorem sqrtRound_power {p : Nat} (hp : 1 ≤ p ∧ p ≤ c.n) :
    sqrtRound c (digitPower c 1 (2 * h) false) (digitPower c 1 h false, digitPower c 5 (-h - 1) false) p =
      (digitPower c 1 h false, digitPower c 5 (-h - 1) false) := by
  rw [sqrtRound]
  dsimp only
  rw [sqrtRoundV_power hc hlo hhi hp, sqrtRoundY_power hc hlo hhi hp]

theorem decSqrt_power (href : c.seedSqrt = .reference) {x : DValue} (hx : x.wf c)
    (heq : x.withPrec c.n = digitPower c 1 (2 * h) false) : decSqrt c x = digitPower c 1 h false := by
  have hnz : FiniteNonzero x := by
    have hpower := digitPower_finiteNonzero (c := c) (d := 1) (by decide) (2 * h) false
    rwa [← heq] at hpower
  have hneg : x.neg = false := congrArg DValue.neg heq
  have hval : x.val = (10 : ℚ) ^ (2 * h) := by
    have hv := digitPower_abs_val (c := c) (d := 1) (by decide) (2 * h) false
    rw [← heq, withPrec_val, ← val_of_not_neg hneg, Nat.cast_one, one_mul] at hv
    exact hv
  have hone := isOne_of_power_iff hc hx hnz.1 hval
  by_cases hm : 2 * h = 0
  · have hh : h = 0 := by omega
    rw [decSqrt_keep (by rw [hnz.1, hneg]; simp) (.inr (hone.mpr hm)), heq, hh]
    rfl
  · have hiterate : (schedule c.n).foldl (sqrtRound c (x.withPrec c.n)) (seedSqrt c (x.withPrec c.n)) =
        (digitPower c 1 h false, digitPower c 5 (-h - 1) false) := by
      rw [heq]
      refine foldl_wf (P := fun z => z = (digitPower c 1 h false, digitPower c 5 (-h - 1) false)) _ ?_ _ ?_
      · rintro _ p hp rfl
        exact sqrtRound_power hc hlo hhi (schedule_legal hp)
      · rw [seedSqrt_reference href, seedSqrtReference_power hc hlo hhi]
    rw [decSqrt_rounds hnz hneg (Bool.eq_false_iff.mpr (mt hone.mp hm)), hiterate]
    rfl

end

namespace Machine

/-- Settles O46. -/
theorem recipOfPowersOfTenIsExact : Obligations.RecipOfPowersOfTenIsExact := by
  intro s d src e k neg hinv href hk hrecord
  have hx := hinv.values src
  have hwf := withPrec_full_wf hinv.valid hx
  rw [hrecord] at hwf
  have he : e % 8 = 0 := hwf.expMod
  obtain ⟨hlo, hhi⟩ := digitPower_range hinv.valid hk hwf
  rw [digitPower_of_limb _ he hk] at hrecord
  refine ⟨_, exec_recip d src s, onlyD_writeD _ _ _, ?_⟩
  rw [readD_writeD_same, decRecip_power hinv.valid hlo hhi href hx hrecord]
  by_cases hz : k = 0
  · have hunit : recordOf s.cfg [1] (-e) neg = digitPower s.cfg 1 (-e + (0 : Nat)) neg :=
      digitPower_of_limb s.cfg (k := 0) (by omega) (by norm_num) neg
    rw [if_pos hz, hunit]
    congr 1
    omega
  · rw [if_neg hz, digitPower_of_limb s.cfg (by omega) (by omega)]
    congr 1
    omega

/-- Settles O51. -/
theorem sqrtOfEvenPowersOfTenIsExact : Obligations.SqrtOfEvenPowersOfTenIsExact := by
  intro s d src e k hinv href hk heven hrecord half
  have hx := hinv.values src
  have hwf := withPrec_full_wf hinv.valid hx
  rw [hrecord] at hwf
  have he : e % 8 = 0 := hwf.expMod
  obtain ⟨hlo, hhi⟩ := digitPower_range hinv.valid hk hwf
  have hhalf : e + k = 2 * half := by omega
  rw [digitPower_of_limb _ he hk, hhalf] at hrecord
  rw [hhalf] at hlo hhi
  have hneg : (s.readD src).neg = false := congrArg DValue.neg hrecord
  have hcls : (s.readD src).cls = .fin := congrArg DValue.cls hrecord
  refine ⟨_, exec_sqrt d (by rw [hneg, hcls]; simp), onlyD_writeD _ _ _, ?_⟩
  rw [readD_writeD_same, decSqrt_power hinv.valid hlo hhi href hx hrecord, digitPower_of_limb s.cfg (by omega) (by omega)]
  congr 1
  omega

end Machine

end Sys2Proof
